-- ==== Sys2Proof/Word.lean ====
section
/-! DEFINITION. Bytes, and the names of ramps and lines that commands carry. -/

namespace Sys2Proof

/-- One byte on the host link. -/
abbrev Byte := BitVec 8

/-- The two ramps (00_scope, Identifiers). -/
inductive Ramp where
  | lower
  | upper
  deriving DecidableEq, Repr

/-- The two trigger lines of R81. -/
inductive TriggerLine where
  | line1
  | line2
  deriving DecidableEq, Repr

/-- The two limit lines of a panel (R129). -/
inductive LimitLine where
  | up
  | down
  deriving DecidableEq, Repr

end Sys2Proof
end

