-- ==== Sys2Proof/Syntax.lean ====
section
/-! DEFINITION. The commands of the block: one constructor for each row of spec/opcode_table.json.

A request command (`lt` is the link tag of its frame, R186) carries its body fields at the widths of R192,
unexamined, so that the values a rule refuses can be sent too. An event command carries the line, ramp, lane,
panel, tag or bytes concerned. -/

namespace Sys2Proof

inductive Instr where
  -- Link port requests (11_the_host_link)
  | status (lt clear : Byte)
  | reset (lt : Byte)
  | linkSilence (lt limit : Byte)
  -- Vehicle requests. `rest` is what follows the twelve fixed bytes of an ARRIVE body.
  | arrive (lt : Byte) (tag : BitVec 32) (cls len height : Byte) (mass : BitVec 16)
      (axle call flags : Byte) (rest : List Byte)
  | recallVehicle (lt : Byte) (tag : BitVec 32)
  | vehicleGet (lt : Byte) (tag : BitVec 32)
  | confirm (lt : Byte) (tag : BitVec 32) (lane : Byte)
  | depart (lt : Byte) (tag : BitVec 32)
  -- Deck requests
  | laneGet (lt lane start : Byte)
  | sectionGet (lt sect : Byte)
  | thresholdSet (lt target t : Byte)
  | laneShut (lt lane : Byte)
  | laneOpen (lt lane : Byte)
  -- Ramp requests
  | rampStart (lt ramp : Byte)
  | rampStop (lt ramp : Byte)
  | rampDirection (lt ramp dir : Byte)
  | runPair (lt ramp light heavy : Byte) (stall : Option Byte)
  | triggerMode (lt ramp mode source : Byte)
  | trigger (lt ramp : Byte)
  | rampBand (lt ramp band : Byte)
  -- Sensor requests
  | sensorWatch (lt scope ident watch notice : Byte)
  | sensorLevel (lt deck level : Byte)
  | sensorLatches (lt decks : Byte)
  | sensorClear (lt lane : Byte)
  -- Hoist requests
  | hoistMove (lt panel target : Byte)
  | hoistStop (lt panel : Byte)
  -- Voyage requests
  | voyageSet (lt last : Byte)
  | callOpen (lt : Byte)
  | phaseLoad (lt : Byte)
  | callClose (lt overcarry : Byte)
  | dischargeLane (lt lane : Byte)
  -- Signal requests
  | signalSet (lt scope ident mode : Byte)
  | closureSet (lt carried : Byte) (maskA maskB : BitVec 24) (select enable glob : Byte)
  -- Profile requests
  | draftPut (lt type index : Byte) (fields : List Byte)
  | draftClear (lt : Byte)
  | draftGet (lt type index : Byte)
  | profileCommit (lt count : Byte) (sum : BitVec 16)
  | profileLock (lt : Byte)
  | profileGet (lt type index : Byte)
  -- A frame whose kind is none of the request kinds
  | unknownKind (lt kind : Byte) (body : List Byte)
  -- Link events. `bytes` arrive one after another without a gap.
  | frameReceive (bytes : List Byte)
  | interByteGap
  | transmitFrameEnd
  -- Resets
  | powerOnReset
  | lineResetAssert
  | lineResetRelease
  | requestReset
  | stowMarkBroken
  -- Ramp events
  | stallTimerExpiry (ramp : Ramp)
  | triggerLinePress (line : TriggerLine)
  | linkSilenceExpiry
  -- Loop events. `high` is the new level of the loop's line.
  | crestLoopEdge (ramp : Ramp) (high : Bool)
  | laneLoopEdge (lane : Nat) (high : Bool)
  | entryCreditWindowExpiry (lane : Nat)
  | crestCreditWindowExpiry (ramp : Ramp)
  | exitCreditWindowExpiry (lane : Nat)
  | transitExpiry (tag : Nat)
  -- Panel events
  | limitLineEvent (panel : Nat) (line : LimitLine) (active : Bool)
  | moveTimeout (panel : Nat)
  -- Profile store events. `type`, `index`: key of the record whose write failed.
  | profileWriteComplete
  | profileWriteFailure (type index : Byte)
  -- Later rows of the table
  | badStopBitByte
  | mainSupplyLoss
  | triggerLineRelease (line : TriggerLine)
  deriving DecidableEq, Repr

end Sys2Proof
end

