-- ==== Sys2Proof/Decode.lean ====
section
/-! DEFINITION. The commands that a word spells by the table's bits: no row of spec/opcode_table.json gives
bits ("fields" is empty in every row), so no word spells a command. The block's own coding, frames with a CRC
(R184, R192), is in Sys2Proof/Machine/Operands.lean and Sys2Proof/Machine/LinkPort.lean. -/

namespace Sys2Proof

/-- No row of the table gives bits. -/
def decodeTableWord (_nbits _w : Nat) : Option Instr := none

end Sys2Proof
end

