-- ==== Sys2Proof/Config.lean ====
section
/-! DEFINITION. Capacities of the module, the values a reset or a commit sets, and the free value. -/

namespace Sys2Proof.Config

/-- Vehicle records the table holds at most (R1, R8). -/
def vehicleCapacity : Nat := 2048
/-- Standby list (R60, R61). -/
def standbyCapacity : Nat := 128
/-- One queue of a ramp (R56, R70). -/
def queueCapacity : Nat := 48
/-- Claim list of a lane (R24, R49). -/
def claimCapacity : Nat := 16
/-- Stow list and claim list of a lane together (R42, R49). -/
def laneCapacity : Nat := 48
/-- Entry, exit and crest credits of one holder (R101, R157). -/
def creditCapacity : Nat := 4
/-- Highest defect score (R118). -/
def scoreMax : Nat := 15
/-- Receive buffer (R185). -/
def rxCapacity : Nat := 4
/-- Notice queue (R188). -/
def noticeCapacity : Nat := 64
/-- Draft records (R175). -/
def draftCapacity : Nat := 160
/-- Near-limit threshold of a deck after a reset or a commit (R39). -/
def deckThreshold : Nat := 230
/-- Near-limit threshold of the list after a reset or a commit (R39). -/
def listThreshold : Nat := 217
/-- Stall limit after a reset, in seconds (R67). -/
def stallLimit : Nat := 45
/-- Silence limit after a reset, in seconds (R89, R191). -/
def silenceLimit : Nat := 15
/-- Light and heavy run lengths after a reset and after a reverted pair (R67, R75). -/
def defaultLight : Nat := 4
def defaultHeavy : Nat := 2
/-- Sensitivity level of a deck after a reset or a commit (R119). -/
def defaultLevel : Nat := 1
/-- Lane loop inputs and panels of the module (11.7). -/
def laneInputs : Nat := 96
def panelInputs : Nat := 4

/-- FREE VALUE (log 12, DESIGN CHOICE). A byte of a reply whose coding R192 does not state: the reduced class
of an uncovered lane (LANE_GET), the panel state of a section without a panel (SECTION_GET). No body: nothing
can prove a value of it. Applied to `State.freeCtr`, which each use advances. -/
opaque unstatedByte : Nat → Byte

end Sys2Proof.Config
end

