-- ==== Sys2Proof/Machine/State.lean ====
section
/-! DEFINITION. The state of the module: every register, list, counter, mode and line the spec names, as plain
data, the reasons of a stop, and the state right after reset. -/

namespace Sys2Proof.Machine

/-! ### Names -/

/-- The kind of a vehicle or of a run (R1, R78). -/
inductive Kind where
  | light
  | heavy
  deriving DecidableEq, Repr

/-- Vehicle class (R1). -/
inductive VClass where
  | car
  | van
  | lorry
  | trailer
  | coach
  | plant
  deriving DecidableEq, Repr

/-- A timer of the module. `left` is its remaining time in whole seconds. Only a transit timer is ever
`expired` (R91). -/
inductive Timer where
  | stopped
  | running (left : Nat)
  | suspended (left : Nat)
  | expired
  deriving DecidableEq, Repr

/-- Where a vehicle stands in the stowage process: state, ramp sub-state, lane and offset of R1 and R2. -/
inductive Stage where
  | standby
  | assigned (lane : Nat)
  | onRamp (lane : Nat)
  | pastCrest (lane : Nat)
  | placed (lane offset : Nat)
  deriving DecidableEq, Repr

/-- A vehicle record (R1), with its transit timer (R91, R106). -/
structure Vehicle where
  tag : Nat
  cls : VClass
  length : Nat
  height : Nat
  massCode : Nat
  axle : Nat
  call : Nat
  reefer : Bool
  dg : Option Nat
  reqLane : Option Nat
  stage : Stage
  overdue : Bool
  transit : Timer
  deriving DecidableEq, Repr

/-- Ramp direction (R69). -/
inductive Direction where
  | inbound
  | outbound
  deriving DecidableEq, Repr

/-- Sequencer state (R74 to R84). -/
inductive SeqState where
  | stopped
  | idle
  | lightRun
  | waitTrigger
  | heavyRun
  deriving DecidableEq, Repr

inductive TriggerMode where
  | auto
  | manual
  deriving DecidableEq, Repr

inductive TriggerSource where
  | line1
  | line2
  | requestOnly
  deriving DecidableEq, Repr

/-- A run pair: L light releases, then H heavy releases (R76). -/
structure RunPair where
  light : Nat
  heavy : Nat
  deriving DecidableEq, Repr

/-- One ramp: its sequencer (R67), its crest credits (R91) and its crest loop reading (R111). -/
structure RampState where
  direction : Direction
  light : List Nat
  heavy : List Nat
  onRamp : List Nat
  mass : Nat
  band : Nat
  seq : SeqState
  active : RunPair
  waiting : RunPair
  mode : TriggerMode
  source : TriggerSource
  stallLimit : Nat
  runCount : Nat
  stall : Timer
  go : Bool
  crestCredits : Nat
  crestWindow : Timer
  crestOccupied : Bool
  deriving DecidableEq, Repr

/-- Deck kind (R20). -/
inductive DeckKind where
  | main
  | hoist
  | upper
  | weather
  deriving DecidableEq, Repr

/-- A deck (R20) with its near-limit threshold (R35), sensitivity level (R119), notice enable (R115) and
latch (R116). -/
structure Deck where
  kind : DeckKind
  occupiedHigh : Bool
  threshold : Nat
  level : Nat
  noticeOn : Bool
  latch : Bool
  deriving DecidableEq, Repr

/-- Near-limit arm (R35, R37). -/
inductive Arm where
  | armed
  | spent
  deriving DecidableEq, Repr

/-- Sensor mode of a section (R123). -/
inductive SensorMode where
  | sensed
  | confirmOnly
  | sensorClosed
  deriving DecidableEq, Repr

/-- A section: R20, R33, R35, R123. -/
structure Sect where
  deck : Nat
  massLimit : Nat
  projected : Nat
  placed : Nat
  arm : Arm
  mode : SensorMode
  deriving DecidableEq, Repr

/-- Lane state (R29). -/
inductive LaneState where
  | opened
  | shut
  | unloading
  deriving DecidableEq, Repr

/-- Signal mode (R163). -/
inductive SignalMode where
  | auto
  | forceRed
  | dark
  deriving DecidableEq, Repr

/-- Aspect of a head (R162). -/
inductive Aspect where
  | dark
  | red
  | amber
  | green
  | greenFlash
  deriving DecidableEq, Repr

/-- Placement mode (R122). -/
inductive PlacementMode where
  | sensed
  | confirm
  deriving DecidableEq, Repr

/-- A lane's covering panel and its reduced class (R21). -/
structure Cover where
  panel : Nat
  reduced : Nat
  deriving DecidableEq, Repr

/-- A lane: static fields (R21), lists (R23, R24, R92), state (R29), overdue count (R32), figures (R25), credits
(R91, R157), loop (R111, R118, R120, R122, R115) and signal head (R163, R164). `clearing` marks a borrowed SUSPECT
loop that SENSOR_CLEAR has cleared: its state HEALTHY applies at the loop's return (R121, R127). -/
structure Lane where
  sect : Nat
  athwart : Nat
  offset : Int
  usable : Nat
  gap : Nat
  baseClass : Nat
  axleLimit : Nat
  sockets : Nat
  cover : Option Cover
  stow : List Nat
  claims : List Nat
  state : LaneState
  overdue : Nat
  used : Nat
  reefers : Nat
  mass : Nat
  placedMass : Nat
  pastCrest : List Nat
  entryCredits : Nat
  entryWindow : Timer
  exitCredits : Nat
  exitWindow : Timer
  occupied : Bool
  score : Nat
  suspect : Bool
  clearing : Bool
  mode : PlacementMode
  watch : Bool
  signal : SignalMode
  aspect : Aspect
  deriving DecidableEq, Repr

/-- Panel state (R130). -/
inductive PanelPos where
  | stowed
  | working
  | raising
  | lowering
  | unknown
  | fault
  deriving DecidableEq, Repr

/-- Reason of a panel fault (R130, R134). -/
inductive FaultReason where
  | none
  | timeout
  | obstruction
  | doubleLimit
  | clearance
  | loaded
  deriving DecidableEq, Repr

/-- The last fault of a panel, with the lane or tag concerned (R130). -/
structure LastFault where
  reason : FaultReason
  lane : Option Nat
  tag : Option Nat
  deriving DecidableEq, Repr

/-- A panel (R129, R130). -/
structure Panel where
  carried : Nat
  moveLimit : Nat
  state : PanelPos
  timer : Timer
  fault : LastFault
  raise : Bool
  lower : Bool
  deriving DecidableEq, Repr

/-- Voyage state, call c and last call N (R144). -/
inductive Voyage where
  | noVoyage
  | atSea (c n : Nat)
  | discharge (c n : Nat)
  | load (c n : Nat)
  deriving DecidableEq, Repr

/-- Closure settings (R167). A mask is its sections in rising order. -/
structure Closure where
  maskA : List Nat
  maskB : List Nat
  selectB : Bool
  enable : Bool
  glob : Bool
  deriving DecidableEq, Repr

/-- Record types (R174). -/
inductive RecType where
  | vessel
  | deck
  | sect
  | lane
  | panel
  | ramp
  | dg
  | sensor
  deriving DecidableEq, Repr

/-- A profile record as it stands on the link: type, index and field bytes (R174). -/
structure ProfRec where
  type : RecType
  index : Nat
  fields : List Byte
  deriving DecidableEq, Repr

/-- Commit mark (R173). -/
inductive CommitMark where
  | active
  | committing
  | none
  deriving DecidableEq, Repr

/-- Profile state (R173). `committing inForce`: whether a profile is in force during the commit (R179). -/
inductive ProfileState where
  | none
  | active
  | committing (inForce : Bool)
  deriving DecidableEq, Repr

/-- The nonvolatile store (R173); records in type and index order. -/
structure Store where
  records : List ProfRec
  generation : Nat
  locked : Bool
  mark : CommitMark
  deriving DecidableEq, Repr

/-- One band of a RAMP record. -/
structure Band where
  maxVehicles : Nat
  massLimit : Nat
  deriving DecidableEq, Repr

/-- A RAMP record: transit limit and bands 0 to 2. -/
structure RampRec where
  transit : Nat
  bands : List Band
  deriving DecidableEq, Repr

/-- A DG record: levels with groups 1 to 6, and OPEN_DECK_ONLY (R51). -/
structure DgRec where
  levels : List Nat
  openDeckOnly : Bool
  deriving DecidableEq, Repr

/-- The SENSOR record. -/
structure SensorRec where
  thresholds : List Nat
  phantom : Nat
  silent : Nat
  window : Nat
  deriving DecidableEq, Repr

/-- The figures of the profile in force that the blocks consult (R44, R67, R91, R118). -/
structure Limits where
  listLimit : Nat
  lower : RampRec
  upper : RampRec
  dg : List DgRec
  sensor : SensorRec
  deriving DecidableEq, Repr

/-- How a vehicle was placed (R99). -/
inductive PlaceMeans where
  | entry
  | confirm
  deriving DecidableEq, Repr

/-- How a panel reached a height (R139). -/
inductive DoneMeans where
  | limit
  | regain
  | stop
  | request
  deriving DecidableEq, Repr

/-- How a vehicle left (R154). -/
inductive DepartMeans where
  | exit
  | depart
  deriving DecidableEq, Repr

/-- Notices (11.6, Notice bodies). -/
inductive Notice where
  | released (tag lane : Nat) (ramp : Ramp)
  | placed (tag lane offset : Nat) (means : PlaceMeans)
  | overdue (tag lane : Nat) (ramp : Ramp) (pastCrest : Bool)
  | crestUnexpected (ramp : Ramp)
  | runReady (ramp : Ramp) (heavyCount : Nat)
  | runReverted (ramp : Ramp) (light heavy : Nat)
  | runStalled (ramp : Ramp) (run : Kind) (head count : Nat)
  | rampHalted (lower upper : Bool)
  | standbyAssigned (tag lane : Nat) (ramp : Ramp)
  | shutOut (tag call : Nat)
  | nearLimit (target : Option Nat) (value : Int) (t : Nat)
  | listOver (moment : Int) (limit : Nat)
  | sensorEvent (lane : Nat) (occupy : Bool) (state : LaneState) (mode : PlacementMode)
  | sensorSuspect (lane score threshold : Nat)
  | sectionMode (sect : Nat) (mode : SensorMode) (suspects : Nat)
  | hoistDone (panel : Nat) (state : PanelPos) (means : DoneMeans)
  | hoistFault (panel : Nat) (reason : FaultReason) (lane tag : Option Nat)
  | hoistPositionLost (panel : Nat) (was : PanelPos)
  | departed (tag lane call : Nat) (means : DepartMeans)
  | laneDischarged (lane left : Nat) (last : Option Nat)
  | profileDone (generation written : Nat)
  | profileFailed (type index : Byte)
  deriving DecidableEq, Repr

/-- Result codes (11.6). `rejLength` and `rejCheck` are the reasons of a FRAME_REJECTED frame. -/
inductive Result where
  | ok
  | accepted
  | assigned
  | standby
  | alreadyPlaced
  | phase
  | range
  | call
  | duplicate
  | full
  | unstowable
  | standbyFull
  | order
  | notReleased
  | lane
  | sequence
  | state
  | direction
  | notReady
  | busy
  | notEmpty
  | clearance
  | traffic
  | claims
  | nothingDue
  | lastCall
  | inFlight
  | unloading
  | ramps
  | remaining
  | mismatch
  | check
  | locked
  | noProfile
  | unknownKind
  | notFound
  | rejLength
  deriving DecidableEq, Repr

/-- A reply: its result and the bytes that follow the result code and the link flags (R186). -/
structure Reply where
  result : Result
  fields : List Byte
  deriving DecidableEq, Repr

/-- A valid frame in the receive buffer (R185). -/
structure Frame where
  kind : Byte
  tag : Byte
  body : List Byte
  deriving DecidableEq, Repr

/-- What a frame of the transmitter is (R188). -/
inductive TxClass where
  | reply
  | rejection
  | notice
  deriving DecidableEq, Repr

/-- A frame of the transmitter (R188). -/
structure TxFrame where
  cls : TxClass
  frame : Frame
  deriving DecidableEq, Repr

/-- The receiver (R184). In DATA: the length byte and the bytes stored so far, in order. -/
inductive Rx where
  | hunt
  | length
  | data (len : Nat) (got : List Byte)
  deriving DecidableEq, Repr

/-- The link port (R184 to R191, R89). `quiet`: no request has come since the reset, so no frame starts (R191). -/
structure Link where
  rx : Rx
  rxBuf : List Frame
  inProgress : Option TxFrame
  waitingReply : Option Frame
  waitingRejection : Option Frame
  rejectionFirst : Bool
  notices : List Notice
  overrun : Bool
  noticesLost : Bool
  resetDue : Bool
  quiet : Bool
  silenceLimit : Nat
  silence : Timer
  deriving DecidableEq, Repr

/-- The reset-cause set (R190). -/
structure Causes where
  power : Bool
  line : Bool
  request : Bool
  deriving DecidableEq, Repr

/-- Whether the module runs, is held in reset (R190), or is without supply (R16). -/
inductive Power where
  | up
  | held
  | down
  deriving DecidableEq, Repr

/-- The levels of the input lines (11.7). -/
structure Pins where
  loops : Vector Bool 96
  crestLower : Bool
  crestUpper : Bool
  line1 : Bool
  line2 : Bool
  upLimit : Vector Bool 4
  downLimit : Vector Bool 4
  resetIn : Bool
  deriving DecidableEq, Repr

/-- Marks of the event under way, the model's own: a sweep trigger met (R64), and a re-arm of the list's arm
(R37). -/
structure EventMarks where
  sweepDue : Bool
  listRearmed : Bool
  deriving DecidableEq, Repr

/-! ### The state -/

structure State where
  power : Power
  pins : Pins
  link : Link
  causes : Causes
  stowIntact : Bool
  stowGen : Nat
  stowKept : Bool
  vehicles : List Vehicle
  standby : List Nat
  voyage : Voyage
  store : Store
  profile : ProfileState
  draft : List ProfRec
  limits : Limits
  decks : List Deck
  sections : List Sect
  lanes : List Lane
  panels : List Panel
  listMoment : Int
  listThreshold : Nat
  listArm : Arm
  listOver : Bool
  lower : RampState
  upper : RampState
  closure : Closure
  ev : EventMarks
  freeCtr : Nat
  pending : List Instr
  deriving DecidableEq, Repr

/-! ### Stops -/

/-- Faults. None: no rule of the spec stops the module (00_scope, "refused": a request that may not be carried
out is answered with a result code). Safe. -/
inductive Fault where
  deriving DecidableEq, Repr

/-- Refusals. -/
inductive Refusal where
  /-- Raised by an arm of `exec` whose command has no meaning yet. Safe. No arm raises it now. -/
  | notModelled (mnemonic : String)
  deriving DecidableEq, Repr

/-! ### Reset values -/

/-- A ramp after every reset, with a cleared stow memory (R67, R91). -/
def RampState.cleared : RampState :=
  { direction := .inbound, light := [], heavy := [], onRamp := [], mass := 0, band := 0, seq := .stopped
    active := ⟨Config.defaultLight, Config.defaultHeavy⟩, waiting := ⟨Config.defaultLight, Config.defaultHeavy⟩
    mode := .auto, source := .requestOnly, stallLimit := Config.stallLimit, runCount := 0, stall := .stopped
    go := false, crestCredits := 0, crestWindow := .stopped, crestOccupied := false }

/-- The link port after every reset (R191). -/
def Link.cleared : Link :=
  { rx := .hunt, rxBuf := [], inProgress := none, waitingReply := none, waitingRejection := none
    rejectionFirst := false, notices := [], overrun := false, noticesLost := false, resetDue := false, quiet := true
    silenceLimit := Config.silenceLimit, silence := .running Config.silenceLimit }

/-- Closure settings after every reset and commit (R167). -/
def Closure.cleared : Closure :=
  { maskA := [], maskB := [], selectB := false, enable := false, glob := false }

/-- No mark set: the state between events. -/
def EventMarks.none : EventMarks := { sweepDue := false, listRearmed := false }

/-- With no profile in force nothing reads the limits (log 11, DESIGN CHOICE zero). -/
def Limits.none : Limits :=
  { listLimit := 0, lower := ⟨0, []⟩, upper := ⟨0, []⟩, dg := []
    sensor := { thresholds := [], phantom := 0, silent := 0, window := 0 } }

/-- The power-on reset of a module whose store was never written (R173, R17, R190, R191). Line levels: log 10. -/
def State.reset : State :=
  { power := .up
    pins := { loops := Vector.replicate 96 false, crestLower := false, crestUpper := false
              line1 := false, line2 := false
              upLimit := Vector.replicate 4 false, downLimit := Vector.replicate 4 false, resetIn := false }
    link := Link.cleared
    causes := { power := true, line := false, request := false }
    stowIntact := true, stowGen := 0, stowKept := false
    vehicles := [], standby := [], voyage := .noVoyage
    store := { records := [], generation := 0, locked := false, mark := .none }
    profile := .none, draft := [], limits := Limits.none
    decks := [], sections := [], lanes := [], panels := []
    listMoment := 0, listThreshold := Config.listThreshold, listArm := .armed, listOver := false
    lower := RampState.cleared, upper := RampState.cleared
    closure := Closure.cleared
    ev := EventMarks.none, freeCtr := 0, pending := [] }

end Sys2Proof.Machine
end

