-- ==== Sys2Proof/Machine/Ops.lean ====
section
/-! DEFINITION. Named operations over the state: reading and changing one vehicle, lane, section, deck, panel or
ramp; the tally code; timers; the notice queue. -/

namespace Sys2Proof.Machine

/-! ### The tally code -/

/-- Decoded mass D of a tally code (R3). -/
def decodeMass (code : Nat) : Nat :=
  if code ≤ 255 then 8 * code
  else if code ≤ 639 then 2048 + 16 * (code - 256)
  else if code ≤ 1407 then 8192 + 32 * (code - 640)
  else 32768 + 64 * (code - 1408)

/-- `x ÷ d`, rounded up. -/
def ceilDiv (x d : Nat) : Nat := (x + (d - 1)) / d

/-- Tally code E of a mass in kg (R4). Subtraction on Nat stops at 0, which is R4's "a negative result
counting as 0". -/
def encodeMass (m : Nat) : Nat :=
  if m ≤ 2040 then ceilDiv m 8
  else if m ≤ 8176 then 256 + ceilDiv (m - 2048) 16
  else if m ≤ 32736 then 640 + ceilDiv (m - 8192) 32
  else 1408 + ceilDiv (m - 32768) 64

/-! ### Vehicles -/

/-- CAR and VAN are LIGHT, the other classes HEAVY (R1). -/
def VClass.kind : VClass → Kind
  | .car | .van => .light
  | .lorry | .trailer | .coach | .plant => .heavy

/-- Decoded mass of a vehicle (R3). -/
def Vehicle.mass (v : Vehicle) : Nat := decodeMass v.massCode

/-- The lane a vehicle is bound to; absent in STANDBY (R1). -/
def Stage.lane? : Stage → Option Nat
  | .standby => none
  | .assigned l | .onRamp l | .pastCrest l | .placed l _ => some l

/-- RELEASED, in either sub-state. -/
def Stage.released : Stage → Bool
  | .onRamp _ | .pastCrest _ => true
  | .standby | .assigned _ | .placed _ _ => false

/-- RELEASED with sub-state PAST_CREST. -/
def Stage.isPastCrest : Stage → Bool
  | .pastCrest _ => true
  | .standby | .assigned _ | .onRamp _ | .placed _ _ => false

def Stage.isAssigned : Stage → Bool
  | .assigned _ => true
  | .standby | .onRamp _ | .pastCrest _ | .placed _ _ => false

def Stage.isPlaced : Stage → Bool
  | .placed _ _ => true
  | .standby | .onRamp _ | .pastCrest _ | .assigned _ => false

/-- The record of a tag (R1: the table is keyed by tag). -/
def State.veh? (s : State) (tag : Nat) : Option Vehicle := s.vehicles.find? (fun v => v.tag == tag)

/-- Change the record of a tag. -/
def State.updVeh (s : State) (tag : Nat) (f : Vehicle → Vehicle) : State :=
  { s with vehicles := s.vehicles.map (fun v => if v.tag = tag then f v else v) }

/-- Free the record of a tag (R2). -/
def State.freeVeh (s : State) (tag : Nat) : State :=
  { s with vehicles := s.vehicles.filter (fun v => v.tag != tag) }

/-- A list of tags without one tag; the others keep their order. -/
def without (tag : Nat) (xs : List Nat) : List Nat := xs.filter (fun x => x != tag)

/-- The records of a list of tags, in the list's order. -/
def State.records (s : State) (tags : List Nat) : List Vehicle := tags.filterMap s.veh?

/-- Sum of decoded masses over a list of tags (R3). -/
def State.massOf (s : State) (tags : List Nat) : Nat := ((s.records tags).map Vehicle.mass).sum

/-- Sum of length plus gap over a list of tags (R25). -/
def State.lengthOf (s : State) (gap : Nat) (tags : List Nat) : Nat :=
  ((s.records tags).map (fun v => v.length + gap)).sum

/-! ### Lanes, sections, decks, panels, ramps -/

def State.lane? (s : State) (l : Nat) : Option Lane := s.lanes[l]?

def State.updLane (s : State) (l : Nat) (f : Lane → Lane) : State :=
  { s with lanes := s.lanes.modify l f }

def State.sect? (s : State) (i : Nat) : Option Sect := s.sections[i]?

def State.updSect (s : State) (i : Nat) (f : Sect → Sect) : State :=
  { s with sections := s.sections.modify i f }

def State.deck? (s : State) (d : Nat) : Option Deck := s.decks[d]?

def State.updDeck (s : State) (d : Nat) (f : Deck → Deck) : State :=
  { s with decks := s.decks.modify d f }

def State.panel? (s : State) (p : Nat) : Option Panel := s.panels[p]?

def State.updPanel (s : State) (p : Nat) (f : Panel → Panel) : State :=
  { s with panels := s.panels.modify p f }

def State.ramp (s : State) : Ramp → RampState
  | .lower => s.lower
  | .upper => s.upper

def State.updRamp (s : State) (r : Ramp) (f : RampState → RampState) : State :=
  match r with
  | .lower => { s with lower := f s.lower }
  | .upper => { s with upper := f s.upper }

def State.updLink (s : State) (f : Link → Link) : State := { s with link := f s.link }

/-- The queue of a kind (R70). -/
def RampState.queue (q : RampState) : Kind → List Nat
  | .light => q.light
  | .heavy => q.heavy

def RampState.setQueue (q : RampState) (k : Kind) (xs : List Nat) : RampState :=
  match k with
  | .light => { q with light := xs }
  | .heavy => { q with heavy := xs }

/-- The deck of a lane is its section's deck (R21). -/
def State.deckOf (s : State) (x : Lane) : Option Deck :=
  (s.sect? x.sect).bind fun c => s.deck? c.deck

/-- The deck number of a lane. -/
def State.deckNo (s : State) (x : Lane) : Option Nat := (s.sect? x.sect).map Sect.deck

/-- MAIN and HOIST decks are served by LOWER, UPPER and WEATHER decks by UPPER (R20). -/
def DeckKind.ramp : DeckKind → Ramp
  | .main | .hoist => .lower
  | .upper | .weather => .upper

/-- The ramp that serves a lane (R20, R21). A lane outside the deck model has none; LOWER stands in then and is
never reached. -/
def State.rampOf (s : State) (x : Lane) : Ramp :=
  match s.deckOf x with
  | some d => d.kind.ramp
  | none => .lower

/-- The ramp of a lane number. -/
def State.rampOfNo (s : State) (l : Nat) : Ramp :=
  match s.lane? l with
  | some x => s.rampOf x
  | none => .lower

/-- Lane numbers of the active profile whose lane satisfies `p`, in order. -/
def State.lanesWhere (s : State) (p : Lane → Bool) : List Nat :=
  (List.range s.lanes.length).filter fun l => match s.lane? l with | some x => p x | none => false

/-- The panel that carries a section (R129), with its number. -/
def State.carrier? (s : State) (sect : Nat) : Option (Nat × Panel) :=
  ((List.range s.panels.length).filterMap fun p => (s.panel? p).map fun x => (p, x)).find?
    fun q => q.2.carried == sect

/-- Lanes on a panel (R129). -/
def State.lanesOn (s : State) (p : Nat) : List Nat :=
  match s.panel? p with
  | some x => s.lanesWhere fun l => l.sect == x.carried
  | none => []

/-- A lane lies under panel `p` (R21). -/
def Lane.under (x : Lane) (p : Nat) : Bool :=
  match x.cover with
  | some c => c.panel == p
  | none => false

/-- Lanes under a panel (R129). -/
def State.lanesUnder (s : State) (p : Nat) : List Nat := s.lanesWhere fun l => l.under p

/-- Lanes on or under a panel, in lane order. -/
def State.lanesOnUnder (s : State) (p : Nat) : List Nat :=
  match s.panel? p with
  | some x => s.lanesWhere fun l => l.sect == x.carried || l.under p
  | none => []

/-- RAISING or LOWERING. -/
def PanelPos.moving : PanelPos → Bool
  | .raising | .lowering => true
  | .stowed | .working | .unknown | .fault => false

/-- The panel state above a lane, if a panel covers it. -/
def State.coverState? (s : State) (x : Lane) : Option PanelPos :=
  x.cover.bind fun c => (s.panel? c.panel).map Panel.state

/-- A lane's loop is borrowed while the panel that carries its section moves (R126). -/
def State.borrowed (s : State) (x : Lane) : Bool :=
  match s.carrier? x.sect with
  | some (_, p) => p.state.moving
  | none => false

/-- Two lanes are adjacent: same deck, athwart indices differing by 1 (R22). -/
def State.adjacent (s : State) (x y : Lane) : Bool :=
  (match s.deckNo x, s.deckNo y with
   | some a, some b => a == b
   | _, _ => false) && (x.athwart + 1 == y.athwart || y.athwart + 1 == x.athwart)

/-- A HELD lane has an overdue count above 0 (R32). -/
def Lane.held (x : Lane) : Bool := 0 < x.overdue

/-- Remaining length (R25). -/
def Lane.remaining (x : Lane) : Nat := x.usable - x.used

/-- Clearance class (R26). -/
def State.clearance (s : State) (x : Lane) : Nat :=
  match x.cover with
  | none => x.baseClass
  | some c =>
    match s.panel? c.panel with
    | some p => if p.state = .stowed then x.baseClass else c.reduced
    | none => c.reduced

/-- Last call (R27): of the tail of the claim list, else of the tail of the stow list. -/
def State.lastCall? (s : State) (x : Lane) : Option Nat :=
  match x.claims.getLast? with
  | some t => (s.veh? t).map Vehicle.call
  | none => x.stow.getLast?.bind fun t => (s.veh? t).map Vehicle.call

/-- Discharge call of the first claim (R24). -/
def State.firstClaimCall? (s : State) (x : Lane) : Option Nat :=
  x.claims.head?.bind fun t => (s.veh? t).map Vehicle.call

/-- A lane's claim list holds a RELEASED vehicle. -/
def State.hasReleased (s : State) (x : Lane) : Bool := (s.records x.claims).any fun v => v.stage.released

/-- The deck model exists (R19): the profile is ACTIVE, or a commit runs with a profile in force (R179). -/
def ProfileState.inForce : ProfileState → Bool
  | .none => false
  | .active => true
  | .committing f => f

def ProfileState.isCommitting : ProfileState → Bool
  | .committing _ => true
  | .none | .active => false

/-! ### Timers -/

def Timer.isRunning : Timer → Bool
  | .running _ => true
  | .stopped | .suspended _ | .expired => false

/-- Suspend a running timer: it keeps its remaining time (R73, R104). -/
def Timer.suspend : Timer → Timer
  | .running n => .suspended n
  | t => t

/-- Resume a suspended timer with the time it had left (R73, R127). -/
def Timer.resume : Timer → Timer
  | .suspended n => .running n
  | t => t

/-- One second passes. -/
def Timer.tick : Timer → Timer
  | .running n => .running (n - 1)
  | t => t

/-- A timer whose limit has run out. -/
def Timer.due : Timer → Bool
  | .running 0 => true
  | _ => false

/-! ### Notices and event marks -/

/-- A notice joins the tail of the notice queue, or is dropped with NOTICES_LOST set (R188). -/
def State.notify (s : State) (n : Notice) : State :=
  s.updLink fun k =>
    if k.notices.length < Config.noticeCapacity then { k with notices := k.notices ++ [n] }
    else { k with noticesLost := true }

/-- A sweep trigger is met (R63); the sweep runs as the last part of the event (R64). -/
def State.sweepTrigger (s : State) : State := { s with ev := { s.ev with sweepDue := true } }

/-- RAMP_STOP and the link-silence stop (R84): the run or the wait ends, the stall timer stops, the run count
is 0. -/
def stopRamp (r : Ramp) (s : State) : State :=
  s.updRamp r fun q => { q with seq := .stopped, stall := .stopped, runCount := 0 }

end Sys2Proof.Machine
end

