-- ==== Sys2Proof/Machine/Operands.lean ====
section
/-! DEFINITION. The coding of the host link (R184, R192): bytes and integers, the CRC, frames, the codes of the
enumerations, the bodies of notices, and the operand fields of requests. -/

namespace Sys2Proof.Machine

/-! ### Bytes -/

/-- `v` in `n` bytes, most significant first (00_scope, Integers on the link). -/
def be : Nat → Nat → List Byte
  | 0, _ => []
  | n + 1, v => be n (v / 256) ++ [BitVec.ofNat 8 v]

/-- The number that bytes spell, most significant first. -/
def ofBe (bs : List Byte) : Nat := bs.foldl (fun acc b => acc * 256 + b.toNat) 0

/-- A signed integer in `n` bytes, two's complement. -/
def beInt (n : Nat) (v : Int) : List Byte := be n (BitVec.ofInt (8 * n) v).toNat

/-- One byte. -/
def u8 (v : Nat) : List Byte := [BitVec.ofNat 8 v]

/-- yes or no: 1 or 0. -/
def flag (b : Bool) : List Byte := u8 (if b then 1 else 0)

/-- An absent lane, call, section, deck, panel, DG group, sub-state or position is 0xFF (R192). -/
def optU8 : Option Nat → List Byte
  | some v => u8 v
  | none => [0xFF#8]

/-- An absent tag is 0 (R192). -/
def optTag : Option Nat → List Byte
  | some v => be 4 v
  | none => be 4 0

/-! ### The frame -/

/-- One bit of the CRC: generator 0x1021, most significant bit first (R184). -/
def crcBit (c : BitVec 16) : BitVec 16 := if c.msb then (c <<< 1) ^^^ 0x1021#16 else c <<< 1

/-- One byte into the CRC. -/
def crcByte (c : BitVec 16) (b : Byte) : BitVec 16 :=
  crcBit (crcBit (crcBit (crcBit (crcBit (crcBit (crcBit (crcBit
    (c ^^^ ((b.setWidth 16) <<< 8)))))))))

/-- The CRC of R184: the register starts at 0xFFFF, no final value is added. -/
def crc (bs : List Byte) : BitVec 16 := bs.foldl crcByte 0xFFFF#16

/-- What the CRC covers: the length byte, the kind, the tag and the body (11.6). -/
def Frame.covered (f : Frame) : List Byte := BitVec.ofNat 8 (f.body.length + 2) :: f.kind :: f.tag :: f.body

/-- A frame as it stands on the line (11.6). -/
def Frame.bytes (f : Frame) : List Byte := 0xC3#8 :: f.covered ++ be 2 (crc f.covered).toNat

/-! ### Codes of enumerations (R192) -/

def rampCode : Ramp → Nat
  | .lower => 0
  | .upper => 1

/-- The ramps that a ramp code names: LOWER 0, UPPER 1, BOTH 2; none for any other code (R68). -/
def rampsNamed (code : Nat) : Option (List Ramp) :=
  match code with
  | 0 => some [.lower]
  | 1 => some [.upper]
  | 2 => some [.lower, .upper]
  | _ => none

/-- A ramp set: bit 0 LOWER, bit 1 UPPER. -/
def rampSet (lower upper : Bool) : Nat := (if lower then 1 else 0) + (if upper then 2 else 0)

def VClass.code : VClass → Nat
  | .car => 1
  | .van => 2
  | .lorry => 3
  | .trailer => 4
  | .coach => 5
  | .plant => 6

def VClass.ofCode (code : Nat) : Option VClass :=
  match code with
  | 1 => some .car
  | 2 => some .van
  | 3 => some .lorry
  | 4 => some .trailer
  | 5 => some .coach
  | 6 => some .plant
  | _ => none

/-- Vehicle state code. -/
def Stage.code : Stage → Nat
  | .standby => 0
  | .assigned _ => 1
  | .onRamp _ | .pastCrest _ => 2
  | .placed _ _ => 3

/-- Ramp sub-state code, present only in RELEASED. -/
def Stage.sub? : Stage → Option Nat
  | .onRamp _ => some 0
  | .pastCrest _ => some 1
  | .standby | .assigned _ | .placed _ _ => none

def Voyage.code : Voyage → Nat
  | .noVoyage => 0
  | .atSea _ _ => 1
  | .discharge _ _ => 2
  | .load _ _ => 3

def Voyage.call? : Voyage → Option Nat
  | .noVoyage => none
  | .atSea c _ | .discharge c _ | .load c _ => some c

def Voyage.last? : Voyage → Option Nat
  | .noVoyage => none
  | .atSea _ n | .discharge _ n | .load _ n => some n

def LaneState.code : LaneState → Nat
  | .opened => 0
  | .shut => 1
  | .unloading => 2

def Direction.code : Direction → Nat
  | .inbound => 0
  | .outbound => 1

def Direction.ofCode (code : Nat) : Option Direction :=
  match code with
  | 0 => some .inbound
  | 1 => some .outbound
  | _ => none

def SeqState.code : SeqState → Nat
  | .stopped => 0
  | .idle => 1
  | .lightRun => 2
  | .waitTrigger => 3
  | .heavyRun => 4

def TriggerMode.ofCode (code : Nat) : Option TriggerMode :=
  match code with
  | 0 => some .auto
  | 1 => some .manual
  | _ => none

def TriggerSource.ofCode (code : Nat) : Option TriggerSource :=
  match code with
  | 0 => some .line1
  | 1 => some .line2
  | 2 => some .requestOnly
  | _ => none

def PanelPos.code : PanelPos → Nat
  | .stowed => 0
  | .working => 1
  | .raising => 2
  | .lowering => 3
  | .unknown => 4
  | .fault => 5

def FaultReason.code : FaultReason → Nat
  | .none => 0
  | .timeout => 1
  | .obstruction => 2
  | .doubleLimit => 3
  | .clearance => 4
  | .loaded => 5

def PlacementMode.code : PlacementMode → Nat
  | .sensed => 0
  | .confirm => 1

def SensorMode.code : SensorMode → Nat
  | .sensed => 0
  | .confirmOnly => 1
  | .sensorClosed => 2

def Arm.code : Arm → Nat
  | .armed => 0
  | .spent => 1

def SignalMode.ofCode (code : Nat) : Option SignalMode :=
  match code with
  | 0 => some .auto
  | 1 => some .forceRed
  | 2 => some .dark
  | _ => none

def Aspect.code : Aspect → Nat
  | .dark => 0
  | .red => 1
  | .amber => 2
  | .green => 3
  | .greenFlash => 4

/-- off 0, on 1. -/
def onOff (code : Nat) : Option Bool :=
  match code with
  | 0 => some false
  | 1 => some true
  | _ => none

/-- off 0, on 1, UNCHANGED 2: `some none` stands for UNCHANGED. Mask select A, B, UNCHANGED is coded alike. -/
def onOffUnchanged (code : Nat) : Option (Option Bool) :=
  match code with
  | 0 => some (some false)
  | 1 => some (some true)
  | 2 => some none
  | _ => none

def DeckKind.code : DeckKind → Nat
  | .main => 0
  | .hoist => 1
  | .upper => 2
  | .weather => 3

def DeckKind.ofCode (code : Nat) : Option DeckKind :=
  match code with
  | 0 => some .main
  | 1 => some .hoist
  | 2 => some .upper
  | 3 => some .weather
  | _ => none

def RecType.code : RecType → Nat
  | .vessel => 1
  | .deck => 2
  | .sect => 3
  | .lane => 4
  | .panel => 5
  | .ramp => 6
  | .dg => 7
  | .sensor => 8

def RecType.ofCode (code : Nat) : Option RecType :=
  match code with
  | 1 => some .vessel
  | 2 => some .deck
  | 3 => some .sect
  | 4 => some .lane
  | 5 => some .panel
  | 6 => some .ramp
  | 7 => some .dg
  | 8 => some .sensor
  | _ => none

def ProfileState.code : ProfileState → Nat
  | .none => 0
  | .active => 1
  | .committing _ => 2

/-- The sections or decks below `n` whose bit is set, in rising order (R192: bit s for section s). -/
def setOfBits (n w : Nat) : List Nat := (List.range n).filter fun i => w.testBit i

/-- The word whose bits are the members of a set. -/
def bitsOfSet (xs : List Nat) : Nat := (xs.map fun i => 2 ^ i).sum

/-! ### Result codes (11.6) -/

def Result.code : Result → Nat
  | .ok => 0x00
  | .accepted => 0x01
  | .assigned => 0x02
  | .standby => 0x03
  | .alreadyPlaced => 0x04
  | .phase => 0x10
  | .range => 0x11
  | .call => 0x12
  | .duplicate => 0x13
  | .full => 0x14
  | .unstowable => 0x15
  | .standbyFull => 0x16
  | .order => 0x17
  | .notReleased => 0x18
  | .lane => 0x19
  | .sequence => 0x1A
  | .state => 0x1B
  | .direction => 0x1C
  | .notReady => 0x1D
  | .busy => 0x1E
  | .notEmpty => 0x1F
  | .clearance => 0x20
  | .traffic => 0x21
  | .claims => 0x22
  | .nothingDue => 0x23
  | .lastCall => 0x24
  | .inFlight => 0x25
  | .unloading => 0x26
  | .ramps => 0x27
  | .remaining => 0x28
  | .mismatch => 0x29
  | .check => 0x2A
  | .locked => 0x2B
  | .noProfile => 0x2C
  | .unknownKind => 0x2D
  | .notFound => 0x2E
  | .rejLength => 0x2F

/-- A reply without fields. -/
def plain (r : Result) : Reply := { result := r, fields := [] }

/-! ### Notice bodies (11.6) -/

def PlaceMeans.code : PlaceMeans → Nat
  | .entry => 0
  | .confirm => 1

def DoneMeans.code : DoneMeans → Nat
  | .limit => 0
  | .regain => 1
  | .stop => 2
  | .request => 3

def DepartMeans.code : DepartMeans → Nat
  | .exit => 0
  | .depart => 1

def Kind.code : Kind → Nat
  | .light => 0
  | .heavy => 1

/-- The body of a notice: its code, then its fields (11.6, Notice bodies). -/
def Notice.body : Notice → List Byte
  | .released t l r => u8 0x01 ++ be 4 t ++ u8 l ++ u8 (rampCode r)
  | .placed t l o m => u8 0x02 ++ be 4 t ++ u8 l ++ be 2 o ++ u8 m.code
  | .overdue t l r p => u8 0x03 ++ be 4 t ++ u8 l ++ u8 (rampCode r) ++ flag p
  | .crestUnexpected r => u8 0x04 ++ u8 (rampCode r)
  | .runReady r n => u8 0x05 ++ u8 (rampCode r) ++ u8 n
  | .runReverted r l h => u8 0x06 ++ u8 (rampCode r) ++ u8 l ++ u8 h
  | .runStalled r k t n => u8 0x07 ++ u8 (rampCode r) ++ u8 k.code ++ be 4 t ++ u8 n
  | .rampHalted l u => u8 0x08 ++ u8 (rampSet l u)
  | .standbyAssigned t l r => u8 0x09 ++ be 4 t ++ u8 l ++ u8 (rampCode r)
  | .shutOut t c => u8 0x0A ++ be 4 t ++ u8 c
  | .nearLimit x v t => u8 0x0B ++ optU8 x ++ beInt 6 v ++ u8 t
  | .listOver m l => u8 0x0C ++ beInt 6 m ++ be 2 l
  | .sensorEvent l o st md => u8 0x0D ++ u8 l ++ u8 (if o then 0 else 1) ++ u8 st.code ++ u8 md.code
  | .sensorSuspect l sc th => u8 0x0E ++ u8 l ++ u8 sc ++ u8 th
  | .sectionMode c m n => u8 0x0F ++ u8 c ++ u8 m.code ++ u8 n
  | .hoistDone p st m => u8 0x10 ++ u8 p ++ u8 st.code ++ u8 m.code
  | .hoistFault p r l t => u8 0x11 ++ u8 p ++ u8 r.code ++ optU8 l ++ optTag t
  | .hoistPositionLost p st => u8 0x12 ++ u8 p ++ u8 st.code
  | .departed t l c m => u8 0x13 ++ be 4 t ++ u8 l ++ u8 c ++ u8 m.code
  | .laneDischarged l n c => u8 0x14 ++ u8 l ++ u8 n ++ optU8 c
  | .profileDone g n => u8 0x15 ++ be 2 g ++ u8 n
  | .profileFailed t i => u8 0x16 ++ [t, i]

end Sys2Proof.Machine
end

