-- ==== Sys2Proof/Machine/Flags.lean ====
section
/-! DEFINITION. The condition marks of the deck model: near-limit arms (R35, R37), the list-over condition (R38)
and the closed state of a section (R168). -/

namespace Sys2Proof.Machine

/-! ### Near-limit arms -/

/-- A section is above its threshold (R35): 256 times its mass exceeds t times its limit in kg. -/
def sectAbove (t limit mass : Nat) : Bool := t * (limit * 1000) < 256 * mass

/-- The list is above its threshold (R37). -/
def listAbove (t limit : Nat) (m : Int) : Bool := t * (limit * 10000) < 256 * m.natAbs

/-- The near-limit threshold of a section's deck (R35). -/
def State.thresholdOf (s : State) (c : Sect) : Nat :=
  match s.deck? c.deck with
  | some d => d.threshold
  | none => Config.deckThreshold

/-- Judge a section's arm as any event does (R35). -/
def judgeSect (i : Nat) (s : State) : State :=
  match s.sect? i with
  | none => s
  | some c =>
    let t := s.thresholdOf c
    match c.arm, sectAbove t c.massLimit c.projected with
    | .armed, true => (s.updSect i fun c => { c with arm := .spent }).notify (.nearLimit (some i) c.projected t)
    | .spent, false => s.updSect i fun c => { c with arm := .armed }
    | .armed, false | .spent, true => s

/-- Judge the list's arm (R37). A spend that follows a re-arm in the same event sends no notice (log 13,
DEDUCED). -/
def judgeList (s : State) : State :=
  match s.listArm, listAbove s.listThreshold s.limits.listLimit s.listMoment with
  | .armed, true =>
    let s1 := { s with listArm := .spent }
    if s.ev.listRearmed then s1 else s1.notify (.nearLimit none s.listMoment s.listThreshold)
  | .spent, false => { s with listArm := .armed, ev := { s.ev with listRearmed := true } }
  | .armed, false | .spent, true => s

/-- The magnitude of the list moment exceeds the list limit (R38). -/
def beyondList (limit : Nat) (m : Int) : Bool := limit * 10000 < m.natAbs

/-- Judge the list-over condition after a removal (R38). -/
def judgeListOver (s : State) : State :=
  if beyondList s.limits.listLimit s.listMoment then
    if s.listOver then s
    else { s with listOver := true }.notify (.listOver s.listMoment s.limits.listLimit)
  else { s with listOver := false }

/-- A claim clears the list-over condition when it leaves the magnitude within the limit (R38, R58). -/
def clearListOver (s : State) : State :=
  if beyondList s.limits.listLimit s.listMoment then s else { s with listOver := false }

/-! ### Closure of sections -/

/-- The mask in force when the enable is on (R167). -/
def Closure.selected (c : Closure) : List Nat := if c.selectB then c.maskB else c.maskA

/-- The selected and enabled mask closes section `i`. -/
def Closure.masks (c : Closure) (i : Nat) : Bool := c.enable && c.selected.contains i

/-- The section's sensor mode is SENSOR_CLOSED (R124). -/
def State.sensorClosed (s : State) (i : Nat) : Bool :=
  match s.sect? i with
  | some c => c.mode = .sensorClosed
  | none => false

/-- A section is closed to new claims (R168). -/
def State.closed (s : State) (i : Nat) : Bool := s.closure.glob || s.closure.masks i || s.sensorClosed i

/-- The sections closed at present, in order. -/
def State.closedSet (s : State) : List Nat := (List.range s.sections.length).filter s.closed

end Sys2Proof.Machine
end

