-- ==== Sys2Proof/Machine/Deck.lean ====
section
/-! DEFINITION. Shares of vehicles in the deck model's figures (R25, R33, R36), the panel's hold on its lanes
(R26, R47, R85) and the availability of a lane (R47). -/

namespace Sys2Proof.Machine

/-- A claim adds the vehicle's share (R25): used length, reefer count, lane mass, section projected mass, list
moment. -/
def addShare (v : Vehicle) (l : Nat) (s : State) : State :=
  match s.lane? l with
  | none => s
  | some x =>
    let s1 := s.updLane l fun x =>
      { x with used := x.used + (v.length + x.gap), reefers := x.reefers + (if v.reefer then 1 else 0)
               mass := x.mass + v.mass }
    let s2 := s1.updSect x.sect fun c => { c with projected := c.projected + v.mass }
    { s2 with listMoment := s2.listMoment + v.mass * x.offset }

/-- A removal takes the vehicle's share away (R25); for a placed vehicle its placed mass too. -/
def dropShare (v : Vehicle) (l : Nat) (placed : Bool) (s : State) : State :=
  match s.lane? l with
  | none => s
  | some x =>
    let p := if placed then v.mass else 0
    let s1 := s.updLane l fun x =>
      { x with used := x.used - (v.length + x.gap), reefers := x.reefers - (if v.reefer then 1 else 0)
               mass := x.mass - v.mass, placedMass := x.placedMass - p }
    let s2 := s1.updSect x.sect fun c => { c with projected := c.projected - v.mass, placed := c.placed - p }
    { s2 with listMoment := s2.listMoment - v.mass * x.offset }

/-- The judgements that follow a removal, in the order of its notices (R35, R37, R38). -/
def judgeRemoval (l : Nat) (s : State) : State :=
  match s.lane? l with
  | none => s
  | some x => judgeListOver (judgeList (judgeSect x.sect s))

/-- The judgements that follow a claim (R58). -/
def judgeClaim (l : Nat) (s : State) : State :=
  match s.lane? l with
  | none => s
  | some x => clearListOver (judgeList (judgeSect x.sect s))

/-- The lane stands on a HOIST deck. -/
def State.onHoist (s : State) (x : Lane) : Bool :=
  match s.deckOf x with
  | some d => d.kind = .hoist
  | none => false

/-- The panel that carries the lane's section is WORKING. -/
def State.carrierWorking (s : State) (x : Lane) : Bool :=
  match s.carrier? x.sect with
  | some (_, p) => p.state = .working
  | none => false

/-- The covering panel is RAISING or LOWERING. -/
def State.coverMoving (s : State) (x : Lane) : Bool :=
  match s.coverState? x with
  | some st => st.moving
  | none => false

/-- Availability, test T2 (R47). -/
def State.available (s : State) (x : Lane) : Bool :=
  x.state = .opened && !x.held && !s.closed x.sect && (!s.onHoist x || s.carrierWorking x)

/-- The open path of release condition 5 (R85). -/
def State.releasePath (s : State) (x : Lane) : Bool :=
  (!s.onHoist x || s.carrierWorking x) && !s.coverMoving x

/-- The open path of a lane's signal (R165). -/
def State.signalPath (s : State) (x : Lane) : Bool :=
  (s.ramp (s.rampOf x)).direction = .inbound && !s.coverMoving x

/-- Change one vehicle's stage (R2). -/
def State.setStage (s : State) (tag : Nat) (st : Stage) : State :=
  s.updVeh tag fun v => { v with stage := st }

end Sys2Proof.Machine
end

