-- ==== Sys2Proof/Machine/Sequencer.lean ====
section
/-! DEFINITION. The ramp sequencers (04_ramp_sequencers): cycle starts, runs, the release conditions and the
release. -/

namespace Sys2Proof.Machine

/-- The RAMP record of a ramp. -/
def State.rampRec (s : State) : Ramp → RampRec
  | .lower => s.limits.lower
  | .upper => s.limits.upper

/-- The figures of the present band; none when CLOSED (R73). -/
def State.bandOf (s : State) (r : Ramp) : Option Band :=
  if (s.ramp r).band < 3 then (s.rampRec r).bands[(s.ramp r).band]? else none

/-- The kind of run a sequencer is in. -/
def SeqState.run? : SeqState → Option Kind
  | .lightRun => some .light
  | .heavyRun => some .heavy
  | .stopped | .idle | .waitTrigger => none

/-- The state of a run. -/
def SeqState.ofRun : Kind → SeqState
  | .light => .lightRun
  | .heavy => .heavyRun

/-- The length of a run in the active pair (R78). -/
def RampState.runLength (q : RampState) : Kind → Nat
  | .light => q.active.light
  | .heavy => q.active.heavy

/-- The release gate (R85.6): the vehicle's call equals the call of its lane's first claim. -/
def State.gateOpen (s : State) (v : Vehicle) (x : Lane) : Bool := s.firstClaimCall? x == some v.call

/-- The release conditions of R85 for the head `tag` of the run's queue. -/
def canRelease (r : Ramp) (tag : Nat) (s : State) : Bool :=
  match s.veh? tag, s.bandOf r with
  | some v, some b =>
    match v.stage.lane?.bind s.lane? with
    | some x =>
      (s.ramp r).onRamp.length < b.maxVehicles
        && (s.ramp r).mass + v.mass ≤ b.massLimit * 1000
        && !x.held && s.releasePath x && s.gateOpen v x
    | none => false
  | _, _ => false

/-- The changes of a release of `tag` from queue `k` (R87, steps 1 to 8). -/
def releaseHead (r : Ramp) (k : Kind) (tag : Nat) (s : State) : State :=
  match s.veh? tag with
  | none => s
  | some v =>
    match v.stage.lane? with
    | none => s
    | some l =>
      let full := (s.ramp r).queue k |>.length
      let s1 := s.updVeh tag fun v =>
        { v with stage := .onRamp l, transit := .running (s.rampRec r).transit }
      let s2 := s1.updRamp r fun q =>
        { (q.setQueue k (q.queue k).tail) with
          onRamp := q.onRamp ++ [tag], mass := q.mass + v.mass
          runCount := q.runCount + 1, stall := .running q.stallLimit }
      let s3 := s2.notify (.released tag l r)
      if full = Config.queueCapacity then s3.sweepTrigger else s3

/-- What a sequencer does next within one event. -/
inductive SeqAct where
  | cycleStart
  | begin (k : Kind)
  | examine
  | endRun (k : Kind)
  deriving DecidableEq, Repr

/-- The pair a cycle start makes active: the pending pair, or the defaults when it has H above 2 L (R75). -/
def RunPair.lawful (p : RunPair) : Bool := p.heavy ≤ 2 * p.light

/-- Steps 1 and 2 of a cycle start (R75). -/
def adoptPair (r : Ramp) (s : State) : State :=
  let p := (s.ramp r).waiting
  if p.lawful then s.updRamp r fun q => { q with active := p }
  else
    (s.updRamp r fun q =>
      { q with active := ⟨Config.defaultLight, Config.defaultHeavy⟩
               waiting := ⟨Config.defaultLight, Config.defaultHeavy⟩ }).notify
      (.runReverted r p.light p.heavy)

/-- The stall timer as a run starts: afresh at the stall limit, suspended while the band is CLOSED (R79). -/
def RampState.freshStall (q : RampState) : Timer :=
  if q.band < 3 then .running q.stallLimit else .suspended q.stallLimit

/-- One act of a sequencer, and the act that follows it (R75, R78, R80, R83, R85). -/
def seqNext (r : Ramp) (a : SeqAct) (s : State) : State × Option SeqAct :=
  match a with
  | .cycleStart =>
    let s1 := adoptPair r s
    if (s1.ramp r).light.isEmpty && (s1.ramp r).heavy.isEmpty then
      (s1.updRamp r fun q => { q with seq := .idle, stall := .stopped, runCount := 0 }, none)
    else (s1, some (.begin .light))
  | .begin k =>
    let s1 := s.updRamp r fun q => { q with seq := .ofRun k, runCount := 0, stall := q.freshStall }
    if ((s1.ramp r).queue k).isEmpty then (s1, some (.endRun k)) else (s1, some .examine)
  | .examine =>
    match (s.ramp r).seq.run? with
    | none => (s, none)
    | some k =>
      match (s.ramp r).queue k with
      | [] => (s, none)
      | tag :: _ =>
        if canRelease r tag s then
          let s1 := releaseHead r k tag s
          if (s1.ramp r).runLength k ≤ (s1.ramp r).runCount || ((s1.ramp r).queue k).isEmpty then
            (s1, some (.endRun k))
          else (s1, some .examine)
        else (s, none)
  | .endRun k =>
    let s1 := s.updRamp r fun q => { q with stall := .stopped, runCount := 0 }
    match k with
    | .heavy => (s1, some .cycleStart)
    | .light =>
      if (s1.ramp r).heavy.isEmpty then (s1, some .cycleStart)
      else
        match (s1.ramp r).mode with
        | .auto => (s1, some (.begin .heavy))
        | .manual =>
          ((s1.updRamp r fun q => { q with seq := .waitTrigger }).notify
            (.runReady r (s1.ramp r).heavy.length), none)

/-- Acts until none follows. The first argument bounds their number. -/
def seqGo : Nat → Ramp → SeqAct → State → State
  | 0, _, _, s => s
  | n + 1, r, a, s =>
    match seqNext r a s with
    | (s1, some b) => seqGo n r b s1
    | (s1, none) => s1

/-- A bound on the acts of one event that is never reached (log 24, DEDUCED): at most six acts pass between two
releases, and each release takes a vehicle from a queue. -/
def seqFuel (r : Ramp) (s : State) : Nat := 6 * ((s.ramp r).light.length + (s.ramp r).heavy.length) + 8

/-- Carry out an act and what follows from it. -/
def seqAct (r : Ramp) (a : SeqAct) (s : State) : State := seqGo (seqFuel r s) r a s

/-- A cycle start (R75). -/
def cycleStart (r : Ramp) (s : State) : State := seqAct r .cycleStart s

/-- A running sequencer examines its release conditions; any other is left as it is (R86). -/
def examineRamp (r : Ramp) (s : State) : State := seqAct r .examine s

/-- Both sequencers examine, LOWER before UPPER (R139). -/
def examineBoth (s : State) : State := examineRamp .upper (examineRamp .lower s)

/-- A claim reaches the sequencer of its lane's ramp (R59). -/
def claimReaches (r : Ramp) (s : State) : State :=
  match (s.ramp r).seq with
  | .idle => cycleStart r s
  | .lightRun | .heavyRun => examineRamp r s
  | .stopped | .waitTrigger => s

/-- A trigger on a sequencer in WAIT_TRIGGER starts the heavy run; on any other it does nothing (R81). -/
def triggerRamp (r : Ramp) (s : State) : State :=
  match (s.ramp r).seq with
  | .waitTrigger => seqAct r (.begin .heavy) s
  | .stopped | .idle | .lightRun | .heavyRun => s

/-- A RECALL has taken a vehicle from queue `k` (R78, R81, R86): a run whose queue is now empty ends, a waiting
sequencer whose heavy queue is now empty starts a cycle, any other running sequencer examines. -/
def recallReaches (r : Ramp) (k : Kind) (s : State) : State :=
  match (s.ramp r).seq, k with
  | .waitTrigger, .heavy => if (s.ramp r).heavy.isEmpty then cycleStart r s else s
  | .lightRun, .light => if (s.ramp r).light.isEmpty then seqAct r (.endRun .light) s else examineRamp r s
  | .heavyRun, .heavy => if (s.ramp r).heavy.isEmpty then seqAct r (.endRun .heavy) s else examineRamp r s
  | .lightRun, .heavy | .heavyRun, .light => examineRamp r s
  | .waitTrigger, .light | .stopped, _ | .idle, _ => s

/-- The stall timer expires (R79): RUN_STALLED, and the run ends. -/
def stallExpires (r : Ramp) (s : State) : State :=
  match (s.ramp r).seq.run? with
  | none => s
  | some k =>
    seqAct r (.endRun k)
      (s.notify (.runStalled r k (((s.ramp r).queue k).head?.getD 0) (s.ramp r).runCount))

/-- The link-silence stop (R89): every sequencer not STOPPED is stopped, with one RAMP_HALTED notice. -/
def silenceStops (s : State) : State :=
  let l := s.lower.seq != .stopped
  let u := s.upper.seq != .stopped
  let s1 := if l then stopRamp .lower s else s
  let s2 := if u then stopRamp .upper s1 else s1
  if l || u then s2.notify (.rampHalted l u) else s2

/-- A change of band (R73): CLOSED suspends a running stall timer, leaving CLOSED resumes it, and a running
sequencer examines. -/
def setBand (r : Ramp) (band : Nat) (s : State) : State :=
  if (s.ramp r).band = band then s
  else
    examineRamp r (s.updRamp r fun q =>
      { q with band := band, stall := if band < 3 then q.stall.resume else q.stall.suspend })

end Sys2Proof.Machine
end

