-- ==== Sys2Proof/Machine/Sensors.lean ====
section
/-! DEFINITION. Defect scores, SUSPECT loops, section sensor modes and placement modes (06, R118 to R125). -/

namespace Sys2Proof.Machine

/-- The suspicion threshold of a lane's deck at its present level (R119). -/
def State.suspicionAt (s : State) (x : Lane) : Nat :=
  match s.deckOf x with
  | some d => (s.limits.sensor.thresholds[d.level]?).getD 15
  | none => 15

/-- Entry credits discarded without scoring, window stopped (R104). -/
def Lane.dropEntryCredits (x : Lane) : Lane := { x with entryCredits := 0, entryWindow := .stopped }

/-- Exit credits discarded without scoring, window stopped (R125, R157). -/
def Lane.dropExitCredits (x : Lane) : Lane := { x with exitCredits := 0, exitWindow := .stopped }

/-- A lane takes a placement mode; a switch from SENSED to CONFIRM discards its credits (R125). -/
def Lane.takeMode (x : Lane) (m : PlacementMode) : Lane :=
  match x.mode, m with
  | .sensed, .confirm =>
    let y := x.dropEntryCredits
    { (if x.state = .unloading then y.dropExitCredits else y) with mode := .confirm }
  | .confirm, .sensed => { x with mode := .sensed }
  | .sensed, .sensed | .confirm, .confirm => x

/-- The placement mode that a loop state and a section mode give (R122). -/
def placementMode (suspect : Bool) (m : SensorMode) : PlacementMode :=
  if suspect then .confirm
  else
    match m with
    | .sensed => .sensed
    | .confirmOnly | .sensorClosed => .confirm

/-- Recompute the placement mode of one lane (R122). -/
def remodeLane (l : Nat) (s : State) : State :=
  match s.lane? l with
  | none => s
  | some x =>
    match s.sect? x.sect with
    | none => s
    | some c => s.updLane l fun x => x.takeMode (placementMode x.suspect c.mode)

/-- A loop that its section counts as SUSPECT: a clear of a borrowed loop acts on the section at once (R121). -/
def Lane.counted (x : Lane) : Bool := x.suspect && !x.clearing

/-- The lanes of a section with SUSPECT loops. -/
def State.suspects (s : State) (i : Nat) : List Nat := s.lanesWhere fun x => x.sect == i && x.counted

/-- Two of these lanes are adjacent (R22). -/
def State.somePairAdjacent (s : State) (ls : List Nat) : Bool :=
  ls.any fun a => ls.any fun b =>
    match s.lane? a, s.lane? b with
    | some x, some y => s.adjacent x y
    | _, _ => false

/-- The sensor mode that the SUSPECT loops of a section give (R123). -/
def State.sensorModeOf (s : State) (i : Nat) : SensorMode :=
  let ls := s.suspects i
  if 3 ≤ ls.length then .sensorClosed
  else if s.somePairAdjacent ls then .confirmOnly
  else .sensed

/-- Recompute a section's sensor mode (R123): a change sends SECTION_MODE and recomputes its lanes' modes. -/
def remodeSect (i : Nat) (s : State) : State :=
  match s.sect? i with
  | none => s
  | some c =>
    let m := s.sensorModeOf i
    if c.mode = m then s
    else
      let s1 := (s.updSect i fun c => { c with mode := m }).notify (.sectionMode i m (s.suspects i).length)
      (s1.lanesWhere fun x => x.sect == i).foldl (fun s l => remodeLane l s) s1

/-- Recompute several sections in order. -/
def remodeSects (is : List Nat) (s : State) : State := is.foldl (fun s i => remodeSect i s) s

/-- Steps 1 to 3 of R120: the loop becomes SUSPECT, SENSOR_SUSPECT, placement mode CONFIRM. -/
def makeSuspect (l : Nat) (s : State) : State :=
  match s.lane? l with
  | none => s
  | some x =>
    let s1 := s.updLane l fun x => { x with suspect := true }
    let s2 := s1.notify (.sensorSuspect l x.score (s.suspicionAt x))
    s2.updLane l fun x => x.takeMode .confirm

/-- A HEALTHY loop whose score is at or above its deck's threshold (R120). -/
def State.toSuspect (s : State) (x : Lane) : Bool := !x.suspect && s.suspicionAt x ≤ x.score

/-- Judge one loop and, when it becomes SUSPECT, its section (R120). -/
def judgeLoop (l : Nat) (s : State) : State :=
  match s.lane? l with
  | none => s
  | some x => if s.toSuspect x then remodeSect x.sect (makeSuspect l s) else s

/-- Change a loop's score to `f` of it, while the lane is SENSED, and judge the loop after the change (R118,
R120). -/
def changeScore (l : Nat) (f : Nat → Nat) (s : State) : State :=
  match s.lane? l with
  | none => s
  | some x =>
    match x.mode with
    | .confirm => s
    | .sensed =>
      if f x.score = x.score then s
      else judgeLoop l (s.updLane l fun x => { x with score := f x.score })

/-- A rise of a score, limited at 15 (R118). -/
def scoreRise (amount : Nat) (sc : Nat) : Nat := min Config.scoreMax (sc + amount)

/-- A phantom (R118). -/
def scorePhantom (l : Nat) (s : State) : State := changeScore l (scoreRise s.limits.sensor.phantom) s

/-- A matched event (R118). -/
def scoreMatched (l : Nat) (s : State) : State := changeScore l (fun sc => sc - 1) s

/-- `n` silent disagreements in one change (R118). -/
def scoreSilent (l n : Nat) (s : State) : State := changeScore l (scoreRise (s.limits.sensor.silent * n)) s

/-- Judge several loops in lane order, then their sections once, in order (R119, R120, R127). -/
def judgeLoops (ls : List Nat) (is : List Nat) (s : State) : State :=
  remodeSects is
    (ls.foldl (fun s l =>
      match s.lane? l with
      | some x => if s.toSuspect x then makeSuspect l s else s
      | none => s) s)

end Sys2Proof.Machine
end

