-- ==== Sys2Proof/Machine/Tracking.lean ====
section
/-! DEFINITION. Placement tracking (05_placement_tracking): credits, crest events, entry events, the placement,
transit expiry. -/

namespace Sys2Proof.Machine

/-! ### Credits (R101 to R103) -/

/-- The ramp gains a crest credit; at 4 nothing changes (R101, R103). -/
def gainCrest (r : Ramp) (s : State) : State :=
  s.updRamp r fun q =>
    if q.crestCredits < Config.creditCapacity then
      { q with crestCredits := q.crestCredits + 1, crestWindow := .running s.limits.sensor.window }
    else q

/-- The lane gains an entry credit; at 4 its loop scores one silent disagreement (R101, R103). -/
def gainEntry (l : Nat) (s : State) : State :=
  match s.lane? l with
  | none => s
  | some x =>
    if x.entryCredits < Config.creditCapacity then
      s.updLane l fun x =>
        { x with entryCredits := x.entryCredits + 1, entryWindow := .running s.limits.sensor.window }
    else scoreSilent l 1 s

/-- One entry credit is consumed; at 0 the window stops (R101). -/
def Lane.useEntryCredit (x : Lane) : Lane :=
  { x with entryCredits := x.entryCredits - 1
           entryWindow := if x.entryCredits - 1 = 0 then .stopped else x.entryWindow }

/-- One crest credit is consumed; at 0 the window stops (R93). -/
def RampState.useCrestCredit (q : RampState) : RampState :=
  { q with crestCredits := q.crestCredits - 1
           crestWindow := if q.crestCredits - 1 = 0 then .stopped else q.crestWindow }

/-! ### Leaving the ramp and the crest -/

/-- A vehicle leaves the on-ramp list, and its decoded mass leaves the ramp mass (R71). -/
def leaveRamp (r : Ramp) (v : Vehicle) (s : State) : State :=
  s.updRamp r fun q => { q with onRamp := without v.tag q.onRamp, mass := q.mass - v.mass }

/-- A vehicle leaves its lane's past-crest list (R92). -/
def leaveCrest (l tag : Nat) (s : State) : State :=
  s.updLane l fun x => { x with pastCrest := without tag x.pastCrest }

/-- A crest event (R93). -/
def crestEvent (r : Ramp) (s : State) : State :=
  match (s.ramp r).direction with
  | .outbound => s
  | .inbound =>
    if 0 < (s.ramp r).crestCredits then s.updRamp r RampState.useCrestCredit
    else
      match (s.ramp r).onRamp.head? with
      | none => s.notify (.crestUnexpected r)
      | some tag =>
        match s.veh? tag with
        | none => s
        | some v =>
          match v.stage.lane? with
          | none => s
          | some l =>
            let s1 := leaveRamp r v s
            let s2 := s1.setStage tag (.pastCrest l)
            let s3 := s2.updLane l fun x => { x with pastCrest := x.pastCrest ++ [tag] }
            examineRamp r s3

/-! ### The placement (R99, R100) -/

/-- The deck changes of a placement: R99, steps 1 to 6. -/
def placeBind (v : Vehicle) (l : Nat) (s : State) : State :=
  match s.lane? l with
  | none => s
  | some x =>
    let off := s.lengthOf x.gap x.stow
    let s1 := s.updLane l fun x =>
      { x with claims := without v.tag x.claims, stow := x.stow ++ [v.tag]
               overdue := x.overdue - (if v.overdue then 1 else 0)
               placedMass := x.placedMass + v.mass }
    let s2 := s1.updSect x.sect fun c => { c with placed := c.placed + v.mass }
    s2.updVeh v.tag fun v => { v with stage := .placed l off, transit := .stopped, overdue := false }

/-- The offset a placement gives (R23): the used length of the stow list before the vehicle joins. -/
def State.nextOffset (s : State) (l : Nat) : Nat :=
  match s.lane? l with
  | some x => s.lengthOf x.gap x.stow
  | none => 0

/-- A placement (R99), and what it reaches (R100). The aspect is computed at the event's end. -/
def place (v : Vehicle) (l : Nat) (m : PlaceMeans) (s : State) : State :=
  examineRamp (s.rampOfNo l) ((placeBind v l s).notify (.placed v.tag l (s.nextOffset l) m))

/-- The oldest vehicle on a ramp bound for lane `l` (R95, case 3). -/
def State.firstOnRampFor (s : State) (r : Ramp) (l : Nat) : Option Vehicle :=
  (s.records (s.ramp r).onRamp).find? fun v => v.stage.lane? == some l

/-- An entry event at lane `l` (R95), with its verdict: matched or not (R96). -/
def entryEvent (l : Nat) (s : State) : State × Bool :=
  match s.lane? l with
  | none => (s, false)
  | some x =>
    if 0 < x.entryCredits then (s.updLane l Lane.useEntryCredit, true)
    else
      match x.pastCrest.head?.bind s.veh? with
      | some v => (place v l .entry (leaveCrest l v.tag s), true)
      | none =>
        match s.firstOnRampFor (s.rampOf x) l with
        | some v => (place v l .entry (gainCrest (s.rampOf x) (leaveRamp (s.rampOf x) v s)), true)
        | none => (s, false)

/-- A confirmation placement (R98). The entry credit, or the silent disagreement that stands for it, follows the
placement's own notices (R120; log 26, DEDUCED). -/
def confirmPlace (v : Vehicle) (l : Nat) (s : State) : State :=
  match s.lane? l with
  | none => s
  | some x =>
    let r := s.rampOf x
    let s1 :=
      match v.stage with
      | .onRamp _ => gainCrest r (leaveRamp r v s)
      | .pastCrest _ => leaveCrest l v.tag s
      | .standby | .assigned _ | .placed _ _ => s
    let s2 := place v l .confirm s1
    match x.mode with
    | .sensed => gainEntry l s2
    | .confirm => s2

/-- The transit timer of a RELEASED vehicle runs out (R107). -/
def transitExpires (tag : Nat) (s : State) : State :=
  match s.veh? tag with
  | none => s
  | some v =>
    match v.stage.released, v.stage.lane? with
    | true, some l =>
      let s1 := s.updVeh tag fun v => { v with transit := .expired, overdue := true }
      if v.overdue then s1
      else
        (s1.updLane l fun x => { x with overdue := x.overdue + 1 }).notify
          (.overdue tag l (s.rampOfNo l) v.stage.isPastCrest)
    | _, _ => s

/-- An entry credit window runs out (R102). -/
def entryWindowExpires (l : Nat) (s : State) : State :=
  match s.lane? l with
  | none => s
  | some x => scoreSilent l x.entryCredits (s.updLane l Lane.dropEntryCredits)

/-- A crest credit window runs out (R102). -/
def crestWindowExpires (r : Ramp) (s : State) : State :=
  s.updRamp r fun q => { q with crestCredits := 0, crestWindow := .stopped }

end Sys2Proof.Machine
end

