-- ==== Sys2Proof/Machine/Discharge.lean ====
section
/-! DEFINITION. Discharge (08_port_calls_and_discharge): exit credits, the discharge removal, the end of
unloading, exit events. -/

namespace Sys2Proof.Machine

/-- The lane gains an exit credit when fewer than 4 stand (R157). -/
def gainExit (l : Nat) (s : State) : State :=
  s.updLane l fun x =>
    if x.exitCredits < Config.creditCapacity then
      { x with exitCredits := x.exitCredits + 1, exitWindow := .running s.limits.sensor.window }
    else x

/-- One exit credit is consumed; at 0 the window stops (R155, R157). -/
def Lane.useExitCredit (x : Lane) : Lane :=
  { x with exitCredits := x.exitCredits - 1
           exitWindow := if x.exitCredits - 1 = 0 then .stopped else x.exitWindow }

/-- The discharge call of the stow tail. -/
def State.tailCall? (s : State) (x : Lane) : Option Nat :=
  x.stow.getLast?.bind fun t => (s.veh? t).map Vehicle.call

/-- The tail of the stow list carries the current call. -/
def State.tailDue (s : State) (x : Lane) : Bool :=
  match s.tailCall? x, s.voyage.call? with
  | some a, some c => a == c
  | _, _ => false

/-- The end of unloading is judged (R158): with no vehicle due at the tail the lane becomes OPEN, its exit credits
are discarded, and LANE_DISCHARGED is queued. -/
def judgeUnloading (l : Nat) (s : State) : State :=
  match s.lane? l with
  | none => s
  | some x =>
    if s.tailDue x then s
    else
      (s.updLane l fun x => { x.dropExitCredits with state := .opened }).notify
        (.laneDischarged l x.stow.length (s.lastCall? x))

/-- A vehicle leaves the tail of its stow list, its share leaves the deck model, its record is freed (R154,
steps 1, 2 and 4; R14). -/
def dropPlaced (v : Vehicle) (l : Nat) (s : State) : State :=
  (dropShare v l true (s.updLane l fun x => { x with stow := without v.tag x.stow })).freeVeh v.tag

/-- Steps 1 to 5 of a discharge removal (R154): the notice DEPARTED stands before those of the judgements. -/
def departTail (v : Vehicle) (l : Nat) (m : DepartMeans) (s : State) : State :=
  judgeRemoval l ((dropPlaced v l s).notify (.departed v.tag l v.call m))

/-- A discharge removal (R154). `credit`: a DEPART in a SENSED lane gains an exit credit before the end of
unloading is judged (R156). -/
def dischargeRemoval (v : Vehicle) (l : Nat) (m : DepartMeans) (credit : Bool) (s : State) : State :=
  let s1 := departTail v l m s
  let s2 := if credit then gainExit l s1 else s1
  (judgeUnloading l s2).sweepTrigger

/-- An exit event (R155), with its verdict. -/
def exitEvent (l : Nat) (s : State) : State × Bool :=
  match s.lane? l with
  | none => (s, false)
  | some x =>
    if 0 < x.exitCredits then (s.updLane l Lane.useExitCredit, true)
    else if s.tailDue x then
      match x.stow.getLast?.bind s.veh? with
      | some v => (dischargeRemoval v l .exit false s, true)
      | none => (s, false)
    else (s, false)

/-- An exit credit window runs out (R157). -/
def exitWindowExpires (l : Nat) (s : State) : State :=
  match s.lane? l with
  | none => s
  | some x => scoreSilent l x.exitCredits (s.updLane l Lane.dropExitCredits)

end Sys2Proof.Machine
end

