-- ==== Sys2Proof/Machine/CallRequests.lean ====
section
/-! DEFINITION. Voyage requests (08): VOYAGE_SET, CALL_OPEN, PHASE_LOAD, CALL_CLOSE, DISCHARGE_LANE. -/

namespace Sys2Proof.Machine

/-- VOYAGE_SET (R145). -/
def reqVoyageSet (n : Nat) (s : State) : State × Reply :=
  match s.profile, s.voyage with
  | .none, _ => (s, plain .noProfile)
  | .committing _, _ => (s, plain .busy)
  | .active, .noVoyage =>
    if n < 1 || 4 < n then (s, plain .range) else ({ s with voyage := .atSea 0 n }, plain .ok)
  | .active, .atSea _ _ | .active, .discharge _ _ | .active, .load _ _ => (s, plain .phase)

/-- CALL_OPEN (R146). -/
def reqCallOpen (s : State) : State × Reply :=
  match s.voyage with
  | .atSea c n => ({ s with voyage := .discharge c n }, ⟨.ok, u8 c⟩)
  | .noVoyage | .discharge _ _ | .load _ _ => (s, plain .phase)

/-- PHASE_LOAD (R147). -/
def reqPhaseLoad (s : State) : State × Reply :=
  match s.voyage with
  | .discharge c n =>
    if c = n then (s, plain .lastCall) else ({ s with voyage := .load c n }.sweepTrigger, plain .ok)
  | .noVoyage | .atSea _ _ | .load _ _ => (s, plain .phase)

/-! ### CALL_CLOSE (R148 to R150) -/

def State.assignedCount (s : State) : Nat := (s.vehicles.filter fun v => v.stage.isAssigned).length
def State.releasedCount (s : State) : Nat := (s.vehicles.filter fun v => v.stage.released).length

/-- Vehicles of call c on board; the IN_FLIGHT line has left PLACED ones and standby ones only, and those on
board are the PLACED (R148, R151; log 30, DEDUCED). -/
def State.dueCount (s : State) (c : Nat) : Nat :=
  (s.vehicles.filter fun v => v.stage.isPlaced && v.call == c).length

/-- The lowest-numbered UNLOADING lane. -/
def State.firstUnloading (s : State) : Option Nat := (s.lanesWhere fun x => x.state == .unloading).head?

/-- Shut out one vehicle of the standby list (R149). -/
def shutOutOne (s : State) (tag : Nat) : State :=
  match s.veh? tag with
  | some v => ({ s with standby := without tag s.standby }.freeVeh tag).notify (.shutOut tag v.call)
  | none => { s with standby := without tag s.standby }

/-- Shut out the standby list, head to tail (R149). -/
def shutOut (s : State) : State := s.standby.foldl shutOutOne s

/-- Overcarry: every vehicle still due at call c is due at the next (R150). -/
def overcarry (c : Nat) (s : State) : State :=
  { s with vehicles := s.vehicles.map fun v =>
      if v.stage.isPlaced && v.call == c then { v with call := c + 1 } else v }

/-- What an accepted close leaves (R149, R150). -/
def closeCall (c n : Nat) (s : State) : State :=
  let s1 := overcarry c (shutOut s)
  { s1 with voyage := if c = n then .noVoyage else .atSea (c + 1) n }

/-- The lines of R148 at an open call c of N. -/
def closeOpen (yes : Bool) (c n : Nat) (s : State) : State × Reply :=
  if 0 < s.assignedCount + s.releasedCount then
    (s, ⟨.inFlight, be 2 s.assignedCount ++ be 2 s.releasedCount⟩)
  else
    match s.firstUnloading with
    | some l => (s, ⟨.unloading, u8 l⟩)
    | none =>
      if s.lower.seq != .stopped || s.upper.seq != .stopped then
        (s, ⟨.ramps, u8 (rampSet (s.lower.seq != .stopped) (s.upper.seq != .stopped))⟩)
      else if 0 < s.dueCount c && (c == n || !yes) then (s, ⟨.remaining, be 2 (s.dueCount c)⟩)
      else
        let s1 := closeCall c n s
        (s1, ⟨.ok, u8 s.standby.length ++ be 2 (s.dueCount c) ++ u8 s1.voyage.code ++ optU8 s1.voyage.call?⟩)

/-- CALL_CLOSE (R148). R148 names no RANGE for the overcarry choice, so the link port refuses another code
(R192). -/
def reqCallClose (choice : Nat) (s : State) : State × Reply :=
  match onOff choice with
  | none => (s, plain .range)
  | some yes =>
    match s.voyage with
    | .noVoyage | .atSea _ _ => (s, plain .phase)
    | .discharge c n | .load c n => closeOpen yes c n s

/-! ### DISCHARGE_LANE (R152, R153) -/

/-- The panel that bars a lane's unloading, with its state (R152). -/
def State.barringPanel (s : State) (x : Lane) : Option (Nat × PanelPos) :=
  match (s.carrier? x.sect).filter fun q => q.2.state != .working with
  | some (p, y) => some (p, y.state)
  | none =>
    (x.cover.bind fun k => (s.panel? k.panel).map fun y => (k.panel, y.state)).filter fun q => q.2.moving

/-- The unbroken run of call-c entries at the tail of the stow list (R152). -/
def State.dueRun (s : State) (x : Lane) (c : Nat) : Nat :=
  ((s.records x.stow).reverse.takeWhile fun v => v.call == c).length

/-- The changes of R153 to the lane. -/
def Lane.beginUnloading (x : Lane) : Lane :=
  { x.dropEntryCredits with state := .unloading, exitWindow := .stopped }

/-- The lines of R152 from the lane's state on, at an open call c. -/
def dischargeOpen (lane : Nat) (x : Lane) (c : Nat) (s : State) : State × Reply :=
  if x.state = .unloading then (s, ⟨.state, [0xFF#8, 0xFF#8]⟩)
  else if !x.claims.isEmpty then (s, ⟨.claims, u8 x.claims.length⟩)
  else
    match (s.ramp (s.rampOf x)).direction with
    | .inbound => (s, plain .direction)
    | .outbound =>
      match s.barringPanel x with
      | some (p, st) => (s, ⟨.state, u8 p ++ u8 st.code⟩)
      | none =>
        if s.tailCall? x == some c then
          (s.updLane lane Lane.beginUnloading, ⟨.ok, u8 (s.dueRun x c)⟩)
        else (s, ⟨.nothingDue, optU8 (s.lastCall? x)⟩)

/-- DISCHARGE_LANE (R152). -/
def reqDischargeLane (lane : Nat) (s : State) : State × Reply :=
  match s.voyage with
  | .noVoyage | .atSea _ _ => (s, plain .phase)
  | .discharge c _ | .load c _ =>
    match s.lane? lane with
    | none => (s, plain .range)
    | some x => dischargeOpen lane x c s

end Sys2Proof.Machine
end

