-- ==== Sys2Proof/Machine/Allocation.lean ====
section
/-! DEFINITION. Allocation and standby (03_allocation_and_standby): the lane tests, the choice among candidates,
the claim and the standby sweep. -/

namespace Sys2Proof.Machine

/-! ### Dangerous goods -/

/-- The segregation level of two groups (R51). -/
def State.dgLevel (s : State) (g h : Nat) : Nat :=
  ((s.limits.dg[g - 1]?).bind fun d => d.levels[h - 1]?).getD 0

/-- Group g may stand only on WEATHER decks (R51). -/
def State.openDeckOnly (s : State) (g : Nat) : Bool :=
  match s.limits.dg[g - 1]? with
  | some d => d.openDeckOnly
  | none => false

/-- The lane lies on a WEATHER deck. -/
def State.onWeather (s : State) (x : Lane) : Bool :=
  match s.deckOf x with
  | some d => d.kind = .weather
  | none => false

/-- Level `v` permits one vehicle in lane `l` while the other stands in lane `k` (R51, R52). -/
def State.permits (s : State) (v : Nat) (l : Nat) (x : Lane) (k : Nat) (y : Lane) : Bool :=
  match v with
  | 0 => true
  | 1 => l != k
  | 2 => l != k && !s.adjacent x y
  | 3 => l != k && !s.adjacent x y && x.sect != y.sect
  | _ => s.deckNo x != s.deckNo y

/-- The DG groups of a lane's two lists (R25). -/
def State.dgGroups (s : State) (y : Lane) : List Nat := (s.records (y.stow ++ y.claims)).filterMap Vehicle.dg

/-! ### Lane tests (R45) -/

/-- The lane tests T1 to T11, as a test of a vehicle at a lane number and its lane. -/
def testT1 (_ : State) (v : Vehicle) (l : Nat) (_ : Lane) : Bool :=
  match v.reqLane with
  | none => true
  | some q => q == l

/-- T2 availability (R47). -/
def testT2 (s : State) (_ : Vehicle) (_ : Nat) (x : Lane) : Bool := s.available x

/-- T3 clearance (R48). -/
def testT3 (s : State) (v : Vehicle) (_ : Nat) (x : Lane) : Bool := v.height ≤ s.clearance x

/-- T4 axle (R48). -/
def testT4 (_ : State) (v : Vehicle) (_ : Nat) (x : Lane) : Bool := v.axle ≤ x.axleLimit

/-- T5 reefer (R49). -/
def testT5 (_ : State) (v : Vehicle) (_ : Nat) (x : Lane) : Bool := !v.reefer || x.reefers < x.sockets

/-- T6 length (R49). -/
def testT6 (_ : State) (v : Vehicle) (_ : Nat) (x : Lane) : Bool :=
  v.length + x.gap ≤ x.remaining && x.claims.length < Config.claimCapacity
    && x.stow.length + x.claims.length < Config.laneCapacity

/-- T7 order (R50). -/
def testT7 (s : State) (v : Vehicle) (_ : Nat) (x : Lane) : Bool :=
  match s.lastCall? x with
  | none => true
  | some c => v.call ≤ c

/-- T8 segregation (R52). -/
def testT8 (s : State) (v : Vehicle) (l : Nat) (x : Lane) : Bool :=
  match v.dg with
  | none => true
  | some g =>
    (s.onWeather x || !s.openDeckOnly g) &&
      (List.range s.lanes.length).all fun k =>
        match s.lane? k with
        | none => true
        | some y => (s.dgGroups y).all fun h => s.permits (s.dgLevel g h) l x k y

/-- T9 section mass (R54). -/
def testT9 (s : State) (v : Vehicle) (_ : Nat) (x : Lane) : Bool :=
  match s.sect? x.sect with
  | some c => c.projected + v.mass ≤ c.massLimit * 1000
  | none => false

/-- The list moment after a claim of the lane (R55). -/
def State.momentAfter (s : State) (v : Vehicle) (x : Lane) : Int := s.listMoment + v.mass * x.offset

/-- T10 list (R55). -/
def testT10 (s : State) (v : Vehicle) (_ : Nat) (x : Lane) : Bool :=
  (s.momentAfter v x).natAbs ≤ s.limits.listLimit * 10000
    || (s.momentAfter v x).natAbs < s.listMoment.natAbs

/-- T11 queue space (R56). -/
def testT11 (s : State) (v : Vehicle) (_ : Nat) (x : Lane) : Bool :=
  ((s.ramp (s.rampOf x)).queue v.cls.kind).length < Config.queueCapacity

/-- The tests in their order (R45). -/
def laneTests : List (State → Vehicle → Nat → Lane → Bool) :=
  [testT1, testT2, testT3, testT4, testT5, testT6, testT7, testT8, testT9, testT10, testT11]

/-- Lanes of a list that pass a test. -/
def keepLanes (s : State) (v : Vehicle) (t : State → Vehicle → Nat → Lane → Bool) (ls : List Nat) : List Nat :=
  ls.filter fun l => match s.lane? l with | some x => t s v l x | none => false

/-- What filters leave: the candidates, or the number of the first test after which no lane remained. -/
inductive Filtered where
  | lanes (ls : List Nat)
  | emptyAt (test : Nat)
  deriving DecidableEq, Repr

/-- Successive filters, numbered from `n` (R45, R9). -/
def runFilters (s : State) (v : Vehicle) :
    List (State → Vehicle → Nat → Lane → Bool) → Nat → List Nat → Filtered
  | [], _, ls => .lanes ls
  | t :: ts, n, ls =>
    let kept := keepLanes s v t ls
    if kept.isEmpty then .emptyAt n else runFilters s v ts (n + 1) kept

/-- The candidates of an allocation, or the standby reason (R44, R45). -/
def candidates (s : State) (v : Vehicle) : Filtered :=
  runFilters s v laneTests 1 (List.range s.lanes.length)

/-! ### Preference (R57) -/

/-- P1 call match. -/
def keyP1 (s : State) (v : Vehicle) (x : Lane) : Nat :=
  match s.lastCall? x with
  | none => 1
  | some c => if c = v.call then 0 else 2

/-- P2 section headroom. -/
def keyP2 (s : State) (v : Vehicle) (x : Lane) : Nat :=
  match s.sect? x.sect with
  | some c => if sectAbove (s.thresholdOf c) c.massLimit (c.projected + v.mass) then 1 else 0
  | none => 0

/-- The keys P1 to P5 of a lane. -/
def prefKeys (s : State) (v : Vehicle) (l : Nat) : List Nat :=
  match s.lane? l with
  | some x =>
    [keyP1 s v x, keyP2 s v x, (s.momentAfter v x).natAbs, x.remaining - (v.length + x.gap), l]
  | none => []

/-- A list of keys ranks before another: the first difference decides, the lower value first. -/
def ranksBefore : List Nat → List Nat → Bool
  | a :: as, b :: bs => if a < b then true else if b < a then false else ranksBefore as bs
  | _, _ => false

/-- The first-ranked lane of the candidates (R57). -/
def bestLane (s : State) (v : Vehicle) : List Nat → Option Nat
  | [] => none
  | l :: ls =>
    some (ls.foldl (fun b k => if ranksBefore (prefKeys s v k) (prefKeys s v b) then k else b) l)

/-- An allocation: the lane claimed, or the standby reason (R44). -/
inductive Allocation where
  | claim (lane : Nat)
  | noCandidate (reason : Nat)
  deriving DecidableEq, Repr

def allocate (s : State) (v : Vehicle) : Allocation :=
  match candidates s v with
  | .emptyAt n => .noCandidate n
  | .lanes ls =>
    match bestLane s v ls with
    | some l => .claim l
    | none => .noCandidate 1

/-! ### Claim and sweep -/

/-- Steps 1 to 4 of the claim of lane `l` for vehicle `v` (R58): claim list, record, queue, figures. -/
def bindClaim (v : Vehicle) (l : Nat) (s : State) : State :=
  let r := s.rampOfNo l
  let s1 := s.setStage v.tag (.assigned l)
  let s2 := s1.updLane l fun x => { x with claims := x.claims ++ [v.tag] }
  let s3 := s2.updRamp r fun q => q.setQueue v.cls.kind (q.queue v.cls.kind ++ [v.tag])
  addShare v l s3

/-- The claim (R58, R59). In a sweep (`announce`) the STANDBY_ASSIGNED notice stands before the notices of the
arms and of the sequencer (R59, R64). -/
def claimLane (v : Vehicle) (l : Nat) (announce : Bool) (s : State) : State :=
  let r := s.rampOfNo l
  let s1 := bindClaim v l s
  let s2 := if announce then s1.notify (.standbyAssigned v.tag l r) else s1
  claimReaches r (judgeClaim l s2)

/-- One vehicle of a standby sweep (R62). -/
def sweepOne (s : State) (tag : Nat) : State :=
  match s.veh? tag with
  | none => s
  | some v =>
    match allocate s v with
    | .noCandidate _ => s
    | .claim l => claimLane v l true { s with standby := without tag s.standby }

/-- One pass over the standby list, head to tail (R62). -/
def sweep (s : State) : State := s.standby.foldl sweepOne s

/-- The event's one sweep, run as its last part when a trigger was met and the voyage stands in LOAD (R64).
Triggers met within the sweep run no second one. -/
def sweepIfDue (s : State) : State :=
  let s1 :=
    if s.ev.sweepDue then
      match s.voyage with
      | .load _ _ => sweep s
      | .noVoyage | .atSea _ _ | .discharge _ _ => s
    else s
  { s1 with ev := EventMarks.none }

end Sys2Proof.Machine
end

