-- ==== Sys2Proof/Machine/Hoist.lean ====
section
/-! DEFINITION. Hoistable panels (07_hoistable_deck_panels, and 06, R126 and R127): line positions, the position
check, faults, arrivals, moves, borrowed loops. -/

namespace Sys2Proof.Machine

/-- The line position of a panel (R131). -/
inductive LinePos where
  | stowed
  | working
  | neither
  | both
  deriving DecidableEq, Repr

def LinePos.code : LinePos → Nat
  | .stowed => 0
  | .working => 1
  | .neither => 2
  | .both => 3

/-- The up-limit line of a panel is active. -/
def State.upActive (s : State) (p : Nat) : Bool := (s.pins.upLimit[p]?).getD false

/-- The down-limit line of a panel is active. -/
def State.downActive (s : State) (p : Nat) : Bool := (s.pins.downLimit[p]?).getD false

def State.linePos (s : State) (p : Nat) : LinePos :=
  match s.upActive p, s.downActive p with
  | true, false => .stowed
  | false, true => .working
  | false, false => .neither
  | true, true => .both

/-- The first lane on the panel with a stow entry or a claim (R131, R135). -/
def State.firstLoadedOn (s : State) (p : Nat) : Option Nat :=
  (s.lanesOn p).find? fun l =>
    match s.lane? l with
    | some x => !(x.stow.isEmpty && x.claims.isEmpty)
    | none => false

/-- The vehicles of a lane above its reduced class, stow list before claim list. -/
def State.tallIn (s : State) (l : Nat) : List (Nat × Nat) :=
  match s.lane? l with
  | none => []
  | some x =>
    match x.cover with
    | none => []
    | some c => ((s.records (x.stow ++ x.claims)).filter fun v => c.reduced < v.height).map fun v => (v.tag, l)

/-- The first vehicle under the panel above its lane's reduced class, with its lane (R131, R135). -/
def State.firstTallUnder (s : State) (p : Nat) : Option (Nat × Nat) := ((s.lanesUnder p).flatMap s.tallIn).head?

/-- The RELEASED vehicles of a lane, or the lane itself when it is UNLOADING (tag absent). -/
def State.trafficIn (s : State) (l : Nat) : List (Option Nat × Nat) :=
  match s.lane? l with
  | none => []
  | some x =>
    ((s.records x.claims).filter fun v => v.stage.released).map (fun v => (some v.tag, l))
      ++ (if x.state = .unloading then [(none, l)] else [])

/-- The first RELEASED vehicle or UNLOADING lane on or under the panel, in lane order (R135; log 16, DESIGN
CHOICE). -/
def State.firstTraffic (s : State) (p : Nat) : Option (Option Nat × Nat) :=
  ((s.lanesOnUnder p).flatMap s.trafficIn).head?

def LastFault.none : LastFault := { reason := .none, lane := Option.none, tag := Option.none }

/-- The position check (R131): the state that the line position gives, or the fault. -/
def positionCheck (s : State) (p : Nat) : PanelPos × LastFault :=
  match s.linePos p with
  | .stowed =>
    match s.firstLoadedOn p with
    | none => (.stowed, LastFault.none)
    | some l => (.fault, ⟨.loaded, some l, none⟩)
  | .working =>
    match s.firstTallUnder p with
    | none => (.working, LastFault.none)
    | some (t, l) => (.fault, ⟨.clearance, some l, some t⟩)
  | .neither => (.unknown, LastFault.none)
  | .both => (.fault, ⟨.doubleLimit, none, none⟩)

/-! ### Borrowed loops (R126, R127) -/

/-- Borrowing begins: the entry credit windows of the lanes on the panel are suspended. -/
def beginBorrow (p : Nat) (s : State) : State :=
  (s.lanesOn p).foldl (fun s l => s.updLane l fun x => { x with entryWindow := x.entryWindow.suspend }) s

/-- The first lane on the panel whose loop reads OCCUPIED (R126). -/
def State.firstObstructed (s : State) (p : Nat) : Option Nat :=
  (s.lanesOn p).find? fun l => match s.lane? l with | some x => x.occupied | none => false

/-- A loop returns to lane service (R127): its entry credit window resumes, and a SENSOR_CLEAR taken while it was
borrowed takes effect (R121). -/
def Lane.handBack (x : Lane) : Lane :=
  { x with entryWindow := x.entryWindow.resume, suspect := x.counted, clearing := false }

/-- Borrowing ends (R127): the loops return, are judged in lane order, the carried section and the lanes' placement
modes are recomputed. -/
def endBorrow (p : Nat) (s : State) : State :=
  let ls := s.lanesOn p
  let s1 := ls.foldl (fun s l => s.updLane l Lane.handBack) s
  let s2 := judgeLoops ls (match s.panel? p with | some x => [x.carried] | none => []) s1
  ls.foldl (fun s l => remodeLane l s) s2

/-- End the borrowing when the panel was moving. -/
def endBorrowIf (was : PanelPos) (p : Nat) (s : State) : State := if was.moving then endBorrow p s else s

/-! ### Changes of state -/

/-- The panel takes a state and its move timer stops. -/
def setPanel (p : Nat) (st : PanelPos) (s : State) : State :=
  s.updPanel p fun x => { x with state := st, timer := .stopped }

/-- The neighbours are told of a change of state (R139): the sequencers examine, and an arrival triggers a sweep.
Aspects are computed at the event's end. -/
def tellNeighbours (arrival : Bool) (s : State) : State :=
  let s1 := examineBoth s
  if arrival then s1.sweepTrigger else s1

/-- A panel enters FAULT (R134). -/
def enterFault (p : Nat) (f : LastFault) (s : State) : State :=
  match s.panel? p with
  | none => s
  | some x =>
    let s1 := (setPanel p .fault s).updPanel p fun x => { x with fault := f }
    tellNeighbours false (endBorrowIf x.state p (s1.notify (.hoistFault p f.reason f.lane f.tag)))

/-- A panel arrives at a height (R137, R133, R140, R135): HOIST_DONE, the end of borrowing, the neighbours. -/
def arrive (p : Nat) (st : PanelPos) (m : DoneMeans) (s : State) : State :=
  match s.panel? p with
  | none => s
  | some x =>
    tellNeighbours true (endBorrowIf x.state p ((setPanel p st s).notify (.hoistDone p st m)))

/-- A panel loses its position (R133). -/
def losePosition (p : Nat) (was : PanelPos) (s : State) : State :=
  tellNeighbours false ((setPanel p .unknown s).notify (.hoistPositionLost p was))

/-- An UNKNOWN panel regains its position, under the position check (R133). -/
def regain (p : Nat) (s : State) : State :=
  match positionCheck s p with
  | (.stowed, _) => arrive p .stowed .regain s
  | (.working, _) => arrive p .working .regain s
  | (.fault, f) => enterFault p f s
  | (.unknown, _) | (.raising, _) | (.lowering, _) => s

def LastFault.double : LastFault := { reason := .doubleLimit, lane := Option.none, tag := Option.none }

/-- A limit line event is taken according to the panel's state (R132). The pins hold the new levels. -/
def limitEvent (p : Nat) (line : LimitLine) (active : Bool) (s : State) : State :=
  match s.panel? p with
  | none => s
  | some x =>
    match x.state, line, active with
    | .stowed, .up, false => if s.downActive p then s else losePosition p .stowed s
    | .stowed, .down, true => enterFault p LastFault.double s
    | .stowed, .up, true | .stowed, .down, false => s
    | .working, .down, false => if s.upActive p then s else losePosition p .working s
    | .working, .up, true => enterFault p LastFault.double s
    | .working, .down, true | .working, .up, false => s
    | .raising, .up, true =>
      if s.downActive p then enterFault p LastFault.double s else arrive p .stowed .limit s
    | .raising, .down, true => if s.upActive p then enterFault p LastFault.double s else s
    | .raising, .up, false | .raising, .down, false => s
    | .lowering, .down, true =>
      if s.upActive p then enterFault p LastFault.double s else arrive p .working .limit s
    | .lowering, .up, true => if s.downActive p then enterFault p LastFault.double s else s
    | .lowering, .up, false | .lowering, .down, false => s
    | .unknown, _, true => regain p s
    | .unknown, _, false => s
    | .fault, _, _ => s

/-- The move timer of a panel runs out (R138). -/
def moveExpires (p : Nat) (s : State) : State :=
  match s.panel? p with
  | none => s
  | some x => if x.state.moving then enterFault p ⟨.timeout, none, none⟩ s else s

/-- An obstruction reported by the loop of lane `l` (R138). -/
def obstruct (p l : Nat) (s : State) : State := enterFault p ⟨.obstruction, some l, none⟩ s

/-- An accepted HOIST_MOVE begins the move (R136). -/
def beginMove (p : Nat) (st : PanelPos) (s : State) : State :=
  match s.panel? p with
  | none => s
  | some x =>
    let s1 := s.updPanel p fun y => { y with state := st, timer := .running x.moveLimit }
    let s2 := beginBorrow p s1
    match s2.firstObstructed p with
    | some l => obstruct p l s2
    | none => tellNeighbours false s2

/-- HOIST_STOP (R140) on panel `p`. -/
def stopPanel (p : Nat) (s : State) : State :=
  match s.panel? p with
  | none => s
  | some x =>
    match positionCheck s p with
    | (.fault, f) =>
      if x.state = .fault then
        if x.fault = f then s
        else (s.updPanel p fun x => { x with fault := f }).notify (.hoistFault p f.reason f.lane f.tag)
      else enterFault p f s
    | (.stowed, _) => if x.state = .stowed then s else arrive p .stowed .stop s
    | (.working, _) => if x.state = .working then s else arrive p .working .stop s
    | (.unknown, _) | (.raising, _) | (.lowering, _) =>
      if x.state = .unknown then s
      else tellNeighbours false (endBorrowIf x.state p (setPanel p .unknown s))

end Sys2Proof.Machine
end

