-- ==== Sys2Proof/Machine/DeckRequests.lean ====
section
/-! DEFINITION. Deck requests (02): LANE_GET, SECTION_GET, THRESHOLD_SET, LANE_SHUT, LANE_OPEN. -/

namespace Sys2Proof.Machine

/-- Take one free byte (log 12). -/
def State.freeByte (s : State) : State × Byte :=
  ({ s with freeCtr := s.freeCtr + 1 }, Config.unstatedByte s.freeCtr)

/-! ### LANE_GET (R40) -/

/-- Bits 15 to 13 of an entry for a claim (11.6). -/
def Stage.entryCode : Stage → Nat
  | .assigned _ => 1
  | .onRamp _ => 2
  | .pastCrest _ => 3
  | .standby | .placed _ _ => 0

/-- The offset of a stow entry; 0 for a claim. -/
def Stage.entryOffset : Stage → Nat
  | .placed _ o => o
  | .standby | .assigned _ | .onRamp _ | .pastCrest _ => 0

/-- One LANE_GET entry, 10 bytes (11.6). -/
def Vehicle.entry (v : Vehicle) : List Byte :=
  be 4 v.tag ++ u8 v.call ++ u8 v.length
    ++ be 2 (v.stage.entryCode * 8192 + (if v.overdue then 4096 else 0) + v.massCode)
    ++ be 2 v.stage.entryOffset

/-- The header of R40; `reduced` is the reduced class byte. -/
def State.laneHeader (s : State) (l : Nat) (x : Lane) (reduced : List Byte) : List Byte :=
  u8 l ++ u8 x.sect ++ optU8 (s.deckNo x) ++ u8 ((s.deckOf x).elim 0 fun d => d.kind.code) ++ u8 x.athwart
    ++ beInt 2 x.offset ++ be 2 x.usable ++ u8 x.gap ++ u8 x.baseClass ++ u8 x.axleLimit ++ u8 x.sockets
    ++ optU8 (x.cover.map Cover.panel) ++ reduced ++ u8 (rampCode (s.rampOf x)) ++ u8 (s.clearance x)
    ++ u8 x.state.code ++ flag x.held ++ u8 x.overdue ++ u8 x.mode.code

/-- The totals of R40. -/
def State.laneTotals (s : State) (x : Lane) : List Byte :=
  u8 x.stow.length ++ u8 x.claims.length ++ be 2 x.used ++ be 2 x.remaining ++ u8 x.reefers ++ be 3 x.mass
    ++ be 3 x.placedMass ++ optU8 (s.lastCall? x)

/-- The entries of R40 from a start index, up to 20, after the count of entries beyond the last. -/
def State.laneEntries (s : State) (x : Lane) (start : Nat) : List Byte :=
  let rest := (s.records (x.stow ++ x.claims)).drop start
  u8 (rest.length - 20) ++ (rest.take 20).flatMap Vehicle.entry

def reqLaneGet (lane start : Nat) (s : State) : State × Reply :=
  if !s.profile.inForce then (s, plain .noProfile)
  else
    match s.lane? lane with
    | none => (s, plain .range)
    | some x =>
      if 47 < start then (s, plain .range)
      else
        match x.cover with
        | some c =>
          (s, ⟨.ok, s.laneHeader lane x (u8 c.reduced) ++ s.laneTotals x ++ s.laneEntries x start⟩)
        | none =>
          (s.freeByte.1,
            ⟨.ok, s.laneHeader lane x [s.freeByte.2] ++ s.laneTotals x ++ s.laneEntries x start⟩)

/-! ### SECTION_GET (R41) -/

/-- The closure causes that hold (R41, R168). -/
def State.closureCauses (s : State) (i : Nat) : Nat :=
  (if s.closure.glob then 1 else 0) + (if s.closure.masks i then 2 else 0) + (if s.sensorClosed i then 4 else 0)

/-- The vessel's list figures that every SECTION_GET reply carries (R41). -/
def State.listFigures (s : State) : List Byte :=
  beInt 6 s.listMoment ++ be 2 s.limits.listLimit ++ u8 s.listThreshold ++ u8 s.listArm.code ++ flag s.listOver

/-- The section's own figures (R41). -/
def State.sectionHead (s : State) (i : Nat) (c : Sect) : List Byte :=
  u8 c.deck ++ u8 ((s.deck? c.deck).elim 0 fun d => d.kind.code) ++ be 2 c.massLimit ++ be 4 c.projected
    ++ be 4 c.placed ++ u8 (s.thresholdOf c) ++ u8 c.arm.code ++ u8 (s.lanesWhere fun x => x.sect == i).length
    ++ flag (s.closed i) ++ u8 (s.closureCauses i) ++ u8 c.mode.code

/-- The panel that carries a section, its state and its last fault (R41, R130). -/
def panelFields (p : Nat) (y : Panel) : List Byte :=
  u8 p ++ u8 y.state.code ++ u8 y.fault.reason.code ++ optU8 y.fault.lane ++ optTag y.fault.tag

/-- The same of a section without a panel; the byte of the absent panel state is free (log 12). -/
def noPanelFields (b : Byte) : List Byte := [0xFF#8, b] ++ u8 FaultReason.none.code ++ optU8 none ++ optTag none

def reqSectionGet (i : Nat) (s : State) : State × Reply :=
  if !s.profile.inForce then (s, plain .noProfile)
  else
    match s.sect? i with
    | none => (s, plain .range)
    | some c =>
      match s.carrier? i with
      | some (p, y) => (s, ⟨.ok, s.sectionHead i c ++ panelFields p y ++ s.listFigures⟩)
      | none =>
        (s.freeByte.1, ⟨.ok, s.sectionHead i c ++ noPanelFields s.freeByte.2 ++ s.listFigures⟩)

/-! ### THRESHOLD_SET (R39) -/

/-- The sections of a deck, in order. -/
def State.sectsOf (s : State) (d : Nat) : List Nat :=
  (List.range s.sections.length).filter fun i => match s.sect? i with | some c => c.deck == d | none => false

def reqThresholdSet (target t : Nat) (s : State) : State × Reply :=
  if !s.profile.inForce then (s, plain .noProfile)
  else if t < 128 || 255 < t then (s, plain .range)
  else if target = 0xFF then (judgeList { s with listThreshold := t }, plain .ok)
  else
    match s.deck? target with
    | none => (s, plain .range)
    | some _ =>
      let s1 := s.updDeck target fun d => { d with threshold := t }
      ((s1.sectsOf target).foldl (fun s i => judgeSect i s) s1, plain .ok)

/-! ### LANE_SHUT and LANE_OPEN (R30, R31) -/

def reqLaneShut (lane : Nat) (s : State) : State × Reply :=
  if !s.profile.inForce then (s, plain .noProfile)
  else
    match s.lane? lane with
    | none => (s, plain .range)
    | some x =>
      match x.state with
      | .unloading => (s, plain .state)
      | .shut => (s, plain .ok)
      | .opened => (s.updLane lane fun x => { x with state := .shut }, plain .ok)

def reqLaneOpen (lane : Nat) (s : State) : State × Reply :=
  if !s.profile.inForce then (s, plain .noProfile)
  else
    match s.lane? lane with
    | none => (s, plain .range)
    | some x =>
      match x.state with
      | .unloading => (s, plain .state)
      | .opened => (s, plain .ok)
      | .shut => ((s.updLane lane fun x => { x with state := .opened }).sweepTrigger, plain .ok)

end Sys2Proof.Machine
end

