-- ==== Sys2Proof/Machine/HoistRequests.lean ====
section
/-! DEFINITION. Hoist requests (07): HOIST_MOVE, HOIST_STOP. -/

namespace Sys2Proof.Machine

/-- The target of a HOIST_MOVE: the state aimed at, its line position and the moving state (R135, R136). -/
def hoistTarget (code : Nat) : Option (PanelPos × LinePos × PanelPos) :=
  match code with
  | 0 => some (.stowed, .stowed, .raising)
  | 1 => some (.working, .working, .lowering)
  | _ => none

/-- The CLEARANCE line applies: target WORKING, or the panel UNKNOWN or FAULT (R135). -/
def clearanceApplies (target state : PanelPos) : Bool :=
  target = .working || state = .unknown || state = .fault

/-- HOIST_MOVE (R135): the lines in their order. -/
def reqHoistMove (panel target : Nat) (s : State) : State × Reply :=
  if !s.profile.inForce then (s, plain .noProfile)
  else
    match s.panel? panel, hoistTarget target with
    | some x, some (goal, line, moving) =>
      if x.state.moving then (s, plain .busy)
      else if s.linePos panel = .both then (s, plain .state)
      else if x.state = goal then (s, plain .ok)
      else
        match (if goal = .stowed then s.firstLoadedOn panel else none) with
        | some l => (s, ⟨.notEmpty, u8 l⟩)
        | none =>
          match (if clearanceApplies goal x.state then s.firstTallUnder panel else none) with
          | some (t, l) => (s, ⟨.clearance, be 4 t ++ u8 l⟩)
          | none =>
            match s.firstTraffic panel with
            | some (t, l) => (s, ⟨.traffic, optTag t ++ u8 l⟩)
            | none =>
              if x.state = .fault && s.linePos panel = line then (arrive panel goal .request s, plain .ok)
              else (beginMove panel moving s, plain .accepted)
    | _, _ => (s, plain .range)

/-- HOIST_STOP (R140). -/
def reqHoistStop (panel : Nat) (s : State) : State × Reply :=
  if !s.profile.inForce then (s, plain .noProfile)
  else
    match s.panel? panel with
    | none => (s, plain .range)
    | some _ =>
      let s1 := stopPanel panel s
      (s1, ⟨.ok, u8 ((s1.panel? panel).elim 0 fun x => x.state.code) ++ u8 (s.linePos panel).code⟩)

end Sys2Proof.Machine
end

