-- ==== Sys2Proof/Machine/Loops.lean ====
section
/-! DEFINITION. Loop edges (06, R111 to R116): readings, counted edges, watch and latch, where a counted edge
goes. -/

namespace Sys2Proof.Machine

/-- A lane loop reads OCCUPIED when its line stands at the level of its deck's polarity (R111). -/
def State.reads (s : State) (x : Lane) (high : Bool) : Bool :=
  match s.deckOf x with
  | some d => high == d.occupiedHigh
  | none => high

/-- The counted edge is OCCUPY in an OPEN or SHUT lane and CLEAR in an UNLOADING one (R112). -/
def LaneState.counts (st : LaneState) (occupy : Bool) : Bool :=
  match st with
  | .opened | .shut => occupy
  | .unloading => !occupy

/-- A counted edge at a watched lane (R116): the deck's latch is set; with the notice enable on, SENSOR_EVENT. -/
def watchEdge (l : Nat) (x : Lane) (occupy : Bool) (s : State) : State :=
  if x.watch then
    match s.deckNo x, s.deckOf x with
    | some d, some k =>
      let s1 := s.updDeck d fun k => { k with latch := true }
      if k.noticeOn then s1.notify (.sensorEvent l occupy x.state x.mode) else s1
    | _, _ => s
  else s

/-- A counted edge of a lane whose loop is not borrowed (R114). -/
def countedEdge (l : Nat) (x : Lane) (occupy : Bool) (s : State) : State :=
  let s1 := watchEdge l x occupy s
  match x.mode with
  | .confirm => s1
  | .sensed =>
    let (s2, matched) :=
      match x.state with
      | .unloading => exitEvent l s1
      | .opened | .shut => entryEvent l s1
    if matched then scoreMatched l s2 else scorePhantom l s2

/-- An edge of lane `l`: the reading changes to `occupied` (R111, R112, R114, R126). -/
def laneEdge (l : Nat) (occupied : Bool) (s : State) : State :=
  match s.lane? l with
  | none => s
  | some x =>
    let s1 := s.updLane l fun x => { x with occupied := occupied }
    match s.carrier? x.sect, s.borrowed x with
    | some (p, _), true => if occupied then obstruct p l s1 else s1
    | _, _ => if x.state.counts occupied then countedEdge l x occupied s1 else s1

/-- The loop line of lane `l` has come to a level: an edge when the reading changes (R111). Lines of lanes outside
the deck model are ignored. -/
def laneLine (l : Nat) (high : Bool) (s : State) : State :=
  match s.lane? l with
  | none => s
  | some x => if s.reads x high = x.occupied then s else laneEdge l (s.reads x high) s

/-- The crest loop line of a ramp has come to a level; an OCCUPY edge is a crest event (R113). While no profile
is in force the line is ignored (R111). -/
def crestLine (r : Ramp) (high : Bool) (s : State) : State :=
  if s.profile.inForce && (s.ramp r).crestOccupied != high then
    let s1 := s.updRamp r fun q => { q with crestOccupied := high }
    if high then crestEvent r s1 else s1
  else s

/-- A trigger source names a line (R81, R82). -/
def TriggerSource.names (src : TriggerSource) (line : TriggerLine) : Bool :=
  match src, line with
  | .line1, .line1 | .line2, .line2 => true
  | .line1, .line2 | .line2, .line1 | .requestOnly, _ => false

/-- A press acts on a ramp whose source names the line (R81). -/
def pressRamp (line : TriggerLine) (r : Ramp) (s : State) : State :=
  if (s.ramp r).source.names line then triggerRamp r s else s

/-- A press on a trigger line acts on each ramp whose source names it, LOWER before UPPER (R81). -/
def pressLine (line : TriggerLine) (s : State) : State := pressRamp line .upper (pressRamp line .lower s)

end Sys2Proof.Machine
end

