-- ==== Sys2Proof/Machine/Outputs.lean ====
section
/-! DEFINITION. The outputs of the module: lane aspects and lamps (R162 to R166), GO lamps (R88) and hoist drives
(R130). They are computed from the state an event leaves, at the event's end (log 19, DEDUCED). -/

namespace Sys2Proof.Machine

/-- A lane's aspect (R164); the first row that applies. -/
def State.aspectOf (s : State) (x : Lane) : Aspect :=
  match x.signal with
  | .dark => .dark
  | .forceRed => .red
  | .auto =>
    if x.state = .unloading then .amber
    else if (s.records x.claims).any (fun v => v.stage.released && !v.overdue) then .greenFlash
    else if s.available x && s.signalPath x then .green
    else .red

/-- What one lamp shows. -/
inductive Lamp where
  | dark
  | lit
  | flashing
  deriving DecidableEq, Repr

/-- The red, amber and green lamps of an aspect (R162). -/
def Aspect.lamps : Aspect → Lamp × Lamp × Lamp
  | .red => (.lit, .dark, .dark)
  | .amber => (.dark, .lit, .dark)
  | .green => (.dark, .dark, .lit)
  | .greenFlash => (.dark, .dark, .flashing)
  | .dark => (.dark, .dark, .dark)

/-- The lamps of a head: dark beyond the profile's lane count and without a profile (R162). -/
def State.head (s : State) (l : Nat) : Lamp × Lamp × Lamp :=
  match s.lane? l with
  | some x => x.aspect.lamps
  | none => Aspect.dark.lamps

/-- The GO lamp: lit in LIGHT_RUN and HEAVY_RUN while the band is not CLOSED (R88). -/
def RampState.goLit (q : RampState) : Bool := (q.seq = .lightRun || q.seq = .heavyRun) && q.band < 3

/-- A panel with its drives as its state says (R130). -/
def Panel.driven (p : Panel) : Panel :=
  { p with raise := p.state = .raising, lower := p.state = .lowering }

/-- Every output as the state says, while the module runs. -/
def outputsOn (s : State) : State :=
  { s with
    lanes := s.lanes.map fun x => { x with aspect := s.aspectOf x }
    lower := { s.lower with go := s.lower.goLit }
    upper := { s.upper with go := s.upper.goLit }
    panels := s.panels.map Panel.driven }

/-- Every output off and every head dark: held in reset or without supply (R88, R142, R162). -/
def outputsOff (s : State) : State :=
  { s with
    lanes := s.lanes.map fun x => { x with aspect := .dark }
    lower := { s.lower with go := false }
    upper := { s.upper with go := false }
    panels := s.panels.map fun p => { p with raise := false, lower := false } }

/-- The outputs at the end of an event. -/
def refresh (s : State) : State :=
  match s.power with
  | .up => outputsOn s
  | .held | .down => outputsOff s

end Sys2Proof.Machine
end

