-- ==== Sys2Proof/Machine/Profile.lean ====
section
/-! DEFINITION. The vessel profile (10_the_vessel_profile): records and their fields, the draft, validation. -/

namespace Sys2Proof.Machine

/-! ### Records (R174) -/

/-- The index range of a type. -/
def RecType.indexOk (t : RecType) (i : Nat) : Bool :=
  match t with
  | .vessel | .sensor => i == 0
  | .deck => i ≤ 5
  | .sect => i ≤ 23
  | .lane => i ≤ 95
  | .panel => i ≤ 3
  | .ramp => i ≤ 1
  | .dg => 1 ≤ i && i ≤ 6

/-- The field lengths a type allows. -/
def RecType.lengthOk (t : RecType) (n : Nat) : Bool :=
  match t with
  | .vessel => n == 6
  | .deck => n == 2
  | .sect => n == 3
  | .lane => n == 10 || n == 12
  | .panel => n == 3
  | .ramp => n == 11
  | .dg => n == 7
  | .sensor => n == 7

/-- The certified types that the lock holds (R173, R182). -/
def RecType.certified : RecType → Bool
  | .vessel | .sect | .ramp | .dg => true
  | .deck | .lane | .panel | .sensor => false

/-- A one-byte field. -/
def ProfRec.byte (x : ProfRec) (i : Nat) : Nat := ((x.fields[i]?).getD 0).toNat

/-- A two-byte field, most significant byte first. -/
def ProfRec.word (x : ProfRec) (i : Nat) : Nat := x.byte i * 256 + x.byte (i + 1)

/-- A signed two-byte field, two's complement. -/
def ProfRec.signed (x : ProfRec) (i : Nat) : Int := (BitVec.ofNat 16 (x.word i)).toInt

/-- The record of a key. -/
def findRec (rs : List ProfRec) (t : RecType) (i : Nat) : Option ProfRec :=
  rs.find? fun x => x.type == t && x.index == i

/-- Type and index order. -/
def ProfRec.before (x y : ProfRec) : Bool :=
  x.type.code < y.type.code || (x.type.code == y.type.code && x.index < y.index)

/-- Same key. -/
def ProfRec.sameKey (x y : ProfRec) : Bool := x.type == y.type && x.index == y.index

/-- Store a record under its key; a record already there is replaced (R175). The list keeps type and index
order, so that equal sets are equal lists. -/
def putRec (x : ProfRec) : List ProfRec → List ProfRec
  | [] => [x]
  | y :: ys => if x.sameKey y then x :: ys else if x.before y then x :: y :: ys else y :: putRec x ys

/-- The sum of every byte of every record, modulo 65,536 (R177). -/
def draftSum (rs : List ProfRec) : Nat :=
  ((rs.map fun x => x.type.code + x.index + (x.fields.map BitVec.toNat).sum).sum) % 65536

/-- A record as it is sent: type code, index, fields (R174). -/
def ProfRec.sent (x : ProfRec) : List Byte := u8 x.type.code ++ u8 x.index ++ x.fields

/-! ### Counts of a profile -/

def vesselByte (rs : List ProfRec) (i : Nat) : Nat :=
  match findRec rs .vessel 0 with
  | some x => x.byte i
  | none => 0

def deckCount (rs : List ProfRec) : Nat := vesselByte rs 0
def sectCount (rs : List ProfRec) : Nat := vesselByte rs 1
def laneCount (rs : List ProfRec) : Nat := vesselByte rs 2
def panelCount (rs : List ProfRec) : Nat := vesselByte rs 3

/-- The count that bounds the indexes of a type; none where every index of R174 is required. -/
def countOf (rs : List ProfRec) : RecType → Option Nat
  | .deck => some (deckCount rs)
  | .sect => some (sectCount rs)
  | .lane => some (laneCount rs)
  | .panel => some (panelCount rs)
  | .vessel | .ramp | .dg | .sensor => none

/-- A required key of a profile (R178). -/
def required (rs : List ProfRec) (t : RecType) (i : Nat) : Bool :=
  t.indexOk i &&
    match countOf rs t with
    | some n => i < n
    | none => true

/-! ### Validation (R178) -/

inductive CheckFailure where
  | missing
  | extra
  | value
  | reference
  | athwart
  | coverDeck
  | reducedClass
  | panelAbsent
  | panelDeck
  | panelShared
  | symmetry
  deriving DecidableEq, Repr

def CheckFailure.code : CheckFailure → Nat
  | .missing => 1
  | .extra => 2
  | .value => 3
  | .reference => 4
  | .athwart => 5
  | .coverDeck => 6
  | .reducedClass => 7
  | .panelAbsent => 8
  | .panelDeck => 9
  | .panelShared => 10
  | .symmetry => 11

/-- `lo ≤ v ≤ hi`. -/
def within (lo v hi : Nat) : Bool := lo ≤ v && v ≤ hi

/-- A LANE record's covering panel; 0xFF codes an absent panel (R192). -/
def ProfRec.cover? (x : ProfRec) : Option Cover :=
  if x.fields.length = 12 && x.byte 10 != 0xFF then some ⟨x.byte 10, x.byte 11⟩ else none

/-- Every field lies in its range of R174. A deck, section or panel number at or beyond its count is left to REFERENCE,
though R174's range excludes it too (log 37, DESIGN CHOICE). A LANE has its covering panel and its reduced class both or
neither (log 20, DEDUCED). A RAMP has its three maxima before its three mass limits (log 32, DEDUCED). -/
def ProfRec.valuesOk (x : ProfRec) : Bool :=
  match x.type with
  | .vessel =>
    within 1 (x.byte 0) 6 && within 1 (x.byte 1) 24 && within 1 (x.byte 2) 96 && within 0 (x.byte 3) 4
      && within 1 (x.word 4) 20000
  | .deck => x.byte 0 ≤ 3 && x.byte 1 ≤ 1
  | .sect => within 1 (x.word 1) 4000
  | .lane =>
    x.byte 1 ≤ 15 && -250 ≤ x.signed 2 && x.signed 2 ≤ 250 && within 60 (x.word 4) 2000
      && within 2 (x.byte 6) 10 && within 1 (x.byte 7) 4 && within 1 (x.byte 8) 160 && x.byte 9 ≤ 8
      && (x.fields.length != 12 || (x.byte 10 != 0xFF && within 1 (x.byte 11) 3))
  | .panel => within 30 (x.word 1) 600
  | .ramp =>
    within 30 (x.word 0) 900
      && [2, 3, 4].all (fun i => within 1 (x.byte i) 12) && [5, 7, 9].all fun i => within 1 (x.word i) 400
  | .dg => [0, 1, 2, 3, 4, 5].all (fun i => x.byte i ≤ 4) && x.byte 6 ≤ 1
  | .sensor =>
    [0, 1, 2, 3].all (fun i => within 1 (x.byte i) 15) && within 1 (x.byte 4) 4 && within 1 (x.byte 5) 4
      && within 5 (x.byte 6) 60

/-- The decks, sections and panels that a record names lie below the candidate's counts (R178; log 37, DESIGN
CHOICE). -/
def ProfRec.refsOk (rs : List ProfRec) (x : ProfRec) : Bool :=
  match x.type with
  | .sect => x.byte 0 < deckCount rs
  | .lane =>
    x.byte 0 < sectCount rs &&
      match x.cover? with
      | some c => c.panel < panelCount rs
      | none => true
  | .panel => x.byte 0 < sectCount rs
  | .vessel | .deck | .ramp | .dg | .sensor => true

/-- The deck number of section `i`. -/
def sectDeck (rs : List ProfRec) (i : Nat) : Option Nat := (findRec rs .sect i).map fun x => x.byte 0

/-- The kind code of the deck of section `i`. -/
def sectDeckKind (rs : List ProfRec) (i : Nat) : Option Nat :=
  (sectDeck rs i).bind fun d => (findRec rs .deck d).map fun x => x.byte 0

/-- A lower-numbered lane of the same deck has this athwart index. -/
def athwartTaken (rs : List ProfRec) (x : ProfRec) : Bool :=
  (List.range x.index).any fun j =>
    match findRec rs .lane j with
    | some y => y.byte 1 == x.byte 1 && sectDeck rs (y.byte 0) == sectDeck rs (x.byte 0)
    | none => false

/-- A PANEL of the candidate carries section `i`. -/
def someCarries (rs : List ProfRec) (i : Nat) : Bool := rs.any fun y => y.type == .panel && y.byte 0 == i

/-- A lower-numbered panel carries the same section. -/
def carriedBelow (rs : List ProfRec) (x : ProfRec) : Bool :=
  (List.range x.index).any fun j =>
    match findRec rs .panel j with
    | some y => y.byte 0 == x.byte 0
    | none => false

/-- A DG record's level for a lower-numbered group differs from that group's level for it. -/
def asymmetric (rs : List ProfRec) (x : ProfRec) : Bool :=
  (List.range x.index).any fun h =>
    match findRec rs .dg h with
    | some y => y.byte (x.index - 1) != x.byte (h - 1)
    | none => false

/-- The checks of one record that is present and required, in the order of the table (R178). -/
def recordFailure (rs : List ProfRec) (x : ProfRec) : Option CheckFailure :=
  if !x.valuesOk then some .value
  else if !x.refsOk rs then some .reference
  else
    match x.type with
    | .lane =>
      if athwartTaken rs x then some .athwart
      else
        match x.cover? with
        | none => none
        | some c =>
          if sectDeckKind rs (x.byte 0) != some 0 then some .coverDeck
          else if x.byte 7 < c.reduced then some .reducedClass
          else none
    | .sect =>
      if sectDeckKind rs x.index == some 1 && !someCarries rs x.index then some .panelAbsent else none
    | .panel =>
      if sectDeckKind rs (x.byte 0) != some 1 then some .panelDeck
      else if carriedBelow rs x then some .panelShared
      else none
    | .dg => if asymmetric rs x then some .symmetry else none
    | .vessel | .deck | .ramp | .sensor => none

/-- The first failure at a key (R178). -/
def keyFailure (rs : List ProfRec) (t : RecType) (i : Nat) : Option CheckFailure :=
  match findRec rs t i, required rs t i with
  | none, true => some .missing
  | none, false => none
  | some _, false => some .extra
  | some x, true => recordFailure rs x

/-- The keys of a type in index order. -/
def keysOf (t : RecType) : List (RecType × Nat) :=
  ((List.range 96).filter t.indexOk).map fun i => (t, i)

/-- Every key of R174, in type and index order. -/
def allKeys : List (RecType × Nat) :=
  keysOf .vessel ++ keysOf .deck ++ keysOf .sect ++ keysOf .lane ++ keysOf .panel ++ keysOf .ramp
    ++ keysOf .dg ++ keysOf .sensor

/-- The first failing key of a list of keys, with its failure. -/
def firstFailure (rs : List ProfRec) : List (RecType × Nat) → Option (RecType × Nat × CheckFailure)
  | [] => none
  | (t, i) :: ks =>
    match keyFailure rs t i with
    | some f => some (t, i, f)
    | none => firstFailure rs ks

/-- Validation (R178): none when the candidate passes. -/
def validate (rs : List ProfRec) : Option (RecType × Nat × CheckFailure) := firstFailure rs allKeys

/-- The records of the certified types. -/
def certifiedOnly (rs : List ProfRec) : List ProfRec := rs.filter fun x => x.type.certified

/-- The candidate profile (R178): the draft; when the lock is set, with the stored certified records. -/
def candidate (st : Store) (draft : List ProfRec) : List ProfRec :=
  if st.locked then draft.foldl (fun acc x => putRec x acc) (certifiedOnly st.records) else draft

end Sys2Proof.Machine
end

