-- ==== Sys2Proof/Machine/Build.lean ====
section
/-! DEFINITION. Building the deck model from the stored profile (R19), stow memory (R16, R17), and what each
block takes at a reset or a commit completion (R39, R67, R91, R109, R128, R142, R161, R172, R191). -/

namespace Sys2Proof.Machine

/-! ### Static parts from records -/

def buildDeck (rs : List ProfRec) (d : Nat) : Deck :=
  let x := (findRec rs .deck d).getD ⟨.deck, d, []⟩
  { kind := (DeckKind.ofCode (x.byte 0)).getD .main, occupiedHigh := x.byte 1 == 0
    threshold := Config.deckThreshold, level := Config.defaultLevel, noticeOn := false, latch := false }

def buildSect (rs : List ProfRec) (i : Nat) : Sect :=
  let x := (findRec rs .sect i).getD ⟨.sect, i, []⟩
  { deck := x.byte 0, massLimit := x.word 1, projected := 0, placed := 0, arm := .armed, mode := .sensed }

/-- A lane of the profile with nothing in it: OPEN, HEALTHY, SENSED, unwatched, AUTO (R29, R128, R172). -/
def buildLane (rs : List ProfRec) (l : Nat) : Lane :=
  let x := (findRec rs .lane l).getD ⟨.lane, l, []⟩
  { sect := x.byte 0, athwart := x.byte 1, offset := x.signed 2, usable := x.word 4, gap := x.byte 6
    baseClass := x.byte 7, axleLimit := x.byte 8, sockets := x.byte 9, cover := x.cover?
    stow := [], claims := [], state := .opened, overdue := 0
    used := 0, reefers := 0, mass := 0, placedMass := 0
    pastCrest := [], entryCredits := 0, entryWindow := .stopped, exitCredits := 0, exitWindow := .stopped
    occupied := false, score := 0, suspect := false, clearing := false, mode := .sensed, watch := false
    signal := .auto, aspect := .dark }

def buildPanel (rs : List ProfRec) (p : Nat) : Panel :=
  let x := (findRec rs .panel p).getD ⟨.panel, p, []⟩
  { carried := x.byte 0, moveLimit := x.word 1, state := .unknown, timer := .stopped
    fault := LastFault.none, raise := false, lower := false }

/-- The transit limit, then the maximum vehicles of bands 0 to 2, then their mass limits, as the rows of R174 stand
(log 32, DEDUCED). -/
def buildRampRec (rs : List ProfRec) (i : Nat) : RampRec :=
  let x := (findRec rs .ramp i).getD ⟨.ramp, i, []⟩
  { transit := x.word 0
    bands := [⟨x.byte 2, x.word 5⟩, ⟨x.byte 3, x.word 7⟩, ⟨x.byte 4, x.word 9⟩] }

def buildDg (rs : List ProfRec) (g : Nat) : DgRec :=
  let x := (findRec rs .dg g).getD ⟨.dg, g, []⟩
  { levels := [x.byte 0, x.byte 1, x.byte 2, x.byte 3, x.byte 4, x.byte 5], openDeckOnly := x.byte 6 == 1 }

def buildSensor (rs : List ProfRec) : SensorRec :=
  let x := (findRec rs .sensor 0).getD ⟨.sensor, 0, []⟩
  { thresholds := [x.byte 0, x.byte 1, x.byte 2, x.byte 3], phantom := x.byte 4, silent := x.byte 5
    window := x.byte 6 }

def buildLimits (rs : List ProfRec) : Limits :=
  { listLimit := match findRec rs .vessel 0 with | some x => x.word 4 | none => 0
    lower := buildRampRec rs 0, upper := buildRampRec rs 1
    dg := [1, 2, 3, 4, 5, 6].map (buildDg rs), sensor := buildSensor rs }

/-! ### Stow memory (R16, R17) -/

/-- A built lane with the stow memory of the lane it was: lists, state, overdue count, past-crest list (R16). -/
def Lane.keep (new old : Lane) : Lane :=
  { new with stow := old.stow, claims := old.claims, state := old.state, overdue := old.overdue
             pastCrest := old.pastCrest }

/-- A ramp after a reset (R67, R91, R109): its stow memory kept, everything else at its reset value. -/
def RampState.keep (q : RampState) : RampState :=
  { RampState.cleared with direction := q.direction, light := q.light, heavy := q.heavy, onRamp := q.onRamp }

/-- A ramp after a commit completion, a cleared stow memory: STOPPED, empty, INBOUND; band, pairs, trigger
settings and stall limit unchanged (R67, R17, R91). -/
def RampState.emptied (q : RampState) : RampState :=
  { q with direction := .inbound, light := [], heavy := [], onRamp := [], mass := 0, seq := .stopped
           runCount := 0, stall := .stopped, go := false }

/-- Stow memory as R17 lists it when cleared, marked intact for the stored generation. Lanes are built anew or
cease to exist with it. -/
def clearStow (s : State) : State :=
  { s with vehicles := [], standby := [], voyage := .noVoyage
           lanes := s.lanes.map fun x =>
             { x with stow := [], claims := [], state := .opened, overdue := 0, pastCrest := [] }
           lower := { s.lower with light := [], heavy := [], onRamp := [], mass := 0, direction := .inbound }
           upper := { s.upper with light := [], heavy := [], onRamp := [], mass := 0, direction := .inbound }
           stowIntact := true, stowGen := s.store.generation }

/-! ### The build (R19) -/

/-- Figures of a lane from its lists (R25). -/
def State.figured (s : State) (x : Lane) : Lane :=
  { x with used := s.lengthOf x.gap (x.stow ++ x.claims)
           reefers := ((s.records (x.stow ++ x.claims)).filter Vehicle.reefer).length
           mass := s.massOf (x.stow ++ x.claims), placedMass := s.massOf x.stow }

/-- Masses of section `i` from its lanes (R33). -/
def State.weighed (s : State) (i : Nat) (c : Sect) : Sect :=
  let ls := s.lanes.filter fun x => x.sect == i
  { c with projected := (ls.map Lane.mass).sum, placed := (ls.map Lane.placedMass).sum }

/-- The list moment from the lanes (R36). -/
def State.momentOf (s : State) : Int := (s.lanes.map fun x => (x.mass : Int) * x.offset).sum

/-- Sections with their numbers applied. -/
def mapNumbered {α : Type} (f : Nat → α → α) : Nat → List α → List α
  | _, [] => []
  | n, x :: xs => f n x :: mapNumbered f (n + 1) xs

/-- The arm a build gives: SPENT when above the threshold, else ARMED (R35, R37). -/
def armOf (above : Bool) : Arm := if above then .spent else .armed

/-- Rebuild every sum from the lists (R16, R33, R36, R71), then the arms and the list-over condition (R35, R37,
R38), with no notice. -/
def rebuildSums (s : State) : State :=
  let s1 := { s with lanes := s.lanes.map s.figured }
  let s2 := { s1 with sections := mapNumbered s1.weighed 0 s1.sections
                      listMoment := s1.momentOf
                      lower := { s1.lower with mass := s1.massOf s1.lower.onRamp }
                      upper := { s1.upper with mass := s1.massOf s1.upper.onRamp } }
  { s2 with
    sections := s2.sections.map fun c =>
      { c with arm := armOf (sectAbove (s2.thresholdOf c) c.massLimit c.projected) }
    listArm := armOf (listAbove s2.listThreshold s2.limits.listLimit s2.listMoment)
    listOver := beyondList s2.limits.listLimit s2.listMoment }

/-- The readings of all loops, taken from the lines, with no edge (R111, R128). -/
def takeReadings (s : State) : State :=
  { s with lanes := mapNumbered (fun l x => { x with occupied := s.reads x ((s.pins.loops[l]?).getD false) })
             0 s.lanes
           lower := { s.lower with crestOccupied := s.pins.crestLower }
           upper := { s.upper with crestOccupied := s.pins.crestUpper } }

/-- A panel as its lines and the position check give it (R142). -/
def State.settledPanel (s : State) (p : Nat) (x : Panel) : Panel :=
  let c := positionCheck s p
  { x with state := c.fst, fault := c.snd, timer := .stopped }

/-- Every panel takes its state from its lines under the position check (R142). -/
def settlePanels (s : State) : State :=
  { s with panels := mapNumbered (s.settledPanel) 0 s.panels }

/-- The deck model built from records `rs`, with `old` the lanes whose stow memory it takes (R19): thresholds and
levels at their defaults (R39, R119), sums rebuilt, readings and panels taken from the lines, closures at their
defaults (R167). -/
def buildModel (rs : List ProfRec) (old : List Lane) (s : State) : State :=
  let s1 := { s with
    limits := buildLimits rs
    decks := (List.range (deckCount rs)).map (buildDeck rs)
    sections := (List.range (sectCount rs)).map (buildSect rs)
    lanes := (List.range (laneCount rs)).map fun l =>
      match old[l]? with
      | some x => (buildLane rs l).keep x
      | none => buildLane rs l
    panels := (List.range (panelCount rs)).map (buildPanel rs)
    listThreshold := Config.listThreshold
    closure := Closure.cleared }
  settlePanels (takeReadings (rebuildSums s1))

/-- The deck model ceases to exist (R19, R181), and the closure settings go with it (R179, R172; log 18, DEDUCED). -/
def dropModel (s : State) : State :=
  { s with limits := Limits.none, decks := [], sections := [], lanes := [], panels := [], closure := Closure.cleared
           listMoment := 0, listThreshold := Config.listThreshold, listArm := .armed, listOver := false }

/-! ### Reset -/

inductive ResetCause where
  | power
  | line
  | request
  deriving DecidableEq, Repr

/-- The reset-cause set after a reset (R190). -/
def Causes.add (c : Causes) (k : ResetCause) : Causes :=
  match k with
  | .power => { power := true, line := false, request := false }
  | .line => { c with line := true }
  | .request => { c with request := true }

/-- The store as a reset finds it (R173): a mark of COMMITTING gives NONE; records, generation and lock are kept. -/
def Store.atReset (st : Store) : Store :=
  match st.mark with
  | .committing => { st with mark := .none }
  | .active | .none => st

/-- The profile state a commit mark gives (R173). -/
def ProfileState.ofMark (m : CommitMark) : ProfileState :=
  match m with
  | .active => .active
  | .committing | .none => .none

/-- The stow memory is kept at a reset (R17). -/
def State.keepsStow (s : State) : Bool :=
  s.stowIntact && s.stowGen == s.store.generation && s.store.mark == .active

/-- The transit timer of a kept RELEASED vehicle restarts at the full limit (R109). -/
def State.restartTransit (s : State) (v : Vehicle) : Vehicle :=
  if v.stage.released then
    { v with transit := .running (match (v.stage.lane?.map s.rampOfNo) with
      | some .lower => s.limits.lower.transit
      | some .upper => s.limits.upper.transit
      | none => 0) }
  else { v with transit := .stopped }

/-- What every reset does (R17, R19, R67, R91, R109, R128, R142, R161, R172, R173, R190, R191). Outputs follow at
the end of the event. -/
def doReset (k : ResetCause) (s : State) : State :=
  let s1 := { s with causes := s.causes.add k, link := Link.cleared, draft := []
                     closure := Closure.cleared, ev := EventMarks.none
                     store := s.store.atReset, profile := .ofMark s.store.mark
                     lower := s.lower.keep, upper := s.upper.keep }
  let kept := s1.keepsStow
  let s2 := { (if kept then s1 else clearStow s1) with stowKept := kept }
  match s2.profile with
  | .active =>
    let s3 := buildModel s2.store.records s2.lanes s2
    { s3 with vehicles := s3.vehicles.map s3.restartTransit }
  | .none | .committing _ => dropModel s2

/-! ### The end of a commit -/

/-- The generation after a successful commit (R180). -/
def nextGeneration (g : Nat) : Nat := if g = 65535 then 1 else g + 1

/-- The placement tracker's ramp items at a commit completion (R91). -/
def RampState.noCredits (q : RampState) : RampState := { q with crestCredits := 0, crestWindow := .stopped }

/-- The writing completes (R180). -/
def commitCompletes (s : State) : State :=
  let rs := candidate s.store s.draft
  let st := { s.store with records := rs, generation := nextGeneration s.store.generation, mark := .active }
  let s1 := clearStow { s with store := st, profile := .active
                               lower := s.lower.emptied.noCredits, upper := s.upper.emptied.noCredits }
  (buildModel rs [] s1).notify (.profileDone st.generation s.draft.length)

/-- The store reports a failure to write (R181). The records of unlocked types, no longer trusted, are read by
nothing (R183; log 17, DESIGN CHOICE). -/
def commitFails (type index : Byte) (s : State) : State :=
  let st := { s.store with mark := .none }
  let s1 := clearStow { s with store := st, profile := .none
                               lower := s.lower.emptied, upper := s.upper.emptied }
  (dropModel s1).notify (.profileFailed type index)

end Sys2Proof.Machine
end

