-- ==== Sys2Proof/Machine/ProfileRequests.lean ====
section
/-! DEFINITION. Profile requests (10): DRAFT_PUT, DRAFT_CLEAR, DRAFT_GET, PROFILE_COMMIT, PROFILE_LOCK,
PROFILE_GET. And the link port's own STATUS and RESET (11). -/

namespace Sys2Proof.Machine

/-- The draft's count and sum, as every accepted draft request reports them (R175, R177). -/
def draftFigures (rs : List ProfRec) : List Byte := u8 rs.length ++ be 2 (draftSum rs)

/-- The type of a key within the ranges of R174. -/
def keyType (type index : Nat) : Option RecType := (RecType.ofCode type).filter fun t => t.indexOk index

/-- DRAFT_PUT (R175). -/
def reqDraftPut (type index : Nat) (fields : List Byte) (s : State) : State × Reply :=
  if s.profile.isCommitting then (s, plain .busy)
  else
    match keyType type index with
    | none => (s, plain .range)
    | some t =>
      if !t.lengthOk fields.length then (s, plain .range)
      else if (findRec s.draft t index).isNone && Config.draftCapacity ≤ s.draft.length then (s, plain .full)
      else
        let d := putRec ⟨t, index, fields⟩ s.draft
        ({ s with draft := d }, ⟨.ok, draftFigures d⟩)

/-- DRAFT_CLEAR (R176). -/
def reqDraftClear (s : State) : State × Reply :=
  if s.profile.isCommitting then (s, plain .busy) else ({ s with draft := [] }, ⟨.ok, draftFigures []⟩)

/-- DRAFT_GET (R176). -/
def reqDraftGet (type index : Nat) (s : State) : State × Reply :=
  if s.profile.isCommitting then (s, plain .busy)
  else
    match keyType type index with
    | none => (s, plain .range)
    | some t =>
      match findRec s.draft t index with
      | none => (s, plain .notFound)
      | some x => (s, ⟨.ok, draftFigures s.draft ++ x.sent⟩)

/-- The first NOT_EMPTY condition that fails (R177). -/
def State.notAtRest (s : State) : Option Nat :=
  if !s.vehicles.isEmpty then some 1
  else if s.voyage != .noVoyage then some 2
  else if s.lower.seq != .stopped || s.upper.seq != .stopped then some 3
  else if s.panels.any fun p => p.state.moving then some 4
  else none

/-- PROFILE_COMMIT (R177, R179). -/
def reqProfileCommit (count sum : Nat) (s : State) : State × Reply :=
  if s.profile.isCommitting then (s, plain .busy)
  else if count != s.draft.length || sum != draftSum s.draft then (s, ⟨.mismatch, draftFigures s.draft⟩)
  else
    match (if s.store.locked then (certifiedOnly s.draft).head? else none) with
    | some x => (s, ⟨.locked, u8 x.type.code ++ u8 x.index⟩)
    | none =>
      match s.notAtRest with
      | some c => (s, ⟨.notEmpty, u8 c⟩)
      | none =>
        match validate (candidate s.store s.draft) with
        | some (t, i, f) => (s, ⟨.check, u8 t.code ++ u8 i ++ u8 f.code⟩)
        | none =>
          ({ s with store := { s.store with mark := .committing }, profile := .committing s.profile.inForce },
            plain .accepted)

/-- PROFILE_LOCK (R182). -/
def reqProfileLock (s : State) : State × Reply :=
  match s.profile with
  | .committing _ => (s, plain .busy)
  | .none => (s, plain .state)
  | .active => ({ s with store := { s.store with locked := true } }, plain .ok)

/-- The generation and the lock, as PROFILE_GET reports them. -/
def Store.figures (st : Store) : List Byte := be 2 st.generation ++ flag st.locked

/-- A key that PROFILE_GET reports (R183): a required key in ACTIVE, a locked type in NONE. -/
def State.reports (s : State) (t : RecType) (i : Nat) : Bool :=
  match s.profile with
  | .active => required s.store.records t i
  | .none => s.store.locked && t.certified
  | .committing _ => false

/-- PROFILE_GET (R183). -/
def reqProfileGet (type index : Nat) (s : State) : State × Reply :=
  if s.profile.isCommitting then (s, plain .busy)
  else
    match keyType type index with
    | none => (s, plain .range)
    | some t =>
      match (if s.reports t index then findRec s.store.records t index else none) with
      | some x => (s, ⟨.ok, s.store.figures ++ x.sent⟩)
      | none => (s, ⟨.notFound, s.store.figures⟩)

/-! ### The link port's requests -/

/-- The reset-cause set as a byte (R192). -/
def Causes.bits (c : Causes) : Nat :=
  (if c.power then 1 else 0) + (if c.line then 2 else 0) + (if c.request then 4 else 0)

/-- Direction, sequencer state and band of a ramp (R189). -/
def RampState.status (q : RampState) : List Byte := u8 q.direction.code ++ u8 q.seq.code ++ u8 q.band

/-- The fields of a STATUS reply (R189). -/
def State.statusFields (s : State) : List Byte :=
  u8 s.causes.bits ++ flag s.stowKept ++ u8 s.profile.code ++ s.store.figures ++ u8 s.voyage.code
    ++ optU8 s.voyage.call? ++ optU8 s.voyage.last? ++ s.lower.status ++ s.upper.status
    ++ be 2 s.vehicles.length ++ u8 s.standby.length ++ u8 s.link.notices.length

/-- STATUS (R189). -/
def reqStatus (clear : Nat) (s : State) : State × Reply :=
  match onOff clear with
  | none => (s, plain .range)
  | some c =>
    (if c then { s with causes := { power := false, line := false, request := false } } else s,
      ⟨.ok, s.statusFields⟩)

/-- RESET (R190): OK; the reset follows when the last byte of the reply has been sent. -/
def reqReset (s : State) : State × Reply := (s.updLink fun k => { k with resetDue := true }, plain .ok)

end Sys2Proof.Machine
end

