-- ==== Sys2Proof/Machine/RampRequests.lean ====
section
/-! DEFINITION. Ramp requests (04): RAMP_START, RAMP_STOP, RAMP_DIRECTION, RUN_PAIR, TRIGGER_MODE, TRIGGER,
RAMP_BAND, and LINK_SILENCE. -/

namespace Sys2Proof.Machine

/-! ### One part for each ramp named (R68) -/

/-- The parts of a request on the ramps named, each on the state the one before left; their results in order. -/
def rampParts (part : Ramp → State → State × Result) : List Ramp → State → State × List Result
  | [], s => (s, [])
  | r :: rs, s =>
    let a := part r s
    let b := rampParts part rs a.1
    (b.1, a.2 :: b.2)

/-- OK when every part succeeded, else the code of the first part refused (R68). -/
def leadResult (rs : List Result) : Result := (rs.find? fun x => x != .ok).getD .ok

/-- A ramp request (R68): any other ramp code is RANGE, with no field. -/
def onRamps (code : Nat) (part : Ramp → State → State × Result) (s : State) : State × Reply :=
  match rampsNamed code with
  | none => (s, plain .range)
  | some rs =>
    let b := rampParts part rs s
    (b.1, ⟨leadResult b.2, b.2.flatMap fun x => u8 x.code⟩)

/-! ### The parts -/

/-- RAMP_START (R74). -/
def startPart (r : Ramp) (s : State) : State × Result :=
  if !s.profile.inForce then (s, .noProfile)
  else if (s.ramp r).seq != .stopped then (s, .state)
  else
    match (s.ramp r).direction with
    | .outbound => (s, .direction)
    | .inbound => (cycleStart r s, .ok)

/-- RAMP_STOP (R84). -/
def stopPart (r : Ramp) (s : State) : State × Result :=
  match (s.ramp r).seq with
  | .stopped => (s, .ok)
  | .idle | .lightRun | .waitTrigger | .heavyRun => (stopRamp r s, .ok)

/-- The lanes of a ramp's decks. -/
def State.lanesOf (s : State) (r : Ramp) : List Nat := s.lanesWhere fun x => s.rampOf x == r

/-- A vehicle is RELEASED to a lane of the ramp's decks. -/
def State.releasedTo (s : State) (r : Ramp) : Bool :=
  s.vehicles.any fun v =>
    v.stage.released && (match v.stage.lane? with | some l => (s.lanesOf r).contains l | none => false)

/-- A lane of the ramp's decks is UNLOADING. -/
def State.unloadingOn (s : State) (r : Ramp) : Bool :=
  s.lanes.any fun x => s.rampOf x == r && x.state == .unloading

/-- Traffic that forbids a change to a direction (R69). -/
def State.barsTurn (s : State) (r : Ramp) : Direction → Bool
  | .outbound => s.releasedTo r
  | .inbound => s.unloadingOn r

/-- RAMP_DIRECTION (R69). -/
def directionPart (d : Direction) (r : Ramp) (s : State) : State × Result :=
  if !s.profile.inForce then (s, .noProfile)
  else if (s.ramp r).seq != .stopped then (s, .state)
  else if (s.ramp r).direction = d then (s, .ok)
  else if s.barsTurn r d then (s, .state)
  else (s.updRamp r fun q => { q with direction := d }, .ok)

/-- The ranges of R76. -/
def runPairOk (light heavy : Nat) (stall : Option Nat) : Bool :=
  1 ≤ light && light ≤ 32 && 1 ≤ heavy && heavy ≤ 16 &&
    match stall with
    | some t => 10 ≤ t && t ≤ 255
    | none => true

/-- RUN_PAIR (R76). -/
def runPairPart (light heavy : Nat) (stall : Option Nat) (r : Ramp) (s : State) : State × Result :=
  if runPairOk light heavy stall then
    (s.updRamp r fun q => { q with waiting := ⟨light, heavy⟩, stallLimit := stall.getD q.stallLimit }, .ok)
  else (s, .range)

/-- TRIGGER_MODE (R82): a change to AUTO in WAIT_TRIGGER acts as a trigger (R81). -/
def triggerModePart (mode source : Nat) (r : Ramp) (s : State) : State × Result :=
  match TriggerMode.ofCode mode, TriggerSource.ofCode source with
  | some m, some src =>
    let s1 := s.updRamp r fun q => { q with mode := m, source := src }
    match (s.ramp r).mode, m with
    | .manual, .auto => (triggerRamp r s1, .ok)
    | .auto, .auto | .auto, .manual | .manual, .manual => (s1, .ok)
  | _, _ => (s, .range)

/-- TRIGGER (R81). -/
def triggerPart (r : Ramp) (s : State) : State × Result :=
  match (s.ramp r).source with
  | .line1 | .line2 => (s, .state)
  | .requestOnly =>
    match (s.ramp r).seq with
    | .waitTrigger => (triggerRamp r s, .ok)
    | .stopped | .idle | .lightRun | .heavyRun => (s, .notReady)

/-- RAMP_BAND (R73). -/
def bandPart (band : Nat) (r : Ramp) (s : State) : State × Result :=
  if !s.profile.inForce then (s, .noProfile)
  else if 3 < band then (s, .range)
  else (setBand r band s, .ok)

/-! ### The requests -/

def reqRampStart (ramp : Nat) (s : State) : State × Reply := onRamps ramp startPart s
def reqRampStop (ramp : Nat) (s : State) : State × Reply := onRamps ramp stopPart s

/-- R69 names no RANGE for its direction, so the link port refuses another code, no block reached (R192); the
reply carries that result for each ramp named (log 15, DEDUCED). -/
def reqRampDirection (ramp dir : Nat) (s : State) : State × Reply :=
  match Direction.ofCode dir with
  | some d => onRamps ramp (directionPart d) s
  | none => onRamps ramp (fun _ s => (s, .range)) s

def reqRunPair (ramp light heavy : Nat) (stall : Option Nat) (s : State) : State × Reply :=
  onRamps ramp (runPairPart light heavy stall) s

def reqTriggerMode (ramp mode source : Nat) (s : State) : State × Reply :=
  onRamps ramp (triggerModePart mode source) s

def reqTrigger (ramp : Nat) (s : State) : State × Reply := onRamps ramp triggerPart s
def reqRampBand (ramp band : Nat) (s : State) : State × Reply := onRamps ramp (bandPart band) s

/-! ### LINK_SILENCE (R89) -/

/-- The silence timer at its limit; stopped when the limit is off. -/
def silenceAt (limit : Nat) : Timer := if limit = 0 then .stopped else .running limit

def reqLinkSilence (limit : Nat) (s : State) : State × Reply :=
  if limit = 0 || (5 ≤ limit && limit ≤ 120) then
    (s.updLink fun k => { k with silenceLimit := limit, silence := silenceAt limit }, plain .ok)
  else (s, plain .range)

end Sys2Proof.Machine
end

