-- ==== Sys2Proof/Machine/SensorRequests.lean ====
section
/-! DEFINITION. Sensor requests (06): SENSOR_WATCH, SENSOR_LEVEL, SENSOR_LATCHES, SENSOR_CLEAR. -/

namespace Sys2Proof.Machine

/-- The lanes of a deck. -/
def State.lanesOfDeck (s : State) (d : Nat) : List Nat := s.lanesWhere fun x => s.deckNo x == some d

/-- Apply a change to each lane of a list. -/
def updLanes (ls : List Nat) (f : Lane → Lane) (s : State) : State := ls.foldl (fun s l => s.updLane l f) s

/-- The lanes that a scope and an identifier name, with their deck; none beyond the profile's counts (R115,
R163). -/
def State.scopeLanes (s : State) (scope ident : Nat) : Option (List Nat × Nat) :=
  match scope with
  | 0 => (s.lane? ident).bind fun x => (s.deckNo x).map fun d => ([ident], d)
  | 1 => (s.deck? ident).map fun _ => (s.lanesOfDeck ident, ident)
  | _ => none

/-- SENSOR_WATCH (R115). -/
def reqSensorWatch (scope ident watch notice : Nat) (s : State) : State × Reply :=
  if !s.profile.inForce then (s, plain .noProfile)
  else
    match s.scopeLanes scope ident, onOff watch, onOffUnchanged notice with
    | some (ls, d), some w, some n =>
      let s1 := updLanes ls (fun x => { x with watch := w }) s
      (match n with
        | some b => s1.updDeck d fun k => { k with noticeOn := b }
        | none => s1, plain .ok)
    | _, _, _ => (s, plain .range)

/-- The loops of a deck that SENSOR_LEVEL judges: those not borrowed (R119). -/
def State.judgedLoops (s : State) (d : Nat) : List Nat :=
  s.lanesWhere fun x => s.deckNo x == some d && !s.borrowed x

/-- SENSOR_LEVEL (R119). Loops are judged against the new threshold whichever way the level moves (log 33, DESIGN
CHOICE). -/
def reqSensorLevel (deck level : Nat) (s : State) : State × Reply :=
  if !s.profile.inForce then (s, plain .noProfile)
  else
    match s.deck? deck with
    | none => (s, plain .range)
    | some _ =>
      if 3 < level then (s, plain .range)
      else
        let s1 := s.updDeck deck fun k => { k with level := level }
        (judgeLoops (s1.judgedLoops deck) (s1.sectsOf deck) s1, plain .ok)

/-- The latches as a deck set (R117). -/
def State.latchSet (s : State) : Nat :=
  bitsOfSet ((List.range s.decks.length).filter fun d => match s.deck? d with | some k => k.latch | none => false)

/-- SENSOR_LATCHES (R117). -/
def reqSensorLatches (clear : Nat) (s : State) : State × Reply :=
  if !s.profile.inForce then (s, plain .noProfile)
  else if 2 ^ s.decks.length ≤ clear then (s, plain .range)
  else
    ((setOfBits s.decks.length clear).foldl (fun s d => s.updDeck d fun k => { k with latch := false }) s,
      ⟨.ok, u8 s.latchSet⟩)

/-- Step 2 of R121 on a SUSPECT loop: score 0 and HEALTHY; the state HEALTHY of a borrowed loop waits for the loop's
return, and its lane's mode with it (R121, R122; log 21, DEDUCED). -/
def Lane.clear (x : Lane) (borrowed : Bool) : Lane :=
  if borrowed then { x with score := 0, clearing := true } else { x with score := 0, suspect := false }

/-- Steps 2 to 4 of R121 on a SUSPECT loop of lane `l`, section `i`. -/
def clearSuspect (l i : Nat) (s : State) : State :=
  let before := (s.sect? i).elim 0 fun c => c.mode.code
  let s1 := remodeSect i (remodeLane l (s.updLane l fun x => x.clear (s.borrowed x)))
  if ((s1.sect? i).elim 0 fun c => c.mode.code) < before then s1.sweepTrigger else s1

/-- SENSOR_CLEAR (R121). -/
def reqSensorClear (lane : Nat) (s : State) : State × Reply :=
  if !s.profile.inForce then (s, plain .noProfile)
  else
    match s.lane? lane with
    | none => (s, plain .range)
    | some x =>
      (if x.suspect then clearSuspect lane x.sect s else s.updLane lane fun x => { x with score := 0 },
        ⟨.ok, u8 x.score ++ flag x.suspect⟩)

end Sys2Proof.Machine
end

