-- ==== Sys2Proof/Machine/SignalRequests.lean ====
section
/-! DEFINITION. Signal requests (09): SIGNAL_SET, CLOSURE_SET. -/

namespace Sys2Proof.Machine

/-- The lanes of a list with their aspects (R163). -/
def State.aspectsOf (s : State) (ls : List Nat) : List Byte :=
  ls.flatMap fun l => u8 l ++ u8 ((s.lane? l).elim 0 fun x => (s.aspectOf x).code)

/-- SIGNAL_SET (R163). -/
def reqSignalSet (scope ident mode : Nat) (s : State) : State × Reply :=
  if !s.profile.inForce then (s, plain .noProfile)
  else
    match s.scopeLanes scope ident, SignalMode.ofCode mode with
    | some (ls, _), some m =>
      let s1 := updLanes ls (fun x => { x with signal := m }) s
      (s1, ⟨.ok, s1.aspectsOf ls⟩)
    | _, _ => (s, plain .range)

/-! ### CLOSURE_SET (R169, R170) -/

/-- The items of a CLOSURE_SET; absent for UNCHANGED. -/
structure ClosureItems where
  maskA : Option (List Nat)
  maskB : Option (List Nat)
  selectB : Option Bool
  enable : Option Bool
  glob : Option Bool
  deriving DecidableEq, Repr

/-- A mask item: carried when its bit is set, else UNCHANGED and not read. None: a section beyond `n`. -/
def maskItem (n : Nat) (carried : Bool) (bits : Nat) : Option (Option (List Nat)) :=
  if !carried then some none
  else if bits < 2 ^ n then some (some (setOfBits n bits))
  else none

/-- The items of a body; none where a code is not listed (R169). Bits 2 to 7 of the masks-carried byte are taken as an
item's code that is not listed (log 36, DESIGN CHOICE). -/
def closureItems (n carried a b sel en glob : Nat) : Option ClosureItems :=
  if 4 ≤ carried then none
  else
    match maskItem n (carried.testBit 0) a, maskItem n (carried.testBit 1) b, onOffUnchanged sel,
        onOffUnchanged en, onOffUnchanged glob with
    | some a, some b, some sel, some en, some g => some ⟨a, b, sel, en, g⟩
    | _, _, _, _, _ => none

/-- Every item that is not UNCHANGED is set (R170.1). -/
def Closure.apply (c : Closure) (i : ClosureItems) : Closure :=
  { maskA := i.maskA.getD c.maskA, maskB := i.maskB.getD c.maskB, selectB := i.selectB.getD c.selectB
    enable := i.enable.getD c.enable, glob := i.glob.getD c.glob }

/-- The five settings as a reply carries them. -/
def Closure.bytes (c : Closure) : List Byte :=
  be 3 (bitsOfSet c.maskA) ++ be 3 (bitsOfSet c.maskB) ++ flag c.selectB ++ flag c.enable ++ flag c.glob

/-- Sections of `xs` that are not in `ys`. -/
def notIn (xs ys : List Nat) : List Nat := xs.filter fun x => !ys.contains x

/-- CLOSURE_SET (R169, R170). In profile state NONE a masks-carried byte above 3 is answered with NO_PROFILE, the
RANGE of R169 coming after it (log 36, DESIGN CHOICE). -/
def reqClosureSet (carried a b sel en glob : Nat) (s : State) : State × Reply :=
  if !s.profile.inForce then (s, plain .noProfile)
  else
    match closureItems s.sections.length carried a b sel en glob with
    | none => (s, plain .range)
    | some i =>
      let s1 := { s with closure := s.closure.apply i }
      let opened := notIn s.closedSet s1.closedSet
      (if opened.isEmpty then s1 else s1.sweepTrigger,
        ⟨.ok, s1.closure.bytes ++ be 3 (bitsOfSet s1.closedSet) ++ u8 opened.length
          ++ u8 (notIn s1.closedSet s.closedSet).length⟩)

end Sys2Proof.Machine
end

