-- ==== Sys2Proof/Machine/Vehicles.lean ====
section
/-! DEFINITION. Vehicle requests (01, 05, 08): ARRIVE, RECALL, VEHICLE_GET, CONFIRM, DEPART. -/

namespace Sys2Proof.Machine

/-! ### ARRIVE (R5 to R10) -/

/-- The fields of an ARRIVE body, as sent (11.6). -/
structure Arrival where
  tag : Nat
  cls : Nat
  length : Nat
  height : Nat
  mass : Nat
  axle : Nat
  call : Nat
  flags : Nat
  rest : List Byte
  deriving DecidableEq, Repr

/-- The flags say a DG group is present. -/
def Arrival.hasDg (a : Arrival) : Bool := a.flags.testBit 1

/-- The flags say a requested lane is present. -/
def Arrival.hasLane (a : Arrival) : Bool := a.flags.testBit 2

/-- The DG group: the first byte after the twelve, when present. -/
def Arrival.dg? (a : Arrival) : Option Nat := if a.hasDg then some ((a.rest[0]?).getD 0).toNat else none

/-- The requested lane: the next byte, when present. -/
def Arrival.lane? (a : Arrival) : Option Nat :=
  if a.hasLane then some ((a.rest[if a.hasDg then 1 else 0]?).getD 0).toNat else none

/-- The field-range check (R6): the number of the first field that fails. -/
def arriveRange (lanes : Nat) (a : Arrival) : Option Nat :=
  let car := a.cls == 1
  if a.rest.length != (if a.hasDg then 1 else 0) + (if a.hasLane then 1 else 0) then some 0
  else if a.tag = 0 || 4294967295 < a.tag then some 1
  else if (VClass.ofCode a.cls).isNone then some 2
  else if a.length < 20 || 250 < a.length || (car && 60 < a.length) then some 3
  else if a.height < 1 || 4 < a.height || (car && 2 < a.height) then some 4
  else if a.mass < 1 || 65535 < a.mass then some 5
  else if a.axle < 1 || 160 < a.axle then some 6
  else if 8 ≤ a.flags then some 8
  else if (match a.dg? with | some g => decide (g < 1) || decide (6 < g) | none => false) then some 9
  else if (match a.lane? with | some l => decide (lanes ≤ l) | none => false) then some 10
  else none

/-- The record an admitted ARRIVE makes (R1, R10), before the allocation unit gives it its state. -/
def Arrival.vehicle (a : Arrival) : Vehicle :=
  { tag := a.tag, cls := (VClass.ofCode a.cls).getD .car, length := a.length, height := a.height
    massCode := encodeMass a.mass, axle := a.axle, call := a.call, reefer := a.flags.testBit 0
    dg := a.dg?, reqLane := a.lane?, stage := .standby, overdue := false, transit := .stopped }

/-- The static tests S1 to S5 (R9). -/
def staticTests : List (State → Vehicle → Nat → Lane → Bool) :=
  [ fun _ v _ x => v.height ≤ x.baseClass
  , fun _ v _ x => v.axle ≤ x.axleLimit
  , fun _ v _ x => v.length + x.gap ≤ x.usable
  , fun _ v _ x => !v.reefer || 1 ≤ x.sockets
  , fun s v _ x => match v.dg with | some g => !s.openDeckOnly g || s.onWeather x | none => true ]

/-- Static stowability (R9): the test at which the last remaining lanes were eliminated. -/
def unstowableAt (s : State) (v : Vehicle) : Option Nat :=
  match runFilters s v staticTests 1 (match v.reqLane with
    | some l => [l]
    | none => List.range s.lanes.length) with
  | .lanes _ => none
  | .emptyAt n => some n

/-- The allocation that ends an admission (R10, R58, R60). -/
def enrol (v : Vehicle) (s : State) : State × Reply :=
  match allocate s v with
  | .claim l =>
    let r := s.rampOfNo l
    let pos := ((s.ramp r).queue v.cls.kind).length + 1
    (claimLane v l false { s with vehicles := s.vehicles ++ [v] },
      ⟨.assigned, u8 l ++ u8 (rampCode r) ++ u8 pos⟩)
  | .noCandidate n =>
    if s.standby.length < Config.standbyCapacity then
      ({ s with vehicles := s.vehicles ++ [v], standby := s.standby ++ [v.tag] },
        ⟨.standby, u8 (s.standby.length + 1) ++ u8 n⟩)
    else (s, plain .standbyFull)

/-- ARRIVE with a body of at least twelve bytes (R5). -/
def reqArrive (a : Arrival) (s : State) : State × Reply :=
  match s.voyage with
  | .noVoyage | .atSea _ _ | .discharge _ _ => (s, plain .phase)
  | .load c n =>
    match arriveRange s.lanes.length a with
    | some f => (s, ⟨.range, u8 f⟩)
    | none =>
      if !(c < a.call && a.call ≤ n) then (s, plain .call)
      else if (s.veh? a.tag).isSome then (s, plain .duplicate)
      else if Config.vehicleCapacity ≤ s.vehicles.length then (s, plain .full)
      else
        match unstowableAt s a.vehicle with
        | some t => (s, ⟨.unstowable, u8 t⟩)
        | none => enrol a.vehicle s

/-- ARRIVE with a shorter body: its field 0 fails (R5, R6). -/
def reqArriveShort (s : State) : State × Reply :=
  match s.voyage with
  | .noVoyage | .atSea _ _ | .discharge _ _ => (s, plain .phase)
  | .load _ _ => (s, ⟨.range, u8 0⟩)

/-! ### RECALL (R11 to R14) -/

/-- An ASSIGNED or RELEASED vehicle leaves its claim list, its share is returned and its record freed, with the
judgements of a removal (R11, R12, R13). -/
def dropClaim (v : Vehicle) (l : Nat) (s : State) : State :=
  let s1 := s.updLane l fun x =>
    { x with claims := without v.tag x.claims, overdue := x.overdue - (if v.overdue then 1 else 0) }
  judgeRemoval l ((dropShare v l false s1).freeVeh v.tag)

/-- A PLACED vehicle may be pulled back (R14). -/
def State.mayPullBack (s : State) (v : Vehicle) (x : Lane) : Bool :=
  x.stow.getLast? == some v.tag && !s.hasReleased x && x.state != .unloading

/-- The removal of a recalled vehicle, up to and with the examinations it calls for (R11 to R14, R78, R81, R86);
none when R14 refuses it. -/
def recallRemoval (v : Vehicle) (s : State) : Option State :=
  match v.stage with
  | .standby => some ({ s with standby := without v.tag s.standby }.freeVeh v.tag)
  | .assigned l =>
    let r := s.rampOfNo l
    let k := v.cls.kind
    let s1 := s.updRamp r fun q => q.setQueue k (without v.tag (q.queue k))
    some (recallReaches r k (dropClaim v l s1))
  | .onRamp l =>
    let r := s.rampOfNo l
    some (examineRamp r (dropClaim v l (leaveRamp r v s)))
  | .pastCrest l => some (examineRamp (s.rampOfNo l) (dropClaim v l (leaveCrest l v.tag s)))
  | .placed l _ =>
    match s.lane? l with
    | none => none
    | some x => if s.mayPullBack v x then some (judgeRemoval l (dropPlaced v l s)) else none

/-- RECALL (R11). -/
def reqRecall (tag : Nat) (s : State) : State × Reply :=
  match s.veh? tag with
  | none => (s, plain .notFound)
  | some v =>
    match recallRemoval v s with
    | some s1 => (s1.sweepTrigger, ⟨.ok, u8 v.stage.code⟩)
    | none => (s, plain .order)

/-! ### VEHICLE_GET (R15) -/

/-- Position of a tag in a list, counted from 1 at the head. -/
def positionIn (tag : Nat) (xs : List Nat) : Option Nat :=
  if xs.contains tag then some (xs.idxOf tag + 1) else none

/-- The position VEHICLE_GET reports (R15). -/
def State.positionOf (s : State) (v : Vehicle) : Option Nat :=
  match v.stage with
  | .standby => positionIn v.tag s.standby
  | .assigned l => positionIn v.tag ((s.ramp (s.rampOfNo l)).queue v.cls.kind)
  | .onRamp _ | .pastCrest _ | .placed _ _ => none

/-- The flags byte of a record, as in ARRIVE. -/
def Vehicle.flags (v : Vehicle) : Nat :=
  (if v.reefer then 1 else 0) + (if v.dg.isSome then 2 else 0) + (if v.reqLane.isSome then 4 else 0)

/-- Offset field: 0xFFFF when absent (R192). -/
def Stage.offsetBytes : Stage → List Byte
  | .placed _ o => be 2 o
  | .standby | .assigned _ | .onRamp _ | .pastCrest _ => be 2 0xFFFF

def reqVehicleGet (tag : Nat) (s : State) : State × Reply :=
  match s.veh? tag with
  | none => (s, plain .notFound)
  | some v =>
    (s, ⟨.ok, be 4 v.tag ++ u8 v.cls.code ++ u8 v.length ++ u8 v.height ++ be 2 v.massCode ++ u8 v.axle
      ++ u8 v.call ++ u8 v.flags ++ optU8 v.dg ++ optU8 v.reqLane ++ u8 v.stage.code ++ optU8 v.stage.sub?
      ++ flag v.overdue ++ optU8 v.stage.lane? ++ v.stage.offsetBytes ++ be 3 v.mass
      ++ optU8 (s.positionOf v)⟩)

/-! ### CONFIRM (R97, R98) -/

def reqConfirm (tag lane : Nat) (s : State) : State × Reply :=
  if !s.profile.inForce then (s, plain .noProfile)
  else
    match s.lane? lane with
    | none => (s, plain .range)
    | some x =>
      match s.veh? tag with
      | none => (s, plain .notFound)
      | some v =>
        match v.stage with
        | .placed l o =>
          if l = lane then (s, ⟨.alreadyPlaced, be 2 o⟩) else (s, plain .notReleased)
        | .standby | .assigned _ => (s, plain .notReleased)
        | .onRamp l | .pastCrest l =>
          if l != lane then (s, ⟨.lane, u8 l⟩)
          else if !s.gateOpen v x then (s, plain .sequence)
          else (confirmPlace v lane s, ⟨.ok, be 2 (s.nextOffset lane)⟩)

/-! ### DEPART (R156) -/

/-- The vehicle may leave: PLACED, its lane UNLOADING, and the tail of its lane's stow list. -/
def State.mayDepart (s : State) (v : Vehicle) : Option (Nat × Lane) :=
  match v.stage with
  | .placed l _ =>
    match s.lane? l with
    | some x => if x.state = .unloading && x.stow.getLast? == some v.tag then some (l, x) else none
    | none => none
  | .standby | .assigned _ | .onRamp _ | .pastCrest _ => none

/-- The tag of the stow tail of a vehicle's lane, when there is one. -/
def State.tailTag? (s : State) (v : Vehicle) : Option Nat :=
  (v.stage.lane?.bind s.lane?).bind fun x => x.stow.getLast?

def reqDepart (tag : Nat) (s : State) : State × Reply :=
  if !s.profile.inForce then (s, plain .noProfile)
  else
    match s.veh? tag with
    | none => (s, plain .notFound)
    | some v =>
      match s.mayDepart v with
      | none => (s, ⟨.sequence, u8 v.stage.code ++ optU8 v.stage.lane? ++ optTag (s.tailTag? v)⟩)
      | some (l, x) =>
        let credit : Bool := x.mode = .sensed
        let s1 := dischargeRemoval v l .depart credit s
        (if credit && Config.creditCapacity ≤ x.exitCredits then scoreSilent l 1 s1 else s1, plain .ok)

end Sys2Proof.Machine
end

