-- ==== Sys2Proof/Machine/LinkPort.lean ====
section
/-! DEFINITION. The host link (11): the transmitter, replies and rejections, the request that a frame carries,
the receive buffer and the receiver; and the frame of an event. -/

namespace Sys2Proof.Machine

/-! ### The transmitter (R188) -/

/-- The frame of a notice: kind 0xE0, tag 0 (R188). -/
def Notice.frame (n : Notice) : Frame := ⟨0xE0#8, 0#8, n.body⟩

/-- The transmitter starts its next frame: of reply and rejection the one made ready first, then the head of the
notice queue (R188). -/
def Link.startNext (k : Link) : Link :=
  let reply (f : Frame) : Link :=
    { k with inProgress := some ⟨.reply, f⟩, waitingReply := none, rejectionFirst := false }
  let rejection (f : Frame) : Link :=
    { k with inProgress := some ⟨.rejection, f⟩, waitingRejection := none, rejectionFirst := false }
  match k.waitingReply, k.waitingRejection with
  | some f, some g => if k.rejectionFirst then rejection g else reply f
  | some f, none => reply f
  | none, some g => rejection g
  | none, none =>
    match k.notices with
    | [] => k
    | n :: ns => { k with inProgress := some ⟨.notice, n.frame⟩, notices := ns }

/-- An idle line starts the next frame, unless no request has come since the reset (R188, R191). -/
def kick (s : State) : State :=
  if s.link.inProgress.isNone && !s.link.quiet then s.updLink Link.startNext else s

/-- A reply is being sent as the frame in progress. -/
def Link.sendingReply (k : Link) : Bool :=
  match k.inProgress with
  | some ⟨.reply, _⟩ => true
  | some ⟨.rejection, _⟩ | some ⟨.notice, _⟩ | none => false

/-- A request may be taken: no reply waits or is being sent (R186). -/
def Link.canTake (k : Link) : Bool := k.waitingReply.isNone && !k.sendingReply

/-! ### The frame of an event -/

/-- The end of an event: the sweep if one is due (R64), the outputs (R88, R130, R166), and the next frame on an
idle line (R188; log 3, DEDUCED). -/
def endEvent (s : State) : State := kick (refresh (sweepIfDue s))

/-- One event at the running module. Held in reset or without supply the module takes none (log 7, DEDUCED). -/
def runEvent (f : State → State) (s : State) : State :=
  match s.power with
  | .up => endEvent (f { s with ev := EventMarks.none })
  | .held | .down => s

/-! ### Replies and rejections (R186, R187) -/

/-- The link flags as a byte (R192). -/
def Link.flagBits (k : Link) : Nat := (if k.overrun then 1 else 0) + (if k.noticesLost then 2 else 0)

/-- The kind of a reply: the request's plus 0x80, or 0xFF for a frame of kind 0x80 or above (R186). -/
def replyKind (kind : Byte) : Byte := if kind.toNat < 0x80 then kind + 0x80#8 else 0xFF#8

/-- The frame of a reply, with the flags as they stand (R186, R187). -/
def replyFrame (f : Frame) (r : Reply) (k : Link) : Frame :=
  ⟨replyKind f.kind, f.tag, u8 r.result.code ++ u8 k.flagBits ++ r.fields⟩

/-- A reply is made ready: the flags are copied into it and cleared (R187). -/
def readyReply (f : Frame) (r : Reply) (s : State) : State :=
  s.updLink fun k =>
    { k with waitingReply := some (replyFrame f r k), overrun := false, noticesLost := false
             rejectionFirst := k.rejectionFirst && k.waitingRejection.isSome }

/-- A FRAME_REJECTED frame is made ready, or dropped where one waits (R184, R187, R188). -/
def reject (r : Result) (s : State) : State :=
  s.updLink fun k =>
    match k.waitingRejection with
    | some _ => k
    | none =>
      { k with waitingRejection := some ⟨0xEF#8, 0#8, u8 r.code ++ u8 k.flagBits⟩
               overrun := false, noticesLost := false, rejectionFirst := k.waitingReply.isNone }

/-- A taken request is answered: one event, with its reply made ready at its end, after its notices (R186,
R188). -/
def answer (f : Frame) (h : State → State × Reply) (s : State) : State :=
  let a := h { s with ev := EventMarks.none }
  readyReply f a.2 (refresh (sweepIfDue a.1))

/-! ### The request a frame carries (R186, R192) -/

/-- What the terminal's request does and answers. -/
abbrev Handler := State → State × Reply

/-- A body length that the kind does not allow (R186). For the ramp kinds too the reply carries no result for a ramp
(log 34, DESIGN CHOICE). -/
def badLength : Handler := fun s => (s, plain .range)

def body0 (h : Handler) : List Byte → Handler
  | [] => h
  | _ => badLength

def body1 (h : Nat → Handler) : List Byte → Handler
  | [a] => h a.toNat
  | _ => badLength

def body2 (h : Nat → Nat → Handler) : List Byte → Handler
  | [a, b] => h a.toNat b.toNat
  | _ => badLength

def body3 (h : Nat → Nat → Nat → Handler) : List Byte → Handler
  | [a, b, c] => h a.toNat b.toNat c.toNat
  | _ => badLength

def body4 (h : Nat → Nat → Nat → Nat → Handler) : List Byte → Handler
  | [a, b, c, d] => h a.toNat b.toNat c.toNat d.toNat
  | _ => badLength

/-- A tag of four bytes. -/
def bodyTag (h : Nat → Handler) : List Byte → Handler
  | [a, b, c, d] => h (ofBe [a, b, c, d])
  | _ => badLength

/-- ARRIVE (11.6, ARRIVE body): of any length, since its length check is its own field 0 (R6). -/
def serveArrive : List Byte → Handler
  | t3 :: t2 :: t1 :: t0 :: c :: l :: h :: m1 :: m0 :: a :: d :: f :: rest =>
    reqArrive ⟨ofBe [t3, t2, t1, t0], c.toNat, l.toNat, h.toNat, ofBe [m1, m0], a.toNat, d.toNat, f.toNat, rest⟩
  | _ => reqArriveShort

def serveConfirm : List Byte → Handler
  | [a, b, c, d, l] => reqConfirm (ofBe [a, b, c, d]) l.toNat
  | _ => badLength

def serveRunPair : List Byte → Handler
  | [r, l, h] => reqRunPair r.toNat l.toNat h.toNat none
  | [r, l, h, t] => reqRunPair r.toNat l.toNat h.toNat (some t.toNat)
  | _ => badLength

def serveClosureSet : List Byte → Handler
  | [m, a2, a1, a0, b2, b1, b0, sel, en, g] =>
    reqClosureSet m.toNat (ofBe [a2, a1, a0]) (ofBe [b2, b1, b0]) sel.toNat en.toNat g.toNat
  | _ => badLength

/-- DRAFT_PUT: bodies of 4 to 14 bytes. -/
def serveDraftPut : List Byte → Handler
  | t :: i :: fields =>
    if 2 ≤ fields.length && fields.length ≤ 12 then reqDraftPut t.toNat i.toNat fields else badLength
  | _ => badLength

def serveCommit : List Byte → Handler
  | [n, s1, s0] => reqProfileCommit n.toNat (ofBe [s1, s0])
  | _ => badLength

/-- A kind that is not one of 11.6 (R186). -/
def reqUnknown : Handler := fun s => (s, plain .unknownKind)

/-- A row of the kind code table with its body's coding. -/
abbrev KindRow := Nat × (List Byte → Handler)

/-- Kinds 0x01 to 0x1C. -/
def linkAndVehicleKinds : List KindRow :=
  [ (0x01, body1 reqStatus)
  , (0x02, body0 reqReset)
  , (0x03, body1 reqLinkSilence)
  , (0x10, serveArrive)
  , (0x11, bodyTag reqRecall)
  , (0x12, bodyTag reqVehicleGet)
  , (0x13, serveConfirm)
  , (0x14, bodyTag reqDepart)
  , (0x18, body2 reqLaneGet)
  , (0x19, body1 reqSectionGet)
  , (0x1A, body2 reqThresholdSet)
  , (0x1B, body1 reqLaneShut)
  , (0x1C, body1 reqLaneOpen) ]

/-- Kinds 0x20 to 0x26. -/
def rampKinds : List KindRow :=
  [ (0x20, body1 reqRampStart)
  , (0x21, body1 reqRampStop)
  , (0x22, body2 reqRampDirection)
  , (0x23, serveRunPair)
  , (0x24, body3 reqTriggerMode)
  , (0x25, body1 reqTrigger)
  , (0x26, body2 reqRampBand) ]

/-- Kinds 0x28 to 0x31. -/
def sensorAndHoistKinds : List KindRow :=
  [ (0x28, body4 reqSensorWatch)
  , (0x29, body2 reqSensorLevel)
  , (0x2A, body1 reqSensorLatches)
  , (0x2B, body1 reqSensorClear)
  , (0x30, body2 reqHoistMove)
  , (0x31, body1 reqHoistStop) ]

/-- Kinds 0x34 to 0x45. -/
def voyageAndProfileKinds : List KindRow :=
  [ (0x34, body1 reqVoyageSet)
  , (0x35, body0 reqCallOpen)
  , (0x36, body0 reqPhaseLoad)
  , (0x37, body1 reqCallClose)
  , (0x38, body1 reqDischargeLane)
  , (0x3C, body3 reqSignalSet)
  , (0x3D, serveClosureSet)
  , (0x40, serveDraftPut)
  , (0x41, body0 reqDraftClear)
  , (0x42, body2 reqDraftGet)
  , (0x43, serveCommit)
  , (0x44, body0 reqProfileLock)
  , (0x45, body2 reqProfileGet) ]

/-- The requests by kind (11.6, kind codes and request bodies). -/
def requestTable : List KindRow := linkAndVehicleKinds ++ rampKinds ++ sensorAndHoistKinds ++ voyageAndProfileKinds

/-- The request of a kind and a body. -/
def serveBody (kind : Nat) (b : List Byte) : Handler :=
  match requestTable.lookup kind with
  | some h => h b
  | none => reqUnknown

/-- The request of a frame. -/
def serve (f : Frame) : Handler := serveBody f.kind.toNat f.body

/-! ### The receive buffer (R185) -/

/-- A valid frame restarts the silence timer (R185, R89) and ends the quiet after a reset (R191). -/
def hearFrame (s : State) : State :=
  s.updLink fun k => { k with quiet := false, silence := silenceAt k.silenceLimit }

/-- A valid frame joins the buffer, or is discarded with OVERRUN set (R185). -/
def bufferFrame (f : Frame) (s : State) : State :=
  s.updLink fun k =>
    if k.rxBuf.length < Config.rxCapacity then { k with rxBuf := k.rxBuf ++ [f] } else { k with overrun := true }

/-- The head of the buffer is taken as a request when one may be taken (R186). -/
def takeHead (s : State) : State :=
  match s.link.rxBuf with
  | [] => s
  | f :: fs =>
    if s.link.canTake then kick (answer f (serve f) (s.updLink fun k => { k with rxBuf := fs })) else s

/-- A valid request frame arrives (R185, R186): it is taken at once when the buffer is empty and a request may be
taken, else it waits in the buffer. `h` is the request it carries. -/
def requestArrives (f : Frame) (h : Handler) (s : State) : State :=
  match s.power with
  | .up =>
    let s1 := hearFrame s
    if s1.link.rxBuf.isEmpty && s1.link.canTake then kick (answer f h s1) else takeHead (bufferFrame f s1)
  | .held | .down => s

/-! ### The receiver (R184) -/

/-- The receiver takes a state. -/
def setRx (r : Rx) (s : State) : State := s.updLink fun k => { k with rx := r }

/-- The last CRC byte has come: `got` holds kind, tag, body and the two CRC bytes (R184). -/
def frameComplete (len : Nat) (got : List Byte) (s : State) : State :=
  let data := got.take len
  if crc (BitVec.ofNat 8 len :: data) = BitVec.ofNat 16 (ofBe (got.drop len)) then
    match data with
    | kind :: tag :: body => requestArrives ⟨kind, tag, body⟩ (serve ⟨kind, tag, body⟩) s
    | _ => s
  else kick (reject .check s)

/-- One byte at the receiver (R184). -/
def rxByte (s : State) (b : Byte) : State :=
  match s.link.rx with
  | .hunt => if b = 0xC3#8 then setRx .length s else s
  | .length =>
    if 2 ≤ b.toNat && b.toNat ≤ 242 then setRx (.data b.toNat []) s
    else kick (reject .rejLength (setRx .hunt s))
  | .data len got =>
    let all := got ++ [b]
    if all.length = len + 2 then frameComplete len all (setRx .hunt s) else setRx (.data len all) s

/-- Bytes one after another without a gap; heard only by the running module. -/
def rxBytes (bs : List Byte) (s : State) : State :=
  match s.power with
  | .up => bs.foldl rxByte s
  | .held | .down => s

/-- A gap or a bad stop bit in LENGTH or DATA: the partial frame is discarded (R184). In HUNT the receiver stays
there, whatever byte had the bad stop bit (log 35, DESIGN CHOICE). -/
def dropPartial (s : State) : State :=
  match s.power with
  | .up => setRx .hunt s
  | .held | .down => s

/-! ### Resets and the end of a frame -/

/-- A reset is performed; the module runs after it. -/
def resetNow (k : ResetCause) (s : State) : State := refresh (doReset k { s with power := .up })

/-- The RESET reply is being sent, and its reset is due (R190). -/
def Link.resetReady (k : Link) : Bool := k.resetDue && k.sendingReply

/-- The frame in progress ends (R188): the RESET reply's end performs the request reset (R190); any other starts
the next frame, and the head of the buffer is taken if the line's reply has gone (R186; log 4, DESIGN CHOICE). -/
def frameEnds (s : State) : State :=
  match s.power, s.link.inProgress with
  | .up, some _ =>
    if s.link.resetReady then resetNow .request s
    else takeHead (kick (s.updLink fun k => { k with inProgress := none }))
  | .up, none | .held, _ | .down, _ => s

end Sys2Proof.Machine
end

