-- ==== Sys2Proof/Machine/Clock.lean ====
section
/-! DEFINITION. One second of the module's timebase (00_scope, Time; log 9, DESIGN CHOICE): what a step on an empty
queue does. -/

namespace Sys2Proof.Machine

/-- Every running timer of the state loses one second. -/
def countDown (s : State) : State :=
  { s with
    link := { s.link with silence := s.link.silence.tick }
    lower := { s.lower with stall := s.lower.stall.tick, crestWindow := s.lower.crestWindow.tick }
    upper := { s.upper with stall := s.upper.stall.tick, crestWindow := s.upper.crestWindow.tick }
    lanes := s.lanes.map fun x => { x with entryWindow := x.entryWindow.tick, exitWindow := x.exitWindow.tick }
    vehicles := s.vehicles.map fun v => { v with transit := v.transit.tick }
    panels := s.panels.map fun p => { p with timer := p.timer.tick } }

/-- A timer that has run out gives its event. -/
def fire (due : State → Bool) (f : State → State) (s : State) : State := if due s then runEvent f s else s

/-- The silence timer runs out once (R89). -/
def silenceExpires (s : State) : State := silenceStops (s.updLink fun k => { k with silence := .stopped })

def State.laneDue (s : State) (t : Lane → Timer) (l : Nat) : Bool := (s.lane? l).any fun x => (t x).due

/-- The expiries of this second, each an event, in the order of log 9. -/
def fireAll (s : State) : State :=
  let s1 := fire (fun s => s.link.silence.due) silenceExpires s
  let s2 := [Ramp.lower, Ramp.upper].foldl (fun s r => fire (fun s => (s.ramp r).stall.due) (stallExpires r) s) s1
  let s3 := [Ramp.lower, Ramp.upper].foldl
    (fun s r => fire (fun s => (s.ramp r).crestWindow.due) (crestWindowExpires r) s) s2
  let ls := List.range s3.lanes.length
  let s4 := ls.foldl (fun s l => fire (fun s => s.laneDue Lane.entryWindow l) (entryWindowExpires l) s) s3
  let s5 := ls.foldl (fun s l => fire (fun s => s.laneDue Lane.exitWindow l) (exitWindowExpires l) s) s4
  let s6 := (s5.vehicles.map Vehicle.tag).foldl
    (fun s t => fire (fun s => (s.veh? t).any fun v => v.transit.due) (transitExpires t) s) s5
  (List.range s6.panels.length).foldl
    (fun s p => fire (fun s => (s.panel? p).any fun x => x.timer.due) (moveExpires p) s) s6

/-- One second passes; held in reset or without supply no timer runs. -/
def tick (s : State) : State :=
  match s.power with
  | .up => fireAll (countDown s)
  | .held | .down => s

end Sys2Proof.Machine
end

