-- ==== Sys2Proof/Machine/Requests.lean ====
section
/-! DEFINITION. The meanings of the request commands. A request command is the arrival of its valid frame, with
link tag `lt` and the body of 11.6 (log 1, DEDUCED): taken at once where R186 lets it be taken, else buffered. -/

namespace Sys2Proof.Machine

/-- A step's next state. -/
abbrev Next := Host.Outcome State Fault Refusal

/-- STATUS (R189). -/
def execStatus (lt clear : Byte) (s : State) : Next :=
  .next (requestArrives ⟨0x01#8, lt, [clear]⟩ (reqStatus clear.toNat) s)

/-- RESET (R190). -/
def execReset (lt : Byte) (s : State) : Next :=
  .next (requestArrives ⟨0x02#8, lt, []⟩ reqReset s)

/-- LINK_SILENCE (R89). -/
def execLinkSilence (lt limit : Byte) (s : State) : Next :=
  .next (requestArrives ⟨0x03#8, lt, [limit]⟩ (reqLinkSilence limit.toNat) s)

/-- ARRIVE (R5 to R10, R44 to R60). -/
def execArrive (lt : Byte) (tag : BitVec 32) (cls len height : Byte) (mass : BitVec 16) (axle call flags : Byte)
    (rest : List Byte) (s : State) : Next :=
  .next (requestArrives ⟨0x10#8, lt, (be 4 tag.toNat ++ [cls, len, height] ++ be 2 mass.toNat ++ [axle, call, flags] ++ rest)⟩
    (reqArrive ⟨tag.toNat, cls.toNat, len.toNat, height.toNat, mass.toNat, axle.toNat, call.toNat, flags.toNat, rest⟩) s)

/-- RECALL (R11 to R14). -/
def execRecall (lt : Byte) (tag : BitVec 32) (s : State) : Next :=
  .next (requestArrives ⟨0x11#8, lt, (be 4 tag.toNat)⟩ (reqRecall tag.toNat) s)

/-- VEHICLE_GET (R15). -/
def execVehicleGet (lt : Byte) (tag : BitVec 32) (s : State) : Next :=
  .next (requestArrives ⟨0x12#8, lt, (be 4 tag.toNat)⟩ (reqVehicleGet tag.toNat) s)

/-- CONFIRM (R97, R98). -/
def execConfirm (lt : Byte) (tag : BitVec 32) (lane : Byte) (s : State) : Next :=
  .next (requestArrives ⟨0x13#8, lt, (be 4 tag.toNat ++ [lane])⟩ (reqConfirm tag.toNat lane.toNat) s)

/-- DEPART (R156). -/
def execDepart (lt : Byte) (tag : BitVec 32) (s : State) : Next :=
  .next (requestArrives ⟨0x14#8, lt, (be 4 tag.toNat)⟩ (reqDepart tag.toNat) s)

/-- LANE_GET (R40). -/
def execLaneGet (lt lane start : Byte) (s : State) : Next :=
  .next (requestArrives ⟨0x18#8, lt, [lane, start]⟩ (reqLaneGet lane.toNat start.toNat) s)

/-- SECTION_GET (R41). -/
def execSectionGet (lt sect : Byte) (s : State) : Next :=
  .next (requestArrives ⟨0x19#8, lt, [sect]⟩ (reqSectionGet sect.toNat) s)

/-- THRESHOLD_SET (R39). -/
def execThresholdSet (lt target t : Byte) (s : State) : Next :=
  .next (requestArrives ⟨0x1A#8, lt, [target, t]⟩ (reqThresholdSet target.toNat t.toNat) s)

/-- LANE_SHUT (R30). -/
def execLaneShut (lt lane : Byte) (s : State) : Next :=
  .next (requestArrives ⟨0x1B#8, lt, [lane]⟩ (reqLaneShut lane.toNat) s)

/-- LANE_OPEN (R31). -/
def execLaneOpen (lt lane : Byte) (s : State) : Next :=
  .next (requestArrives ⟨0x1C#8, lt, [lane]⟩ (reqLaneOpen lane.toNat) s)

/-- RAMP_START (R74). -/
def execRampStart (lt ramp : Byte) (s : State) : Next :=
  .next (requestArrives ⟨0x20#8, lt, [ramp]⟩ (reqRampStart ramp.toNat) s)

/-- RAMP_STOP (R84). -/
def execRampStop (lt ramp : Byte) (s : State) : Next :=
  .next (requestArrives ⟨0x21#8, lt, [ramp]⟩ (reqRampStop ramp.toNat) s)

/-- RAMP_DIRECTION (R69). -/
def execRampDirection (lt ramp dir : Byte) (s : State) : Next :=
  .next (requestArrives ⟨0x22#8, lt, [ramp, dir]⟩ (reqRampDirection ramp.toNat dir.toNat) s)

/-- RUN_PAIR (R76). -/
def execRunPair (lt ramp light heavy : Byte) (stall : Option Byte) (s : State) : Next :=
  .next (requestArrives ⟨0x23#8, lt, ([ramp, light, heavy] ++ stall.toList)⟩
    (reqRunPair ramp.toNat light.toNat heavy.toNat (stall.map BitVec.toNat)) s)

/-- TRIGGER_MODE (R82). -/
def execTriggerMode (lt ramp mode source : Byte) (s : State) : Next :=
  .next (requestArrives ⟨0x24#8, lt, [ramp, mode, source]⟩
    (reqTriggerMode ramp.toNat mode.toNat source.toNat) s)

/-- TRIGGER (R81). -/
def execTrigger (lt ramp : Byte) (s : State) : Next :=
  .next (requestArrives ⟨0x25#8, lt, [ramp]⟩ (reqTrigger ramp.toNat) s)

/-- RAMP_BAND (R73). -/
def execRampBand (lt ramp band : Byte) (s : State) : Next :=
  .next (requestArrives ⟨0x26#8, lt, [ramp, band]⟩ (reqRampBand ramp.toNat band.toNat) s)

/-- SENSOR_WATCH (R115). -/
def execSensorWatch (lt scope ident watch notice : Byte) (s : State) : Next :=
  .next (requestArrives ⟨0x28#8, lt, [scope, ident, watch, notice]⟩
    (reqSensorWatch scope.toNat ident.toNat watch.toNat notice.toNat) s)

/-- SENSOR_LEVEL (R119). -/
def execSensorLevel (lt deck level : Byte) (s : State) : Next :=
  .next (requestArrives ⟨0x29#8, lt, [deck, level]⟩ (reqSensorLevel deck.toNat level.toNat) s)

/-- SENSOR_LATCHES (R117). -/
def execSensorLatches (lt decks : Byte) (s : State) : Next :=
  .next (requestArrives ⟨0x2A#8, lt, [decks]⟩ (reqSensorLatches decks.toNat) s)

/-- SENSOR_CLEAR (R121). -/
def execSensorClear (lt lane : Byte) (s : State) : Next :=
  .next (requestArrives ⟨0x2B#8, lt, [lane]⟩ (reqSensorClear lane.toNat) s)

/-- HOIST_MOVE (R135, R136). -/
def execHoistMove (lt panel target : Byte) (s : State) : Next :=
  .next (requestArrives ⟨0x30#8, lt, [panel, target]⟩ (reqHoistMove panel.toNat target.toNat) s)

/-- HOIST_STOP (R140). -/
def execHoistStop (lt panel : Byte) (s : State) : Next :=
  .next (requestArrives ⟨0x31#8, lt, [panel]⟩ (reqHoistStop panel.toNat) s)

/-- VOYAGE_SET (R145). -/
def execVoyageSet (lt last : Byte) (s : State) : Next :=
  .next (requestArrives ⟨0x34#8, lt, [last]⟩ (reqVoyageSet last.toNat) s)

/-- CALL_OPEN (R146). -/
def execCallOpen (lt : Byte) (s : State) : Next :=
  .next (requestArrives ⟨0x35#8, lt, []⟩ reqCallOpen s)

/-- PHASE_LOAD (R147). -/
def execPhaseLoad (lt : Byte) (s : State) : Next :=
  .next (requestArrives ⟨0x36#8, lt, []⟩ reqPhaseLoad s)

/-- CALL_CLOSE (R148 to R150). -/
def execCallClose (lt overcarry : Byte) (s : State) : Next :=
  .next (requestArrives ⟨0x37#8, lt, [overcarry]⟩ (reqCallClose overcarry.toNat) s)

/-- DISCHARGE_LANE (R152, R153). -/
def execDischargeLane (lt lane : Byte) (s : State) : Next :=
  .next (requestArrives ⟨0x38#8, lt, [lane]⟩ (reqDischargeLane lane.toNat) s)

/-- SIGNAL_SET (R163). -/
def execSignalSet (lt scope ident mode : Byte) (s : State) : Next :=
  .next (requestArrives ⟨0x3C#8, lt, [scope, ident, mode]⟩
    (reqSignalSet scope.toNat ident.toNat mode.toNat) s)

/-- CLOSURE_SET (R169, R170). -/
def execClosureSet (lt carried : Byte) (maskA maskB : BitVec 24) (select enable glob : Byte) (s : State) : Next :=
  .next (requestArrives ⟨0x3D#8, lt, ([carried] ++ be 3 maskA.toNat ++ be 3 maskB.toNat ++ [select, enable, glob])⟩
    (reqClosureSet carried.toNat maskA.toNat maskB.toNat select.toNat enable.toNat glob.toNat) s)

/-- DRAFT_PUT (R175). -/
def execDraftPut (lt type index : Byte) (fields : List Byte) (s : State) : Next :=
  .next (requestArrives ⟨0x40#8, lt, ([type, index] ++ fields)⟩ (serveDraftPut (type :: index :: fields)) s)

/-- DRAFT_CLEAR (R176). -/
def execDraftClear (lt : Byte) (s : State) : Next :=
  .next (requestArrives ⟨0x41#8, lt, []⟩ reqDraftClear s)

/-- DRAFT_GET (R176). -/
def execDraftGet (lt type index : Byte) (s : State) : Next :=
  .next (requestArrives ⟨0x42#8, lt, [type, index]⟩ (reqDraftGet type.toNat index.toNat) s)

/-- PROFILE_COMMIT (R177 to R179). -/
def execProfileCommit (lt count : Byte) (sum : BitVec 16) (s : State) : Next :=
  .next (requestArrives ⟨0x43#8, lt, ([count] ++ be 2 sum.toNat)⟩ (reqProfileCommit count.toNat sum.toNat) s)

/-- PROFILE_LOCK (R182). -/
def execProfileLock (lt : Byte) (s : State) : Next :=
  .next (requestArrives ⟨0x44#8, lt, []⟩ reqProfileLock s)

/-- PROFILE_GET (R183). -/
def execProfileGet (lt type index : Byte) (s : State) : Next :=
  .next (requestArrives ⟨0x45#8, lt, [type, index]⟩ (reqProfileGet type.toNat index.toNat) s)

/-- UNKNOWN_KIND (R186): a frame whose kind is none of 11.6. -/
def execUnknownKind (lt kind : Byte) (body : List Byte) (s : State) : Next :=
  .next (requestArrives ⟨kind, lt, body⟩ (serve ⟨kind, lt, body⟩) s)

end Sys2Proof.Machine
end

