-- ==== Sys2Proof/Machine/Events.lean ====
section
/-! DEFINITION. The meanings of the event commands: bytes and frames on the line, resets and supply, field lines,
expiries, the profile store's writer. A line's level changes whatever the module does; the module takes the event
only while it runs (log 7, DEDUCED), only where the level changed, and an expiry only of a running timer (log 6,
DESIGN CHOICE). -/

namespace Sys2Proof.Machine

/-! ### Input lines -/

def setPins (f : Pins → Pins) (s : State) : State := { s with pins := f s.pins }

def Pins.pressed (p : Pins) : TriggerLine → Bool
  | .line1 => p.line1
  | .line2 => p.line2

def Pins.setPressed (p : Pins) (l : TriggerLine) (b : Bool) : Pins :=
  match l with
  | .line1 => { p with line1 := b }
  | .line2 => { p with line2 := b }

def Pins.setLoop (p : Pins) (l : Nat) (b : Bool) : Pins := { p with loops := p.loops.setIfInBounds l b }

def Pins.setCrest (p : Pins) (r : Ramp) (b : Bool) : Pins :=
  match r with
  | .lower => { p with crestLower := b }
  | .upper => { p with crestUpper := b }

def Pins.limit (p : Pins) (n : Nat) : LimitLine → Bool
  | .up => (p.upLimit[n]?).getD false
  | .down => (p.downLimit[n]?).getD false

def Pins.setLimit (p : Pins) (n : Nat) (l : LimitLine) (b : Bool) : Pins :=
  match l with
  | .up => { p with upLimit := p.upLimit.setIfInBounds n b }
  | .down => { p with downLimit := p.downLimit.setIfInBounds n b }

/-- An event that an outside cause brings about only where `c` holds; else nothing (log 6, DESIGN CHOICE). -/
def eventIf (c : Bool) (f : State → State) (s : State) : Next := .next (if c then runEvent f s else s)

/-! ### The line to the terminal -/

/-- FRAME_RECEIVE (R184, R185): bytes on the line, a whole frame or any run of bytes (log 2, DEDUCED). -/
def execFrameReceive (bytes : List Byte) (s : State) : Next := .next (rxBytes bytes s)

/-- INTER_BYTE_GAP (R184). -/
def execInterByteGap (s : State) : Next := .next (dropPartial s)

/-- BAD_STOP_BIT_BYTE (R184). -/
def execBadStopBitByte (s : State) : Next := .next (dropPartial s)

/-- TRANSMIT_FRAME_END (R188). -/
def execTransmitFrameEnd (s : State) : Next := .next (frameEnds s)

/-! ### Resets and supply -/

/-- POWER_ON_RESET (R17, R190): supply returns; with the reset input active the module stays held (R190). -/
def execPowerOnReset (s : State) : Next :=
  let s1 := resetNow .power s
  .next (if s.pins.resetIn then refresh { s1 with power := .held } else s1)

/-- LINE_RESET_ASSERT (R190, R142, R88, R162). -/
def execLineResetAssert (s : State) : Next :=
  let s1 := setPins (fun p => { p with resetIn := true }) s
  .next (match s.power with
    | .up => refresh { s1 with power := .held }
    | .held | .down => s1)

/-- LINE_RESET_RELEASE (R190). -/
def execLineResetRelease (s : State) : Next :=
  let s1 := setPins (fun p => { p with resetIn := false }) s
  .next (match s.power with
    | .held => resetNow .line s1
    | .up | .down => s1)

/-- REQUEST_RESET (R190): the last byte of the RESET reply has been sent (log 5, DEDUCED). -/
def execRequestReset (s : State) : Next :=
  .next (match s.power with
    | .up => if s.link.resetReady then resetNow .request s else s
    | .held | .down => s)

/-- STOW_MARK_BROKEN (R16). -/
def execStowMarkBroken (s : State) : Next := .next { s with stowIntact := false }

/-- MAIN_SUPPLY_LOSS (R16): the module goes down; stow memory is carried. -/
def execMainSupplyLoss (s : State) : Next := .next (refresh { s with power := .down })

/-! ### Field lines -/

/-- TRIGGER_LINE_PRESS (R81): a change from released to pressed. -/
def execTriggerLinePress (line : TriggerLine) (s : State) : Next :=
  eventIf (!s.pins.pressed line) (pressLine line) (setPins (fun p => p.setPressed line true) s)

/-- TRIGGER_LINE_RELEASE (R81). -/
def execTriggerLineRelease (line : TriggerLine) (s : State) : Next :=
  .next (setPins (fun p => p.setPressed line false) s)

/-- CREST_LOOP_EDGE (R111, R113): the crest loop line comes to a level. -/
def execCrestLoopEdge (ramp : Ramp) (high : Bool) (s : State) : Next :=
  eventIf true (crestLine ramp high) (setPins (fun p => p.setCrest ramp high) s)

/-- LANE_LOOP_EDGE (R111 to R114): the loop line of a lane comes to a level (log 31, DEDUCED). -/
def execLaneLoopEdge (lane : Nat) (high : Bool) (s : State) : Next :=
  eventIf true (laneLine lane high) (setPins (fun p => p.setLoop lane high) s)

/-- LIMIT_LINE_EVENT (R132): a limit line changes. -/
def execLimitLineEvent (panel : Nat) (line : LimitLine) (active : Bool) (s : State) : Next :=
  eventIf (s.pins.limit panel line != active) (limitEvent panel line active)
    (setPins (fun p => p.setLimit panel line active) s)

/-! ### Expiries -/

/-- STALL_TIMER_EXPIRY (R79). -/
def execStallTimerExpiry (ramp : Ramp) (s : State) : Next :=
  eventIf (s.ramp ramp).stall.isRunning (stallExpires ramp) s

/-- LINK_SILENCE_EXPIRY (R89). -/
def execLinkSilenceExpiry (s : State) : Next := eventIf s.link.silence.isRunning silenceExpires s

/-- ENTRY_CREDIT_WINDOW_EXPIRY (R102). -/
def execEntryCreditWindowExpiry (lane : Nat) (s : State) : Next :=
  eventIf ((s.lane? lane).any fun x => x.entryWindow.isRunning) (entryWindowExpires lane) s

/-- CREST_CREDIT_WINDOW_EXPIRY (R102). -/
def execCrestCreditWindowExpiry (ramp : Ramp) (s : State) : Next :=
  eventIf (s.ramp ramp).crestWindow.isRunning (crestWindowExpires ramp) s

/-- EXIT_CREDIT_WINDOW_EXPIRY (R157). -/
def execExitCreditWindowExpiry (lane : Nat) (s : State) : Next :=
  eventIf ((s.lane? lane).any fun x => x.exitWindow.isRunning) (exitWindowExpires lane) s

/-- TRANSIT_EXPIRY (R107). -/
def execTransitExpiry (tag : Nat) (s : State) : Next :=
  eventIf ((s.veh? tag).any fun v => v.transit.isRunning) (transitExpires tag) s

/-- MOVE_TIMEOUT (R138). -/
def execMoveTimeout (panel : Nat) (s : State) : Next :=
  eventIf ((s.panel? panel).any fun x => x.timer.isRunning) (moveExpires panel) s

/-! ### The profile store's writer -/

/-- PROFILE_WRITE_COMPLETE (R180). -/
def execProfileWriteComplete (s : State) : Next := eventIf s.profile.isCommitting commitCompletes s

/-- PROFILE_WRITE_FAILURE (R181): `type`, `index` name the record whose write failed. -/
def execProfileWriteFailure (type index : Byte) (s : State) : Next :=
  eventIf s.profile.isCommitting (commitFails type index) s

end Sys2Proof.Machine
end

