-- ==== Sys2Proof/Machine/Dispatch.lean ====
section
/-! DEFINITION. One arm for each command: its meaning. -/

namespace Sys2Proof.Machine

def exec (i : Instr) (s : State) : Host.Outcome State Fault Refusal :=
  match i with
  | .status lt clear => Sys2Proof.Machine.execStatus lt clear s
  | .reset lt => Sys2Proof.Machine.execReset lt s
  | .linkSilence lt limit => Sys2Proof.Machine.execLinkSilence lt limit s
  | .arrive lt tag cls len height mass axle call flags rest => Sys2Proof.Machine.execArrive lt tag cls len height mass axle call flags rest s
  | .recallVehicle lt tag => Sys2Proof.Machine.execRecall lt tag s
  | .vehicleGet lt tag => Sys2Proof.Machine.execVehicleGet lt tag s
  | .confirm lt tag lane => Sys2Proof.Machine.execConfirm lt tag lane s
  | .depart lt tag => Sys2Proof.Machine.execDepart lt tag s
  | .laneGet lt lane start => Sys2Proof.Machine.execLaneGet lt lane start s
  | .sectionGet lt sect => Sys2Proof.Machine.execSectionGet lt sect s
  | .thresholdSet lt target t => Sys2Proof.Machine.execThresholdSet lt target t s
  | .laneShut lt lane => Sys2Proof.Machine.execLaneShut lt lane s
  | .laneOpen lt lane => Sys2Proof.Machine.execLaneOpen lt lane s
  | .rampStart lt ramp => Sys2Proof.Machine.execRampStart lt ramp s
  | .rampStop lt ramp => Sys2Proof.Machine.execRampStop lt ramp s
  | .rampDirection lt ramp dir => Sys2Proof.Machine.execRampDirection lt ramp dir s
  | .runPair lt ramp light heavy stall => Sys2Proof.Machine.execRunPair lt ramp light heavy stall s
  | .triggerMode lt ramp mode source => Sys2Proof.Machine.execTriggerMode lt ramp mode source s
  | .trigger lt ramp => Sys2Proof.Machine.execTrigger lt ramp s
  | .rampBand lt ramp band => Sys2Proof.Machine.execRampBand lt ramp band s
  | .sensorWatch lt scope ident watch notice => Sys2Proof.Machine.execSensorWatch lt scope ident watch notice s
  | .sensorLevel lt deck level => Sys2Proof.Machine.execSensorLevel lt deck level s
  | .sensorLatches lt decks => Sys2Proof.Machine.execSensorLatches lt decks s
  | .sensorClear lt lane => Sys2Proof.Machine.execSensorClear lt lane s
  | .hoistMove lt panel target => Sys2Proof.Machine.execHoistMove lt panel target s
  | .hoistStop lt panel => Sys2Proof.Machine.execHoistStop lt panel s
  | .voyageSet lt last => Sys2Proof.Machine.execVoyageSet lt last s
  | .callOpen lt => Sys2Proof.Machine.execCallOpen lt s
  | .phaseLoad lt => Sys2Proof.Machine.execPhaseLoad lt s
  | .callClose lt overcarry => Sys2Proof.Machine.execCallClose lt overcarry s
  | .dischargeLane lt lane => Sys2Proof.Machine.execDischargeLane lt lane s
  | .signalSet lt scope ident mode => Sys2Proof.Machine.execSignalSet lt scope ident mode s
  | .closureSet lt carried maskA maskB select enable glob => Sys2Proof.Machine.execClosureSet lt carried maskA maskB select enable glob s
  | .draftPut lt type index fields => Sys2Proof.Machine.execDraftPut lt type index fields s
  | .draftClear lt => Sys2Proof.Machine.execDraftClear lt s
  | .draftGet lt type index => Sys2Proof.Machine.execDraftGet lt type index s
  | .profileCommit lt count sum => Sys2Proof.Machine.execProfileCommit lt count sum s
  | .profileLock lt => Sys2Proof.Machine.execProfileLock lt s
  | .profileGet lt type index => Sys2Proof.Machine.execProfileGet lt type index s
  | .unknownKind lt kind body => Sys2Proof.Machine.execUnknownKind lt kind body s
  | .frameReceive bytes => Sys2Proof.Machine.execFrameReceive bytes s
  | .interByteGap => Sys2Proof.Machine.execInterByteGap s
  | .transmitFrameEnd => Sys2Proof.Machine.execTransmitFrameEnd s
  | .powerOnReset => Sys2Proof.Machine.execPowerOnReset s
  | .lineResetAssert => Sys2Proof.Machine.execLineResetAssert s
  | .lineResetRelease => Sys2Proof.Machine.execLineResetRelease s
  | .requestReset => Sys2Proof.Machine.execRequestReset s
  | .stowMarkBroken => Sys2Proof.Machine.execStowMarkBroken s
  | .stallTimerExpiry ramp => Sys2Proof.Machine.execStallTimerExpiry ramp s
  | .triggerLinePress line => Sys2Proof.Machine.execTriggerLinePress line s
  | .linkSilenceExpiry => Sys2Proof.Machine.execLinkSilenceExpiry s
  | .crestLoopEdge ramp high => Sys2Proof.Machine.execCrestLoopEdge ramp high s
  | .laneLoopEdge lane high => Sys2Proof.Machine.execLaneLoopEdge lane high s
  | .entryCreditWindowExpiry lane => Sys2Proof.Machine.execEntryCreditWindowExpiry lane s
  | .crestCreditWindowExpiry ramp => Sys2Proof.Machine.execCrestCreditWindowExpiry ramp s
  | .exitCreditWindowExpiry lane => Sys2Proof.Machine.execExitCreditWindowExpiry lane s
  | .transitExpiry tag => Sys2Proof.Machine.execTransitExpiry tag s
  | .limitLineEvent panel line active => Sys2Proof.Machine.execLimitLineEvent panel line active s
  | .moveTimeout panel => Sys2Proof.Machine.execMoveTimeout panel s
  | .profileWriteComplete => Sys2Proof.Machine.execProfileWriteComplete s
  | .profileWriteFailure type index => Sys2Proof.Machine.execProfileWriteFailure type index s
  | .badStopBitByte => Sys2Proof.Machine.execBadStopBitByte s
  | .mainSupplyLoss => Sys2Proof.Machine.execMainSupplyLoss s
  | .triggerLineRelease line => Sys2Proof.Machine.execTriggerLineRelease line s

end Sys2Proof.Machine
end

