-- ==== Sys2Proof/Machine/Step.lean ====
section
/-! DEFINITION. One step: the command at the front of the queue, or one second on an empty queue. -/

namespace Sys2Proof.Machine

/-- The command at the front runs on the state with the queue's rest. On an empty queue one second passes
(log 9, DESIGN CHOICE). -/
def step (s : State) : Host.Outcome State Fault Refusal :=
  match s.pending with
  | c :: cs => exec c { s with pending := cs }
  | [] => .next (tick s)

/-- The command that a word spells, at the front of the queue. No row of the table has bits, so no word spells one
and the state is unchanged (log 22, DESIGN CHOICE). -/
def State.withFetchWord (s : State) (nbits w : Nat) : State :=
  match decodeTableWord nbits w with
  | some c => { s with pending := c :: s.pending }
  | none => s

end Sys2Proof.Machine
end

