-- ==== Sys2Proof/Safety.lean ====
section
/-! DEFINITION. What statements speak of: safe states, the laws every step keeps, the moment at which a request is
taken at once, the state that a taken request or an event leaves, and the frame a request command stands for. -/

namespace Sys2Proof.Machine

/-! ### Safety and laws -/

/-- The next step answers a next state: the module never stops. -/
def Safe (s : State) : Prop := ∃ t, step s = .next t

/-- R77: each ramp's active run pair has H no greater than 2 L. -/
abbrev RunPairLaw (s : State) : Prop := s.lower.active.lawful = true ∧ s.upper.active.lawful = true

/-- Outputs of the running module agree with its state (R88, R130, R164). -/
abbrev LitLaw (s : State) : Prop :=
  s.lower.go = s.lower.goLit ∧ s.upper.go = s.upper.goLit ∧
    (∀ x ∈ s.lanes, x.aspect = s.aspectOf x) ∧
    (∀ p ∈ s.panels, p.raise = decide (p.state = .raising) ∧ p.lower = decide (p.state = .lowering))

/-- Outputs of a module held in reset or without supply are off, its heads dark (R88, R142, R162). -/
abbrev DarkLaw (s : State) : Prop :=
  s.lower.go = false ∧ s.upper.go = false ∧ (∀ x ∈ s.lanes, x.aspect = .dark) ∧
    (∀ p ∈ s.panels, p.raise = false ∧ p.lower = false)

/-- The outputs say what the state says. -/
abbrev OutputsLaw (s : State) : Prop := (s.power = .up → LitLaw s) ∧ (s.power ≠ .up → DarkLaw s)

/-- A receiver state is one that R184 can be in. -/
def Rx.lawful : Rx → Bool
  | .hunt | .length => true
  | .data len got => decide (2 ≤ len) && decide (len ≤ 242) && decide (got.length < len + 2)

/-- The link port's law (R184 to R188, R190, R191): capacities; a request waits in the buffer, and a reset is due,
only while a reply waits or is being sent; before the first request nothing is sent; an idle line has nothing
waiting for it. -/
abbrev LinkLaw (s : State) : Prop :=
  s.link.rx.lawful = true ∧ s.link.rxBuf.length ≤ Config.rxCapacity ∧
    s.link.notices.length ≤ Config.noticeCapacity ∧
    (s.link.rxBuf ≠ [] → s.link.canTake = false) ∧ (s.link.resetDue = true → s.link.canTake = false) ∧
    (s.link.quiet = true → s.link.inProgress = none ∧ s.link.waitingReply = none) ∧
    (s.link.inProgress = none → s.link.quiet = false →
      s.link.waitingReply = none ∧ s.link.waitingRejection = none ∧ s.link.notices = [])

/-! ### The books: what the spec calls laws -/

/-- The stage of a tag's record. -/
def State.stage? (s : State) (tag : Nat) : Option Stage := (s.veh? tag).map Vehicle.stage

/-- The kind of a tag's record. -/
def State.kind? (s : State) (tag : Nat) : Option Kind := (s.veh? tag).map fun v => v.cls.kind

/-- R18, with R1's one record for a tag: every record stands on the lists its stage names, once, and on no other. -/
structure RecordLaw (s : State) : Prop where
  tags : (s.vehicles.map Vehicle.tag).Nodup
  bound : ∀ tag l, (s.stage? tag).bind Stage.lane? = some l → l < s.lanes.length
  standby : s.standby.Nodup ∧ ∀ tag, tag ∈ s.standby ↔ s.stage? tag = some .standby
  stow : ∀ l x, s.lane? l = some x → x.stow.Nodup ∧ ∀ tag, tag ∈ x.stow ↔ ∃ o, s.stage? tag = some (.placed l o)
  claims : ∀ l x, s.lane? l = some x → x.claims.Nodup ∧ ∀ tag, tag ∈ x.claims ↔
    s.stage? tag = some (.assigned l) ∨ s.stage? tag = some (.onRamp l) ∨ s.stage? tag = some (.pastCrest l)
  pastCrest : ∀ l x, s.lane? l = some x →
    x.pastCrest.Nodup ∧ ∀ tag, tag ∈ x.pastCrest ↔ s.stage? tag = some (.pastCrest l)
  onRamp : ∀ r, (s.ramp r).onRamp.Nodup ∧
    ∀ tag, tag ∈ (s.ramp r).onRamp ↔ ∃ l, s.stage? tag = some (.onRamp l) ∧ s.rampOfNo l = r
  queue : ∀ r k, ((s.ramp r).queue k).Nodup ∧ ∀ tag, tag ∈ (s.ramp r).queue k ↔
    ∃ l, s.stage? tag = some (.assigned l) ∧ s.kind? tag = some k ∧ s.rampOfNo l = r

/-- R25, R32, R33, R36, R72: the figures are those of the lists; only a RELEASED vehicle is OVERDUE (R107). -/
structure FiguresLaw (s : State) : Prop where
  lane : ∀ x ∈ s.lanes, s.figured x = x ∧ x.overdue = ((s.records x.claims).filter Vehicle.overdue).length
  sect : ∀ i c, s.sect? i = some c → s.weighed i c = c
  moment : s.listMoment = s.momentOf
  ramp : ∀ r, (s.ramp r).mass = s.massOf (s.ramp r).onRamp
  overdue : ∀ v ∈ s.vehicles, v.overdue = true → v.stage.released = true

/-- R28, R110: along a lane the calls never increase, and a RELEASED claim has the call of the first claim. -/
structure OrderLaw (s : State) : Prop where
  calls : ∀ x ∈ s.lanes, ((s.records (x.stow ++ x.claims)).map Vehicle.call).Pairwise (· ≥ ·)
  released : ∀ x ∈ s.lanes, ∀ v ∈ s.records x.claims, v.stage.released = true → s.firstClaimCall? x = some v.call

/-- R34, R42, R43 and the capacities of R1, R60, R56: no limit of the profile and no capacity is exceeded. -/
structure LimitsLaw (s : State) : Prop where
  lane : ∀ x ∈ s.lanes, x.used ≤ x.usable ∧ x.reefers ≤ x.sockets ∧ x.claims.length ≤ 16 ∧
    x.stow.length + x.claims.length ≤ 48
  sect : ∀ c ∈ s.sections, c.projected ≤ c.massLimit * 1000
  capacity : s.vehicles.length ≤ 2048 ∧ s.standby.length ≤ 128 ∧ ∀ r k, ((s.ramp r).queue k).length ≤ 48

/-- R53: two DG vehicles on board or claimed stand as far apart as their level asks; an OPEN_DECK_ONLY group stands
on WEATHER decks alone. -/
structure SegregationLaw (s : State) : Prop where
  apart : ∀ l x k y, s.lane? l = some x → s.lane? k = some y → ∀ v ∈ s.records (x.stow ++ x.claims),
    ∀ w ∈ s.records (y.stow ++ y.claims), v.tag ≠ w.tag → ∀ g h, v.dg = some g → w.dg = some h →
      s.permits (s.dgLevel g h) l x k y = true
  openDeck : ∀ x ∈ s.lanes, ∀ v ∈ s.records (x.stow ++ x.claims), ∀ g, v.dg = some g → s.openDeckOnly g = true →
    s.onWeather x = true

/-- R72: a running sequencer's ramp is INBOUND, and an OUTBOUND ramp has no RELEASED vehicle bound to its lanes. -/
structure RampLaw (s : State) : Prop where
  running : ∀ r, (s.ramp r).seq ≠ .stopped → (s.ramp r).direction = .inbound
  outbound : ∀ v ∈ s.vehicles, ∀ l, v.stage = .onRamp l ∨ v.stage = .pastCrest l →
    (s.ramp (s.rampOfNo l)).direction = .inbound

/-- R141, R143: no vehicle is RELEASED to a lane on or under a moving panel; every stowed or claimed vehicle's height
class is within its lane's clearance class, except under a panel in UNKNOWN or FAULT, where it is within the base class. -/
structure PanelLaw (s : State) : Prop where
  traffic : ∀ x ∈ s.lanes, ∀ v ∈ s.records x.claims, v.stage.released = true →
    s.borrowed x = false ∧ s.coverMoving x = false
  clearance : ∀ x ∈ s.lanes, ∀ v ∈ s.records (x.stow ++ x.claims), v.height ≤ x.baseClass ∧
    (s.coverState? x ≠ some .unknown → s.coverState? x ≠ some .fault → v.height ≤ s.clearance x)

/-- R144, R151: calls within the voyage; without a voyage no vehicle. -/
structure CallLaw (s : State) : Prop where
  range : ∀ c n, s.voyage = .atSea c n ∨ s.voyage = .discharge c n ∨ s.voyage = .load c n →
    1 ≤ n ∧ n ≤ 4 ∧ c ≤ n ∧ ∀ v ∈ s.vehicles, c ≤ v.call ∧ v.call ≤ n
  load : ∀ c n, s.voyage = .load c n → c < n
  ashore : s.voyage = .noVoyage → s.vehicles = []

/-- A lane, a section, a deck, a panel as the profile builds them: without what events change. -/
def Lane.built (x : Lane) : Lane :=
  { x with
    stow := [], claims := [], state := .opened, overdue := 0, used := 0, reefers := 0, mass := 0, placedMass := 0
    pastCrest := [], entryCredits := 0, entryWindow := .stopped, exitCredits := 0, exitWindow := .stopped
    occupied := false, score := 0, suspect := false, clearing := false, mode := .sensed, watch := false
    signal := .auto, aspect := .dark }

def Sect.built (c : Sect) : Sect := { c with projected := 0, placed := 0, arm := .armed, mode := .sensed }

def Deck.built (d : Deck) : Deck :=
  { d with threshold := Config.deckThreshold, level := Config.defaultLevel, noticeOn := false, latch := false }

def Panel.built (p : Panel) : Panel :=
  { p with state := .unknown, timer := .stopped, fault := LastFault.none, raise := false, lower := false }

/-- R19, R178: the deck model of an ACTIVE profile is the one its records give; what validation holds of a profile
holds of the one in force, and a profile being written has passed it. -/
structure ModelLaw (s : State) : Prop where
  built : s.store.mark = .active → s.limits = buildLimits s.store.records ∧
    s.decks.map Deck.built = (List.range (deckCount s.store.records)).map (buildDeck s.store.records) ∧
    s.sections.map Sect.built = (List.range (sectCount s.store.records)).map (buildSect s.store.records) ∧
    s.lanes.map Lane.built = (List.range (laneCount s.store.records)).map (buildLane s.store.records) ∧
    s.panels.map Panel.built = (List.range (panelCount s.store.records)).map (buildPanel s.store.records)
  symmetric : ∀ g h, s.dgLevel g h = s.dgLevel h g
  reduced : ∀ x ∈ s.lanes, ∀ k, x.cover = some k → k.reduced ≤ x.baseClass
  carried : ∀ x ∈ s.lanes, (s.carrier? x.sect).isSome = true → s.onHoist x = true
  writing : s.profile.isCommitting = true → validate (candidate s.store s.draft) = none

/-- The laws that the lists, the figures and the deck model keep through every step. -/
structure BookLaw (s : State) : Prop where
  record : RecordLaw s
  figures : FiguresLaw s
  order : OrderLaw s
  limits : LimitsLaw s
  segregation : SegregationLaw s
  ramp : RampLaw s
  panel : PanelLaw s
  call : CallLaw s
  model : ModelLaw s

/-! ### Requests and events -/

/-- A request that arrives now is taken at once (R186). -/
abbrev Taking (s : State) : Prop := s.power = .up ∧ s.link.rxBuf = [] ∧ s.link.canTake = true

/-- The deck model is in force (R19, R179). -/
abbrev Modelled (s : State) : Prop := s.profile.inForce = true

/-- The state in which a taken request's event starts: the silence timer restarted (R89), the quiet over (R191),
no mark set. -/
def heard (s : State) : State := { hearFrame s with ev := EventMarks.none }

/-- The state after the request of frame `f` is taken, changes the state by `g` and is answered with `r`: the sweep
if `g` triggered one (R64), the outputs (R166), the reply made ready (R186, R187) and the next frame on an idle
line (R188). -/
def taken (f : Frame) (r : Reply) (g : State → State) (s : State) : State :=
  kick (readyReply f r (refresh (sweepIfDue (g (heard s)))))

/-- The state after an event that changes the state by `g`. -/
def happened (g : State → State) (s : State) : State := endEvent (g { s with ev := EventMarks.none })

/-- No timer runs out in the second that begins (log 9). -/
abbrev NothingDue (s : State) : Prop :=
  (countDown s).link.silence.due = false ∧
    (countDown s).lower.stall.due = false ∧ (countDown s).upper.stall.due = false ∧
    (countDown s).lower.crestWindow.due = false ∧ (countDown s).upper.crestWindow.due = false ∧
    (∀ x ∈ (countDown s).lanes, x.entryWindow.due = false ∧ x.exitWindow.due = false) ∧
    (∀ v ∈ (countDown s).vehicles, v.transit.due = false) ∧
    (∀ p ∈ (countDown s).panels, p.timer.due = false)

/-- What a lane holds of vehicles and sums, without its settings, modes, loop and head. -/
def Lane.load (x : Lane) : List Nat × List Nat × List Nat × Nat × Nat × Nat × Nat × Nat :=
  (x.stow, x.claims, x.pastCrest, x.used, x.reefers, x.mass, x.placedMass, x.overdue)

/-- What stow memory holds of a lane (R16). -/
def Lane.kept (x : Lane) : List Nat × List Nat × List Nat × LaneState × Nat :=
  (x.stow, x.claims, x.pastCrest, x.state, x.overdue)

/-- What a ramp holds of vehicles. -/
def RampState.load (q : RampState) : List Nat × List Nat × List Nat × Nat := (q.light, q.heavy, q.onRamp, q.mass)

end Sys2Proof.Machine

namespace Sys2Proof

open Sys2Proof.Machine

/-- Requests that read, or set registers that no list and no figure depends on. -/
def Instr.isSetting : Instr → Bool
  | .status _ _ | .linkSilence _ _ | .vehicleGet _ _ | .laneGet _ _ _ | .sectionGet _ _ | .laneShut _ _
  | .rampStop _ _ | .rampDirection _ _ _ | .runPair _ _ _ _ _ | .sensorWatch _ _ _ _ _ | .sensorLatches _ _
  | .voyageSet _ _ | .callOpen _ | .signalSet _ _ _ _ | .draftPut _ _ _ _ | .draftClear _ | .draftGet _ _ _
  | .profileCommit _ _ _ | .profileLock _ | .profileGet _ _ _ => true
  | _ => false

/-- The frame a request command stands for (11.6: kind codes and request bodies). -/
def Instr.request? : Instr → Option Frame
  | .status lt c => some ⟨0x01#8, lt, [c]⟩
  | .reset lt => some ⟨0x02#8, lt, []⟩
  | .linkSilence lt n => some ⟨0x03#8, lt, [n]⟩
  | .arrive lt tag cls len h mass axle call flags rest =>
    some ⟨0x10#8, lt, be 4 tag.toNat ++ [cls, len, h] ++ be 2 mass.toNat ++ [axle, call, flags] ++ rest⟩
  | .recallVehicle lt tag => some ⟨0x11#8, lt, be 4 tag.toNat⟩
  | .vehicleGet lt tag => some ⟨0x12#8, lt, be 4 tag.toNat⟩
  | .confirm lt tag lane => some ⟨0x13#8, lt, be 4 tag.toNat ++ [lane]⟩
  | .depart lt tag => some ⟨0x14#8, lt, be 4 tag.toNat⟩
  | .laneGet lt lane start => some ⟨0x18#8, lt, [lane, start]⟩
  | .sectionGet lt i => some ⟨0x19#8, lt, [i]⟩
  | .thresholdSet lt target t => some ⟨0x1A#8, lt, [target, t]⟩
  | .laneShut lt lane => some ⟨0x1B#8, lt, [lane]⟩
  | .laneOpen lt lane => some ⟨0x1C#8, lt, [lane]⟩
  | .rampStart lt r => some ⟨0x20#8, lt, [r]⟩
  | .rampStop lt r => some ⟨0x21#8, lt, [r]⟩
  | .rampDirection lt r d => some ⟨0x22#8, lt, [r, d]⟩
  | .runPair lt r l h stall => some ⟨0x23#8, lt, [r, l, h] ++ stall.toList⟩
  | .triggerMode lt r m src => some ⟨0x24#8, lt, [r, m, src]⟩
  | .trigger lt r => some ⟨0x25#8, lt, [r]⟩
  | .rampBand lt r n => some ⟨0x26#8, lt, [r, n]⟩
  | .sensorWatch lt sc i w n => some ⟨0x28#8, lt, [sc, i, w, n]⟩
  | .sensorLevel lt d n => some ⟨0x29#8, lt, [d, n]⟩
  | .sensorLatches lt ds => some ⟨0x2A#8, lt, [ds]⟩
  | .sensorClear lt lane => some ⟨0x2B#8, lt, [lane]⟩
  | .hoistMove lt p t => some ⟨0x30#8, lt, [p, t]⟩
  | .hoistStop lt p => some ⟨0x31#8, lt, [p]⟩
  | .voyageSet lt n => some ⟨0x34#8, lt, [n]⟩
  | .callOpen lt => some ⟨0x35#8, lt, []⟩
  | .phaseLoad lt => some ⟨0x36#8, lt, []⟩
  | .callClose lt o => some ⟨0x37#8, lt, [o]⟩
  | .dischargeLane lt lane => some ⟨0x38#8, lt, [lane]⟩
  | .signalSet lt sc i m => some ⟨0x3C#8, lt, [sc, i, m]⟩
  | .closureSet lt c a b sel en g =>
    some ⟨0x3D#8, lt, [c] ++ be 3 a.toNat ++ be 3 b.toNat ++ [sel, en, g]⟩
  | .draftPut lt t i fields => some ⟨0x40#8, lt, [t, i] ++ fields⟩
  | .draftClear lt => some ⟨0x41#8, lt, []⟩
  | .draftGet lt t i => some ⟨0x42#8, lt, [t, i]⟩
  | .profileCommit lt n sum => some ⟨0x43#8, lt, [n] ++ be 2 sum.toNat⟩
  | .profileLock lt => some ⟨0x44#8, lt, []⟩
  | .profileGet lt t i => some ⟨0x45#8, lt, [t, i]⟩
  | .unknownKind lt kind body => some ⟨kind, lt, body⟩
  | .frameReceive _ | .interByteGap | .transmitFrameEnd | .powerOnReset | .lineResetAssert | .lineResetRelease
  | .requestReset | .stowMarkBroken | .stallTimerExpiry _ | .triggerLinePress _ | .linkSilenceExpiry
  | .crestLoopEdge _ _ | .laneLoopEdge _ _ | .entryCreditWindowExpiry _ | .crestCreditWindowExpiry _
  | .exitCreditWindowExpiry _ | .transitExpiry _ | .limitLineEvent _ _ _ | .moveTimeout _
  | .profileWriteComplete | .profileWriteFailure _ _ | .badStopBitByte | .mainSupplyLoss
  | .triggerLineRelease _ => none

end Sys2Proof
end

