-- ==== Sys2Proof/WellFormed.lean ====
section
/-! DEFINITION. The commands an outside agent can send. `exec` is total: on any other command it answers too,
but statements may assume `wellFormed`. -/

namespace Sys2Proof

/-- The request kinds of the kind code table (11.6). -/
def requestKinds : List Nat :=
  [0x01, 0x02, 0x03, 0x10, 0x11, 0x12, 0x13, 0x14, 0x18, 0x19, 0x1A, 0x1B, 0x1C, 0x20, 0x21, 0x22, 0x23, 0x24,
   0x25, 0x26, 0x28, 0x29, 0x2A, 0x2B, 0x30, 0x31, 0x34, 0x35, 0x36, 0x37, 0x38, 0x3C, 0x3D, 0x40, 0x41, 0x42,
   0x43, 0x44, 0x45]

/-- A body fits a frame (11.6: 0 to 240 bytes). -/
def bodyFits (n : Nat) : Bool := n ≤ 240

/-- A record key within the index ranges of R174. -/
def keyInRange (type index : Nat) : Bool :=
  match type with
  | 1 => index == 0
  | 2 => index ≤ 5
  | 3 => index ≤ 23
  | 4 => index ≤ 95
  | 5 => index ≤ 3
  | 6 => index ≤ 1
  | 7 => 1 ≤ index && index ≤ 6
  | 8 => index == 0
  | _ => false

/-- Which commands can be sent: bodies that fit their frame, lines and panels the module has, tags of R1,
keys of R174, and a kind outside the kind table for UNKNOWN_KIND. -/
def Instr.wellFormed : Instr → Bool
  | .arrive _ _ _ _ _ _ _ _ _ rest => bodyFits (12 + rest.length)
  | .draftPut _ _ _ fields => 2 ≤ fields.length && fields.length ≤ 12
  | .unknownKind _ kind body => !(requestKinds.contains kind.toNat) && bodyFits body.length
  | .laneLoopEdge lane _ => lane < Config.laneInputs
  | .entryCreditWindowExpiry lane => lane < Config.laneInputs
  | .exitCreditWindowExpiry lane => lane < Config.laneInputs
  | .transitExpiry tag => 1 ≤ tag && tag ≤ 4294967295
  | .limitLineEvent panel _ _ => panel < Config.panelInputs
  | .moveTimeout panel => panel < Config.panelInputs
  | .profileWriteFailure type index => keyInRange type.toNat index.toNat
  | .status _ _ | .reset _ | .linkSilence _ _ | .recallVehicle _ _ | .vehicleGet _ _ | .confirm _ _ _ | .depart _ _
  | .laneGet _ _ _ | .sectionGet _ _ | .thresholdSet _ _ _ | .laneShut _ _ | .laneOpen _ _ | .rampStart _ _
  | .rampStop _ _ | .rampDirection _ _ _ | .runPair _ _ _ _ _ | .triggerMode _ _ _ _ | .trigger _ _
  | .rampBand _ _ _ | .sensorWatch _ _ _ _ _ | .sensorLevel _ _ _ | .sensorLatches _ _ | .sensorClear _ _
  | .hoistMove _ _ _ | .hoistStop _ _ | .voyageSet _ _ | .callOpen _ | .phaseLoad _ | .callClose _ _
  | .dischargeLane _ _ | .signalSet _ _ _ _ | .closureSet _ _ _ _ _ _ _ | .draftClear _ | .draftGet _ _ _
  | .profileCommit _ _ _ | .profileLock _ | .profileGet _ _ _ | .frameReceive _ | .interByteGap
  | .transmitFrameEnd | .powerOnReset | .lineResetAssert | .lineResetRelease | .requestReset | .stowMarkBroken
  | .stallTimerExpiry _ | .triggerLinePress _ | .linkSilenceExpiry | .crestLoopEdge _ _
  | .crestCreditWindowExpiry _ | .profileWriteComplete | .badStopBitByte | .mainSupplyLoss
  | .triggerLineRelease _ => true

end Sys2Proof
end

