-- ==== Sys2Proof/Certificates/Slice0/Obligations.lean ====
section
/-! DEFINITION. The statements for the provers. A request statement has the form `exec i s = .next (taken f r g s)`:
taken at once (`Taking`), the request of frame `f` changes the state by `g` and nothing else but the link, the sweep
that `g` may trigger and the outputs, and is answered with `r`. -/

open Sys2Proof Sys2Proof.Machine

/-! ### The machine as a whole -/

/-- A step runs the command at the front of the queue on the state with the queue's rest. -/
def Obligations.StepRunsFront : Prop :=
  ∀ (c : Instr) (cs : List Instr) (s : State), s.pending = c :: cs → step s = exec c { s with pending := cs }

/-- Model's choice (log 9): on an empty queue one second passes at the running module; with no timer running out,
every running timer loses one second and nothing else changes. A module that does not run stays as it is. -/
def Obligations.EmptyQueueIsOneSecond : Prop :=
  ∀ s : State, s.pending = [] →
    (s.power = .up → NothingDue s → step s = .next (countDown s)) ∧ (s.power ≠ .up → step s = .next s)

/-- No command stops the module: a request that may not be carried out is answered, an event that cannot arise is
nothing (log 6). -/
def Obligations.EveryCommandCompletes : Prop :=
  (∀ (c : Instr) (s : State), ∃ t, exec c s = .next t) ∧ ∀ s : State, Safe s

/-- No command changes the queue of waiting commands. -/
def Obligations.ExecKeepsQueue : Prop :=
  ∀ (c : Instr) (s t : State), exec c s = .next t → t.pending = s.pending

/-- The values after the power-on reset of a module whose store was never written (R17, R67, R89, R144, R173, R184,
R190, R191). -/
def Obligations.ResetValues : Prop :=
  State.reset.link.rx = .hunt ∧ State.reset.link.rxBuf = [] ∧ State.reset.link.inProgress = none ∧
  State.reset.link.waitingReply = none ∧ State.reset.link.waitingRejection = none ∧
  State.reset.link.notices = [] ∧ State.reset.link.overrun = false ∧ State.reset.link.noticesLost = false ∧
  State.reset.link.silenceLimit = 15 ∧ State.reset.link.silence = .running 15 ∧
  State.reset.causes = { power := true, line := false, request := false } ∧
  State.reset.vehicles = [] ∧ State.reset.standby = [] ∧ State.reset.voyage = .noVoyage ∧
  State.reset.store.records = [] ∧ State.reset.store.generation = 0 ∧ State.reset.store.locked = false ∧
  State.reset.store.mark = .none ∧ State.reset.profile = .none ∧ State.reset.draft = [] ∧
  State.reset.stowKept = false ∧ State.reset.stowIntact = true ∧ State.reset.stowGen = 0 ∧
  (∀ r, (State.reset.ramp r).seq = .stopped ∧ (State.reset.ramp r).direction = .inbound ∧
    (State.reset.ramp r).band = 0 ∧ (State.reset.ramp r).active = ⟨4, 2⟩ ∧
    (State.reset.ramp r).waiting = ⟨4, 2⟩ ∧ (State.reset.ramp r).mode = .auto ∧
    (State.reset.ramp r).source = .requestOnly ∧ (State.reset.ramp r).stallLimit = 45 ∧
    (State.reset.ramp r).runCount = 0 ∧ (State.reset.ramp r).stall = .stopped ∧
    (State.reset.ramp r).light = [] ∧ (State.reset.ramp r).heavy = [] ∧ (State.reset.ramp r).onRamp = [] ∧
    (State.reset.ramp r).mass = 0 ∧ (State.reset.ramp r).crestCredits = 0)

/-- The run pair law, the outputs' law and the link port's law hold after reset; so do the laws of the books
(`BookLaw`), and every step keeps these: every record stands on the lists its stage names and on no other (R18); the
figures are those of the lists (R25, R32, R33, R36, R72); calls never increase along a lane (R28); no limit is exceeded
(R34, R42, R43); segregation holds (R53); an OUTBOUND ramp has no RELEASED vehicle (R72); releases follow the first
claim's call (R110); no traffic at a moving panel, and clearance (R141, R143); calls within the voyage (R144, R151); the
deck model is the records' (R19, R178). -/
def Obligations.LawsHoldAtReset : Prop :=
  (RunPairLaw State.reset ∧ OutputsLaw State.reset ∧ LinkLaw State.reset) ∧ BookLaw State.reset ∧
  ∀ s t : State, BookLaw s → step s = .next t → BookLaw t

/-- R77: H is at most 2 L in both active pairs, whatever step is made; a reset sets L = 4, H = 2, and a cycle start
takes the pending pair, or the defaults in place of one that breaks the law. -/
def Obligations.RunPairLawKept : Prop :=
  (∀ s t : State, RunPairLaw s → step s = .next t → RunPairLaw t) ∧
  (∀ (k : ResetCause) (s : State) (r : Ramp), ((doReset k s).ramp r).active = ⟨4, 2⟩) ∧
  (∀ (r : Ramp) (s : State), ((seqNext r .cycleStart s).1.ramp r).active =
    if (s.ramp r).waiting.heavy ≤ 2 * (s.ramp r).waiting.light then (s.ramp r).waiting else ⟨4, 2⟩)

/-- After every step the GO lamps, the lane aspects and the hoist drives are what the state says (R88, R130, R164,
R166), and off while the module is held in reset (R88, R142, R162) and, the model's reading (log 7), while it is
without supply. -/
def Obligations.OutputsLawKept : Prop :=
  ∀ s t : State, OutputsLaw s → step s = .next t → OutputsLaw t

/-- Every step keeps the link port's law: capacities, one reply at a time, no frame before the first request, an
idle line has nothing waiting (R184 to R188, R190, R191). -/
def Obligations.LinkLawKept : Prop :=
  ∀ s t : State, LinkLaw s → step s = .next t → LinkLaw t

/-- Coding and decoding of requests agree: the bytes of a well-formed request command's frame, received in HUNT, do
what the command does (R184, R186, R192). A request command is its whole frame's arrival, and bytes of one command
come without a gap: the model's readings (logs 1 and 2). And the bytes of a frame: start byte, length, kind, tag,
body and check value, high byte first (R184). -/
def Obligations.FrameIsCommand : Prop :=
  (∀ f : Frame, f.bytes = [0xC3#8, BitVec.ofNat 8 (f.body.length + 2), f.kind, f.tag] ++ f.body ++
    be 2 (crc ([BitVec.ofNat 8 (f.body.length + 2), f.kind, f.tag] ++ f.body)).toNat) ∧
  ∀ (i : Instr) (f : Frame) (s : State), i.wellFormed = true → i.request? = some f → s.link.rx = .hunt →
    exec (.frameReceive f.bytes) s = exec i s

/-- Every request taken on an idle line is answered by one reply, which goes out at once with the request's kind plus
0x80 (0xFF for a kind of 0x80 or above), its tag, the result code and the flags as they stand, which are then clear
(R186, R187, R188). `b` is the flag NOTICES_LOST, which the request's own notices may have set. And the result codes,
in full (R192). -/
def Obligations.RequestAnswered : Prop :=
  ([Result.ok, .accepted, .assigned, .standby, .alreadyPlaced].map Result.code = [0x00, 0x01, 0x02, 0x03, 0x04] ∧
    [Result.phase, .range, .call, .duplicate, .full, .unstowable, .standbyFull, .order, .notReleased, .lane, .sequence,
      .state, .direction, .notReady, .busy, .notEmpty].map Result.code = (List.range 16).map (0x10 + ·) ∧
    [Result.clearance, .traffic, .claims, .nothingDue, .lastCall, .inFlight, .unloading, .ramps, .remaining, .mismatch,
      .check, .locked, .noProfile, .unknownKind, .notFound, .rejLength].map Result.code =
      (List.range 16).map (0x20 + ·)) ∧
  ∀ (i : Instr) (f : Frame) (s : State), i.wellFormed = true → i.request? = some f → Taking s →
    s.link.inProgress = none → s.link.waitingRejection = none →
    ∃ (t : State) (r : Reply) (b : Bool), exec i s = .next t ∧
      t.link.inProgress = some ⟨.reply, ⟨if f.kind.toNat < 0x80 then f.kind + 0x80#8 else 0xFF#8, f.tag,
        [BitVec.ofNat 8 (Result.code r.result)]
          ++ [BitVec.ofNat 8 ((if s.link.overrun then 1 else 0) + (if s.link.noticesLost || b then 2 else 0))]
          ++ r.fields⟩⟩ ∧
      t.link.waitingReply = none ∧ t.link.overrun = false ∧ t.link.noticesLost = false ∧
      s.link.notices <+: t.link.notices

/-- The sequencer always comes to rest within the model's bound on the acts of one event (log 24): a larger bound
gives the same state. -/
def Obligations.SequencerSettles : Prop :=
  ∀ (r : Ramp) (a : SeqAct) (s : State) (n : Nat), seqFuel r s ≤ n → seqGo n r a s = seqAct r a s

/-- R4: at admission a mass m from 1 to 65,535 kg is kept as E(m), the smallest code whose decoded mass is at least
m, given by the four segments, between 1 and 1,920, D(E(m)) exceeding m by at most 7, 15, 31 or 63 kg; any other mass
is refused. And D rises strictly from 0 kg to 65,536 kg (R3). -/
def Obligations.TallyCodes : Prop :=
  (∀ m, 1 ≤ m → m ≤ 65535 → 1 ≤ encodeMass m ∧ encodeMass m ≤ 1920 ∧ m ≤ decodeMass (encodeMass m) ∧
    (∀ c, c < encodeMass m → decodeMass c < m) ∧
    (m ≤ 2040 → encodeMass m = (m + 7) / 8 ∧ decodeMass (encodeMass m) ≤ m + 7) ∧
    (2041 ≤ m → m ≤ 8176 → encodeMass m = 256 + (m - 2048 + 15) / 16 ∧ decodeMass (encodeMass m) ≤ m + 15) ∧
    (8177 ≤ m → m ≤ 32736 → encodeMass m = 640 + (m - 8192 + 31) / 32 ∧ decodeMass (encodeMass m) ≤ m + 31) ∧
    (32737 ≤ m → encodeMass m = 1408 + (m - 32768 + 63) / 64 ∧ decodeMass (encodeMass m) ≤ m + 63)) ∧
  (∀ (n : Nat) (a : Arrival), a.vehicle.massCode = encodeMass a.mass ∧
    (a.mass = 0 ∨ 65535 < a.mass → arriveRange n a ≠ none)) ∧
  (∀ c, c < 1920 → decodeMass c < decodeMass (c + 1)) ∧ decodeMass 0 = 0 ∧ decodeMass 1920 = 65536

/-! ### The link port -/

/-- STATUS (R189): the values as they stand when the request is taken; the byte 1 empties the reset-cause set; any
other byte is RANGE. And the fields of the reply, one by one, with their codes (R192). -/
def Obligations.StatusReports : Prop :=
  (∀ s : State, s.statusFields =
    u8 ((if s.causes.power then 1 else 0) + (if s.causes.line then 2 else 0) + (if s.causes.request then 4 else 0))
      ++ u8 (if s.stowKept then 1 else 0) ++ u8 (match s.profile with | .none => 0 | .active => 1 | .committing _ => 2)
      ++ be 2 s.store.generation ++ u8 (if s.store.locked then 1 else 0)
      ++ (match s.voyage with
        | .noVoyage => [0x00#8, 0xFF#8, 0xFF#8]
        | .atSea c n => [0x01#8] ++ u8 c ++ u8 n
        | .discharge c n => [0x02#8] ++ u8 c ++ u8 n
        | .load c n => [0x03#8] ++ u8 c ++ u8 n)
      ++ [Ramp.lower, Ramp.upper].flatMap (fun r =>
        u8 (match (s.ramp r).direction with | .inbound => 0 | .outbound => 1)
          ++ u8 (match (s.ramp r).seq with
            | .stopped => 0 | .idle => 1 | .lightRun => 2 | .waitTrigger => 3 | .heavyRun => 4)
          ++ u8 (s.ramp r).band)
      ++ be 2 s.vehicles.length ++ u8 s.standby.length ++ u8 s.link.notices.length) ∧
  ∀ (lt c : Byte) (s : State), Taking s →
    (c = 0 → exec (.status lt c) s = .next (taken ⟨0x01#8, lt, [c]⟩ ⟨.ok, s.statusFields⟩ id s)) ∧
    (c = 1 → exec (.status lt c) s = .next (taken ⟨0x01#8, lt, [c]⟩ ⟨.ok, s.statusFields⟩
      (fun s => { s with causes := { power := false, line := false, request := false } }) s)) ∧
    (1 < c.toNat → exec (.status lt c) s = .next (taken ⟨0x01#8, lt, [c]⟩ (plain .range) id s))

/-- RESET (R190) answers OK and marks the reset as due; the end of the reply, reported as the frame's end or as
REQUEST_RESET, performs the request reset (log 5). -/
def Obligations.RequestResetFollowsReply : Prop :=
  (∀ (lt : Byte) (s : State), Taking s → exec (.reset lt) s = .next (taken ⟨0x02#8, lt, []⟩ (plain .ok)
    (fun s => s.updLink fun k => { k with resetDue := true }) s)) ∧
  (∀ s : State, s.power = .up → s.link.resetDue = true → s.link.sendingReply = true →
    exec .transmitFrameEnd s = .next (resetNow .request s) ∧
    exec .requestReset s = .next (resetNow .request s))

/-- LINK_SILENCE (R89): 0 or 5 to 120 s is the new limit, at which the timer restarts, or stops when it is 0; any
other value is RANGE. -/
def Obligations.LinkSilenceSets : Prop :=
  ∀ (lt n : Byte) (s : State), Taking s →
    (n.toNat = 0 ∨ 5 ≤ n.toNat ∧ n.toNat ≤ 120 →
      exec (.linkSilence lt n) s = .next (taken ⟨0x03#8, lt, [n]⟩ (plain .ok)
        (fun s => s.updLink fun k => { k with
          silenceLimit := n.toNat, silence := if n.toNat = 0 then .stopped else .running n.toNat }) s)) ∧
    (¬ (n.toNat = 0 ∨ 5 ≤ n.toNat ∧ n.toNat ≤ 120) →
      exec (.linkSilence lt n) s = .next (taken ⟨0x03#8, lt, [n]⟩ (plain .range) id s))

/-- A kind that is none of 11.6 is refused with UNKNOWN_KIND, no state changed (R186). -/
def Obligations.UnknownKindRefused : Prop :=
  ∀ (lt kind : Byte) (body : List Byte) (s : State), Taking s →
    (Instr.unknownKind lt kind body).wellFormed = true →
    exec (.unknownKind lt kind body) s = .next (taken ⟨kind, lt, body⟩ (plain .unknownKind) id s)

/-- When the frame in progress ends, reply and rejection go first, the one made ready first before the other, then
the head of the notice queue (R188). Then, with no reply waiting or being sent, the head of the receive buffer leaves
it and is taken as a request, answered as any other (R186); that the next frame has started before that is the
model's choice (log 4). And what a notice does and is: appended at the tail of the queue below 64, else dropped with
NOTICES_LOST set (R188); the body of each of the 22 notices, with its codes and its numbers most significant byte
first (R192). -/
def Obligations.FrameEndStartsNext : Prop :=
  (∀ (n : Notice) (s : State),
    (s.link.notices.length < 64 → s.notify n = s.updLink fun k => { k with notices := k.notices ++ [n] }) ∧
    (64 ≤ s.link.notices.length → s.notify n = s.updLink fun k => { k with noticesLost := true })) ∧
  (∀ (n v : Nat) (i : Int) (o : Option Nat), be 0 v = [] ∧ be (n + 1) v = be n (v / 256) ++ [BitVec.ofNat 8 v] ∧
    u8 v = [BitVec.ofNat 8 v] ∧ beInt n i = be n (i % 2 ^ (8 * n)).toNat ∧ optU8 o = u8 (o.getD 0xFF) ∧
    optTag o = be 4 (o.getD 0)) ∧
  (∀ (r : Ramp) (k : Kind) (t l n m c p : Nat) (x : Option Nat) (i : Int) (b d : Bool) (y z : Byte) (pm : PlaceMeans)
      (st : LaneState) (md : PlacementMode) (sm : SensorMode) (ps : PanelPos) (dm : DoneMeans) (fr : FaultReason)
      (lm : DepartMeans) (w : Nat), w = rampCode r →
    (Notice.released t l r).body = u8 0x01 ++ be 4 t ++ u8 l ++ u8 w ∧
    (Notice.placed t l n pm).body = u8 0x02 ++ be 4 t ++ u8 l ++ be 2 n ++ u8 pm.code ∧
    (Notice.overdue t l r b).body = u8 0x03 ++ be 4 t ++ u8 l ++ u8 w ++ u8 (if b then 1 else 0) ∧
    (Notice.crestUnexpected r).body = u8 0x04 ++ u8 w ∧
    (Notice.runReady r n).body = u8 0x05 ++ u8 w ++ u8 n ∧
    (Notice.runReverted r n m).body = u8 0x06 ++ u8 w ++ u8 n ++ u8 m ∧
    (Notice.runStalled r k t n).body = u8 0x07 ++ u8 w ++ u8 k.code ++ be 4 t ++ u8 n ∧
    (Notice.rampHalted b d).body = u8 0x08 ++ u8 ((if b then 1 else 0) + (if d then 2 else 0)) ∧
    (Notice.standbyAssigned t l r).body = u8 0x09 ++ be 4 t ++ u8 l ++ u8 w ∧
    (Notice.shutOut t c).body = u8 0x0A ++ be 4 t ++ u8 c ∧
    (Notice.nearLimit x i n).body = u8 0x0B ++ optU8 x ++ beInt 6 i ++ u8 n ∧
    (Notice.listOver i n).body = u8 0x0C ++ beInt 6 i ++ be 2 n ∧
    (Notice.sensorEvent l b st md).body = u8 0x0D ++ u8 l ++ u8 (if b then 0 else 1) ++ u8 st.code ++ u8 md.code ∧
    (Notice.sensorSuspect l n m).body = u8 0x0E ++ u8 l ++ u8 n ++ u8 m ∧
    (Notice.sectionMode c sm n).body = u8 0x0F ++ u8 c ++ u8 sm.code ++ u8 n ∧
    (Notice.hoistDone p ps dm).body = u8 0x10 ++ u8 p ++ u8 ps.code ++ u8 dm.code ∧
    (Notice.hoistFault p fr x (some t)).body = u8 0x11 ++ u8 p ++ u8 fr.code ++ optU8 x ++ be 4 t ∧
    (Notice.hoistFault p fr x none).body = u8 0x11 ++ u8 p ++ u8 fr.code ++ optU8 x ++ be 4 0 ∧
    (Notice.hoistPositionLost p ps).body = u8 0x12 ++ u8 p ++ u8 ps.code ∧
    (Notice.departed t l c lm).body = u8 0x13 ++ be 4 t ++ u8 l ++ u8 c ++ u8 lm.code ∧
    (Notice.laneDischarged l n x).body = u8 0x14 ++ u8 l ++ u8 n ++ optU8 x ∧
    (Notice.profileDone n m).body = u8 0x15 ++ be 2 n ++ u8 m ∧
    (Notice.profileFailed y z).body = u8 0x16 ++ [y, z]) ∧
  ([Ramp.lower, .upper].map rampCode = [0, 1] ∧ [Kind.light, .heavy].map Kind.code = [0, 1] ∧
    [PlaceMeans.entry, .confirm].map PlaceMeans.code = [0, 1] ∧
    [DepartMeans.exit, .depart].map DepartMeans.code = [0, 1] ∧
    [DoneMeans.limit, .regain, .stop, .request].map DoneMeans.code = [0, 1, 2, 3] ∧
    [LaneState.opened, .shut, .unloading].map LaneState.code = [0, 1, 2] ∧
    [PlacementMode.sensed, .confirm].map PlacementMode.code = [0, 1] ∧
    [SensorMode.sensed, .confirmOnly, .sensorClosed].map SensorMode.code = [0, 1, 2] ∧
    [PanelPos.stowed, .working, .raising, .lowering, .unknown, .fault].map PanelPos.code = [0, 1, 2, 3, 4, 5] ∧
    [FaultReason.none, .timeout, .obstruction, .doubleLimit, .clearance, .loaded].map FaultReason.code =
      [0, 1, 2, 3, 4, 5]) ∧
  ∀ s t : State, s.power = .up → s.link.inProgress ≠ none →
    (s.link.resetDue = true → s.link.sendingReply = false) → s.link.quiet = false →
    t = (s.updLink fun k =>
      match k.waitingReply, k.waitingRejection, k.rejectionFirst, k.notices with
      | some f, some _, false, _ =>
        { k with inProgress := some ⟨.reply, f⟩, waitingReply := none, rejectionFirst := false }
      | some _, some g, true, _ =>
        { k with inProgress := some ⟨.rejection, g⟩, waitingRejection := none, rejectionFirst := false }
      | some f, none, _, _ =>
        { k with inProgress := some ⟨.reply, f⟩, waitingReply := none, rejectionFirst := false }
      | none, some g, _, _ =>
        { k with inProgress := some ⟨.rejection, g⟩, waitingRejection := none, rejectionFirst := false }
      | none, none, _, n :: ns =>
        { k with inProgress := some ⟨.notice, ⟨0xE0#8, 0#8, n.body⟩⟩, notices := ns }
      | none, none, _, [] => { k with inProgress := none }) →
    (s.link.rxBuf = [] → exec .transmitFrameEnd s = .next t) ∧
    (t.link.waitingReply ≠ none ∨ (∃ g, t.link.inProgress = some ⟨.reply, g⟩) → exec .transmitFrameEnd s = .next t) ∧
    (∀ f fs a, s.link.rxBuf = f :: fs → t.link.waitingReply = none → (∀ g, t.link.inProgress ≠ some ⟨.reply, g⟩) →
      a = serve f { (t.updLink fun k => { k with rxBuf := fs }) with ev := EventMarks.none } →
      exec .transmitFrameEnd s = .next (kick (readyReply f a.2 (refresh (sweepIfDue a.1)))))

/-- One byte at the receiver (R184): HUNT, LENGTH, DATA, the rejections LENGTH and CHECK, and the valid frame, which
goes on to the receive buffer (R185). A rejection carries kind 0xEF, tag 0, LENGTH or CHECK and the flags, which are
then clear; while one waits a second one is dropped (R184, R187, R188). And the check value: the CRC of R184 with its
worked value. -/
def Obligations.ReceiverBytes : Prop :=
  (∀ (r : Result) (s : State),
    (∀ f, s.link.waitingRejection = some f → reject r s = s) ∧
    (s.link.waitingRejection = none → reject r s = s.updLink fun k => { k with
      waitingRejection := some ⟨0xEF#8, 0#8, [BitVec.ofNat 8 (Result.code r),
        BitVec.ofNat 8 ((if k.overrun then 1 else 0) + (if k.noticesLost then 2 else 0))]⟩
      overrun := false, noticesLost := false, rejectionFirst := decide (k.waitingReply = none) })) ∧
  (Result.code .rejLength = 0x2F ∧ Result.code .check = 0x2A) ∧
  (crc [] = 0xFFFF#16 ∧ (∀ (bs : List Byte) (b : Byte), crc (bs ++ [b]) = (List.range 8).foldl
      (fun c _ => if c.msb then (c <<< 1) ^^^ 0x1021#16 else c <<< 1) (crc bs ^^^ ((b.setWidth 16) <<< 8))) ∧
    crc [0x31, 0x32, 0x33, 0x34, 0x35, 0x36, 0x37, 0x38, 0x39] = 0x29B1#16) ∧
  ∀ (b : Byte) (s : State), s.power = .up →
    (s.link.rx = .hunt → b ≠ 0xC3#8 → exec (.frameReceive [b]) s = .next s) ∧
    (s.link.rx = .hunt → b = 0xC3#8 → exec (.frameReceive [b]) s = .next (setRx .length s)) ∧
    (s.link.rx = .length → 2 ≤ b.toNat → b.toNat ≤ 242 →
      exec (.frameReceive [b]) s = .next (setRx (.data b.toNat []) s)) ∧
    (s.link.rx = .length → b.toNat < 2 ∨ 242 < b.toNat →
      exec (.frameReceive [b]) s = .next (kick (reject .rejLength (setRx .hunt s)))) ∧
    (∀ len got, s.link.rx = .data len got → got.length + 1 ≠ len + 2 →
      exec (.frameReceive [b]) s = .next (setRx (.data len (got ++ [b])) s)) ∧
    (∀ len body kind tag hi lo, s.link.rx = .data len (kind :: tag :: body ++ [hi]) → b = lo →
      len = body.length + 2 →
      exec (.frameReceive [b]) s = .next (
        if crc (BitVec.ofNat 8 len :: kind :: tag :: body) = hi ++ lo
        then requestArrives ⟨kind, tag, body⟩ (serve ⟨kind, tag, body⟩) (setRx .hunt s)
        else kick (reject .check (setRx .hunt s))))

/-- A valid frame restarts the silence timer; while a reply waits or is being sent it joins the buffer at the tail,
or, with 4 frames there, is discarded with OVERRUN set (R185, R186, R89). That a request command is its whole frame's
arrival is the model's reading (log 1). -/
def Obligations.FullBufferDiscards : Prop :=
  ∀ (i : Instr) (f : Frame) (s : State), i.request? = some f → s.power = .up → s.link.canTake = false →
    exec i s = .next ((hearFrame s).updLink fun k =>
      if k.rxBuf.length < 4 then { k with rxBuf := k.rxBuf ++ [f] } else { k with overrun := true })

/-- A gap or a bad stop bit in LENGTH or DATA discards the partial frame; nothing is sent and no flag is set (R184).
In HUNT there is no partial frame, and that a byte with a bad stop bit, a start byte included, leaves the receiver there
is the model's choice (log 35). -/
def Obligations.PartialFrameDropped : Prop :=
  ∀ s : State, s.power = .up →
    exec .interByteGap s = .next (s.updLink fun k => { k with rx := .hunt }) ∧
    exec .badStopBitByte s = .next (s.updLink fun k => { k with rx := .hunt })

/-! ### Resets and supply -/

/-- Power-on, line reset and loss of supply (R16, R17, R190): which reset each performs and how long the module is
held. That an active reset input holds the module at power-on, that the outputs are off without supply and that the link
port stays as it is while the module is held are the model's readings (log 7); that the mark breaks in any state of the
module is its choice (log 8). -/
def Obligations.PowerAndLineResets : Prop :=
  ∀ s : State,
    (s.pins.resetIn = false → exec .powerOnReset s = .next (resetNow .power s)) ∧
    (s.pins.resetIn = true → exec .powerOnReset s = .next (refresh { resetNow .power s with power := .held })) ∧
    (s.power = .up → ∃ t, exec .lineResetAssert s = .next t ∧ t.power = .held ∧ t.pins.resetIn = true ∧ DarkLaw t ∧
      t.vehicles = s.vehicles ∧ t.voyage = s.voyage ∧ t.store = s.store ∧ t.link = s.link) ∧
    (s.power = .held → exec .lineResetRelease s =
      .next (resetNow .line { s with pins := { s.pins with resetIn := false } })) ∧
    (∃ t, exec .mainSupplyLoss s = .next t ∧ t.power = .down ∧ DarkLaw t ∧ t.vehicles = s.vehicles ∧
      t.standby = s.standby ∧ t.voyage = s.voyage ∧ t.store = s.store ∧ t.stowIntact = s.stowIntact) ∧
    exec .stowMarkBroken s = .next { s with stowIntact := false }

/-- What a reset keeps and clears (R16, R17, R173, R190, R191): the stored records, generation and lock always; stow
memory exactly when its mark is intact, its generation is the store's and the profile is ACTIVE. Kept are every
record with all its fields but the transit timer, which restarts for a RELEASED vehicle at its ramp's limit (R109),
the standby list, the voyage, each lane's stow, claim and past-crest lists, state and overdue count, and each ramp's
queues, on-ramp list and direction. The lanes of the deck model are those the store's records count (R19). And the
rest, at the values of the reset: both sequencers (R67, R74), credits and windows (R109, R161), closure settings
(R172); with an ACTIVE profile the readings from the lines, scores 0, HEALTHY and SENSED, watch flags, notice enables
and latches off (R128), thresholds and arms (R35 to R39), the list-over condition, the panels by the position check
(R142), signal modes AUTO with the aspects they give (R172); the lines as they stand; without an ACTIVE profile no
deck model (R173). No notice is left (the link port is cleared, R191). -/
def Obligations.ResetStowMemory : Prop :=
  (∀ (k : ResetCause) (s t : State), t = resetNow k s →
    (∀ r, (t.ramp r).band = 0 ∧ (t.ramp r).seq = .stopped ∧ (t.ramp r).active = ⟨4, 2⟩ ∧ (t.ramp r).waiting = ⟨4, 2⟩ ∧
      (t.ramp r).mode = .auto ∧ (t.ramp r).source = .requestOnly ∧ (t.ramp r).stallLimit = 45 ∧
      (t.ramp r).runCount = 0 ∧ (t.ramp r).stall = .stopped ∧ (t.ramp r).go = false ∧
      (t.ramp r).crestCredits = 0 ∧ (t.ramp r).crestWindow = .stopped) ∧
    t.closure = ⟨[], [], false, false, false⟩ ∧ t.pins = s.pins) ∧
  (∀ (k : ResetCause) (s t : State), t = resetNow k s → s.store.mark = .active →
    (∀ l x, t.lane? l = some x → x.occupied = t.reads x ((t.pins.loops[l]?).getD false) ∧ x.score = 0 ∧
      x.suspect = false ∧ x.clearing = false ∧ x.mode = .sensed ∧ x.watch = false ∧ x.signal = .auto ∧
      x.entryCredits = 0 ∧ x.entryWindow = .stopped ∧ x.exitCredits = 0 ∧ x.exitWindow = .stopped ∧ x.aspect = t.aspectOf x) ∧
    (∀ d ∈ t.decks, d.threshold = 230 ∧ d.level = 1 ∧ d.noticeOn = false ∧ d.latch = false) ∧
    (∀ i c, t.sect? i = some c → c.mode = .sensed ∧ t.closed i = false ∧
      c.arm = if 230 * (c.massLimit * 1000) < 256 * c.projected then .spent else .armed) ∧
    t.listThreshold = 217 ∧ t.listOver = decide (t.limits.listLimit * 10000 < t.listMoment.natAbs) ∧
    t.listArm = (if 217 * (t.limits.listLimit * 10000) < 256 * t.listMoment.natAbs then .spent else .armed) ∧
    (∀ p y, t.panel? p = some y → (y.state, y.fault) = positionCheck t p ∧ y.timer = .stopped ∧ y.raise = false ∧
      y.lower = false) ∧
    t.lower.crestOccupied = t.pins.crestLower ∧ t.upper.crestOccupied = t.pins.crestUpper) ∧
  (∀ (k : ResetCause) (s : State), s.store.mark ≠ .active →
    (resetNow k s).lanes = [] ∧ (resetNow k s).sections = [] ∧ (resetNow k s).decks = [] ∧ (resetNow k s).panels = []) ∧
  ∀ (k : ResetCause) (s : State),
    (resetNow k s).power = .up ∧ (resetNow k s).link = Link.cleared ∧ (resetNow k s).draft = [] ∧
    (resetNow k s).store.records = s.store.records ∧ (resetNow k s).store.generation = s.store.generation ∧
    (resetNow k s).store.locked = s.store.locked ∧
    (resetNow k s).causes = (match k with
      | .power => { power := true, line := false, request := false }
      | .line => { s.causes with line := true }
      | .request => { s.causes with request := true }) ∧
    ((resetNow k s).profile = .active ↔ s.store.mark = .active) ∧
    (s.stowIntact = true → s.stowGen = s.store.generation → s.store.mark = .active →
      (resetNow k s).stowKept = true ∧ (resetNow k s).voyage = s.voyage ∧ (resetNow k s).standby = s.standby ∧
      (resetNow k s).vehicles.map (fun v => { v with transit := .stopped }) =
        s.vehicles.map (fun v => { v with transit := .stopped }) ∧
      (∀ v ∈ (resetNow k s).vehicles, v.transit = match v.stage with
        | .onRamp l | .pastCrest l => .running ((resetNow k s).rampRec ((resetNow k s).rampOfNo l)).transit
        | .standby | .assigned _ | .placed _ _ => .stopped) ∧
      (s.lanes.length = laneCount s.store.records →
        (resetNow k s).lanes.map Lane.kept = s.lanes.map Lane.kept) ∧
      ∀ r, ((resetNow k s).ramp r).light = (s.ramp r).light ∧ ((resetNow k s).ramp r).heavy = (s.ramp r).heavy ∧
        ((resetNow k s).ramp r).onRamp = (s.ramp r).onRamp ∧
        ((resetNow k s).ramp r).direction = (s.ramp r).direction) ∧
    (¬ (s.stowIntact = true ∧ s.stowGen = s.store.generation ∧ s.store.mark = .active) →
      (resetNow k s).stowKept = false ∧ (resetNow k s).voyage = .noVoyage ∧ (resetNow k s).standby = [] ∧
      (resetNow k s).vehicles = [] ∧ (resetNow k s).stowIntact = true ∧
      (resetNow k s).stowGen = s.store.generation ∧
      (∀ x ∈ (resetNow k s).lanes, x.stow = [] ∧ x.claims = [] ∧ x.pastCrest = [] ∧ x.overdue = 0 ∧
        x.state = .opened) ∧
      ∀ r, ((resetNow k s).ramp r).light = [] ∧ ((resetNow k s).ramp r).heavy = [] ∧
        ((resetNow k s).ramp r).onRamp = [] ∧ ((resetNow k s).ramp r).direction = .inbound)

/-! ### Vehicles and allocation -/

/-- ARRIVE that passes every check and finds a candidate: the first-ranked lane is claimed, and the reply gives
lane, ramp and queue position (R5 to R10, R58). -/
def Obligations.ArriveAssigned : Prop :=
  ∀ (lt : Byte) (tag : BitVec 32) (cls len h : Byte) (mass : BitVec 16) (axle call flags : Byte)
    (rest : List Byte) (s : State) (c n l : Nat) (a : Arrival),
    a = ⟨tag.toNat, cls.toNat, len.toNat, h.toNat, mass.toNat, axle.toNat, call.toNat, flags.toNat, rest⟩ →
    Taking s → s.voyage = .load c n → arriveRange s.lanes.length a = none → c < a.call → a.call ≤ n →
    s.veh? a.tag = none → s.vehicles.length < 2048 → unstowableAt s a.vehicle = none →
    allocate s a.vehicle = .claim l →
    exec (.arrive lt tag cls len h mass axle call flags rest) s = .next (taken
      ⟨0x10#8, lt, be 4 tag.toNat ++ [cls, len, h] ++ be 2 mass.toNat ++ [axle, call, flags] ++ rest⟩
      ⟨.assigned, u8 l ++ u8 (rampCode (s.rampOfNo l))
        ++ u8 (((s.ramp (s.rampOfNo l)).queue a.vehicle.cls.kind).length + 1)⟩
      (fun s => claimLane a.vehicle l false { s with vehicles := s.vehicles ++ [a.vehicle] }) s)

/-- ARRIVE with no candidate: the vehicle joins the standby list, or is refused with STANDBY_FULL when it holds 128
(R60, R61). And the checks of an ARRIVE in their order, each with its refusal (R5 to R9): PHASE outside LOAD, RANGE with
the number of the first field that fails, CALL, DUPLICATE, FULL, and UNSTOWABLE with the static test at which the last
lanes were eliminated. -/
def Obligations.ArriveStandby : Prop :=
  (∀ (lt : Byte) (tag : BitVec 32) (cls len h : Byte) (mass : BitVec 16) (axle call flags : Byte)
    (rest : List Byte) (s : State) (c n k : Nat) (a : Arrival) (f : Frame),
    a = ⟨tag.toNat, cls.toNat, len.toNat, h.toNat, mass.toNat, axle.toNat, call.toNat, flags.toNat, rest⟩ →
    (Instr.arrive lt tag cls len h mass axle call flags rest).request? = some f →
    Taking s → s.voyage = .load c n → arriveRange s.lanes.length a = none → c < a.call → a.call ≤ n →
    s.veh? a.tag = none → s.vehicles.length < 2048 → unstowableAt s a.vehicle = none →
    allocate s a.vehicle = .noCandidate k →
    (s.standby.length < 128 → exec (.arrive lt tag cls len h mass axle call flags rest) s = .next (taken f
      ⟨.standby, u8 (s.standby.length + 1) ++ u8 k⟩
      (fun s => { s with vehicles := s.vehicles ++ [a.vehicle], standby := s.standby ++ [a.vehicle.tag] }) s)) ∧
    (128 ≤ s.standby.length → exec (.arrive lt tag cls len h mass axle call flags rest) s =
      .next (taken f (plain .standbyFull) id s))) ∧
  (∀ (lt : Byte) (tag : BitVec 32) (cls len h : Byte) (mass : BitVec 16) (axle call flags : Byte)
    (rest : List Byte) (s : State) (a : Arrival) (f : Frame) (i : Instr),
    a = ⟨tag.toNat, cls.toNat, len.toNat, h.toNat, mass.toNat, axle.toNat, call.toNat, flags.toNat, rest⟩ →
    i = .arrive lt tag cls len h mass axle call flags rest → i.request? = some f → Taking s →
    ((∀ c n, s.voyage ≠ .load c n) → exec i s = .next (taken f (plain .phase) id s)) ∧
    (∀ c n, s.voyage = .load c n →
      (∀ k, arriveRange s.lanes.length a = some k → exec i s = .next (taken f ⟨.range, u8 k⟩ id s)) ∧
      (arriveRange s.lanes.length a = none →
        (¬ (c < a.call ∧ a.call ≤ n) → exec i s = .next (taken f (plain .call) id s)) ∧
        (c < a.call → a.call ≤ n →
          ((s.veh? a.tag).isSome = true → exec i s = .next (taken f (plain .duplicate) id s)) ∧
          (s.veh? a.tag = none → 2048 ≤ s.vehicles.length → exec i s = .next (taken f (plain .full) id s)) ∧
          (∀ k, s.veh? a.tag = none → s.vehicles.length < 2048 → unstowableAt s a.vehicle = some k →
            exec i s = .next (taken f ⟨.unstowable, u8 k⟩ id s)))))) ∧
  (∀ (lanes : Nat) (a : Arrival), arriveRange lanes a = (List.find? (fun q => q.2)
    [ (0, decide (a.rest.length ≠ (if a.hasDg then 1 else 0) + (if a.hasLane then 1 else 0)))
    , (1, decide (a.tag < 1 ∨ 4294967295 < a.tag)), (2, decide (VClass.ofCode a.cls = none))
    , (3, decide (a.length < 20 ∨ 250 < a.length ∨ (a.cls = 1 ∧ 60 < a.length)))
    , (4, decide (a.height < 1 ∨ 4 < a.height ∨ (a.cls = 1 ∧ 2 < a.height)))
    , (5, decide (a.mass < 1 ∨ 65535 < a.mass)), (6, decide (a.axle < 1 ∨ 160 < a.axle)), (8, decide (8 ≤ a.flags))
    , (9, decide (∃ g, a.dg? = some g ∧ (g < 1 ∨ 6 < g))), (10, decide (∃ l, a.lane? = some l ∧ lanes ≤ l)) ]).map
      Prod.fst) ∧
  (∀ (s : State) (v : Vehicle) (k : Nat), unstowableAt s v = some k ↔ 1 ≤ k ∧ k ≤ 5 ∧
    (∀ l x, s.lane? l = some x → (∀ q, v.reqLane = some q → l = q) → ∃ test ∈ staticTests.take k, test s v l x = false) ∧
    (1 < k → ∃ l x, s.lane? l = some x ∧ (∀ q, v.reqLane = some q → l = q) ∧
      ∀ test ∈ staticTests.take (k - 1), test s v l x = true)) ∧
  (∀ (s : State) (v : Vehicle) (l : Nat) (x : Lane), staticTests.map (fun test => test s v l x) =
    [ decide (v.height ≤ x.baseClass), decide (v.axle ≤ x.axleLimit), decide (v.length + x.gap ≤ x.usable)
    , decide (v.reefer = true → 1 ≤ x.sockets)
    , decide (∀ g, v.dg = some g → s.openDeckOnly g = true → s.onWeather x = true) ])

/-- An allocation claims a lane that passes every test T1 to T11 and that ranks before every other such lane; where
it claims none, no lane passes them all, and the standby reason is the test at which the last lanes were dropped
(R44, R45, R57). And what each test asks (R46 to R56), with the clearance class (R26), the last call (R27) and the
segregation levels (R51); the preference keys and the ranking by them (R57). What the tests speak of: a lane's deck
and adjacent lanes (R22), its ramp, weather and hoist decks (R20), a deck's threshold, and the entries of the
segregation table (R51). -/
def Obligations.AllocationFirstRanked : Prop :=
  (∀ (s : State) (x y : Lane) (c d : Sect), s.sect? x.sect = some c → s.sect? y.sect = some d →
    (s.adjacent x y = true ↔ c.deck = d.deck ∧ (x.athwart + 1 = y.athwart ∨ y.athwart + 1 = x.athwart)) ∧
    s.deckNo x = some c.deck) ∧
  (∀ (s : State) (x : Lane) (c : Sect) (d : Deck), s.sect? x.sect = some c → s.deck? c.deck = some d →
    s.rampOf x = (match d.kind with | .main | .hoist => .lower | .upper | .weather => .upper) ∧
    (s.onWeather x = true ↔ d.kind = .weather) ∧ (s.onHoist x = true ↔ d.kind = .hoist) ∧
    s.thresholdOf c = d.threshold) ∧
  (∀ (s : State) (g h n : Nat) (q : DgRec), s.limits.dg[g - 1]? = some q →
    (s.openDeckOnly g = true ↔ q.openDeckOnly = true) ∧ (q.levels[h - 1]? = some n → s.dgLevel g h = n)) ∧
  (∀ (s : State) (v : Vehicle),
    (∀ l, allocate s v = .claim l →
      (∃ x, s.lane? l = some x ∧ ∀ test ∈ laneTests, test s v l x = true) ∧
      ∀ k y, s.lane? k = some y → (∀ test ∈ laneTests, test s v k y = true) → k ≠ l →
        ranksBefore (prefKeys s v l) (prefKeys s v k) = true) ∧
    (∀ n, allocate s v = .noCandidate n → 1 ≤ n ∧ n ≤ 11 ∧
      (∀ l x, s.lane? l = some x → ∃ test ∈ laneTests.take n, test s v l x = false) ∧
      (1 < n → ∃ l x, s.lane? l = some x ∧ ∀ test ∈ laneTests.take (n - 1), test s v l x = true))) ∧
  laneTests = [testT1, testT2, testT3, testT4, testT5, testT6, testT7, testT8, testT9, testT10, testT11] ∧
  (∀ (s : State) (v : Vehicle) (l : Nat) (x : Lane),
    (testT1 s v l x = true ↔ ∀ q, v.reqLane = some q → l = q) ∧
    (testT2 s v l x = true ↔ x.state = .opened ∧ x.overdue = 0 ∧ s.closed x.sect = false ∧
      (s.onHoist x = true → ∃ p y, s.carrier? x.sect = some (p, y) ∧ y.state = .working)) ∧
    (testT3 s v l x = true ↔ v.height ≤ s.clearance x) ∧ (testT4 s v l x = true ↔ v.axle ≤ x.axleLimit) ∧
    (testT5 s v l x = true ↔ (v.reefer = true → x.reefers < x.sockets)) ∧
    (testT6 s v l x = true ↔ v.length + x.gap ≤ x.usable - x.used ∧ x.claims.length < 16 ∧
      x.stow.length + x.claims.length < 48) ∧
    (testT7 s v l x = true ↔ ∀ c, s.lastCall? x = some c → v.call ≤ c) ∧
    (testT8 s v l x = true ↔ ∀ g, v.dg = some g → (s.openDeckOnly g = true → s.onWeather x = true) ∧
      ∀ k y w h, s.lane? k = some y → w ∈ s.records (y.stow ++ y.claims) → w.dg = some h →
        s.permits (s.dgLevel g h) l x k y = true) ∧
    (∀ c, s.sect? x.sect = some c → (testT9 s v l x = true ↔ c.projected + v.mass ≤ c.massLimit * 1000)) ∧
    (testT10 s v l x = true ↔ (s.listMoment + v.mass * x.offset).natAbs ≤ s.limits.listLimit * 10000 ∨
      (s.listMoment + v.mass * x.offset).natAbs < s.listMoment.natAbs) ∧
    (testT11 s v l x = true ↔ ((s.ramp (s.rampOf x)).queue v.cls.kind).length < 48)) ∧
  (∀ (s : State) (x : Lane),
    (x.cover = none → s.clearance x = x.baseClass) ∧
    (∀ c y, x.cover = some c → s.panel? c.panel = some y →
      s.clearance x = if y.state = .stowed then x.baseClass else c.reduced) ∧
    (∀ tag v, x.claims.getLast? = some tag → s.veh? tag = some v → s.lastCall? x = some v.call) ∧
    (∀ tag v, x.claims = [] → x.stow.getLast? = some tag → s.veh? tag = some v → s.lastCall? x = some v.call) ∧
    (x.claims = [] → x.stow = [] → s.lastCall? x = none)) ∧
  (∀ (s : State) (l k : Nat) (x y : Lane), s.permits 0 l x k y = true ∧ (s.permits 1 l x k y = true ↔ l ≠ k) ∧
    (s.permits 2 l x k y = true ↔ l ≠ k ∧ s.adjacent x y = false) ∧
    (s.permits 3 l x k y = true ↔ l ≠ k ∧ s.adjacent x y = false ∧ x.sect ≠ y.sect) ∧
    (s.permits 4 l x k y = true ↔ s.deckNo x ≠ s.deckNo y)) ∧
  (∀ (s : State) (v : Vehicle) (l : Nat) (x : Lane) (c : Sect), s.lane? l = some x → s.sect? x.sect = some c →
    prefKeys s v l =
      [ if s.lastCall? x = none then 1 else if s.lastCall? x = some v.call then 0 else 2
      , if s.thresholdOf c * (c.massLimit * 1000) < 256 * (c.projected + v.mass) then 1 else 0
      , (s.listMoment + v.mass * x.offset).natAbs, x.usable - x.used - (v.length + x.gap), l ]) ∧
  ranksBefore [] [] = false ∧
  (∀ (a b : Nat) (as bs : List Nat), ranksBefore (a :: as) (b :: bs) = true ↔
    a < b ∨ (a = b ∧ ranksBefore as bs = true))

/-- A claim binds the lane (R58, steps 1 to 4): claim list, record, ramp queue, used length, reefer count, masses,
list moment; every other lane and section, the standby list and the stow lists stay. Then STANDBY_ASSIGNED in a sweep,
the judgements, and the sequencer, which starts a cycle when IDLE and else examines (R58, R59). And the standby sweep
(R62 to R64): once at the end of an event that met a trigger, in LOAD alone, head to tail, each vehicle claimed leaving
the list before the next is tried. -/
def Obligations.ClaimBinds : Prop :=
  (∀ (s t : State) (v : Vehicle) (l : Nat) (x : Lane) (c : Sect), s.lane? l = some x → s.sect? x.sect = some c →
    t = bindClaim v l s →
    t.lane? l = some { x with
      claims := x.claims ++ [v.tag], used := x.used + (v.length + x.gap)
      reefers := x.reefers + (if v.reefer then 1 else 0), mass := x.mass + v.mass } ∧
    t.sect? x.sect = some { c with projected := c.projected + v.mass } ∧
    t.listMoment = s.listMoment + v.mass * x.offset ∧
    (t.ramp (s.rampOfNo l)).queue v.cls.kind = (s.ramp (s.rampOfNo l)).queue v.cls.kind ++ [v.tag] ∧
    (∀ u ∈ t.vehicles, u.tag = v.tag → u.stage = .assigned l) ∧
    (∀ k, k ≠ l → t.lane? k = s.lane? k) ∧ (∀ i, i ≠ x.sect → t.sect? i = s.sect? i) ∧
    t.standby = s.standby ∧ t.voyage = s.voyage ∧ t.link = s.link ∧ t.panels = s.panels ∧ t.decks = s.decks) ∧
  (∀ (v : Vehicle) (l : Nat) (announce : Bool) (s t : State) (x : Lane), s.lane? l = some x →
    t = (if announce then (bindClaim v l s).notify (.standbyAssigned v.tag l (s.rampOfNo l)) else bindClaim v l s) →
    claimLane v l announce s = claimReaches (s.rampOfNo l) (clearListOver (judgeList (judgeSect x.sect t)))) ∧
  (∀ (r : Ramp) (s : State), ((s.ramp r).seq = .idle → claimReaches r s = cycleStart r s) ∧
    ((s.ramp r).seq ≠ .idle → claimReaches r s = examineRamp r s)) ∧
  (∀ s : State,
    (∀ c n, s.ev.sweepDue = true → s.voyage = .load c n → sweepIfDue s = { sweep s with ev := EventMarks.none }) ∧
    (s.ev.sweepDue = false ∨ (∀ c n, s.voyage ≠ .load c n) → sweepIfDue s = { s with ev := EventMarks.none }) ∧
    sweep s = s.standby.foldl sweepOne s) ∧
  (∀ (s : State) (tag : Nat) (v : Vehicle), s.veh? tag = some v →
    (∀ n, allocate s v = .noCandidate n → sweepOne s tag = s) ∧
    (∀ l, allocate s v = .claim l →
      sweepOne s tag = claimLane v l true { s with standby := without tag s.standby }))

/-- RECALL (R11 to R14) of a vehicle in each state, with what it does: taken off the standby list; off its claim list
and its queue; off its claim list and the on-ramp or the past-crest list; off the tail of its stow list under R14,
else ORDER; an unknown tag is NOT_FOUND. Its record is freed, its share is returned, and a sweep is triggered. What
the sequencer does after the RECALL of an ASSIGNED vehicle, in each of its states: none in STOPPED and IDLE, a cycle
start in WAIT_TRIGGER when the heavy queue is left empty, the run's end when its queue is, else the head is examined
(R78, R81, R83, R86). And the judgements after the share is returned: the section's arm, the list's arm, the
list-over condition (R35, R37, R38). -/
def Obligations.RecallWithdraws : Prop :=
  (∀ (r : Ramp) (k : Kind) (s : State),
    ((s.ramp r).seq = .stopped ∨ (s.ramp r).seq = .idle → recallReaches r k s = s) ∧
    ((s.ramp r).seq = .waitTrigger →
      (k = .heavy → (s.ramp r).heavy = [] → recallReaches r k s = cycleStart r s) ∧
      (k = .light ∨ (s.ramp r).heavy ≠ [] → recallReaches r k s = s)) ∧
    (∀ j, ((s.ramp r).seq = .lightRun ∧ j = .light) ∨ ((s.ramp r).seq = .heavyRun ∧ j = .heavy) →
      (k = j → (s.ramp r).queue j = [] → recallReaches r k s = seqAct r (.endRun j) s) ∧
      (k ≠ j ∨ (s.ramp r).queue j ≠ [] → recallReaches r k s = examineRamp r s))) ∧
  (∀ (v : Vehicle) (l : Nat) (s u : State),
    u = (dropShare v l false (s.updLane l fun x => { x with
      claims := without v.tag x.claims, overdue := x.overdue - (if v.overdue then 1 else 0) })).freeVeh v.tag →
    dropClaim v l s = judgeRemoval l u ∧ u.link = s.link ∧ u.listArm = s.listArm) ∧
  (∀ (l : Nat) (s : State) (x : Lane), s.lane? l = some x →
    judgeRemoval l s = judgeListOver (judgeList (judgeSect x.sect s))) ∧
  (∀ (lt : Byte) (tag : BitVec 32) (s : State) (f : Frame), Taking s → f = ⟨0x11#8, lt, be 4 tag.toNat⟩ →
    (∀ v, s.veh? tag.toNat = some v →
      (v.stage = .standby → exec (.recallVehicle lt tag) s = .next (taken f ⟨.ok, u8 v.stage.code⟩
        (fun s => ({ s with standby := without v.tag s.standby }.freeVeh v.tag).sweepTrigger) s)) ∧
      (∀ l, v.stage = .assigned l → exec (.recallVehicle lt tag) s = .next (taken f ⟨.ok, u8 v.stage.code⟩
        (fun s => (recallReaches (s.rampOfNo l) v.cls.kind (dropClaim v l (s.updRamp (s.rampOfNo l) fun q =>
          q.setQueue v.cls.kind (without v.tag (q.queue v.cls.kind))))).sweepTrigger) s)) ∧
      (∀ l, v.stage = .onRamp l → exec (.recallVehicle lt tag) s = .next (taken f ⟨.ok, u8 v.stage.code⟩
        (fun s => (examineRamp (s.rampOfNo l) (dropClaim v l (leaveRamp (s.rampOfNo l) v s))).sweepTrigger) s)) ∧
      (∀ l, v.stage = .pastCrest l → exec (.recallVehicle lt tag) s = .next (taken f ⟨.ok, u8 v.stage.code⟩
        (fun s => (examineRamp (s.rampOfNo l) (dropClaim v l (leaveCrest l v.tag s))).sweepTrigger) s)) ∧
      (∀ l o x, v.stage = .placed l o → s.lane? l = some x →
        (x.stow.getLast? = some v.tag → s.hasReleased x = false → x.state ≠ .unloading →
          exec (.recallVehicle lt tag) s = .next (taken f ⟨.ok, u8 v.stage.code⟩
            (fun s => (judgeRemoval l (dropPlaced v l s)).sweepTrigger) s)) ∧
        (x.stow.getLast? ≠ some v.tag ∨ s.hasReleased x = true ∨ x.state = .unloading →
          exec (.recallVehicle lt tag) s = .next (taken f (plain .order) id s)))) ∧
    (s.veh? tag.toNat = none → exec (.recallVehicle lt tag) s = .next (taken f (plain .notFound) id s))) ∧
  (∀ (s t : State) (v : Vehicle) (l : Nat) (x : Lane) (c : Sect), s.lane? l = some x → s.sect? x.sect = some c →
    t = dropClaim v l s →
    t.veh? v.tag = none ∧ (∀ u ∈ s.vehicles, u.tag ≠ v.tag → u ∈ t.vehicles) ∧
    t.lane? l = some { x with
      claims := without v.tag x.claims, overdue := x.overdue - (if v.overdue then 1 else 0)
      used := x.used - (v.length + x.gap), reefers := x.reefers - (if v.reefer then 1 else 0), mass := x.mass - v.mass } ∧
    (t.sect? x.sect).map Sect.projected = some (c.projected - v.mass) ∧
    (t.sect? x.sect).map Sect.placed = some c.placed ∧ t.listMoment = s.listMoment - v.mass * x.offset ∧
    (∀ k, k ≠ l → t.lane? k = s.lane? k) ∧ (∀ i, i ≠ x.sect → t.sect? i = s.sect? i) ∧
    t.standby = s.standby ∧ t.lower = s.lower ∧ t.upper = s.upper ∧ t.voyage = s.voyage) ∧
  (∀ (s : State) (v : Vehicle) (r : Ramp),
    ((leaveRamp r v s).ramp r).onRamp = without v.tag (s.ramp r).onRamp ∧
    ((leaveRamp r v s).ramp r).mass = (s.ramp r).mass - v.mass ∧
    ((leaveRamp r v s).ramp r).light = (s.ramp r).light ∧ ((leaveRamp r v s).ramp r).heavy = (s.ramp r).heavy) ∧
  (∀ (s : State) (l tag : Nat) (x : Lane), s.lane? l = some x →
    (leaveCrest l tag s).lane? l = some { x with pastCrest := without tag x.pastCrest }) ∧
  (∀ (s : State) (tag : Nat), (s.freeVeh tag).veh? tag = none) ∧
  (∀ (tag : Nat) (xs : List Nat), tag ∉ without tag xs ∧ (without tag xs).Sublist xs ∧
    ∀ y ∈ xs, y ≠ tag → y ∈ without tag xs)

/-- VEHICLE_GET (R15): the record, its decoded mass and its position; no state changes; NOT_FOUND for an unknown tag.
Its position in the standby list or in its queue, and the codes of class, flags, stage, sub-stage, lane and offset
(R192). -/
def Obligations.VehicleGetReports : Prop :=
  (∀ (lt : Byte) (tag : BitVec 32) (s : State), Taking s → s.veh? tag.toNat = none →
    exec (.vehicleGet lt tag) s = .next (taken ⟨0x12#8, lt, be 4 tag.toNat⟩ (plain .notFound) id s)) ∧
  (∀ (s : State) (v : Vehicle), s.positionOf v = match v.stage with
    | .standby => if v.tag ∈ s.standby then some (s.standby.idxOf v.tag + 1) else none
    | .assigned l => if v.tag ∈ (s.ramp (s.rampOfNo l)).queue v.cls.kind
        then some (((s.ramp (s.rampOfNo l)).queue v.cls.kind).idxOf v.tag + 1) else none
    | .onRamp _ | .pastCrest _ | .placed _ _ => none) ∧
  ([VClass.car, .van, .lorry, .trailer, .coach, .plant].map VClass.code = [1, 2, 3, 4, 5, 6] ∧
    (∀ v : Vehicle, v.flags =
      (if v.reefer then 1 else 0) + (if v.dg = none then 0 else 2) + (if v.reqLane = none then 0 else 4)) ∧
    (∀ l o : Nat, (Stage.standby.code, Stage.standby.sub?, Stage.standby.lane?, Stage.standby.offsetBytes) =
        (0, none, none, [0xFF#8, 0xFF#8]) ∧
      ((Stage.assigned l).code, (Stage.assigned l).sub?, (Stage.assigned l).lane?, (Stage.assigned l).offsetBytes) =
        (1, none, some l, [0xFF#8, 0xFF#8]) ∧
      ((Stage.onRamp l).code, (Stage.onRamp l).sub?, (Stage.onRamp l).lane?, (Stage.onRamp l).offsetBytes) =
        (2, some 0, some l, [0xFF#8, 0xFF#8]) ∧
      ((Stage.pastCrest l).code, (Stage.pastCrest l).sub?, (Stage.pastCrest l).lane?, (Stage.pastCrest l).offsetBytes) =
        (2, some 1, some l, [0xFF#8, 0xFF#8]) ∧
      ((Stage.placed l o).code, (Stage.placed l o).sub?, (Stage.placed l o).lane?, (Stage.placed l o).offsetBytes) =
        (3, none, some l, be 2 o))) ∧
  ∀ (lt : Byte) (tag : BitVec 32) (s : State) (v : Vehicle), Taking s → s.veh? tag.toNat = some v →
    exec (.vehicleGet lt tag) s = .next (taken ⟨0x12#8, lt, be 4 tag.toNat⟩
      ⟨.ok, be 4 v.tag ++ u8 v.cls.code ++ u8 v.length ++ u8 v.height ++ be 2 v.massCode ++ u8 v.axle
        ++ u8 v.call ++ u8 v.flags ++ optU8 v.dg ++ optU8 v.reqLane ++ u8 v.stage.code ++ optU8 v.stage.sub?
        ++ flag v.overdue ++ optU8 v.stage.lane? ++ v.stage.offsetBytes ++ be 3 (decodeMass v.massCode)
        ++ optU8 (s.positionOf v)⟩ id s)

/-- CONFIRM (R97, R98) of a RELEASED vehicle, on the ramp or past the crest, in its bound lane with the gate open:
it is placed, and the reply carries the offset. In another lane, with the gate shut, or placed already, and where lane,
tag or state do not fit, the answers of R97. And the confirmation placement (R98): the list the vehicle leaves, the crest
credit of a vehicle on the ramp, and in a SENSED lane the entry credit after the placement (log 26). -/
def Obligations.ConfirmPlaces : Prop :=
  (∀ (lt : Byte) (tag : BitVec 32) (lane : Byte) (s : State) (x : Lane) (v : Vehicle), Taking s → Modelled s →
    s.lane? lane.toNat = some x → s.veh? tag.toNat = some v →
    (∀ l, v.stage = .onRamp l ∨ v.stage = .pastCrest l →
      (l = lane.toNat → s.firstClaimCall? x = some v.call →
        exec (.confirm lt tag lane) s = .next (taken ⟨0x13#8, lt, be 4 tag.toNat ++ [lane]⟩
          ⟨.ok, be 2 (s.lengthOf x.gap x.stow)⟩ (confirmPlace v lane.toNat) s)) ∧
      (l = lane.toNat → s.firstClaimCall? x ≠ some v.call →
        exec (.confirm lt tag lane) s = .next (taken ⟨0x13#8, lt, be 4 tag.toNat ++ [lane]⟩
          (plain .sequence) id s)) ∧
      (l ≠ lane.toNat →
        exec (.confirm lt tag lane) s = .next (taken ⟨0x13#8, lt, be 4 tag.toNat ++ [lane]⟩
          ⟨.lane, u8 l⟩ id s))) ∧
    (∀ o, v.stage = .placed lane.toNat o →
      exec (.confirm lt tag lane) s = .next (taken ⟨0x13#8, lt, be 4 tag.toNat ++ [lane]⟩
        ⟨.alreadyPlaced, be 2 o⟩ id s)) ∧
    (v.stage.released = false → (∀ o, v.stage ≠ .placed lane.toNat o) →
      exec (.confirm lt tag lane) s = .next (taken ⟨0x13#8, lt, be 4 tag.toNat ++ [lane]⟩ (plain .notReleased) id s))) ∧
  (∀ (lt : Byte) (tag : BitVec 32) (lane : Byte) (s : State), Taking s →
    (s.profile.inForce = false →
      exec (.confirm lt tag lane) s = .next (taken ⟨0x13#8, lt, be 4 tag.toNat ++ [lane]⟩ (plain .noProfile) id s)) ∧
    (Modelled s → s.lane? lane.toNat = none →
      exec (.confirm lt tag lane) s = .next (taken ⟨0x13#8, lt, be 4 tag.toNat ++ [lane]⟩ (plain .range) id s)) ∧
    (Modelled s → (s.lane? lane.toNat).isSome = true → s.veh? tag.toNat = none →
      exec (.confirm lt tag lane) s = .next (taken ⟨0x13#8, lt, be 4 tag.toNat ++ [lane]⟩ (plain .notFound) id s))) ∧
  (∀ (s u : State) (v : Vehicle) (l : Nat) (x : Lane), s.lane? l = some x →
    v.stage = .onRamp l ∧ u = place v l .confirm (gainCrest (s.rampOf x) (leaveRamp (s.rampOf x) v s)) ∨
      v.stage = .pastCrest l ∧ u = place v l .confirm (leaveCrest l v.tag s) →
    confirmPlace v l s = if x.mode = .sensed then gainEntry l u else u)

/-- A placement (R99, steps 1 to 6): from the claim list to the tail of the stow list at the used length of the stow
list, record PLACED, timer stopped, OVERDUE cleared and counted down, placed masses raised; the projected mass, used
length, list moment and reefer count stay. And the whole placement: those steps, the notice PLACED with lane, offset
and means, then the head of the lane's ramp examined (R99 step 7, R100); the used length of a stow list is the sum of
lengths and gaps. -/
def Obligations.PlacementEffects : Prop :=
  (∀ (v : Vehicle) (l : Nat) (m : PlaceMeans) (s : State) (x : Lane), s.lane? l = some x →
    place v l m s = examineRamp (s.rampOf x)
      ((placeBind v l s).notify (.placed v.tag l (s.lengthOf x.gap x.stow) m))) ∧
  (∀ (s : State) (gap : Nat) (tags : List Nat),
    s.lengthOf gap tags = ((tags.filterMap s.veh?).map fun v => v.length + gap).sum) ∧
  ∀ (s t : State) (v : Vehicle) (l : Nat) (x : Lane) (c : Sect), s.lane? l = some x → s.sect? x.sect = some c →
    t = placeBind v l s →
    t.lane? l = some { x with
      claims := without v.tag x.claims, stow := x.stow ++ [v.tag]
      overdue := x.overdue - (if v.overdue then 1 else 0), placedMass := x.placedMass + v.mass } ∧
    t.sect? x.sect = some { c with placed := c.placed + v.mass } ∧
    (∀ u ∈ t.vehicles, u.tag = v.tag →
      u.stage = .placed l (s.lengthOf x.gap x.stow) ∧ u.transit = .stopped ∧ u.overdue = false) ∧
    (∀ u ∈ s.vehicles, u.tag ≠ v.tag → u ∈ t.vehicles) ∧
    (∀ k, k ≠ l → t.lane? k = s.lane? k) ∧ (∀ i, i ≠ x.sect → t.sect? i = s.sect? i) ∧
    t.listMoment = s.listMoment ∧ t.standby = s.standby ∧ t.lower = s.lower ∧ t.upper = s.upper

/-- DEPART of the tail of an UNLOADING lane (R154, R156, R157): the discharge removal, with an exit credit in a
SENSED lane, or a silent disagreement where 4 stand, which follows the removal (R120 on the order of notices; log
26). The removal takes the vehicle off the stow list and the figures and frees its record. Its steps (R154), the end
of unloading (R158) and the cases of an exit event (R155). DEPART's refusals in their order: NO_PROFILE, NOT_FOUND,
and SEQUENCE with stage, lane and the tail's tag (R156). And the judgements after the removal (R154 step 3). -/
def Obligations.DepartRemoves : Prop :=
  (∀ (l : Nat) (s : State) (x : Lane), s.lane? l = some x →
    judgeRemoval l s = judgeListOver (judgeList (judgeSect x.sect s))) ∧
  (∀ (lt : Byte) (tag : BitVec 32) (s : State), Taking s →
    (s.profile.inForce = false →
      exec (.depart lt tag) s = .next (taken ⟨0x14#8, lt, be 4 tag.toNat⟩ (plain .noProfile) id s)) ∧
    (Modelled s → s.veh? tag.toNat = none →
      exec (.depart lt tag) s = .next (taken ⟨0x14#8, lt, be 4 tag.toNat⟩ (plain .notFound) id s)) ∧
    (∀ v, Modelled s → s.veh? tag.toNat = some v →
      (v.stage = .standby → exec (.depart lt tag) s = .next (taken ⟨0x14#8, lt, be 4 tag.toNat⟩
        ⟨.sequence, [0x00#8, 0xFF#8] ++ be 4 0⟩ id s)) ∧
      (∀ l x, v.stage.lane? = some l → s.lane? l = some x →
        v.stage.isPlaced = false ∨ x.state ≠ .unloading ∨ x.stow.getLast? ≠ some v.tag →
        exec (.depart lt tag) s = .next (taken ⟨0x14#8, lt, be 4 tag.toNat⟩
          ⟨.sequence, u8 (match v.stage with
            | .standby => 0 | .assigned _ => 1 | .onRamp _ | .pastCrest _ => 2 | .placed _ _ => 3)
            ++ u8 l ++ be 4 (x.stow.getLast?.getD 0)⟩ id s)))) ∧
  (∀ (lt : Byte) (tag : BitVec 32) (s : State) (v : Vehicle) (l o : Nat) (x : Lane), Taking s → Modelled s →
    s.veh? tag.toNat = some v → v.stage = .placed l o → s.lane? l = some x → x.state = .unloading →
    x.stow.getLast? = some v.tag →
    exec (.depart lt tag) s = .next (taken ⟨0x14#8, lt, be 4 tag.toNat⟩ (plain .ok)
      (fun s => if x.mode = .sensed ∧ 4 ≤ x.exitCredits
        then scoreSilent l 1 (dischargeRemoval v l .depart true s)
        else dischargeRemoval v l .depart (decide (x.mode = .sensed)) s) s)) ∧
  (∀ (s t : State) (v : Vehicle) (l : Nat) (x : Lane) (c : Sect), s.lane? l = some x → s.sect? x.sect = some c →
    t = dropPlaced v l s →
    t.veh? v.tag = none ∧
    t.lane? l = some { x with
      stow := without v.tag x.stow, used := x.used - (v.length + x.gap)
      reefers := x.reefers - (if v.reefer then 1 else 0), mass := x.mass - v.mass
      placedMass := x.placedMass - v.mass } ∧
    t.sect? x.sect = some { c with projected := c.projected - v.mass, placed := c.placed - v.mass } ∧
    t.listMoment = s.listMoment - v.mass * x.offset ∧ t.lower = s.lower ∧ t.upper = s.upper) ∧
  (∀ (v : Vehicle) (l : Nat) (m : DepartMeans) (credit : Bool) (s u : State),
    u = judgeRemoval l ((dropPlaced v l s).notify (.departed v.tag l v.call m)) →
    dischargeRemoval v l m credit s = (judgeUnloading l (if credit then gainExit l u else u)).sweepTrigger) ∧
  (∀ (l : Nat) (s : State) (x : Lane), s.lane? l = some x →
    (∀ tag v, x.stow.getLast? = some tag → s.veh? tag = some v → s.voyage.call? = some v.call →
      judgeUnloading l s = s) ∧
    (x.stow = [] ∨ (∃ tag v, x.stow.getLast? = some tag ∧ s.veh? tag = some v ∧ s.voyage.call? ≠ some v.call) →
      judgeUnloading l s = (s.updLane l fun x => { x with
        state := .opened, exitCredits := 0, exitWindow := .stopped }).notify
        (.laneDischarged l x.stow.length (s.lastCall? x)))) ∧
  (∀ (l : Nat) (s : State) (x : Lane), s.lane? l = some x →
    (0 < x.exitCredits → exitEvent l s = (s.updLane l fun x => { x with
      exitCredits := x.exitCredits - 1
      exitWindow := if x.exitCredits - 1 = 0 then .stopped else x.exitWindow }, true)) ∧
    (∀ tag v, x.exitCredits = 0 → x.stow.getLast? = some tag → s.veh? tag = some v → s.voyage.call? = some v.call →
      exitEvent l s = (dischargeRemoval v l .exit false s, true)) ∧
    (x.exitCredits = 0 →
      x.stow = [] ∨ (∃ tag v, x.stow.getLast? = some tag ∧ s.veh? tag = some v ∧ s.voyage.call? ≠ some v.call) →
      exitEvent l s = (s, false)))

/-! ### The deck model -/

/-- LANE_GET and SECTION_GET (R40, R41) report and change no state. The byte for the reduced class of an uncovered
lane, and for the state of an absent panel, is a free value (log 12), drawn with the model's counter. And the fields
of both replies, one by one (R192): a lane's header, totals and up to 20 entries, a section's own figures with the
closure causes (R168), its panel's, and the list's. NO_PROFILE of LANE_GET, SECTION_GET, THRESHOLD_SET, LANE_SHUT and
LANE_OPEN without a profile in force (R19; that it comes before RANGE is the model's choice, log 14); RANGE of
LANE_SHUT and LANE_OPEN for a lane at or beyond the count (R30, R31). -/
def Obligations.LaneAndSectionReports : Prop :=
  (∀ (lt a b : Byte) (s : State), Taking s →
    (s.profile.inForce = false →
      exec (.laneGet lt a b) s = .next (taken ⟨0x18#8, lt, [a, b]⟩ (plain .noProfile) id s) ∧
      exec (.sectionGet lt a) s = .next (taken ⟨0x19#8, lt, [a]⟩ (plain .noProfile) id s) ∧
      exec (.thresholdSet lt a b) s = .next (taken ⟨0x1A#8, lt, [a, b]⟩ (plain .noProfile) id s) ∧
      exec (.laneShut lt a) s = .next (taken ⟨0x1B#8, lt, [a]⟩ (plain .noProfile) id s) ∧
      exec (.laneOpen lt a) s = .next (taken ⟨0x1C#8, lt, [a]⟩ (plain .noProfile) id s)) ∧
    (Modelled s → s.lane? a.toNat = none →
      exec (.laneShut lt a) s = .next (taken ⟨0x1B#8, lt, [a]⟩ (plain .range) id s) ∧
      exec (.laneOpen lt a) s = .next (taken ⟨0x1C#8, lt, [a]⟩ (plain .range) id s))) ∧
  (∀ (s : State) (l : Nat) (x : Lane) (reduced : List Byte) (c : Sect) (d : Deck), s.sect? x.sect = some c →
    s.deck? c.deck = some d →
    s.laneHeader l x reduced = u8 l ++ u8 x.sect ++ u8 c.deck ++ u8 d.kind.code ++ u8 x.athwart ++ beInt 2 x.offset
      ++ be 2 x.usable ++ u8 x.gap ++ u8 x.baseClass ++ u8 x.axleLimit ++ u8 x.sockets
      ++ (match x.cover with | some k => u8 k.panel | none => [0xFF#8]) ++ reduced
      ++ u8 (match d.kind with | .main | .hoist => 0 | .upper | .weather => 1) ++ u8 (s.clearance x)
      ++ u8 (match x.state with | .opened => 0 | .shut => 1 | .unloading => 2)
      ++ u8 (if 0 < x.overdue then 1 else 0) ++ u8 x.overdue
      ++ u8 (match x.mode with | .sensed => 0 | .confirm => 1)) ∧
  (∀ (s : State) (x : Lane) (start : Nat),
    s.laneTotals x = u8 x.stow.length ++ u8 x.claims.length ++ be 2 x.used ++ be 2 (x.usable - x.used) ++ u8 x.reefers
      ++ be 3 x.mass ++ be 3 x.placedMass ++ optU8 (s.lastCall? x) ∧
    s.laneEntries x start = u8 ((s.records (x.stow ++ x.claims)).length - start - 20)
      ++ (((s.records (x.stow ++ x.claims)).drop start).take 20).flatMap fun v =>
        be 4 v.tag ++ u8 v.call ++ u8 v.length
          ++ be 2 ((match v.stage with
            | .standby | .placed _ _ => 0 | .assigned _ => 1 | .onRamp _ => 2 | .pastCrest _ => 3) * 8192
            + (if v.overdue then 4096 else 0) + v.massCode)
          ++ be 2 (match v.stage with
            | .placed _ o => o | .standby | .assigned _ | .onRamp _ | .pastCrest _ => 0)) ∧
  (∀ (s : State) (i : Nat) (c : Sect) (d : Deck), s.sect? i = some c → s.deck? c.deck = some d →
    s.sectionHead i c = u8 c.deck ++ u8 d.kind.code ++ be 2 c.massLimit ++ be 4 c.projected ++ be 4 c.placed
      ++ u8 d.threshold ++ u8 (match c.arm with | .armed => 0 | .spent => 1)
      ++ u8 (s.lanes.filter fun x => x.sect == i).length ++ u8 (if s.closed i then 1 else 0)
      ++ u8 ((if s.closure.glob then 1 else 0)
        + (if s.closure.enable ∧ i ∈ (if s.closure.selectB then s.closure.maskB else s.closure.maskA) then 2 else 0)
        + (if c.mode = .sensorClosed then 4 else 0))
      ++ u8 (match c.mode with | .sensed => 0 | .confirmOnly => 1 | .sensorClosed => 2)) ∧
  (∀ (p : Nat) (y : Panel) (b : Byte),
    panelFields p y = u8 p ++ u8 y.state.code ++ u8 y.fault.reason.code ++ optU8 y.fault.lane ++ optTag y.fault.tag ∧
    noPanelFields b = [0xFF#8, b, 0x00#8, 0xFF#8, 0x00#8, 0x00#8, 0x00#8, 0x00#8]) ∧
  (∀ s : State, s.listFigures = beInt 6 s.listMoment ++ be 2 s.limits.listLimit ++ u8 s.listThreshold
    ++ u8 (match s.listArm with | .armed => 0 | .spent => 1) ++ u8 (if s.listOver then 1 else 0)) ∧
  ∀ (lt n start : Byte) (s : State), Taking s → Modelled s →
    (∀ x c, s.lane? n.toNat = some x → start.toNat ≤ 47 → x.cover = some c →
      exec (.laneGet lt n start) s = .next (taken ⟨0x18#8, lt, [n, start]⟩
        ⟨.ok, s.laneHeader n.toNat x (u8 c.reduced) ++ s.laneTotals x ++ s.laneEntries x start.toNat⟩ id s)) ∧
    (∀ x, s.lane? n.toNat = some x → start.toNat ≤ 47 → x.cover = none →
      exec (.laneGet lt n start) s = .next (taken ⟨0x18#8, lt, [n, start]⟩
        ⟨.ok, s.laneHeader n.toNat x [Config.unstatedByte s.freeCtr] ++ s.laneTotals x
          ++ s.laneEntries x start.toNat⟩ (fun s => { s with freeCtr := s.freeCtr + 1 }) s)) ∧
    (s.lane? n.toNat = none ∨ 47 < start.toNat →
      exec (.laneGet lt n start) s = .next (taken ⟨0x18#8, lt, [n, start]⟩ (plain .range) id s)) ∧
    (∀ c p y, s.sect? n.toNat = some c → s.carrier? n.toNat = some (p, y) →
      exec (.sectionGet lt n) s = .next (taken ⟨0x19#8, lt, [n]⟩
        ⟨.ok, s.sectionHead n.toNat c ++ panelFields p y ++ s.listFigures⟩ id s)) ∧
    (∀ c, s.sect? n.toNat = some c → s.carrier? n.toNat = none →
      exec (.sectionGet lt n) s = .next (taken ⟨0x19#8, lt, [n]⟩
        ⟨.ok, s.sectionHead n.toNat c ++ noPanelFields (Config.unstatedByte s.freeCtr) ++ s.listFigures⟩
        (fun s => { s with freeCtr := s.freeCtr + 1 }) s)) ∧
    (s.sect? n.toNat = none →
      exec (.sectionGet lt n) s = .next (taken ⟨0x19#8, lt, [n]⟩ (plain .range) id s))

/-- THRESHOLD_SET (R39): the list's or the deck's threshold, with the arms judged against it; how a section's arm
(R35) and the list's arm (R37) are judged, and the list-over condition, after a removal and after a claim (R38). That
a spend of the list's arm after its re-arm in the same event sends no notice is R37's, taken for every event (log
13). The judgements after a removal in their order; NO_PROFILE of THRESHOLD_SET (R19; before RANGE by the model's
choice, log 14); a section's threshold is its deck's, and the sections of a deck are taken in rising number. -/
def Obligations.ThresholdSets : Prop :=
  (∀ (l : Nat) (s : State) (x : Lane), s.lane? l = some x →
    judgeRemoval l s = judgeListOver (judgeList (judgeSect x.sect s))) ∧
  (∀ (s : State) (c : Sect) (d : Deck), s.deck? c.deck = some d → s.thresholdOf c = d.threshold) ∧
  (∀ (s : State) (d : Nat), (s.sectsOf d).Pairwise (· < ·) ∧
    ∀ i, i ∈ s.sectsOf d ↔ ∃ c, s.sect? i = some c ∧ c.deck = d) ∧
  (∀ (lt target t : Byte) (s : State), Taking s → s.profile.inForce = false →
    exec (.thresholdSet lt target t) s = .next (taken ⟨0x1A#8, lt, [target, t]⟩ (plain .noProfile) id s)) ∧
  (∀ (lt target t : Byte) (s : State), Taking s → Modelled s →
    (target = 0xFF#8 → 128 ≤ t.toNat →
      exec (.thresholdSet lt target t) s = .next (taken ⟨0x1A#8, lt, [target, t]⟩ (plain .ok)
        (fun s => judgeList { s with listThreshold := t.toNat }) s)) ∧
    (∀ d, target ≠ 0xFF#8 → s.deck? target.toNat = some d → 128 ≤ t.toNat →
      exec (.thresholdSet lt target t) s = .next (taken ⟨0x1A#8, lt, [target, t]⟩ (plain .ok)
        (fun s => ((s.updDeck target.toNat fun d => { d with threshold := t.toNat }).sectsOf target.toNat).foldl
          (fun s i => judgeSect i s) (s.updDeck target.toNat fun d => { d with threshold := t.toNat })) s)) ∧
    (t.toNat < 128 ∨ (target ≠ 0xFF#8 ∧ s.deck? target.toNat = none) →
      exec (.thresholdSet lt target t) s = .next (taken ⟨0x1A#8, lt, [target, t]⟩ (plain .range) id s))) ∧
  (∀ (s : State) (i : Nat) (c : Sect), s.sect? i = some c →
    (c.arm = .armed → s.thresholdOf c * (c.massLimit * 1000) < 256 * c.projected →
      judgeSect i s = (s.updSect i fun c => { c with arm := .spent }).notify
        (.nearLimit (some i) c.projected (s.thresholdOf c))) ∧
    (c.arm = .spent → ¬ s.thresholdOf c * (c.massLimit * 1000) < 256 * c.projected →
      judgeSect i s = s.updSect i fun c => { c with arm := .armed }) ∧
    (c.arm = .armed → ¬ s.thresholdOf c * (c.massLimit * 1000) < 256 * c.projected → judgeSect i s = s) ∧
    (c.arm = .spent → s.thresholdOf c * (c.massLimit * 1000) < 256 * c.projected → judgeSect i s = s)) ∧
  (∀ s : State,
    (s.listArm = .armed → s.listThreshold * (s.limits.listLimit * 10000) < 256 * s.listMoment.natAbs →
      judgeList s = if s.ev.listRearmed then { s with listArm := .spent }
        else { s with listArm := .spent }.notify (.nearLimit none s.listMoment s.listThreshold)) ∧
    (s.listArm = .spent → ¬ s.listThreshold * (s.limits.listLimit * 10000) < 256 * s.listMoment.natAbs →
      judgeList s = { s with listArm := .armed, ev := { s.ev with listRearmed := true } }) ∧
    (s.listArm = .armed → ¬ s.listThreshold * (s.limits.listLimit * 10000) < 256 * s.listMoment.natAbs →
      judgeList s = s) ∧
    (s.listArm = .spent → s.listThreshold * (s.limits.listLimit * 10000) < 256 * s.listMoment.natAbs →
      judgeList s = s)) ∧
  (∀ s : State,
    (s.limits.listLimit * 10000 < s.listMoment.natAbs → s.listOver = false →
      judgeListOver s = { s with listOver := true }.notify (.listOver s.listMoment s.limits.listLimit)) ∧
    (s.limits.listLimit * 10000 < s.listMoment.natAbs → s.listOver = true → judgeListOver s = s) ∧
    (s.listMoment.natAbs ≤ s.limits.listLimit * 10000 → judgeListOver s = { s with listOver := false }) ∧
    (s.limits.listLimit * 10000 < s.listMoment.natAbs → clearListOver s = s) ∧
    (s.listMoment.natAbs ≤ s.limits.listLimit * 10000 → clearListOver s = { s with listOver := false }))

/-- LANE_SHUT and LANE_OPEN in each lane state (R30, R31). -/
def Obligations.LaneShutOpen : Prop :=
  ∀ (lt lane : Byte) (s : State) (x : Lane), Taking s → Modelled s → s.lane? lane.toNat = some x →
    exec (.laneShut lt lane) s = .next (match x.state with
      | .opened => taken ⟨0x1B#8, lt, [lane]⟩ (plain .ok)
          (fun s => s.updLane lane.toNat fun x => { x with state := .shut }) s
      | .shut => taken ⟨0x1B#8, lt, [lane]⟩ (plain .ok) id s
      | .unloading => taken ⟨0x1B#8, lt, [lane]⟩ (plain .state) id s) ∧
    exec (.laneOpen lt lane) s = .next (match x.state with
      | .shut => taken ⟨0x1C#8, lt, [lane]⟩ (plain .ok)
          (fun s => (s.updLane lane.toNat fun x => { x with state := .opened }).sweepTrigger) s
      | .opened => taken ⟨0x1C#8, lt, [lane]⟩ (plain .ok) id s
      | .unloading => taken ⟨0x1C#8, lt, [lane]⟩ (plain .state) id s)

/-! ### Ramps -/

/-- RAMP_START of a STOPPED, INBOUND ramp (R74, R75): a cycle start; else NO_PROFILE, STATE and DIRECTION in their
order. A cycle start takes the pending pair, or the defaults in both places with RUN_REVERTED; with both queues empty it
goes IDLE, else a light run begins. And the runs (R78, R80, R83, with R79's fresh stall timer, suspended in CLOSED): a run
with an empty queue ends at once; a run releases its head when and only when the conditions of R85 hold, and ends when its
count reaches L or H or its queue is empty; what follows the end of a light and of a heavy run. -/
def Obligations.RampStarts : Prop :=
  (∀ (lt : Byte) (r : Ramp) (s : State), Taking s →
    (Modelled s → (s.ramp r).seq = .stopped → (s.ramp r).direction = .inbound →
      exec (.rampStart lt (BitVec.ofNat 8 (rampCode r))) s = .next (taken
        ⟨0x20#8, lt, [BitVec.ofNat 8 (rampCode r)]⟩ ⟨.ok, [0x00#8]⟩ (cycleStart r) s)) ∧
    (s.profile.inForce = false →
      exec (.rampStart lt (BitVec.ofNat 8 (rampCode r))) s = .next (taken
        ⟨0x20#8, lt, [BitVec.ofNat 8 (rampCode r)]⟩ ⟨.noProfile, [0x2C#8]⟩ id s)) ∧
    (Modelled s → (s.ramp r).seq ≠ .stopped →
      exec (.rampStart lt (BitVec.ofNat 8 (rampCode r))) s = .next (taken
        ⟨0x20#8, lt, [BitVec.ofNat 8 (rampCode r)]⟩ ⟨.state, [0x1B#8]⟩ id s)) ∧
    (Modelled s → (s.ramp r).seq = .stopped → (s.ramp r).direction = .outbound →
      exec (.rampStart lt (BitVec.ofNat 8 (rampCode r))) s = .next (taken
        ⟨0x20#8, lt, [BitVec.ofNat 8 (rampCode r)]⟩ ⟨.direction, [0x1C#8]⟩ id s))) ∧
  (∀ (r : Ramp) (s t : State) (p : RunPair), p = (s.ramp r).waiting →
    t = (if p.heavy ≤ 2 * p.light then s.updRamp r fun q => { q with active := p }
      else (s.updRamp r fun q => { q with active := ⟨4, 2⟩, waiting := ⟨4, 2⟩ }).notify
        (.runReverted r p.light p.heavy)) →
    ((s.ramp r).light = [] → (s.ramp r).heavy = [] →
      cycleStart r s = t.updRamp r fun q => { q with seq := .idle, stall := .stopped, runCount := 0 }) ∧
    ((s.ramp r).light ≠ [] ∨ (s.ramp r).heavy ≠ [] → cycleStart r s = seqAct r (.begin .light) t)) ∧
  (∀ (r : Ramp) (k : Kind) (q : SeqState) (s t : State),
    (k, q) = (.light, .lightRun) ∨ (k, q) = (.heavy, .heavyRun) →
    t = (s.updRamp r fun u => { u with
      seq := q, runCount := 0
      stall := if u.band < 3 then .running u.stallLimit else .suspended u.stallLimit }) →
    ((s.ramp r).queue k = [] → seqAct r (.begin k) s = seqAct r (.endRun k) t) ∧
    ((s.ramp r).queue k ≠ [] → seqAct r (.begin k) s = examineRamp r t)) ∧
  (∀ (r : Ramp) (s : State), (s.ramp r).seq ≠ .lightRun → (s.ramp r).seq ≠ .heavyRun → examineRamp r s = s) ∧
  (∀ (r : Ramp) (k : Kind) (n : Nat) (s : State),
    ((s.ramp r).seq = .lightRun ∧ k = .light ∧ n = (s.ramp r).active.light) ∨
      ((s.ramp r).seq = .heavyRun ∧ k = .heavy ∧ n = (s.ramp r).active.heavy) →
    ((s.ramp r).queue k = [] → examineRamp r s = s) ∧
    (∀ tag rest, (s.ramp r).queue k = tag :: rest →
      (canRelease r tag s = false → examineRamp r s = s) ∧
      (canRelease r tag s = true → n ≤ (s.ramp r).runCount + 1 ∨ rest = [] →
        examineRamp r s = seqAct r (.endRun k) (releaseHead r k tag s)) ∧
      (canRelease r tag s = true → (s.ramp r).runCount + 1 < n → rest ≠ [] →
        examineRamp r s = examineRamp r (releaseHead r k tag s)))) ∧
  (∀ (r : Ramp) (s t : State), t = (s.updRamp r fun q => { q with stall := .stopped, runCount := 0 }) →
    seqAct r (.endRun .heavy) s = cycleStart r t ∧
    ((s.ramp r).heavy = [] → seqAct r (.endRun .light) s = cycleStart r t) ∧
    ((s.ramp r).heavy ≠ [] → (s.ramp r).mode = .auto → seqAct r (.endRun .light) s = seqAct r (.begin .heavy) t) ∧
    ((s.ramp r).heavy ≠ [] → (s.ramp r).mode = .manual →
      seqAct r (.endRun .light) s = (t.updRamp r fun q => { q with seq := .waitTrigger }).notify
        (.runReady r (s.ramp r).heavy.length)))

/-- R84: RAMP_STOP takes the sequencer to STOPPED from any state, with the stall timer stopped, the run count 0 and
the GO lamp off; one already STOPPED is left as it is; the reply is OK. -/
def Obligations.RampStops : Prop :=
  ∀ (lt : Byte) (r : Ramp) (s : State), Taking s →
    ((s.ramp r).seq ≠ .stopped →
      exec (.rampStop lt (BitVec.ofNat 8 (rampCode r))) s = .next (taken
        ⟨0x21#8, lt, [BitVec.ofNat 8 (rampCode r)]⟩ ⟨.ok, [0x00#8]⟩
        (fun s => s.updRamp r fun q => { q with seq := .stopped, stall := .stopped, runCount := 0 }) s)) ∧
    ((s.ramp r).seq = .stopped →
      exec (.rampStop lt (BitVec.ofNat 8 (rampCode r))) s = .next (taken
        ⟨0x21#8, lt, [BitVec.ofNat 8 (rampCode r)]⟩ ⟨.ok, [0x00#8]⟩ id s)) ∧
    (∀ t, exec (.rampStop lt (BitVec.ofNat 8 (rampCode r))) s = .next t →
      (t.ramp r).seq = .stopped ∧ (t.ramp r).go = false ∧ (t.ramp r).light = (s.ramp r).light ∧
      (t.ramp r).heavy = (s.ramp r).heavy ∧ (t.ramp r).onRamp = (s.ramp r).onRamp ∧
      (t.ramp r).mass = (s.ramp r).mass ∧ (t.ramp r).band = (s.ramp r).band ∧
      (t.ramp r).active = (s.ramp r).active ∧ (t.ramp r).waiting = (s.ramp r).waiting ∧
      (t.ramp r).mode = (s.ramp r).mode ∧ (t.ramp r).source = (s.ramp r).source)

/-- RAMP_DIRECTION (R69) of a STOPPED ramp: the direction it has is answered OK with no change; a change is refused
with STATE while a vehicle is RELEASED to the ramp's lanes (to OUTBOUND) or a lane of it is UNLOADING (to INBOUND).
In any other sequencer state STATE. NO_PROFILE without a profile in force (R68). A direction code that is not listed
is RANGE, one result for each ramp named: the model's reading (log 15). -/
def Obligations.RampTurns : Prop :=
  (∀ (lt d : Byte) (r : Ramp) (s : State), Taking s → 1 < d.toNat →
    exec (.rampDirection lt (BitVec.ofNat 8 (rampCode r)) d) s = .next (taken
      ⟨0x22#8, lt, [BitVec.ofNat 8 (rampCode r), d]⟩ ⟨.range, [0x11#8]⟩ id s) ∧
    exec (.rampDirection lt 2#8 d) s = .next (taken ⟨0x22#8, lt, [2#8, d]⟩ ⟨.range, [0x11#8, 0x11#8]⟩ id s)) ∧
  (∀ (lt : Byte) (r : Ramp) (d : Direction) (s : State), Taking s → s.profile.inForce = false →
    exec (.rampDirection lt (BitVec.ofNat 8 (rampCode r)) (BitVec.ofNat 8 d.code)) s = .next (taken
      ⟨0x22#8, lt, [BitVec.ofNat 8 (rampCode r), BitVec.ofNat 8 d.code]⟩ ⟨.noProfile, [0x2C#8]⟩ id s)) ∧
  (Direction.code .inbound = 0 ∧ Direction.code .outbound = 1) ∧
  (∀ (r : Ramp) (s : State),
    (s.barsTurn r .outbound = true ↔ ∃ v ∈ s.vehicles, ∃ l x, (v.stage = .onRamp l ∨ v.stage = .pastCrest l) ∧
      s.lane? l = some x ∧ s.rampOf x = r) ∧
    (s.barsTurn r .inbound = true ↔ ∃ x ∈ s.lanes, s.rampOf x = r ∧ x.state = .unloading)) ∧
  ∀ (lt : Byte) (r : Ramp) (d : Direction) (s : State), Taking s → Modelled s →
    ((s.ramp r).seq = .stopped → (s.ramp r).direction ≠ d → s.barsTurn r d = false →
      exec (.rampDirection lt (BitVec.ofNat 8 (rampCode r)) (BitVec.ofNat 8 d.code)) s = .next (taken
        ⟨0x22#8, lt, [BitVec.ofNat 8 (rampCode r), BitVec.ofNat 8 d.code]⟩ ⟨.ok, [0x00#8]⟩
        (fun s => s.updRamp r fun q => { q with direction := d }) s)) ∧
    ((s.ramp r).seq = .stopped → (s.ramp r).direction = d →
      exec (.rampDirection lt (BitVec.ofNat 8 (rampCode r)) (BitVec.ofNat 8 d.code)) s = .next (taken
        ⟨0x22#8, lt, [BitVec.ofNat 8 (rampCode r), BitVec.ofNat 8 d.code]⟩ ⟨.ok, [0x00#8]⟩ id s)) ∧
    ((s.ramp r).seq ≠ .stopped ∨ ((s.ramp r).direction ≠ d ∧ s.barsTurn r d = true) →
      exec (.rampDirection lt (BitVec.ofNat 8 (rampCode r)) (BitVec.ofNat 8 d.code)) s = .next (taken
        ⟨0x22#8, lt, [BitVec.ofNat 8 (rampCode r), BitVec.ofNat 8 d.code]⟩ ⟨.state, [0x1B#8]⟩ id s))

/-- RUN_PAIR and TRIGGER_MODE (R76, R82): the pending pair and a carried stall limit; mode and source, a change to
AUTO in WAIT_TRIGGER acting as a trigger. Values outside the ranges are RANGE. -/
def Obligations.RampSettings : Prop :=
  (∀ (lt l h : Byte) (st : Option Byte) (r : Ramp) (s : State), Taking s →
    (1 ≤ l.toNat → l.toNat ≤ 32 → 1 ≤ h.toNat → h.toNat ≤ 16 → (∀ t, st = some t → 10 ≤ t.toNat) →
      exec (.runPair lt (BitVec.ofNat 8 (rampCode r)) l h st) s = .next (taken
        ⟨0x23#8, lt, [BitVec.ofNat 8 (rampCode r), l, h] ++ st.toList⟩ ⟨.ok, [0x00#8]⟩
        (fun s => s.updRamp r fun q =>
          { q with waiting := ⟨l.toNat, h.toNat⟩, stallLimit := (st.map BitVec.toNat).getD q.stallLimit }) s)) ∧
    (l.toNat < 1 ∨ 32 < l.toNat ∨ h.toNat < 1 ∨ 16 < h.toNat ∨ (∃ t, st = some t ∧ t.toNat < 10) →
      exec (.runPair lt (BitVec.ofNat 8 (rampCode r)) l h st) s = .next (taken
        ⟨0x23#8, lt, [BitVec.ofNat 8 (rampCode r), l, h] ++ st.toList⟩ ⟨.range, [0x11#8]⟩ id s))) ∧
  (∀ (lt m src : Byte) (r : Ramp) (s : State), Taking s →
    (∀ mode source, TriggerMode.ofCode m.toNat = some mode → TriggerSource.ofCode src.toNat = some source →
      exec (.triggerMode lt (BitVec.ofNat 8 (rampCode r)) m src) s = .next (taken
        ⟨0x24#8, lt, [BitVec.ofNat 8 (rampCode r), m, src]⟩ ⟨.ok, [0x00#8]⟩
        (fun s =>
          if (s.ramp r).mode = .manual ∧ mode = .auto ∧ (s.ramp r).seq = .waitTrigger
          then seqAct r (.begin .heavy) (s.updRamp r fun q => { q with mode := mode, source := source })
          else s.updRamp r fun q => { q with mode := mode, source := source }) s)) ∧
    (1 < m.toNat ∨ 2 < src.toNat →
      exec (.triggerMode lt (BitVec.ofNat 8 (rampCode r)) m src) s = .next (taken
        ⟨0x24#8, lt, [BitVec.ofNat 8 (rampCode r), m, src]⟩ ⟨.range, [0x11#8]⟩ id s)))

/-- The trigger (R81): TRIGGER on a REQUEST_ONLY ramp in WAIT_TRIGGER begins the heavy run, in any other state it is
NOT_READY, and with a line as source STATE. A press acts on each ramp in WAIT_TRIGGER whose source names the line,
LOWER before UPPER; a release re-arms the line. -/
def Obligations.TriggerStartsHeavyRun : Prop :=
  (∀ (lt : Byte) (r : Ramp) (s : State), Taking s →
    ((s.ramp r).source = .requestOnly → (s.ramp r).seq = .waitTrigger →
      exec (.trigger lt (BitVec.ofNat 8 (rampCode r))) s = .next (taken
        ⟨0x25#8, lt, [BitVec.ofNat 8 (rampCode r)]⟩ ⟨.ok, [0x00#8]⟩ (seqAct r (.begin .heavy)) s)) ∧
    ((s.ramp r).source = .requestOnly → (s.ramp r).seq ≠ .waitTrigger →
      exec (.trigger lt (BitVec.ofNat 8 (rampCode r))) s = .next (taken
        ⟨0x25#8, lt, [BitVec.ofNat 8 (rampCode r)]⟩ ⟨.notReady, [0x1D#8]⟩ id s)) ∧
    ((s.ramp r).source ≠ .requestOnly →
      exec (.trigger lt (BitVec.ofNat 8 (rampCode r))) s = .next (taken
        ⟨0x25#8, lt, [BitVec.ofNat 8 (rampCode r)]⟩ ⟨.state, [0x1B#8]⟩ id s))) ∧
  (∀ (line : TriggerLine) (s : State), s.power = .up → s.pins.pressed line = false →
    s.upper.source ≠ (match line with | .line1 => .line1 | .line2 => .line2) →
    s.lower.source = (match line with | .line1 => .line1 | .line2 => .line2) → s.lower.seq = .waitTrigger →
    exec (.triggerLinePress line) s = .next (happened (seqAct .lower (.begin .heavy))
      { s with pins := s.pins.setPressed line true })) ∧
  (∀ (line : TriggerLine) (s : State), s.power = .up → s.pins.pressed line = false →
    exec (.triggerLinePress line) s = .next (happened (pressLine line)
      { s with pins := s.pins.setPressed line true })) ∧
  (∀ (line : TriggerLine) (src : TriggerSource) (s t : State),
    (line, src) = (.line1, .line1) ∨ (line, src) = (.line2, .line2) →
    t = (if s.lower.source = src ∧ s.lower.seq = .waitTrigger then seqAct .lower (.begin .heavy) s else s) →
    pressLine line s =
      if s.upper.source = src ∧ s.upper.seq = .waitTrigger then seqAct .upper (.begin .heavy) t else t) ∧
  (∀ (line : TriggerLine) (s : State), s.pins.pressed line = true →
    exec (.triggerLinePress line) s = .next { s with pins := s.pins.setPressed line true }) ∧
  (∀ (line : TriggerLine) (s : State),
    exec (.triggerLineRelease line) s = .next { s with pins := s.pins.setPressed line false })

/-- RAMP_BAND (R73): the band, the stall timer suspended by CLOSED and resumed by leaving it, and a running sequencer
examines; a band above 3 is RANGE. NO_PROFILE without a profile in force (R68), before RANGE by the model's choice
(log 14). -/
def Obligations.RampBandSets : Prop :=
  (∀ (lt b : Byte) (r : Ramp) (s : State), Taking s → s.profile.inForce = false →
    exec (.rampBand lt (BitVec.ofNat 8 (rampCode r)) b) s = .next (taken
      ⟨0x26#8, lt, [BitVec.ofNat 8 (rampCode r), b]⟩ ⟨.noProfile, [0x2C#8]⟩ id s)) ∧
  (∀ (lt b : Byte) (r : Ramp) (s : State), Taking s → Modelled s →
    (b.toNat ≤ 3 → exec (.rampBand lt (BitVec.ofNat 8 (rampCode r)) b) s = .next (taken
      ⟨0x26#8, lt, [BitVec.ofNat 8 (rampCode r), b]⟩ ⟨.ok, [0x00#8]⟩ (setBand r b.toNat) s)) ∧
    (3 < b.toNat → exec (.rampBand lt (BitVec.ofNat 8 (rampCode r)) b) s = .next (taken
      ⟨0x26#8, lt, [BitVec.ofNat 8 (rampCode r), b]⟩ ⟨.range, [0x11#8]⟩ id s))) ∧
  (∀ (r : Ramp) (n : Nat) (s : State), ((s.ramp r).band = n → setBand r n s = s) ∧
    ((s.ramp r).band ≠ n → n < 3 → setBand r n s =
      examineRamp r (s.updRamp r fun q => { q with band := n, stall := q.stall.resume })) ∧
    ((s.ramp r).band ≠ n → 3 ≤ n → setBand r n s =
      examineRamp r (s.updRamp r fun q => { q with band := n, stall := q.stall.suspend })))

/-- BOTH (R68): the request applied to LOWER, then to UPPER on what LOWER left; one result each, the leading one OK
when both are, else the first refused. A ramp code above 2 is RANGE with no field; that it stands before NO_PROFILE
is the model's choice (log 14). A single ramp's request is that ramp's part alone. For each of the seven requests. -/
def Obligations.BothRamps : Prop :=
  ∀ (lt : Byte) (s : State), Taking s →
    ∀ (i : Byte → Instr) (kind : Byte) (rest : List Byte) (part : Ramp → State → State × Result),
      ((i, kind, rest, part) = (fun r => .rampStart lt r, 0x20#8, [], startPart) ∨
       (i, kind, rest, part) = (fun r => .rampStop lt r, 0x21#8, [], stopPart) ∨
       (∃ d, (i, kind, rest, part) = (fun r => .rampDirection lt r (BitVec.ofNat 8 (Direction.code d)), 0x22#8,
         [BitVec.ofNat 8 (Direction.code d)], directionPart d)) ∨
       (∃ l h st, (i, kind, rest, part) = (fun r => .runPair lt r l h st, 0x23#8, [l, h] ++ st.toList,
         runPairPart l.toNat h.toNat (st.map BitVec.toNat))) ∨
       (∃ m src, (i, kind, rest, part) = (fun r => .triggerMode lt r m src, 0x24#8, [m, src],
         triggerModePart m.toNat src.toNat)) ∨
       (i, kind, rest, part) = (fun r => .trigger lt r, 0x25#8, [], triggerPart) ∨
       (∃ b, (i, kind, rest, part) = (fun r => .rampBand lt r b, 0x26#8, [b], bandPart b.toNat))) →
      (∀ a b : State × Result, a = part .lower (heard s) → b = part .upper a.1 →
        exec (i 2#8) s = .next (taken ⟨kind, lt, 2#8 :: rest⟩
          ⟨if a.2 = .ok then b.2 else a.2, [BitVec.ofNat 8 a.2.code, BitVec.ofNat 8 b.2.code]⟩
          (fun _ => b.1) s)) ∧
      (∀ r : Ramp, exec (i (BitVec.ofNat 8 (rampCode r))) s = .next (taken
        ⟨kind, lt, BitVec.ofNat 8 (rampCode r) :: rest⟩
        ⟨(part r (heard s)).2, [BitVec.ofNat 8 (part r (heard s)).2.code]⟩ (fun s => (part r s).1) s)) ∧
      (∀ r : Byte, 2 < r.toNat → exec (i r) s = .next (taken ⟨kind, lt, r :: rest⟩ (plain .range) id s))

/-- The six release conditions (R85), and what a release does (R87, steps 1 to 6 and 8). What the conditions speak
of: the lane on a hoist deck and its panel WORKING, the cover panel moving, the call of the first claim, and the
active band, which CLOSED has none. -/
def Obligations.ReleaseRule : Prop :=
  (∀ (s : State) (x : Lane),
    (s.onHoist x = true ↔ ∃ d, s.deckOf x = some d ∧ d.kind = .hoist) ∧
    (s.carrierWorking x = true ↔ ∃ p y, s.carrier? x.sect = some (p, y) ∧ y.state = .working) ∧
    (s.coverMoving x = true ↔ ∃ k y, x.cover = some k ∧ s.panel? k.panel = some y ∧
      (y.state = .raising ∨ y.state = .lowering)) ∧
    s.firstClaimCall? x = x.claims.head?.bind fun t => (s.veh? t).map Vehicle.call) ∧
  (∀ (r : Ramp) (s : State) (b : Band), s.bandOf r = some b ↔
    (s.ramp r).band < 3 ∧ (s.rampRec r).bands[(s.ramp r).band]? = some b) ∧
  (∀ (r : Ramp) (tag : Nat) (s : State), canRelease r tag s = true ↔
    ∃ v b l x, s.veh? tag = some v ∧ s.bandOf r = some b ∧ v.stage.lane? = some l ∧ s.lane? l = some x ∧
      (s.ramp r).onRamp.length < b.maxVehicles ∧ (s.ramp r).mass + v.mass ≤ b.massLimit * 1000 ∧
      x.overdue = 0 ∧ ((s.onHoist x = true → s.carrierWorking x = true) ∧ s.coverMoving x = false) ∧
      s.firstClaimCall? x = some v.call) ∧
  (∀ (r : Ramp) (s : State), s.bandOf r = none ↔ 3 ≤ (s.ramp r).band ∨ (s.rampRec r).bands[(s.ramp r).band]? = none) ∧
  (∀ (r : Ramp) (k : Kind) (tag : Nat) (rest : List Nat) (s t : State) (v : Vehicle) (l : Nat),
    (s.ramp r).queue k = tag :: rest → s.veh? tag = some v → v.stage.lane? = some l →
    t = releaseHead r k tag s →
    (t.ramp r).queue k = rest ∧ (t.ramp r).onRamp = (s.ramp r).onRamp ++ [tag] ∧
    (t.ramp r).mass = (s.ramp r).mass + v.mass ∧ (t.ramp r).runCount = (s.ramp r).runCount + 1 ∧
    (t.ramp r).stall = .running (s.ramp r).stallLimit ∧
    (∀ u ∈ t.vehicles, u.tag = tag → u.stage = .onRamp l ∧ u.transit = .running (s.rampRec r).transit) ∧
    t.link = (s.notify (.released tag l r)).link ∧
    (t.ev.sweepDue = true ↔ s.ev.sweepDue = true ∨ rest.length = 47) ∧
    t.lanes = s.lanes ∧ t.sections = s.sections ∧ t.standby = s.standby ∧ t.listMoment = s.listMoment)

/-- The stall timer's expiry ends the run with RUN_STALLED (R79); the silence timer's expiry stops both sequencers
(R89) and, where one was not STOPPED, queues one RAMP_HALTED that names the ramps stopped (R90); where both were
STOPPED, no notice. -/
def Obligations.StallAndSilence : Prop :=
  (∀ (s : State) (n : Nat), s.power = .up → s.link.silence = .running n →
    exec .linkSilenceExpiry s = .next (happened silenceExpires s)) ∧
  (∀ s t u w : State, t = (s.updLink fun k => { k with silence := .stopped }) →
    u = (if s.lower.seq = .stopped then t
      else { t with lower := { t.lower with seq := .stopped, stall := .stopped, runCount := 0 } }) →
    w = (if s.upper.seq = .stopped then u
      else { u with upper := { u.upper with seq := .stopped, stall := .stopped, runCount := 0 } }) →
    (s.lower.seq = .stopped → s.upper.seq = .stopped → silenceExpires s = t) ∧
    (s.lower.seq ≠ .stopped ∨ s.upper.seq ≠ .stopped → silenceExpires s =
      w.notify (.rampHalted (decide (s.lower.seq ≠ .stopped)) (decide (s.upper.seq ≠ .stopped))))) ∧
  (∀ (r : Ramp) (s : State) (k : Kind) (n tag : Nat) (rest : List Nat), s.power = .up →
    (s.ramp r).stall = .running n → (s.ramp r).seq.run? = some k → (s.ramp r).queue k = tag :: rest →
    exec (.stallTimerExpiry r) s = .next (happened
      (fun s => seqAct r (.endRun k) (s.notify (.runStalled r k tag (s.ramp r).runCount))) s)) ∧
  (∀ (s : State) (n : Nat), s.power = .up → s.link.silence = .running n →
    ∃ t, exec .linkSilenceExpiry s = .next t ∧ t.lower.seq = .stopped ∧ t.upper.seq = .stopped ∧
      t.link.silence = .stopped ∧ t.link.silenceLimit = s.link.silenceLimit ∧
      t.lower.go = false ∧ t.upper.go = false ∧ t.vehicles = s.vehicles ∧
      ∀ r, (t.ramp r).light = (s.ramp r).light ∧ (t.ramp r).heavy = (s.ramp r).heavy ∧
        (t.ramp r).onRamp = (s.ramp r).onRamp ∧ (t.ramp r).band = (s.ramp r).band ∧
        (t.ramp r).waiting = (s.ramp r).waiting)

/-! ### Sensors and tracking -/

/-- SENSOR_WATCH and SENSOR_LATCHES (R115, R117): the watch flag of a lane or of every lane of a deck, the deck's
notice enable unless UNCHANGED (2); the latches as they stood, then cleared for the decks named. NO_PROFILE of both
without a profile in force, before RANGE by the model's choice (log 14); RANGE of SENSOR_WATCH for a code not listed
or a lane or deck at or beyond the count (R115). -/
def Obligations.WatchAndLatches : Prop :=
  (∀ (lt sc i w n ds : Byte) (s : State), Taking s →
    (s.profile.inForce = false →
      exec (.sensorWatch lt sc i w n) s = .next (taken ⟨0x28#8, lt, [sc, i, w, n]⟩ (plain .noProfile) id s) ∧
      exec (.sensorLatches lt ds) s = .next (taken ⟨0x2A#8, lt, [ds]⟩ (plain .noProfile) id s)) ∧
    (Modelled s → 1 < sc.toNat ∨ 1 < w.toNat ∨ 2 < n.toNat ∨ (sc = 0 ∧ s.lane? i.toNat = none) ∨
        (sc = 1 ∧ s.deck? i.toNat = none) →
      exec (.sensorWatch lt sc i w n) s = .next (taken ⟨0x28#8, lt, [sc, i, w, n]⟩ (plain .range) id s))) ∧
  (∀ s : State, s.latchSet = ((List.range s.decks.length).map fun d =>
    if (s.deck? d).any Deck.latch then 2 ^ d else 0).sum) ∧
  (∀ n w : Nat, setOfBits n w = (List.range n).filter fun d => w.testBit d) ∧
  ∀ (lt : Byte) (s : State), Taking s → Modelled s →
    (∀ (sc i : Byte) (w : Bool) (n : Byte) ls d, s.scopeLanes sc.toNat i.toNat = some (ls, d) → n.toNat ≤ 2 →
      exec (.sensorWatch lt sc i (if w then 1#8 else 0#8) n) s = .next (taken
        ⟨0x28#8, lt, [sc, i, if w then 1#8 else 0#8, n]⟩ (plain .ok)
        (fun s =>
          let s1 := ls.foldl (fun s l => s.updLane l fun x => { x with watch := w }) s
          if n = 2#8 then s1 else s1.updDeck d fun k => { k with noticeOn := decide (n = 1#8) }) s)) ∧
    (∀ (i : Byte) x, s.scopeLanes 0 i.toNat = some x → x.1 = [i.toNat] ∧ (s.lane? i.toNat).isSome = true) ∧
    (∀ (i : Byte) x, s.scopeLanes 1 i.toNat = some x →
      x.2 = i.toNat ∧ ∀ l, l ∈ x.1 ↔ ∃ y, s.lane? l = some y ∧ s.deckNo y = some i.toNat) ∧
    (∀ ds : Byte, ds.toNat < 2 ^ s.decks.length →
      exec (.sensorLatches lt ds) s = .next (taken ⟨0x2A#8, lt, [ds]⟩ ⟨.ok, u8 s.latchSet⟩
        (fun s => (setOfBits s.decks.length ds.toNat).foldl
          (fun s d => s.updDeck d fun k => { k with latch := false }) s) s)) ∧
    (∀ ds : Byte, 2 ^ s.decks.length ≤ ds.toNat →
      exec (.sensorLatches lt ds) s = .next (taken ⟨0x2A#8, lt, [ds]⟩ (plain .range) id s))

/-- SENSOR_LEVEL and SENSOR_CLEAR (R119, R121): the level, with the HEALTHY loops of the deck that are not borrowed
judged in lane order and then its sections; the score 0 and the loop HEALTHY, with modes recomputed and a sweep where
the section's mode is lowered. That a lowered level judges too is the model's choice (log 33). And the score changes
(R118), the SUSPECT loop (R120), the section modes (R123) and the order of several (R119, R120). NO_PROFILE of both,
before RANGE by the model's choice (log 14). What SENSOR_CLEAR of a SUSPECT loop does, step by step: score 0,
HEALTHY, the lane's mode and the section's recomputed, a sweep where the section's mode is lowered (R121). On a
borrowed loop the score is 0 and the section counts the loop as HEALTHY at once, and the loop's state and its lane's
mode stay until its return (R121; a second clear before it still answers SUSPECT, log 21). A lane's placement mode is
CONFIRM while its loop is SUSPECT or its section is not SENSED (R122); entering CONFIRM discards the entry credits
(R104) and, in an UNLOADING lane, the exit credits (R125), with their windows; leaving it discards nothing. And which
loops and sections of a deck are judged, in which order, against which suspicion score (R119). -/
def Obligations.LevelAndClear : Prop :=
  (∀ (lt n m : Byte) (s : State), Taking s → s.profile.inForce = false →
    exec (.sensorLevel lt n m) s = .next (taken ⟨0x29#8, lt, [n, m]⟩ (plain .noProfile) id s) ∧
    exec (.sensorClear lt n) s = .next (taken ⟨0x2B#8, lt, [n]⟩ (plain .noProfile) id s)) ∧
  (∀ (l i : Nat) (s s1 : State) (x : Lane) (c : Sect), s.lane? l = some x → s.sect? i = some c →
    s1 = remodeSect i (remodeLane l (s.updLane l fun x =>
      if s.borrowed x = true then { x with score := 0, clearing := true }
      else { x with score := 0, suspect := false })) →
    ∃ d, s1.sect? i = some d ∧ (d.mode.code < c.mode.code → clearSuspect l i s = s1.sweepTrigger) ∧
      (c.mode.code ≤ d.mode.code → clearSuspect l i s = s1)) ∧
  (∀ (l i : Nat) (s : State) (x : Lane), s.lane? l = some x → s.borrowed x = true → x.suspect = true →
    x.mode = .confirm →
    (clearSuspect l i s).lane? l = some { x with score := 0, clearing := true } ∧ l ∉ (clearSuspect l i s).suspects i) ∧
  (∀ (l : Nat) (s : State) (x : Lane) (c : Sect), s.lane? l = some x → s.sect? x.sect = some c →
    remodeLane l s = s.updLane l fun x =>
      x.takeMode (if x.suspect = true ∨ c.mode ≠ .sensed then .confirm else .sensed)) ∧
  (∀ x : Lane, x.takeMode x.mode = x ∧
    (x.mode = .confirm → x.takeMode .sensed = { x with mode := .sensed }) ∧
    (x.mode = .sensed → x.takeMode .confirm = { x with
      mode := .confirm, entryCredits := 0, entryWindow := .stopped
      exitCredits := if x.state = .unloading then 0 else x.exitCredits
      exitWindow := if x.state = .unloading then .stopped else x.exitWindow })) ∧
  ([SensorMode.sensed, .confirmOnly, .sensorClosed].map SensorMode.code = [0, 1, 2] ∧
    (∀ (s : State) (x : Lane) (d : Deck) (t : Nat), s.deckOf x = some d →
      s.limits.sensor.thresholds[d.level]? = some t → s.suspicionAt x = t) ∧
    (∀ (s : State) (x : Lane), s.deckOf x = (s.sect? x.sect).bind fun c => s.deck? c.deck)) ∧
  (∀ (s : State) (d : Nat), (s.judgedLoops d).Pairwise (· < ·) ∧ (s.sectsOf d).Pairwise (· < ·) ∧
    (∀ l, l ∈ s.judgedLoops d ↔ ∃ x, s.lane? l = some x ∧ s.deckNo x = some d ∧ s.borrowed x = false) ∧
    (∀ i, i ∈ s.sectsOf d ↔ ∃ c, s.sect? i = some c ∧ c.deck = d)) ∧
  (∀ (l n m : Nat) (s : State) (x : Lane) (g : State → State), s.lane? l = some x →
    (g = scorePhantom l ∧ m = min 15 (x.score + s.limits.sensor.phantom) ∨ g = scoreMatched l ∧ m = x.score - 1 ∨
      g = scoreSilent l n ∧ m = min 15 (x.score + s.limits.sensor.silent * n)) →
    (x.mode = .confirm → g s = s) ∧ (x.mode = .sensed → m = x.score → g s = s) ∧
    (x.mode = .sensed → m ≠ x.score → g s = judgeLoop l (s.updLane l fun x => { x with score := m }))) ∧
  (∀ (l t : Nat) (s : State) (x : Lane) (d : Deck), s.lane? l = some x → s.deckOf x = some d →
    s.limits.sensor.thresholds[d.level]? = some t →
    (x.suspect = true ∨ x.score < t → judgeLoop l s = s) ∧
    (x.suspect = false → t ≤ x.score → judgeLoop l s = remodeSect x.sect (makeSuspect l s)) ∧
    makeSuspect l s = ((s.updLane l fun x => { x with suspect := true }).notify (.sensorSuspect l x.score t)).updLane l
      fun x => x.takeMode .confirm) ∧
  (∀ (i : Nat) (s : State) (c : Sect), s.sect? i = some c →
    (s.sensorModeOf i = c.mode → remodeSect i s = s) ∧
    (∀ s1, s.sensorModeOf i ≠ c.mode →
      s1 = (s.updSect i fun c => { c with mode := s.sensorModeOf i }).notify
        (.sectionMode i (s.sensorModeOf i) (s.suspects i).length) →
      remodeSect i s = (s1.lanesWhere fun x => x.sect == i).foldl (fun s l => remodeLane l s) s1)) ∧
  (∀ (i : Nat) (s : State),
    (s.sensorModeOf i = .sensorClosed ↔ 3 ≤ (s.suspects i).length) ∧
    (s.sensorModeOf i = .confirmOnly ↔ (s.suspects i).length < 3 ∧ ∃ a ∈ s.suspects i, ∃ b ∈ s.suspects i, ∃ x y,
      s.lane? a = some x ∧ s.lane? b = some y ∧ s.adjacent x y = true) ∧
    (∀ l, l ∈ s.suspects i ↔ ∃ x, s.lane? l = some x ∧ x.sect = i ∧ x.suspect = true ∧ x.clearing = false)) ∧
  (∀ (ls is : List Nat) (s : State), judgeLoops ls is s = is.foldl (fun s i => remodeSect i s) (ls.foldl
    (fun s l => if (s.lane? l).any (fun x => !x.suspect && decide (s.suspicionAt x ≤ x.score)) then makeSuspect l s
      else s) s)) ∧
  ∀ (lt n m : Byte) (s : State), Taking s → Modelled s →
    (∀ d, s.deck? n.toNat = some d → m.toNat ≤ 3 →
      exec (.sensorLevel lt n m) s = .next (taken ⟨0x29#8, lt, [n, m]⟩ (plain .ok)
        (fun s =>
          let s1 := s.updDeck n.toNat fun k => { k with level := m.toNat }
          judgeLoops (s1.judgedLoops n.toNat) (s1.sectsOf n.toNat) s1) s)) ∧
    (s.deck? n.toNat = none ∨ 3 < m.toNat →
      exec (.sensorLevel lt n m) s = .next (taken ⟨0x29#8, lt, [n, m]⟩ (plain .range) id s)) ∧
    (∀ x, s.lane? n.toNat = some x →
      exec (.sensorClear lt n) s = .next (taken ⟨0x2B#8, lt, [n]⟩ ⟨.ok, u8 x.score ++ flag x.suspect⟩
        (fun s => if x.suspect = true then clearSuspect n.toNat x.sect s
          else s.updLane n.toNat fun x => { x with score := 0 }) s)) ∧
    (s.lane? n.toNat = none →
      exec (.sensorClear lt n) s = .next (taken ⟨0x2B#8, lt, [n]⟩ (plain .range) id s))

/-- A crest loop edge (R111, R113): OCCUPY is a crest event, CLEAR only a reading; without a profile in force it is
ignored. And the cases of a crest event (R93). -/
def Obligations.CrestEvents : Prop :=
  (∀ (r : Ramp) (s : State), s.power = .up → Modelled s →
    ((s.ramp r).crestOccupied = false → exec (.crestLoopEdge r true) s = .next (happened
      (fun s => crestEvent r (s.updRamp r fun q => { q with crestOccupied := true }))
      { s with pins := s.pins.setCrest r true })) ∧
    ((s.ramp r).crestOccupied = true → exec (.crestLoopEdge r false) s = .next (happened
      (fun s => s.updRamp r fun q => { q with crestOccupied := false })
      { s with pins := s.pins.setCrest r false }))) ∧
  (∀ (r : Ramp) (s : State),
    ((s.ramp r).direction = .outbound → crestEvent r s = s) ∧
    ((s.ramp r).direction = .inbound → 0 < (s.ramp r).crestCredits →
      crestEvent r s = s.updRamp r fun q => { q with
        crestCredits := q.crestCredits - 1
        crestWindow := if q.crestCredits = 1 then .stopped else q.crestWindow }) ∧
    ((s.ramp r).direction = .inbound → (s.ramp r).crestCredits = 0 → (s.ramp r).onRamp = [] →
      crestEvent r s = s.notify (.crestUnexpected r)) ∧
    (∀ tag rest v l, (s.ramp r).direction = .inbound → (s.ramp r).crestCredits = 0 →
      (s.ramp r).onRamp = tag :: rest → s.veh? tag = some v → v.stage.lane? = some l →
      crestEvent r s = examineRamp r (((s.updRamp r fun q =>
        { q with onRamp := without v.tag q.onRamp, mass := q.mass - v.mass }).setStage tag (.pastCrest l)).updLane l
        fun x => { x with pastCrest := x.pastCrest ++ [tag] }))) ∧
  (∀ (r : Ramp) (level : Bool) (s : State), s.power = .up → s.profile.inForce = false →
    exec (.crestLoopEdge r level) s = .next (happened id { s with pins := s.pins.setCrest r level }))

/-- A lane loop edge (R111, R112, R114, R126): by the lane's condition it is an obstruction of a moving panel, is
uncounted, is taken by watch and latch alone (CONFIRM), or is an entry or exit event and then scored. And the cases
of an entry event (R95), and what watching a lane does at a counted edge: the deck's latch, and SENSOR_EVENT with the
notice enable on (R116). What these speak of: a lane reads OCCUPIED at the level that its deck's polarity gives
(R111); OCCUPY counts in a lane that is not UNLOADING, CLEAR in one that is (R112); the first vehicle of the on-ramp
list bound to the lane (R95, case 3); the panel that carries a section, and a borrowed loop (R126). That a level of a
lane that is not there, or one that changes no reading, changes the line alone is the model's choice (log 6). -/
def Obligations.LaneEdges : Prop :=
  (∀ (s : State) (x : Lane) (high : Bool) (c : Sect) (d : Deck), s.sect? x.sect = some c → s.deck? c.deck = some d →
    (s.reads x high = true ↔ high = d.occupiedHigh)) ∧
  (∀ (st : LaneState) (o : Bool), st.counts o = true ↔ (st ≠ .unloading ∧ o = true) ∨ (st = .unloading ∧ o = false)) ∧
  (∀ (s : State) (r : Ramp) (l : Nat),
    (∀ v, s.firstOnRampFor r l = some v ↔ ∃ a b, s.records (s.ramp r).onRamp = a ++ v :: b ∧
      v.stage.lane? = some l ∧ ∀ w ∈ a, w.stage.lane? ≠ some l) ∧
    (s.firstOnRampFor r l = none ↔ ∀ w ∈ s.records (s.ramp r).onRamp, w.stage.lane? ≠ some l)) ∧
  (∀ (st : Stage) (l : Nat), st.lane? = some l ↔
    st = .assigned l ∨ st = .onRamp l ∨ st = .pastCrest l ∨ ∃ o, st = .placed l o) ∧
  (∀ s : State,
    (∀ i p y, s.carrier? i = some (p, y) ↔ s.panel? p = some y ∧ y.carried = i ∧
      ∀ q z, q < p → s.panel? q = some z → z.carried ≠ i) ∧
    (∀ x : Lane, s.borrowed x = true ↔ ∃ p y, s.carrier? x.sect = some (p, y) ∧
      (y.state = .raising ∨ y.state = .lowering))) ∧
  (∀ (l : Nat) (high : Bool) (s : State), s.power = .up →
    s.lane? l = none ∨ (∃ x, s.lane? l = some x ∧ s.reads x high = x.occupied) →
    exec (.laneLoopEdge l high) s = .next (happened id { s with pins := s.pins.setLoop l high })) ∧
  (∀ (l : Nat) (x : Lane) (o : Bool) (s : State),
    (x.watch = false → watchEdge l x o s = s) ∧
    (∀ c d, x.watch = true → s.sect? x.sect = some c → s.deck? c.deck = some d →
      (d.noticeOn = true → watchEdge l x o s = (s.updDeck c.deck fun d => { d with latch := true }).notify
        (.sensorEvent l o x.state x.mode)) ∧
      (d.noticeOn = false → watchEdge l x o s = s.updDeck c.deck fun d => { d with latch := true }))) ∧
  (∀ (l : Nat) (high : Bool) (s : State) (x : Lane), s.power = .up → s.lane? l = some x →
    s.reads x high ≠ x.occupied →
    exec (.laneLoopEdge l high) s = .next (happened (laneEdge l (s.reads x high))
      { s with pins := s.pins.setLoop l high })) ∧
  (∀ (l : Nat) (o : Bool) (s : State) (x : Lane), s.lane? l = some x →
    (∀ p y, s.carrier? x.sect = some (p, y) → y.state.moving = true →
      laneEdge l o s = if o then obstruct p l (s.updLane l fun x => { x with occupied := o })
        else s.updLane l fun x => { x with occupied := o }) ∧
    (s.borrowed x = false → x.state.counts o = false →
      laneEdge l o s = s.updLane l fun x => { x with occupied := o }) ∧
    (s.borrowed x = false → x.state.counts o = true → x.mode = .confirm →
      laneEdge l o s = watchEdge l x o (s.updLane l fun x => { x with occupied := o })) ∧
    (∀ e, s.borrowed x = false → x.state.counts o = true → x.mode = .sensed →
      e = (if x.state = .unloading
        then exitEvent l (watchEdge l x o (s.updLane l fun x => { x with occupied := o }))
        else entryEvent l (watchEdge l x o (s.updLane l fun x => { x with occupied := o }))) →
      laneEdge l o s = if e.2 then scoreMatched l e.1 else scorePhantom l e.1)) ∧
  (∀ (l : Nat) (s : State) (x : Lane), s.lane? l = some x →
    (0 < x.entryCredits → entryEvent l s = (s.updLane l fun x => { x with
      entryCredits := x.entryCredits - 1
      entryWindow := if x.entryCredits - 1 = 0 then .stopped else x.entryWindow }, true)) ∧
    (∀ tag rest v, x.entryCredits = 0 → x.pastCrest = tag :: rest → s.veh? tag = some v →
      entryEvent l s = (place v l .entry (leaveCrest l v.tag s), true)) ∧
    (∀ v, x.entryCredits = 0 → x.pastCrest = [] → s.firstOnRampFor (s.rampOf x) l = some v →
      entryEvent l s =
        (place v l .entry (gainCrest (s.rampOf x) (leaveRamp (s.rampOf x) v s)), true)) ∧
    (x.entryCredits = 0 → x.pastCrest = [] → s.firstOnRampFor (s.rampOf x) l = none → entryEvent l s = (s, false)))

/-- Credit windows that run out (R102, R157): entry and exit credits become that many silent disagreements, crest
credits are cleared, counts 0 and windows stopped. And how a credit is gained (R101, R103, R157): one more, with the
window at its full length; at 4 none, with one silent disagreement for an entry credit. -/
def Obligations.CreditWindowsRunOut : Prop :=
  (∀ (l n : Nat) (s : State) (x : Lane), s.power = .up → s.lane? l = some x → x.entryWindow = .running n →
    exec (.entryCreditWindowExpiry l) s = .next (happened (fun s => scoreSilent l x.entryCredits
      (s.updLane l fun x => { x with entryCredits := 0, entryWindow := .stopped })) s)) ∧
  (∀ (l n : Nat) (s : State) (x : Lane), s.power = .up → s.lane? l = some x → x.exitWindow = .running n →
    exec (.exitCreditWindowExpiry l) s = .next (happened (fun s => scoreSilent l x.exitCredits
      (s.updLane l fun x => { x with exitCredits := 0, exitWindow := .stopped })) s)) ∧
  (∀ (r : Ramp) (n : Nat) (s : State), s.power = .up → (s.ramp r).crestWindow = .running n →
    exec (.crestCreditWindowExpiry r) s = .next (happened
      (fun s => s.updRamp r fun q => { q with crestCredits := 0, crestWindow := .stopped }) s)) ∧
  (∀ (l : Nat) (s : State) (x : Lane), s.lane? l = some x →
    (x.entryCredits < 4 → gainEntry l s = s.updLane l fun x => { x with
      entryCredits := x.entryCredits + 1, entryWindow := .running s.limits.sensor.window }) ∧
    (4 ≤ x.entryCredits → gainEntry l s = scoreSilent l 1 s) ∧
    (x.exitCredits < 4 → gainExit l s = s.updLane l fun x => { x with
      exitCredits := x.exitCredits + 1, exitWindow := .running s.limits.sensor.window }) ∧
    (4 ≤ x.exitCredits → gainExit l s = s)) ∧
  (∀ (r : Ramp) (s : State),
    ((s.ramp r).crestCredits < 4 → gainCrest r s = s.updRamp r fun q => { q with
      crestCredits := q.crestCredits + 1, crestWindow := .running s.limits.sensor.window }) ∧
    (4 ≤ (s.ramp r).crestCredits → gainCrest r s = s))

/-- The transit timer runs out (R107): OVERDUE is set, the lane's overdue count rises and an OVERDUE notice is queued;
for a vehicle marked already the mark and the count stay and no notice is sent. -/
def Obligations.TransitExpires : Prop :=
  ∀ (tag n l : Nat) (s : State) (v : Vehicle), s.power = .up → s.veh? tag = some v → v.transit = .running n →
    v.stage = .onRamp l ∨ v.stage = .pastCrest l →
    exec (.transitExpiry tag) s = .next (happened (fun s =>
      let s1 := s.updVeh tag fun v => { v with transit := .expired, overdue := true }
      if v.overdue then s1
      else (s1.updLane l fun x => { x with overdue := x.overdue + 1 }).notify
        (.overdue tag l (s.rampOfNo l) v.stage.isPastCrest)) s)

/-! ### Panels -/

/-- HOIST_MOVE and HOIST_STOP (R135, R136, R140): an accepted move turns the panel RAISING or LOWERING with its timer
at the move limit; a stop sets the state from the lines. The lines of R135 in their order: NO_PROFILE, RANGE, BUSY,
STATE, OK at the target, NOT_EMPTY, CLEARANCE, TRAFFIC; which traffic is named first is the model's choice (log 16).
And which lane NOT_EMPTY, which vehicle CLEARANCE names, and when there is no traffic (R131, R135); the start of a
move, with the loops borrowed and an obstruction by the first one that reads OCCUPIED (R136, R126). HOIST_STOP
without a profile in force is NO_PROFILE (R140), before RANGE by the model's choice (log 14). What the stop does
(R140): the position check; entering STOWED or WORKING is an arrival with means STOP; entering FAULT is a fault with
its reason, and in FAULT already the last fault is replaced, with a notice, only where it differs; entering UNKNOWN
stops the timer and ends the borrowing, with no notice; the state that stands stays. The position of the lines, with
its codes. -/
def Obligations.PanelMoves : Prop :=
  (∀ (lt p target : Byte) (s : State), Taking s → s.profile.inForce = false →
    exec (.hoistMove lt p target) s = .next (taken ⟨0x30#8, lt, [p, target]⟩ (plain .noProfile) id s) ∧
    exec (.hoistStop lt p) s = .next (taken ⟨0x31#8, lt, [p]⟩ (plain .noProfile) id s)) ∧
  (∀ (p : Nat) (s : State) (x : Panel), s.panel? p = some x →
    (∀ st f, positionCheck s p = (st, f) → st = .stowed ∨ st = .working →
      (x.state = st → stopPanel p s = s) ∧ (x.state ≠ st → stopPanel p s = arrive p st .stop s)) ∧
    (∀ f, positionCheck s p = (.fault, f) →
      (x.state ≠ .fault → stopPanel p s = enterFault p f s) ∧
      (x.state = .fault → x.fault = f → stopPanel p s = s) ∧
      (x.state = .fault → x.fault ≠ f → stopPanel p s = (s.updPanel p fun y => { y with fault := f }).notify
        (.hoistFault p f.reason f.lane f.tag))) ∧
    (∀ f, positionCheck s p = (.unknown, f) →
      (x.state = .unknown → stopPanel p s = s) ∧
      (∀ t, x.state ≠ .unknown → t = (s.updPanel p fun y => { y with state := .unknown, timer := .stopped }) →
        stopPanel p s = examineRamp .upper (examineRamp .lower (if x.state.moving then endBorrow p t else t))))) ∧
  (∀ (p : Nat) (s : State), s.upActive p = (s.pins.upLimit[p]?).getD false ∧
    s.downActive p = (s.pins.downLimit[p]?).getD false ∧
    (s.upActive p = true → s.downActive p = false → s.linePos p = .stowed) ∧
    (s.upActive p = false → s.downActive p = true → s.linePos p = .working) ∧
    (s.upActive p = false → s.downActive p = false → s.linePos p = .neither) ∧
    (s.upActive p = true → s.downActive p = true → s.linePos p = .both)) ∧
  ([LinePos.stowed, .working, .neither, .both].map LinePos.code = [0, 1, 2, 3] ∧
    [PanelPos.stowed, .working, .raising, .lowering, .unknown, .fault].map PanelPos.code = [0, 1, 2, 3, 4, 5] ∧
    ∀ st : PanelPos, st.moving = true ↔ st = .raising ∨ st = .lowering) ∧
  (∀ (p : Nat) (s : State) (z : Panel) (t : Option Nat) (l : Nat), s.panel? p = some z →
    (s.firstTraffic p = some (t, l) ↔
      (∃ x, s.lane? l = some x ∧ (x.sect = z.carried ∨ x.under p = true) ∧
        t = ((s.records x.claims).find? fun v => v.stage.released).map Vehicle.tag ∧
        (t ≠ none ∨ x.state = .unloading)) ∧
      ∀ k y, k < l → s.lane? k = some y → y.sect = z.carried ∨ y.under p = true →
        y.state ≠ .unloading ∧ ∀ v ∈ s.records y.claims, v.stage.released = false)) ∧
  (∀ (p : Nat) (s : State) (z : Panel), s.panel? p = some z →
    (s.firstLoadedOn p = none ↔
      ∀ l x, s.lane? l = some x → x.sect = z.carried → x.stow = [] ∧ x.claims = []) ∧
    (∀ l, s.firstLoadedOn p = some l ↔
      (∃ x, s.lane? l = some x ∧ x.sect = z.carried ∧ ¬ (x.stow = [] ∧ x.claims = [])) ∧
      ∀ k y, k < l → s.lane? k = some y → y.sect = z.carried → y.stow = [] ∧ y.claims = []) ∧
    (s.firstTraffic p = none ↔ ∀ l x, s.lane? l = some x → x.sect = z.carried ∨ x.under p = true →
      x.state ≠ .unloading ∧ ∀ v ∈ s.records x.claims, v.stage.released = false)) ∧
  (∀ (p : Nat) (s : State),
    (s.firstTallUnder p = none ↔ ∀ l x c, s.lane? l = some x → x.cover = some c → c.panel = p →
      ∀ v ∈ s.records (x.stow ++ x.claims), v.height ≤ c.reduced) ∧
    (∀ t l, s.firstTallUnder p = some (t, l) ↔
      (∃ x c a v b, s.lane? l = some x ∧ x.cover = some c ∧ c.panel = p ∧
        s.records (x.stow ++ x.claims) = a ++ v :: b ∧ v.tag = t ∧ c.reduced < v.height ∧
        ∀ w ∈ a, w.height ≤ c.reduced) ∧
      ∀ k y c, k < l → s.lane? k = some y → y.cover = some c → c.panel = p →
        ∀ w ∈ s.records (y.stow ++ y.claims), w.height ≤ c.reduced)) ∧
  (∀ (p : Nat) (st : PanelPos) (s t : State) (x : Panel), s.panel? p = some x →
    t = (s.lanesOn p).foldl (fun s l => s.updLane l fun x => { x with entryWindow := x.entryWindow.suspend })
      (s.updPanel p fun y => { y with state := st, timer := .running x.moveLimit }) →
    ((∀ l ∈ s.lanesOn p, ∀ y, s.lane? l = some y → y.occupied = false) →
      beginMove p st s = examineRamp .upper (examineRamp .lower t)) ∧
    (∀ a l b y, s.lanesOn p = a ++ l :: b → s.lane? l = some y → y.occupied = true →
      (∀ k ∈ a, ∀ z, s.lane? k = some z → z.occupied = false) →
      beginMove p st s = enterFault p ⟨.obstruction, some l, none⟩ t) ∧
    (∀ l, l ∈ s.lanesOn p ↔ ∃ y, s.lane? l = some y ∧ y.sect = x.carried) ∧ (s.lanesOn p).Pairwise (· < ·)) ∧
  (∀ (lt p target : Byte) (s : State) (x : Panel) (goal moving : PanelPos) (line : LinePos), Taking s → Modelled s →
    s.panel? p.toNat = some x → hoistTarget target.toNat = some (goal, line, moving) →
    (x.state.moving = false → s.linePos p.toNat ≠ .both → x.state ≠ goal →
      (goal = .stowed → s.firstLoadedOn p.toNat = none) →
      (goal = .working ∨ x.state = .unknown ∨ x.state = .fault → s.firstTallUnder p.toNat = none) →
      s.firstTraffic p.toNat = none →
      (x.state = .fault → s.linePos p.toNat = line →
        exec (.hoistMove lt p target) s = .next (taken ⟨0x30#8, lt, [p, target]⟩ (plain .ok)
          (arrive p.toNat goal .request) s)) ∧
      (x.state ≠ .fault ∨ s.linePos p.toNat ≠ line →
        exec (.hoistMove lt p target) s = .next (taken ⟨0x30#8, lt, [p, target]⟩ (plain .accepted)
          (beginMove p.toNat moving) s))) ∧
    (x.state.moving = true →
      exec (.hoistMove lt p target) s = .next (taken ⟨0x30#8, lt, [p, target]⟩ (plain .busy) id s)) ∧
    (x.state.moving = false → s.linePos p.toNat = .both →
      exec (.hoistMove lt p target) s = .next (taken ⟨0x30#8, lt, [p, target]⟩ (plain .state) id s)) ∧
    (x.state.moving = false → s.linePos p.toNat ≠ .both → x.state = goal →
      exec (.hoistMove lt p target) s = .next (taken ⟨0x30#8, lt, [p, target]⟩ (plain .ok) id s)) ∧
    (x.state.moving = false → s.linePos p.toNat ≠ .both → x.state ≠ goal →
      (∀ l, goal = .stowed → s.firstLoadedOn p.toNat = some l →
        exec (.hoistMove lt p target) s = .next (taken ⟨0x30#8, lt, [p, target]⟩ ⟨.notEmpty, u8 l⟩ id s)) ∧
      ((goal = .stowed → s.firstLoadedOn p.toNat = none) →
        (∀ t l, goal = .working ∨ x.state = .unknown ∨ x.state = .fault → s.firstTallUnder p.toNat = some (t, l) →
          exec (.hoistMove lt p target) s =
            .next (taken ⟨0x30#8, lt, [p, target]⟩ ⟨.clearance, be 4 t ++ u8 l⟩ id s)) ∧
        ((goal = .working ∨ x.state = .unknown ∨ x.state = .fault → s.firstTallUnder p.toNat = none) →
          ∀ t l, s.firstTraffic p.toNat = some (t, l) →
          exec (.hoistMove lt p target) s =
            .next (taken ⟨0x30#8, lt, [p, target]⟩ ⟨.traffic, optTag t ++ u8 l⟩ id s))))) ∧
  (∀ (lt p target : Byte) (s : State), Taking s → Modelled s →
    (s.panel? p.toNat = none ∨ 1 < target.toNat →
      exec (.hoistMove lt p target) s = .next (taken ⟨0x30#8, lt, [p, target]⟩ (plain .range) id s)) ∧
    (s.panel? p.toNat = none →
      exec (.hoistStop lt p) s = .next (taken ⟨0x31#8, lt, [p]⟩ (plain .range) id s))) ∧
  (hoistTarget 0 = some (.stowed, .stowed, .raising) ∧ hoistTarget 1 = some (.working, .working, .lowering)) ∧
  (∀ (p : Nat) (st : PanelPos) (s : State) (x : Panel), s.panel? p = some x →
    (∀ l ∈ s.lanesOn p, ∀ y, s.lane? l = some y → y.occupied = false) →
    (beginMove p st s).panel? p = some { x with state := st, timer := .running x.moveLimit }) ∧
  (∀ (lt p : Byte) (s : State) (x : Panel), Taking s → Modelled s → s.panel? p.toNat = some x →
    ∃ y, (stopPanel p.toNat (heard s)).panel? p.toNat = some y ∧
      y.state = (positionCheck s p.toNat).1 ∧
      exec (.hoistStop lt p) s = .next (taken ⟨0x31#8, lt, [p]⟩
        ⟨.ok, u8 y.state.code ++ u8 (s.linePos p.toNat).code⟩ (stopPanel p.toNat) s))

/-- A limit line that changes is taken by the panel's state (R132): the whole table, with arrival, lost position,
double limit and regain; the move timer's expiry ends the move in FAULT with reason TIMEOUT (R134, R138). The
position check (R131) and the regain under it (R133). And what an arrival (R137), a lost position (R133) and a fault
(R134) do: the state and the timer, the notice, the borrowing's end with the clears taken during the move (R121,
R127), the neighbours (R139). -/
def Obligations.PanelLines : Prop :=
  (∀ (p : Nat) (line : LimitLine) (a : Bool) (s : State), s.power = .up → s.pins.limit p line ≠ a →
    exec (.limitLineEvent p line a) s = .next (happened (limitEvent p line a)
      { s with pins := s.pins.setLimit p line a })) ∧
  (∀ (p : Nat) (s : State) (x : Panel), s.panel? p = some x →
    (x.state = .raising → s.downActive p = false → limitEvent p .up true s = arrive p .stowed .limit s) ∧
    (x.state = .lowering → s.upActive p = false → limitEvent p .down true s = arrive p .working .limit s) ∧
    (x.state = .stowed → s.downActive p = false → limitEvent p .up false s = losePosition p .stowed s) ∧
    (x.state = .working → s.upActive p = false → limitEvent p .down false s = losePosition p .working s) ∧
    (x.state = .stowed → limitEvent p .down true s = enterFault p ⟨.doubleLimit, none, none⟩ s ∧
      limitEvent p .down false s = s) ∧
    (x.state = .working → limitEvent p .up true s = enterFault p ⟨.doubleLimit, none, none⟩ s ∧
      limitEvent p .up false s = s) ∧
    (x.state.moving = true → s.upActive p = true → s.downActive p = true →
      ∀ line, limitEvent p line true s = enterFault p ⟨.doubleLimit, none, none⟩ s) ∧
    (x.state = .raising → s.upActive p = false → limitEvent p .down true s = s) ∧
    (x.state = .lowering → s.downActive p = false → limitEvent p .up true s = s) ∧
    (x.state.moving = true ∨ x.state = .unknown → ∀ line, limitEvent p line false s = s) ∧
    (x.state = .unknown → ∀ line, limitEvent p line true s = regain p s) ∧
    (x.state = .fault → ∀ line a, limitEvent p line a s = s)) ∧
  (∀ (p : Nat) (s : State),
    (s.upActive p = true → s.downActive p = false →
      (s.firstLoadedOn p = none → positionCheck s p = (.stowed, ⟨.none, none, none⟩)) ∧
      (∀ l, s.firstLoadedOn p = some l → positionCheck s p = (.fault, ⟨.loaded, some l, none⟩))) ∧
    (s.upActive p = false → s.downActive p = true →
      (s.firstTallUnder p = none → positionCheck s p = (.working, ⟨.none, none, none⟩)) ∧
      (∀ t l, s.firstTallUnder p = some (t, l) → positionCheck s p = (.fault, ⟨.clearance, some l, some t⟩))) ∧
    (s.upActive p = false → s.downActive p = false → positionCheck s p = (.unknown, ⟨.none, none, none⟩)) ∧
    (s.upActive p = true → s.downActive p = true → positionCheck s p = (.fault, ⟨.doubleLimit, none, none⟩))) ∧
  (∀ (p : Nat) (f : LastFault) (s : State),
    (positionCheck s p = (.stowed, f) → regain p s = arrive p .stowed .regain s) ∧
    (positionCheck s p = (.working, f) → regain p s = arrive p .working .regain s) ∧
    (positionCheck s p = (.fault, f) → regain p s = enterFault p f s)) ∧
  (∀ (p : Nat) (s : State) (x : Panel), s.panel? p = some x →
    (∀ st m, st = .stowed ∨ st = .working → ∀ t,
      t = (s.updPanel p fun x => { x with state := st, timer := .stopped }).notify (.hoistDone p st m) →
      arrive p st m s = (examineRamp .upper (examineRamp .lower
        (if x.state.moving then endBorrow p t else t))).sweepTrigger) ∧
    (∀ was, losePosition p was s = examineRamp .upper (examineRamp .lower
      ((s.updPanel p fun x => { x with state := .unknown, timer := .stopped }).notify (.hoistPositionLost p was)))) ∧
    (∀ f t, t = (s.updPanel p fun x => { x with state := .fault, timer := .stopped, fault := f }).notify
        (.hoistFault p f.reason f.lane f.tag) →
      enterFault p f s = examineRamp .upper (examineRamp .lower (if x.state.moving then endBorrow p t else t))) ∧
    endBorrow p s = (s.lanesOn p).foldl (fun s l => remodeLane l s) (judgeLoops (s.lanesOn p) [x.carried]
      ((s.lanesOn p).foldl (fun s l => s.updLane l fun x => { x with
        entryWindow := x.entryWindow.resume, suspect := x.suspect && !x.clearing, clearing := false }) s))) ∧
  (∀ (p n : Nat) (s : State) (x : Panel), s.power = .up → s.panel? p = some x → x.state.moving = true →
    x.timer = .running n →
    ∃ t, exec (.moveTimeout p) s = .next t ∧
      t.panel? p = some { x with
        state := .fault, timer := .stopped, fault := ⟨.timeout, none, none⟩, raise := false, lower := false })

/-! ### The voyage -/

/-- VOYAGE_SET (R145) and PHASE_LOAD (R147), with their refusals in order: an accepted VOYAGE_SET sets N, sets c to 0
and puts the voyage in AT_SEA; PHASE_LOAD goes from DISCHARGE to LOAD and triggers a sweep. -/
def Obligations.VoyageSetAndLoad : Prop :=
  ∀ (lt n : Byte) (s : State), Taking s →
    (s.profile = .none →
      exec (.voyageSet lt n) s = .next (taken ⟨0x34#8, lt, [n]⟩ (plain .noProfile) id s)) ∧
    (s.profile.isCommitting = true →
      exec (.voyageSet lt n) s = .next (taken ⟨0x34#8, lt, [n]⟩ (plain .busy) id s)) ∧
    (s.profile = .active → s.voyage ≠ .noVoyage →
      exec (.voyageSet lt n) s = .next (taken ⟨0x34#8, lt, [n]⟩ (plain .phase) id s)) ∧
    (s.profile = .active → s.voyage = .noVoyage → n.toNat < 1 ∨ 4 < n.toNat →
      exec (.voyageSet lt n) s = .next (taken ⟨0x34#8, lt, [n]⟩ (plain .range) id s)) ∧
    (s.profile = .active → s.voyage = .noVoyage → 1 ≤ n.toNat → n.toNat ≤ 4 →
      exec (.voyageSet lt n) s = .next (taken ⟨0x34#8, lt, [n]⟩ (plain .ok)
        (fun s => { s with voyage := .atSea 0 n.toNat }) s)) ∧
    (∀ c m, s.voyage = .discharge c m → c ≠ m →
      exec (.phaseLoad lt) s = .next (taken ⟨0x36#8, lt, []⟩ (plain .ok)
        (fun s => { s with voyage := .load c m }.sweepTrigger) s)) ∧
    (∀ c, s.voyage = .discharge c c →
      exec (.phaseLoad lt) s = .next (taken ⟨0x36#8, lt, []⟩ (plain .lastCall) id s)) ∧
    ((∀ c m, s.voyage ≠ .discharge c m) →
      exec (.phaseLoad lt) s = .next (taken ⟨0x36#8, lt, []⟩ (plain .phase) id s))

/-- R146: CALL_OPEN in AT_SEA puts the voyage in DISCHARGE at the next call c, answered OK with c; in every other
voyage state PHASE, and nothing changes. -/
def Obligations.CallOpens : Prop :=
  ∀ (lt : Byte) (s : State), Taking s →
    (∀ c n, s.voyage = .atSea c n →
      exec (.callOpen lt) s = .next (taken ⟨0x35#8, lt, []⟩ ⟨.ok, u8 c⟩
        (fun s => { s with voyage := .discharge c n }) s)) ∧
    ((∀ c n, s.voyage ≠ .atSea c n) →
      exec (.callOpen lt) s = .next (taken ⟨0x35#8, lt, []⟩ (plain .phase) id s))

/-- CALL_CLOSE of an open call at rest (R148 to R150): the standby list is shut out, the vehicles due are
overcarried, the voyage goes to sea or ends; PHASE, IN_FLIGHT, UNLOADING, RAMPS and REMAINING in their order. The
vehicles counted as remaining are the PLACED ones of the call (log 30). Shut out: each record freed, with a SHUT_OUT
notice in list order (R149); overcarried: each call c becomes c + 1, every other record as it was (R150). An
overcarry code that is not listed is RANGE (R192). And the counts by stage, and the first UNLOADING lane (R148). -/
def Obligations.CallCloses : Prop :=
  (∀ (lt o : Byte) (s : State), Taking s → 1 < o.toNat →
    exec (.callClose lt o) s = .next (taken ⟨0x37#8, lt, [o]⟩ (plain .range) id s)) ∧
  (∀ (s : State) (c : Nat),
    s.assignedCount = (s.vehicles.filter fun v => decide (Stage.code v.stage = 1)).length ∧
    s.releasedCount = (s.vehicles.filter fun v => decide (Stage.code v.stage = 2)).length ∧
    s.dueCount c = (s.vehicles.filter fun v => decide (Stage.code v.stage = 3 ∧ v.call = c)).length ∧
    (∀ l, s.firstUnloading = some l ↔ (∃ x, s.lane? l = some x ∧ x.state = .unloading) ∧
      ∀ k y, k < l → s.lane? k = some y → y.state ≠ .unloading) ∧
    (s.firstUnloading = none ↔ ∀ x ∈ s.lanes, x.state ≠ .unloading)) ∧
  (∀ (lt : Byte) (yes : Bool) (s : State) (c n : Nat), Taking s → s.voyage = .discharge c n ∨ s.voyage = .load c n →
    (0 < s.assignedCount + s.releasedCount →
      exec (.callClose lt (if yes then 1#8 else 0#8)) s = .next (taken ⟨0x37#8, lt, [if yes then 1#8 else 0#8]⟩
        ⟨.inFlight, be 2 s.assignedCount ++ be 2 s.releasedCount⟩ id s)) ∧
    (∀ l, s.assignedCount = 0 → s.releasedCount = 0 → s.firstUnloading = some l →
      exec (.callClose lt (if yes then 1#8 else 0#8)) s = .next (taken ⟨0x37#8, lt, [if yes then 1#8 else 0#8]⟩
        ⟨.unloading, u8 l⟩ id s)) ∧
    (s.assignedCount = 0 → s.releasedCount = 0 → s.firstUnloading = none →
      s.lower.seq ≠ .stopped ∨ s.upper.seq ≠ .stopped →
      exec (.callClose lt (if yes then 1#8 else 0#8)) s = .next (taken ⟨0x37#8, lt, [if yes then 1#8 else 0#8]⟩
        ⟨.ramps, u8 ((if s.lower.seq ≠ .stopped then 1 else 0) + (if s.upper.seq ≠ .stopped then 2 else 0))⟩ id s)) ∧
    (s.assignedCount = 0 → s.releasedCount = 0 → s.firstUnloading = none → s.lower.seq = .stopped →
      s.upper.seq = .stopped →
      (0 < s.dueCount c → c = n ∨ yes = false →
        exec (.callClose lt (if yes then 1#8 else 0#8)) s = .next (taken ⟨0x37#8, lt, [if yes then 1#8 else 0#8]⟩
          ⟨.remaining, be 2 (s.dueCount c)⟩ id s)) ∧
      (s.dueCount c = 0 ∨ (c ≠ n ∧ yes = true) →
        exec (.callClose lt (if yes then 1#8 else 0#8)) s = .next (taken ⟨0x37#8, lt, [if yes then 1#8 else 0#8]⟩
          ⟨.ok, u8 s.standby.length ++ be 2 (s.dueCount c)
            ++ (if c = n then u8 0 ++ [0xFF#8] else u8 1 ++ u8 (c + 1))⟩ (closeCall c n) s)))) ∧
  (∀ (lt : Byte) (yes : Bool) (s : State), Taking s →
    (∀ c n, s.voyage ≠ .discharge c n ∧ s.voyage ≠ .load c n) →
    exec (.callClose lt (if yes then 1#8 else 0#8)) s =
      .next (taken ⟨0x37#8, lt, [if yes then 1#8 else 0#8]⟩ (plain .phase) id s)) ∧
  (∀ (c n : Nat) (s : State),
    (closeCall c n s).standby = [] ∧ (closeCall c n s).lanes = s.lanes ∧
    (closeCall c n s).listMoment = s.listMoment ∧ (closeCall c n s).lower = s.lower ∧
    (closeCall c n s).upper = s.upper ∧
    (closeCall c n s).voyage = (if c = n then .noVoyage else .atSea (c + 1) n) ∧
    (∀ v ∈ (closeCall c n s).vehicles, v.stage.isPlaced = true → v.call ≠ c) ∧
    (closeCall c n s).vehicles = (s.vehicles.filter fun v => !s.standby.contains v.tag).map (fun v =>
      if v.stage.isPlaced = true ∧ v.call = c then { v with call := c + 1 } else v) ∧
    (s.standby.Nodup → (closeCall c n s).link =
      ((s.records s.standby).foldl (fun s v => s.notify (.shutOut v.tag v.call)) s).link))

/-- DISCHARGE_LANE of a lane with vehicles due, its ramp OUTBOUND and nothing in the way (R152, R153): UNLOADING,
entry credits discarded, the exit window stopped; the refusals in their order: PHASE, RANGE, STATE, CLAIMS,
DIRECTION, STATE with the panel in the way, NOTHING_DUE. The call at the lane's tail, and the vehicles due in a row
from the tail (R152, R153). -/
def Obligations.LaneDischarge : Prop :=
  (∀ (s : State) (x : Lane) (c : Nat),
    s.tailCall? x = x.stow.getLast?.bind (fun t => (s.veh? t).map Vehicle.call) ∧
    s.dueRun x c = ((s.records x.stow).reverse.takeWhile fun v => decide (v.call = c)).length) ∧
  (∀ (lt lane : Byte) (s : State), Taking s →
    ((∀ c n, s.voyage ≠ .discharge c n ∧ s.voyage ≠ .load c n) →
      exec (.dischargeLane lt lane) s = .next (taken ⟨0x38#8, lt, [lane]⟩ (plain .phase) id s)) ∧
    (∀ c n, s.voyage = .discharge c n ∨ s.voyage = .load c n → s.lane? lane.toNat = none →
      exec (.dischargeLane lt lane) s = .next (taken ⟨0x38#8, lt, [lane]⟩ (plain .range) id s))) ∧
  (∀ (s : State) (x : Lane),
    (∀ p y, s.carrier? x.sect = some (p, y) → y.state ≠ .working → s.barringPanel x = some (p, y.state)) ∧
    (∀ k y, (∀ q z, s.carrier? x.sect = some (q, z) → z.state = .working) → x.cover = some k →
      s.panel? k.panel = some y →
      s.barringPanel x = if y.state.moving then some (k.panel, y.state) else none) ∧
    ((∀ q z, s.carrier? x.sect = some (q, z) → z.state = .working) → x.cover = none → s.barringPanel x = none)) ∧
  ∀ (lt lane : Byte) (s : State) (c n : Nat) (x : Lane), Taking s →
    s.voyage = .discharge c n ∨ s.voyage = .load c n → s.lane? lane.toNat = some x →
    (x.state = .unloading →
      exec (.dischargeLane lt lane) s = .next (taken ⟨0x38#8, lt, [lane]⟩ ⟨.state, [0xFF#8, 0xFF#8]⟩ id s)) ∧
    (x.state ≠ .unloading → x.claims ≠ [] →
      exec (.dischargeLane lt lane) s = .next (taken ⟨0x38#8, lt, [lane]⟩ ⟨.claims, u8 x.claims.length⟩ id s)) ∧
    (x.state ≠ .unloading → x.claims = [] → (s.ramp (s.rampOf x)).direction = .inbound →
      exec (.dischargeLane lt lane) s = .next (taken ⟨0x38#8, lt, [lane]⟩ (plain .direction) id s)) ∧
    (∀ p st, x.state ≠ .unloading → x.claims = [] → (s.ramp (s.rampOf x)).direction = .outbound →
      s.barringPanel x = some (p, st) →
      exec (.dischargeLane lt lane) s = .next (taken ⟨0x38#8, lt, [lane]⟩ ⟨.state, u8 p ++ u8 st.code⟩ id s)) ∧
    (x.state ≠ .unloading → x.claims = [] → (s.ramp (s.rampOf x)).direction = .outbound → s.barringPanel x = none →
      s.tailCall? x = some c →
      exec (.dischargeLane lt lane) s = .next (taken ⟨0x38#8, lt, [lane]⟩ ⟨.ok, u8 (s.dueRun x c)⟩
        (fun s => s.updLane lane.toNat fun x => { x with
          state := .unloading, entryCredits := 0, entryWindow := .stopped, exitWindow := .stopped }) s)) ∧
    (x.state ≠ .unloading → x.claims = [] → (s.ramp (s.rampOf x)).direction = .outbound → s.barringPanel x = none →
      s.tailCall? x ≠ some c →
      exec (.dischargeLane lt lane) s =
        .next (taken ⟨0x38#8, lt, [lane]⟩ ⟨.nothingDue, optU8 (s.lastCall? x)⟩ id s))

/-! ### Signals and profile -/

/-- SIGNAL_SET and CLOSURE_SET (R163, R169, R170): the mode of the lanes named, answered with their aspects; every
item not UNCHANGED set at once, and a sweep when a section is opened; NO_PROFILE, and RANGE for a code not listed, a
lane or deck beyond the counts and a mask with a section beyond the count. That a masks-carried byte above 3 is such
an item's code, and so comes after NO_PROFILE, is the model's choice (log 36). The items a body carries, the three
causes of a closure (R168), and the table of aspects, with availability and the open path (R164, R165, R47). The
bytes of both replies, aspects and closure settings, with their codes (R192); the lanes a scope names. -/
def Obligations.SignalsAndClosures : Prop :=
  ((∀ (s : State) (ls : List Nat), s.aspectsOf ls = ls.flatMap fun l =>
      u8 l ++ u8 (match s.lane? l with | some x => (s.aspectOf x).code | none => 0)) ∧
    [Aspect.dark, .red, .amber, .green, .greenFlash].map Aspect.code = [0, 1, 2, 3, 4]) ∧
  (∀ (s : State) (xs : List Nat), s.closedSet = (List.range s.sections.length).filter s.closed ∧
    bitsOfSet xs = (xs.map fun i => 2 ^ i).sum ∧
    s.closure.bytes = be 3 (bitsOfSet s.closure.maskA) ++ be 3 (bitsOfSet s.closure.maskB)
      ++ u8 (if s.closure.selectB then 1 else 0) ++ u8 (if s.closure.enable then 1 else 0)
      ++ u8 (if s.closure.glob then 1 else 0)) ∧
  (∀ (s : State) (i : Nat) (ls : List Nat) (d : Nat),
    (s.scopeLanes 0 i = some (ls, d) ↔ ∃ x, s.lane? i = some x ∧ s.deckNo x = some d ∧ ls = [i]) ∧
    (s.scopeLanes 1 i = some (ls, d) ↔ (s.deck? i).isSome = true ∧ d = i ∧
      ls = (List.range s.lanes.length).filter fun l => decide ((s.lane? l).bind s.deckNo = some i))) ∧
  (∀ (s : State) (i : Nat), s.closed i = true ↔ s.closure.glob = true ∨
    (s.closure.enable = true ∧ i ∈ (if s.closure.selectB then s.closure.maskB else s.closure.maskA)) ∨
    ∃ c, s.sect? i = some c ∧ c.mode = .sensorClosed) ∧
  (∀ (k : Closure) (it : ClosureItems),
    (k.apply it).maskA = (match it.maskA with | some m => m | none => k.maskA) ∧
    (k.apply it).maskB = (match it.maskB with | some m => m | none => k.maskB) ∧
    (k.apply it).selectB = (match it.selectB with | some b => b | none => k.selectB) ∧
    (k.apply it).enable = (match it.enable with | some b => b | none => k.enable) ∧
    (k.apply it).glob = (match it.glob with | some b => b | none => k.glob)) ∧
  (∀ n car a b sel en g : Nat,
    (closureItems n car a b sel en g = none ↔ 3 < car ∨ (car.testBit 0 = true ∧ 2 ^ n ≤ a) ∨
      (car.testBit 1 = true ∧ 2 ^ n ≤ b) ∨ 2 < sel ∨ 2 < en ∨ 2 < g) ∧
    (∀ it, closureItems n car a b sel en g = some it →
      it.maskA = (if car.testBit 0 then some ((List.range n).filter fun i => a.testBit i) else none) ∧
      it.maskB = (if car.testBit 1 then some ((List.range n).filter fun i => b.testBit i) else none) ∧
      it.selectB = (if sel = 2 then none else some (decide (sel = 1))) ∧
      it.enable = (if en = 2 then none else some (decide (en = 1))) ∧
      it.glob = (if g = 2 then none else some (decide (g = 1))))) ∧
  (∀ (lt sc i m : Byte) (s : State), Taking s →
    (s.profile.inForce = false →
      exec (.signalSet lt sc i m) s = .next (taken ⟨0x3C#8, lt, [sc, i, m]⟩ (plain .noProfile) id s)) ∧
    (Modelled s → 1 < sc.toNat ∨ 2 < m.toNat ∨ (sc = 0 ∧ s.lane? i.toNat = none) ∨ (sc = 1 ∧ s.deck? i.toNat = none) →
      exec (.signalSet lt sc i m) s = .next (taken ⟨0x3C#8, lt, [sc, i, m]⟩ (plain .range) id s))) ∧
  (∀ (lt car sel en g : Byte) (a b : BitVec 24) (s : State) (f : Frame), Taking s →
    (Instr.closureSet lt car a b sel en g).request? = some f →
    (s.profile.inForce = false →
      exec (.closureSet lt car a b sel en g) s = .next (taken f (plain .noProfile) id s)) ∧
    (Modelled s →
      closureItems s.sections.length car.toNat a.toNat b.toNat sel.toNat en.toNat g.toNat = none →
      exec (.closureSet lt car a b sel en g) s = .next (taken f (plain .range) id s))) ∧
  (∀ (s : State) (x : Lane),
    (x.signal = .dark → s.aspectOf x = .dark) ∧ (x.signal = .forceRed → s.aspectOf x = .red) ∧
    (x.signal = .auto → x.state = .unloading → s.aspectOf x = .amber) ∧
    (x.signal = .auto → x.state ≠ .unloading →
      ((∃ v ∈ s.records x.claims, v.stage.released = true ∧ v.overdue = false) → s.aspectOf x = .greenFlash) ∧
      ((∀ v ∈ s.records x.claims, v.stage.released = true → v.overdue = true) →
        s.aspectOf x = if s.available x = true ∧ s.signalPath x = true then .green else .red)) ∧
    (s.available x = true ↔ x.state = .opened ∧ x.overdue = 0 ∧ s.closed x.sect = false ∧
      (s.onHoist x = true → ∃ p y, s.carrier? x.sect = some (p, y) ∧ y.state = .working)) ∧
    (s.signalPath x = true ↔ (s.ramp (s.rampOf x)).direction = .inbound ∧
      ∀ k y, x.cover = some k → s.panel? k.panel = some y → y.state ≠ .raising ∧ y.state ≠ .lowering)) ∧
  (∀ (lt sc i m : Byte) (s : State) (ls : List Nat) (d : Nat) (mode : SignalMode), Taking s → Modelled s →
    s.scopeLanes sc.toNat i.toNat = some (ls, d) → SignalMode.ofCode m.toNat = some mode →
    exec (.signalSet lt sc i m) s = .next (taken ⟨0x3C#8, lt, [sc, i, m]⟩
      ⟨.ok, (updLanes ls (fun x => { x with signal := mode }) s).aspectsOf ls⟩
      (updLanes ls fun x => { x with signal := mode }) s)) ∧
  (∀ (lt car sel en g : Byte) (a b : BitVec 24) (s s1 : State) (it : ClosureItems) (f : Frame), Taking s →
    Modelled s → (Instr.closureSet lt car a b sel en g).request? = some f →
    closureItems s.sections.length car.toNat a.toNat b.toNat sel.toNat en.toNat g.toNat = some it →
    s1 = { s with closure := s.closure.apply it } →
    exec (.closureSet lt car a b sel en g) s = .next (taken f
      ⟨.ok, s1.closure.bytes ++ be 3 (bitsOfSet s1.closedSet)
        ++ u8 (s.closedSet.filter fun i => !s1.closedSet.contains i).length
        ++ u8 (s1.closedSet.filter fun i => !s.closedSet.contains i).length⟩
      (fun s => if (∃ i, i < s.sections.length ∧ s.closed i = true ∧
            { s with closure := s.closure.apply it }.closed i = false)
        then { s with closure := s.closure.apply it }.sweepTrigger
        else { s with closure := s.closure.apply it }) s))

/-- The draft and the reads of the profile (R175, R176, R182, R183): DRAFT_PUT, DRAFT_CLEAR, DRAFT_GET, PROFILE_LOCK,
PROFILE_GET in profile states ACTIVE and NONE, BUSY while a commit runs, RANGE for a key outside the ranges or a
length the type does not allow, NOT_FOUND for a record that is not there, and STATE for a PROFILE_LOCK in NONE. And
the figures of the draft with its sum (R177), the bytes of a record as it is sent, the codes of the record types, the
indexes and lengths each type allows, and the certified types (R174). -/
def Obligations.DraftAndProfileReads : Prop :=
  (∀ (rs : List ProfRec) (t : RecType) (i : Nat) (x : ProfRec),
    draftFigures rs = u8 rs.length
      ++ be 2 (((rs.map fun x => x.type.code + x.index + (x.fields.map BitVec.toNat).sum).sum) % 65536) ∧
    x.sent = u8 x.type.code ++ u8 x.index ++ x.fields ∧
    findRec rs t i = rs.find? fun x => decide (x.type = t ∧ x.index = i)) ∧
  ([RecType.vessel, .deck, .sect, .lane, .panel, .ramp, .dg, .sensor].map RecType.code = [1, 2, 3, 4, 5, 6, 7, 8] ∧
    (∀ (n : Nat) (t : RecType), RecType.ofCode n = some t ↔ t.code = n) ∧
    (∀ (t : RecType) (i n : Nat),
      (t.indexOk i = true ↔ match t with
        | .vessel | .sensor => i = 0
        | .deck => i ≤ 5
        | .sect => i ≤ 23
        | .lane => i ≤ 95
        | .panel => i ≤ 3
        | .ramp => i ≤ 1
        | .dg => 1 ≤ i ∧ i ≤ 6) ∧
      (t.lengthOk n = true ↔ match t with
        | .vessel => n = 6
        | .deck => n = 2
        | .sect | .panel => n = 3
        | .lane => n = 10 ∨ n = 12
        | .ramp => n = 11
        | .dg | .sensor => n = 7) ∧
      (t.certified = true ↔ t = .vessel ∨ t = .sect ∨ t = .ramp ∨ t = .dg))) ∧
  ∀ (lt ty i : Byte) (fs : List Byte) (s : State), Taking s →
    (s.profile.isCommitting = true →
      (2 ≤ fs.length → fs.length ≤ 12 →
        exec (.draftPut lt ty i fs) s = .next (taken ⟨0x40#8, lt, [ty, i] ++ fs⟩ (plain .busy) id s)) ∧
      exec (.draftClear lt) s = .next (taken ⟨0x41#8, lt, []⟩ (plain .busy) id s) ∧
      exec (.draftGet lt ty i) s = .next (taken ⟨0x42#8, lt, [ty, i]⟩ (plain .busy) id s) ∧
      exec (.profileLock lt) s = .next (taken ⟨0x44#8, lt, []⟩ (plain .busy) id s) ∧
      exec (.profileGet lt ty i) s = .next (taken ⟨0x45#8, lt, [ty, i]⟩ (plain .busy) id s)) ∧
    (∀ t, s.profile.isCommitting = false → RecType.ofCode ty.toNat = some t → t.indexOk i.toNat = true →
      t.lengthOk fs.length = true →
      ((findRec s.draft t i.toNat).isSome = true ∨ s.draft.length < 160 →
        exec (.draftPut lt ty i fs) s = .next (taken ⟨0x40#8, lt, [ty, i] ++ fs⟩
          ⟨.ok, draftFigures (putRec ⟨t, i.toNat, fs⟩ s.draft)⟩
          (fun s => { s with draft := putRec ⟨t, i.toNat, fs⟩ s.draft }) s)) ∧
      (findRec s.draft t i.toNat = none → 160 ≤ s.draft.length →
        exec (.draftPut lt ty i fs) s = .next (taken ⟨0x40#8, lt, [ty, i] ++ fs⟩ (plain .full) id s))) ∧
    (s.profile.isCommitting = false →
      exec (.draftClear lt) s = .next (taken ⟨0x41#8, lt, []⟩ ⟨.ok, [0#8, 0#8, 0#8]⟩
        (fun s => { s with draft := [] }) s)) ∧
    (∀ t x, s.profile.isCommitting = false → RecType.ofCode ty.toNat = some t → t.indexOk i.toNat = true →
      findRec s.draft t i.toNat = some x →
      exec (.draftGet lt ty i) s = .next (taken ⟨0x42#8, lt, [ty, i]⟩
        ⟨.ok, draftFigures s.draft ++ x.sent⟩ id s)) ∧
    (s.profile = .active →
      exec (.profileLock lt) s = .next (taken ⟨0x44#8, lt, []⟩ (plain .ok)
        (fun s => { s with store := { s.store with locked := true } }) s)) ∧
    (∀ t x, s.profile = .active ∧ required s.store.records t i.toNat = true ∨
        s.profile = .none ∧ s.store.locked = true ∧ t.certified = true →
      RecType.ofCode ty.toNat = some t → t.indexOk i.toNat = true →
      findRec s.store.records t i.toNat = some x →
      exec (.profileGet lt ty i) s = .next (taken ⟨0x45#8, lt, [ty, i]⟩
        ⟨.ok, be 2 s.store.generation ++ flag s.store.locked ++ x.sent⟩ id s)) ∧
    (s.profile = .none → exec (.profileLock lt) s = .next (taken ⟨0x44#8, lt, []⟩ (plain .state) id s)) ∧
    (s.profile.isCommitting = false → (∀ t, RecType.ofCode ty.toNat = some t → t.indexOk i.toNat = false) →
      exec (.draftPut lt ty i fs) s = .next (taken ⟨0x40#8, lt, [ty, i] ++ fs⟩ (plain .range) id s) ∧
      exec (.draftGet lt ty i) s = .next (taken ⟨0x42#8, lt, [ty, i]⟩ (plain .range) id s) ∧
      exec (.profileGet lt ty i) s = .next (taken ⟨0x45#8, lt, [ty, i]⟩ (plain .range) id s)) ∧
    (∀ t, s.profile.isCommitting = false → RecType.ofCode ty.toNat = some t → t.indexOk i.toNat = true →
      (t.lengthOk fs.length = false →
        exec (.draftPut lt ty i fs) s = .next (taken ⟨0x40#8, lt, [ty, i] ++ fs⟩ (plain .range) id s)) ∧
      (findRec s.draft t i.toNat = none →
        exec (.draftGet lt ty i) s = .next (taken ⟨0x42#8, lt, [ty, i]⟩ (plain .notFound) id s)) ∧
      (findRec s.store.records t i.toNat = none ∨ (s.profile = .active ∧ required s.store.records t i.toNat = false) ∨
          (s.profile = .none ∧ (s.store.locked = false ∨ t.certified = false)) →
        exec (.profileGet lt ty i) s = .next (taken ⟨0x45#8, lt, [ty, i]⟩
          ⟨.notFound, be 2 s.store.generation ++ flag s.store.locked⟩ id s)))

/-- A commit (R177 to R181): confirmed, at rest and valid, it sets mark and profile state to COMMITTING; completion
raises the generation, makes the profile ACTIVE and clears stow memory; failure leaves the module without a profile,
and with closure settings at their defaults (R179; log 18). The refusals in their order: BUSY, MISMATCH, LOCKED,
NOT_EMPTY with its condition, CHECK with key and failure; the draft is kept in type and index order, so that LOCKED
names the first such record (R175, R177). Validation (R178): the keys in type and index order, the first failure at a
key. And the notices PROFILE_DONE and PROFILE_FAILED (R180, R181). What VALUE and REFERENCE ask of a record (R174,
R178): the ranges of each type's fields; and that the deck, section and panel numbers are below their counts, which
is REFERENCE and not VALUE by the model's choice (log 37); that 0xFF for the covering panel of 12 bytes is VALUE, and
how a RAMP record's bands are ordered, are its readings (logs 20 and 32). What the other checks ask, the failure
codes, the counts; and the values a completed commit leaves in lanes, decks, sections, panels and ramps (R128, R142,
R172, R180). -/
def Obligations.CommitBeginsAndEnds : Prop :=
  (∀ (x : ProfRec) (i : Nat), x.byte i = ((x.fields[i]?).getD 0).toNat ∧ x.word i = x.byte i * 256 + x.byte (i + 1) ∧
    x.signed i = (if x.word i < 32768 then (x.word i : Int) else x.word i - 65536) ∧
    x.cover? = (if x.fields.length = 12 ∧ x.byte 10 ≠ 255 then some ⟨x.byte 10, x.byte 11⟩ else none)) ∧
  (∀ x : ProfRec, x.valuesOk = true ↔ match x.type with
    | .vessel => (1 ≤ x.byte 0 ∧ x.byte 0 ≤ 6) ∧ (1 ≤ x.byte 1 ∧ x.byte 1 ≤ 24) ∧ (1 ≤ x.byte 2 ∧ x.byte 2 ≤ 96) ∧
      x.byte 3 ≤ 4 ∧ 1 ≤ x.word 4 ∧ x.word 4 ≤ 20000
    | .deck => x.byte 0 ≤ 3 ∧ x.byte 1 ≤ 1
    | .sect => 1 ≤ x.word 1 ∧ x.word 1 ≤ 4000
    | .lane => x.byte 1 ≤ 15 ∧ (-250 ≤ x.signed 2 ∧ x.signed 2 ≤ 250) ∧ (60 ≤ x.word 4 ∧ x.word 4 ≤ 2000) ∧
      (2 ≤ x.byte 6 ∧ x.byte 6 ≤ 10) ∧ (1 ≤ x.byte 7 ∧ x.byte 7 ≤ 4) ∧ (1 ≤ x.byte 8 ∧ x.byte 8 ≤ 160) ∧
      x.byte 9 ≤ 8 ∧ (x.fields.length = 12 → x.byte 10 ≠ 255 ∧ 1 ≤ x.byte 11 ∧ x.byte 11 ≤ 3)
    | .panel => 30 ≤ x.word 1 ∧ x.word 1 ≤ 600
    | .ramp => (30 ≤ x.word 0 ∧ x.word 0 ≤ 900) ∧ (∀ i ∈ [2, 3, 4], 1 ≤ x.byte i ∧ x.byte i ≤ 12) ∧
      ∀ i ∈ [5, 7, 9], 1 ≤ x.word i ∧ x.word i ≤ 400
    | .dg => (∀ i ∈ [0, 1, 2, 3, 4, 5], x.byte i ≤ 4) ∧ x.byte 6 ≤ 1
    | .sensor => (∀ i ∈ [0, 1, 2, 3], 1 ≤ x.byte i ∧ x.byte i ≤ 15) ∧ (1 ≤ x.byte 4 ∧ x.byte 4 ≤ 4) ∧
      (1 ≤ x.byte 5 ∧ x.byte 5 ≤ 4) ∧ 5 ≤ x.byte 6 ∧ x.byte 6 ≤ 60) ∧
  (∀ (rs : List ProfRec) (x : ProfRec), x.refsOk rs = true ↔ match x.type with
    | .sect => x.byte 0 < deckCount rs
    | .lane => x.byte 0 < sectCount rs ∧ ∀ c, x.cover? = some c → c.panel < panelCount rs
    | .panel => x.byte 0 < sectCount rs
    | .vessel | .deck | .ramp | .dg | .sensor => True) ∧
  (∀ (rs : List ProfRec) (x : ProfRec) (i : Nat),
    sectDeckKind rs i = ((findRec rs .sect i).bind fun c => (findRec rs .deck (c.byte 0)).map fun d => d.byte 0) ∧
    (athwartTaken rs x = true ↔ ∃ j y, j < x.index ∧ findRec rs .lane j = some y ∧ y.byte 1 = x.byte 1 ∧
      (findRec rs .sect (y.byte 0)).map (fun c => c.byte 0) = (findRec rs .sect (x.byte 0)).map fun c => c.byte 0) ∧
    (someCarries rs i = true ↔ ∃ y ∈ rs, y.type = .panel ∧ y.byte 0 = i) ∧
    (carriedBelow rs x = true ↔ ∃ j y, j < x.index ∧ findRec rs .panel j = some y ∧ y.byte 0 = x.byte 0) ∧
    (asymmetric rs x = true ↔ ∃ h y, h < x.index ∧ findRec rs .dg h = some y ∧
      y.byte (x.index - 1) ≠ x.byte (h - 1))) ∧
  ([CheckFailure.missing, .extra, .value, .reference, .athwart, .coverDeck, .reducedClass, .panelAbsent, .panelDeck,
      .panelShared, .symmetry].map CheckFailure.code = [1, 2, 3, 4, 5, 6, 7, 8, 9, 10, 11] ∧
    ∀ rs : List ProfRec, [deckCount rs, sectCount rs, laneCount rs, panelCount rs] =
      [0, 1, 2, 3].map fun i => ((findRec rs .vessel 0).map fun x => x.byte i).getD 0) ∧
  (∀ s t : State, s.power = .up → s.profile.isCommitting = true → exec .profileWriteComplete s = .next t →
    (∀ l x, t.lane? l = some x → x.occupied = t.reads x ((t.pins.loops[l]?).getD false) ∧ x.score = 0 ∧
      x.suspect = false ∧ x.clearing = false ∧ x.mode = .sensed ∧ x.watch = false ∧ x.signal = .auto ∧
      x.entryCredits = 0 ∧ x.exitCredits = 0 ∧ x.aspect = t.aspectOf x) ∧
    (∀ d ∈ t.decks, d.threshold = 230 ∧ d.level = 1 ∧ d.noticeOn = false ∧ d.latch = false) ∧
    (∀ i c, t.sect? i = some c → c.mode = .sensed ∧ t.closed i = false) ∧ t.listThreshold = 217 ∧
    (∀ p y, t.panel? p = some y → (y.state, y.fault) = positionCheck t p ∧ y.timer = .stopped) ∧
    (∀ r, (t.ramp r).crestCredits = 0 ∧ (t.ramp r).crestWindow = .stopped) ∧
    t.lower.crestOccupied = t.pins.crestLower ∧ t.upper.crestOccupied = t.pins.crestUpper ∧
    t.closure = ⟨[], [], false, false, false⟩) ∧
  (∀ (lt n : Byte) (sum : BitVec 16) (s : State) (f : Frame), Taking s → f = ⟨0x43#8, lt, [n] ++ be 2 sum.toNat⟩ →
    (s.profile.isCommitting = true → exec (.profileCommit lt n sum) s = .next (taken f (plain .busy) id s)) ∧
    (s.profile.isCommitting = false →
      (n.toNat ≠ s.draft.length ∨ sum.toNat ≠ draftSum s.draft →
        exec (.profileCommit lt n sum) s = .next (taken f ⟨.mismatch, draftFigures s.draft⟩ id s)) ∧
      (n.toNat = s.draft.length → sum.toNat = draftSum s.draft →
        (∀ x rest, s.store.locked = true → certifiedOnly s.draft = x :: rest →
          exec (.profileCommit lt n sum) s = .next (taken f ⟨.locked, u8 x.type.code ++ u8 x.index⟩ id s)) ∧
        ((s.store.locked = true → certifiedOnly s.draft = []) →
          (∀ c, s.notAtRest = some c →
            exec (.profileCommit lt n sum) s = .next (taken f ⟨.notEmpty, u8 c⟩ id s)) ∧
          (s.notAtRest = none →
            (∀ t i e, validate (candidate s.store s.draft) = some (t, i, e) →
              exec (.profileCommit lt n sum) s = .next (taken f ⟨.check, u8 t.code ++ u8 i ++ u8 e.code⟩ id s)) ∧
            (validate (candidate s.store s.draft) = none →
              exec (.profileCommit lt n sum) s = .next (taken f (plain .accepted)
                (fun s => { s with
                  store := { s.store with mark := .committing }
                  profile := .committing s.profile.inForce }) s))))))) ∧
  (∀ s : State, s.notAtRest = if s.vehicles ≠ [] then some 1 else if s.voyage ≠ .noVoyage then some 2
    else if s.lower.seq ≠ .stopped ∨ s.upper.seq ≠ .stopped then some 3
    else if ∃ y ∈ s.panels, y.state = .raising ∨ y.state = .lowering then some 4 else none) ∧
  (∀ (rs : List ProfRec) (x : ProfRec), rs.Pairwise (fun a b => a.before b = true) →
    (putRec x rs).Pairwise (fun a b => a.before b = true) ∧
    ∀ y, y ∈ putRec x rs ↔ y = x ∨ (y ∈ rs ∧ y.sameKey x = false)) ∧
  (∀ (st : Store) (draft : List ProfRec), (st.locked = false → candidate st draft = draft) ∧
    (st.locked = true → candidate st draft =
      draft.foldl (fun acc x => putRec x acc) (st.records.filter fun x => x.type.certified))) ∧
  (∀ rs : List ProfRec,
    validate rs = allKeys.findSome? (fun q => (keyFailure rs q.1 q.2).map fun e => (q.1, q.2, e)) ∧
    (∀ t i, (t, i) ∈ allKeys ↔ t.indexOk i = true) ∧
    allKeys.Pairwise (fun a b => a.1.code < b.1.code ∨ (a.1.code = b.1.code ∧ a.2 < b.2)) ∧
    (∀ t i, required rs t i = true ↔ t.indexOk i = true ∧ match t with
      | .deck => i < deckCount rs
      | .sect => i < sectCount rs
      | .lane => i < laneCount rs
      | .panel => i < panelCount rs
      | .vessel | .ramp | .dg | .sensor => True) ∧
    (∀ t i, findRec rs t i = none → keyFailure rs t i = if required rs t i then some .missing else none) ∧
    (∀ t i x, findRec rs t i = some x → required rs t i = false → keyFailure rs t i = some .extra) ∧
    (∀ t i x, findRec rs t i = some x → required rs t i = true →
      keyFailure rs t i = ([ (.value, !x.valuesOk), (.reference, !x.refsOk rs)
        , (.athwart, decide (t = .lane ∧ athwartTaken rs x = true))
        , (.coverDeck, decide (t = .lane ∧ x.cover? ≠ none ∧ sectDeckKind rs (x.byte 0) ≠ some 0))
        , (.reducedClass, decide (t = .lane ∧ (x.cover?).any (fun c => x.byte 7 < c.reduced) = true))
        , (.panelAbsent, decide (t = .sect ∧ sectDeckKind rs i = some 1 ∧ someCarries rs i = false))
        , (.panelDeck, decide (t = .panel ∧ sectDeckKind rs (x.byte 0) ≠ some 1))
        , (.panelShared, decide (t = .panel ∧ carriedBelow rs x = true))
        , (.symmetry, decide (t = .dg ∧ asymmetric rs x = true)) ].find? fun q => q.2).map Prod.fst)) ∧
  (∀ s : State, s.power = .up → s.profile.isCommitting = true →
    exec .profileWriteComplete s = .next (happened commitCompletes s) ∧
    (commitCompletes s).link = (s.notify (.profileDone
      (if s.store.generation = 65535 then 1 else s.store.generation + 1) s.draft.length)).link ∧
    ∀ ty i, exec (.profileWriteFailure ty i) s = .next (happened (commitFails ty i) s) ∧
      (commitFails ty i s).link = (s.notify (.profileFailed ty i)).link) ∧
  (∀ s : State, s.power = .up → s.profile.isCommitting = true →
    (∃ t, exec .profileWriteComplete s = .next t ∧ t.profile = .active ∧ t.store.mark = .active ∧
      t.store.generation = (if s.store.generation = 65535 then 1 else s.store.generation + 1) ∧
      t.store.records = candidate s.store s.draft ∧ t.draft = s.draft ∧ t.vehicles = [] ∧ t.standby = [] ∧
      t.voyage = .noVoyage ∧ t.stowIntact = true ∧ t.stowGen = t.store.generation ∧
      t.lower.seq = .stopped ∧ t.upper.seq = .stopped ∧ t.lower.direction = .inbound ∧
      t.upper.direction = .inbound ∧ t.lower.band = s.lower.band ∧ t.lower.waiting = s.lower.waiting) ∧
    (∀ ty i, ∃ t, exec (.profileWriteFailure ty i) s = .next t ∧ t.profile = .none ∧ t.store.mark = .none ∧
      t.store.generation = s.store.generation ∧ t.store.locked = s.store.locked ∧ t.draft = s.draft ∧
      t.lanes = [] ∧ t.sections = [] ∧ t.decks = [] ∧ t.panels = [] ∧ t.vehicles = [] ∧ t.voyage = .noVoyage ∧
      t.closure = Closure.cleared ∧
      t.lower.seq = .stopped ∧ t.upper.seq = .stopped ∧ t.lower.band = s.lower.band ∧
      t.upper.waiting = s.upper.waiting))

/-! ### Frame -/

/-- What the reads and the settings leave unchanged: STATUS, LINK_SILENCE, VEHICLE_GET, LANE_GET, SECTION_GET,
LANE_SHUT, RAMP_STOP, RAMP_DIRECTION, RUN_PAIR, SENSOR_WATCH, SENSOR_LATCHES, VOYAGE_SET, CALL_OPEN, SIGNAL_SET, the
draft requests, PROFILE_COMMIT, PROFILE_LOCK and PROFILE_GET. That an accepted PROFILE_COMMIT leaves the store's records
until the writing ends is the model's choice (log 17). Vehicles, lists, sums, arms, closures, stow memory's mark,
scores and loops of every lane, panels' states and faults, and the lines. -/
def Obligations.SettingsFrame : Prop :=
  ∀ (i : Instr) (s t : State), i.isSetting = true → Taking s → exec i s = .next t →
    t.vehicles = s.vehicles ∧ t.standby = s.standby ∧ t.sections = s.sections ∧
    t.listMoment = s.listMoment ∧ t.listArm = s.listArm ∧ t.listOver = s.listOver ∧
    t.listThreshold = s.listThreshold ∧ t.closure = s.closure ∧ t.pins = s.pins ∧ t.limits = s.limits ∧
    t.stowIntact = s.stowIntact ∧ t.stowGen = s.stowGen ∧ t.stowKept = s.stowKept ∧ t.power = s.power ∧
    t.lanes.map Lane.load = s.lanes.map Lane.load ∧
    t.lanes.map Lane.score = s.lanes.map Lane.score ∧ t.lanes.map Lane.occupied = s.lanes.map Lane.occupied ∧
    t.lanes.map Lane.entryCredits = s.lanes.map Lane.entryCredits ∧
    t.panels.map Panel.state = s.panels.map Panel.state ∧ t.panels.map Panel.fault = s.panels.map Panel.fault ∧
    (∀ r, (t.ramp r).load = (s.ramp r).load ∧ (t.ramp r).active = (s.ramp r).active ∧
      (t.ramp r).band = (s.ramp r).band ∧ (t.ramp r).crestCredits = (s.ramp r).crestCredits) ∧
    t.store.records = s.store.records ∧ t.store.generation = s.store.generation
end

