-- ==== Sys2Proof/Laws/State.lean ====
section
/-! SUPPORT. One lemma for each named update of the state: every field after it, for the simplifier. -/

namespace Sys2Proof.Machine

@[simp] theorem updLane_fields (s : State) (l : Nat) (f : Lane → Lane) :
    (s.updLane l f).power = s.power ∧
    (s.updLane l f).pins = s.pins ∧
    (s.updLane l f).link = s.link ∧
    (s.updLane l f).causes = s.causes ∧
    (s.updLane l f).stowIntact = s.stowIntact ∧
    (s.updLane l f).stowGen = s.stowGen ∧
    (s.updLane l f).stowKept = s.stowKept ∧
    (s.updLane l f).vehicles = s.vehicles ∧
    (s.updLane l f).standby = s.standby ∧
    (s.updLane l f).voyage = s.voyage ∧
    (s.updLane l f).store = s.store ∧
    (s.updLane l f).profile = s.profile ∧
    (s.updLane l f).draft = s.draft ∧
    (s.updLane l f).limits = s.limits ∧
    (s.updLane l f).decks = s.decks ∧
    (s.updLane l f).sections = s.sections ∧
    (s.updLane l f).lanes = s.lanes.modify l f ∧
    (s.updLane l f).panels = s.panels ∧
    (s.updLane l f).listMoment = s.listMoment ∧
    (s.updLane l f).listThreshold = s.listThreshold ∧
    (s.updLane l f).listArm = s.listArm ∧
    (s.updLane l f).listOver = s.listOver ∧
    (s.updLane l f).lower = s.lower ∧
    (s.updLane l f).upper = s.upper ∧
    (s.updLane l f).closure = s.closure ∧
    (s.updLane l f).ev = s.ev ∧
    (s.updLane l f).freeCtr = s.freeCtr ∧
    (s.updLane l f).pending = s.pending := by
  refine ⟨rfl, rfl, rfl, rfl, rfl, rfl, rfl, rfl, rfl, rfl, rfl, rfl, rfl, rfl, rfl, rfl, rfl, rfl, rfl, rfl, rfl, rfl, rfl, rfl, rfl, rfl, rfl, rfl⟩

@[simp] theorem updSect_fields (s : State) (i : Nat) (f : Sect → Sect) :
    (s.updSect i f).power = s.power ∧
    (s.updSect i f).pins = s.pins ∧
    (s.updSect i f).link = s.link ∧
    (s.updSect i f).causes = s.causes ∧
    (s.updSect i f).stowIntact = s.stowIntact ∧
    (s.updSect i f).stowGen = s.stowGen ∧
    (s.updSect i f).stowKept = s.stowKept ∧
    (s.updSect i f).vehicles = s.vehicles ∧
    (s.updSect i f).standby = s.standby ∧
    (s.updSect i f).voyage = s.voyage ∧
    (s.updSect i f).store = s.store ∧
    (s.updSect i f).profile = s.profile ∧
    (s.updSect i f).draft = s.draft ∧
    (s.updSect i f).limits = s.limits ∧
    (s.updSect i f).decks = s.decks ∧
    (s.updSect i f).sections = s.sections.modify i f ∧
    (s.updSect i f).lanes = s.lanes ∧
    (s.updSect i f).panels = s.panels ∧
    (s.updSect i f).listMoment = s.listMoment ∧
    (s.updSect i f).listThreshold = s.listThreshold ∧
    (s.updSect i f).listArm = s.listArm ∧
    (s.updSect i f).listOver = s.listOver ∧
    (s.updSect i f).lower = s.lower ∧
    (s.updSect i f).upper = s.upper ∧
    (s.updSect i f).closure = s.closure ∧
    (s.updSect i f).ev = s.ev ∧
    (s.updSect i f).freeCtr = s.freeCtr ∧
    (s.updSect i f).pending = s.pending := by
  refine ⟨rfl, rfl, rfl, rfl, rfl, rfl, rfl, rfl, rfl, rfl, rfl, rfl, rfl, rfl, rfl, rfl, rfl, rfl, rfl, rfl, rfl, rfl, rfl, rfl, rfl, rfl, rfl, rfl⟩

@[simp] theorem updDeck_fields (s : State) (d : Nat) (f : Deck → Deck) :
    (s.updDeck d f).power = s.power ∧
    (s.updDeck d f).pins = s.pins ∧
    (s.updDeck d f).link = s.link ∧
    (s.updDeck d f).causes = s.causes ∧
    (s.updDeck d f).stowIntact = s.stowIntact ∧
    (s.updDeck d f).stowGen = s.stowGen ∧
    (s.updDeck d f).stowKept = s.stowKept ∧
    (s.updDeck d f).vehicles = s.vehicles ∧
    (s.updDeck d f).standby = s.standby ∧
    (s.updDeck d f).voyage = s.voyage ∧
    (s.updDeck d f).store = s.store ∧
    (s.updDeck d f).profile = s.profile ∧
    (s.updDeck d f).draft = s.draft ∧
    (s.updDeck d f).limits = s.limits ∧
    (s.updDeck d f).decks = s.decks.modify d f ∧
    (s.updDeck d f).sections = s.sections ∧
    (s.updDeck d f).lanes = s.lanes ∧
    (s.updDeck d f).panels = s.panels ∧
    (s.updDeck d f).listMoment = s.listMoment ∧
    (s.updDeck d f).listThreshold = s.listThreshold ∧
    (s.updDeck d f).listArm = s.listArm ∧
    (s.updDeck d f).listOver = s.listOver ∧
    (s.updDeck d f).lower = s.lower ∧
    (s.updDeck d f).upper = s.upper ∧
    (s.updDeck d f).closure = s.closure ∧
    (s.updDeck d f).ev = s.ev ∧
    (s.updDeck d f).freeCtr = s.freeCtr ∧
    (s.updDeck d f).pending = s.pending := by
  refine ⟨rfl, rfl, rfl, rfl, rfl, rfl, rfl, rfl, rfl, rfl, rfl, rfl, rfl, rfl, rfl, rfl, rfl, rfl, rfl, rfl, rfl, rfl, rfl, rfl, rfl, rfl, rfl, rfl⟩

@[simp] theorem updPanel_fields (s : State) (p : Nat) (f : Panel → Panel) :
    (s.updPanel p f).power = s.power ∧
    (s.updPanel p f).pins = s.pins ∧
    (s.updPanel p f).link = s.link ∧
    (s.updPanel p f).causes = s.causes ∧
    (s.updPanel p f).stowIntact = s.stowIntact ∧
    (s.updPanel p f).stowGen = s.stowGen ∧
    (s.updPanel p f).stowKept = s.stowKept ∧
    (s.updPanel p f).vehicles = s.vehicles ∧
    (s.updPanel p f).standby = s.standby ∧
    (s.updPanel p f).voyage = s.voyage ∧
    (s.updPanel p f).store = s.store ∧
    (s.updPanel p f).profile = s.profile ∧
    (s.updPanel p f).draft = s.draft ∧
    (s.updPanel p f).limits = s.limits ∧
    (s.updPanel p f).decks = s.decks ∧
    (s.updPanel p f).sections = s.sections ∧
    (s.updPanel p f).lanes = s.lanes ∧
    (s.updPanel p f).panels = s.panels.modify p f ∧
    (s.updPanel p f).listMoment = s.listMoment ∧
    (s.updPanel p f).listThreshold = s.listThreshold ∧
    (s.updPanel p f).listArm = s.listArm ∧
    (s.updPanel p f).listOver = s.listOver ∧
    (s.updPanel p f).lower = s.lower ∧
    (s.updPanel p f).upper = s.upper ∧
    (s.updPanel p f).closure = s.closure ∧
    (s.updPanel p f).ev = s.ev ∧
    (s.updPanel p f).freeCtr = s.freeCtr ∧
    (s.updPanel p f).pending = s.pending := by
  refine ⟨rfl, rfl, rfl, rfl, rfl, rfl, rfl, rfl, rfl, rfl, rfl, rfl, rfl, rfl, rfl, rfl, rfl, rfl, rfl, rfl, rfl, rfl, rfl, rfl, rfl, rfl, rfl, rfl⟩

@[simp] theorem updVeh_fields (s : State) (tag : Nat) (f : Vehicle → Vehicle) :
    (s.updVeh tag f).power = s.power ∧
    (s.updVeh tag f).pins = s.pins ∧
    (s.updVeh tag f).link = s.link ∧
    (s.updVeh tag f).causes = s.causes ∧
    (s.updVeh tag f).stowIntact = s.stowIntact ∧
    (s.updVeh tag f).stowGen = s.stowGen ∧
    (s.updVeh tag f).stowKept = s.stowKept ∧
    (s.updVeh tag f).vehicles = s.vehicles.map (fun v => if v.tag = tag then f v else v) ∧
    (s.updVeh tag f).standby = s.standby ∧
    (s.updVeh tag f).voyage = s.voyage ∧
    (s.updVeh tag f).store = s.store ∧
    (s.updVeh tag f).profile = s.profile ∧
    (s.updVeh tag f).draft = s.draft ∧
    (s.updVeh tag f).limits = s.limits ∧
    (s.updVeh tag f).decks = s.decks ∧
    (s.updVeh tag f).sections = s.sections ∧
    (s.updVeh tag f).lanes = s.lanes ∧
    (s.updVeh tag f).panels = s.panels ∧
    (s.updVeh tag f).listMoment = s.listMoment ∧
    (s.updVeh tag f).listThreshold = s.listThreshold ∧
    (s.updVeh tag f).listArm = s.listArm ∧
    (s.updVeh tag f).listOver = s.listOver ∧
    (s.updVeh tag f).lower = s.lower ∧
    (s.updVeh tag f).upper = s.upper ∧
    (s.updVeh tag f).closure = s.closure ∧
    (s.updVeh tag f).ev = s.ev ∧
    (s.updVeh tag f).freeCtr = s.freeCtr ∧
    (s.updVeh tag f).pending = s.pending := by
  refine ⟨rfl, rfl, rfl, rfl, rfl, rfl, rfl, rfl, rfl, rfl, rfl, rfl, rfl, rfl, rfl, rfl, rfl, rfl, rfl, rfl, rfl, rfl, rfl, rfl, rfl, rfl, rfl, rfl⟩

@[simp] theorem freeVeh_fields (s : State) (tag : Nat) :
    (s.freeVeh tag).power = s.power ∧
    (s.freeVeh tag).pins = s.pins ∧
    (s.freeVeh tag).link = s.link ∧
    (s.freeVeh tag).causes = s.causes ∧
    (s.freeVeh tag).stowIntact = s.stowIntact ∧
    (s.freeVeh tag).stowGen = s.stowGen ∧
    (s.freeVeh tag).stowKept = s.stowKept ∧
    (s.freeVeh tag).vehicles = s.vehicles.filter (fun v => v.tag != tag) ∧
    (s.freeVeh tag).standby = s.standby ∧
    (s.freeVeh tag).voyage = s.voyage ∧
    (s.freeVeh tag).store = s.store ∧
    (s.freeVeh tag).profile = s.profile ∧
    (s.freeVeh tag).draft = s.draft ∧
    (s.freeVeh tag).limits = s.limits ∧
    (s.freeVeh tag).decks = s.decks ∧
    (s.freeVeh tag).sections = s.sections ∧
    (s.freeVeh tag).lanes = s.lanes ∧
    (s.freeVeh tag).panels = s.panels ∧
    (s.freeVeh tag).listMoment = s.listMoment ∧
    (s.freeVeh tag).listThreshold = s.listThreshold ∧
    (s.freeVeh tag).listArm = s.listArm ∧
    (s.freeVeh tag).listOver = s.listOver ∧
    (s.freeVeh tag).lower = s.lower ∧
    (s.freeVeh tag).upper = s.upper ∧
    (s.freeVeh tag).closure = s.closure ∧
    (s.freeVeh tag).ev = s.ev ∧
    (s.freeVeh tag).freeCtr = s.freeCtr ∧
    (s.freeVeh tag).pending = s.pending := by
  refine ⟨rfl, rfl, rfl, rfl, rfl, rfl, rfl, rfl, rfl, rfl, rfl, rfl, rfl, rfl, rfl, rfl, rfl, rfl, rfl, rfl, rfl, rfl, rfl, rfl, rfl, rfl, rfl, rfl⟩

@[simp] theorem setStage_fields (s : State) (tag : Nat) (st : Stage) :
    (s.setStage tag st).power = s.power ∧
    (s.setStage tag st).pins = s.pins ∧
    (s.setStage tag st).link = s.link ∧
    (s.setStage tag st).causes = s.causes ∧
    (s.setStage tag st).stowIntact = s.stowIntact ∧
    (s.setStage tag st).stowGen = s.stowGen ∧
    (s.setStage tag st).stowKept = s.stowKept ∧
    (s.setStage tag st).vehicles = s.vehicles.map (fun v => if v.tag = tag then { v with stage := st } else v) ∧
    (s.setStage tag st).standby = s.standby ∧
    (s.setStage tag st).voyage = s.voyage ∧
    (s.setStage tag st).store = s.store ∧
    (s.setStage tag st).profile = s.profile ∧
    (s.setStage tag st).draft = s.draft ∧
    (s.setStage tag st).limits = s.limits ∧
    (s.setStage tag st).decks = s.decks ∧
    (s.setStage tag st).sections = s.sections ∧
    (s.setStage tag st).lanes = s.lanes ∧
    (s.setStage tag st).panels = s.panels ∧
    (s.setStage tag st).listMoment = s.listMoment ∧
    (s.setStage tag st).listThreshold = s.listThreshold ∧
    (s.setStage tag st).listArm = s.listArm ∧
    (s.setStage tag st).listOver = s.listOver ∧
    (s.setStage tag st).lower = s.lower ∧
    (s.setStage tag st).upper = s.upper ∧
    (s.setStage tag st).closure = s.closure ∧
    (s.setStage tag st).ev = s.ev ∧
    (s.setStage tag st).freeCtr = s.freeCtr ∧
    (s.setStage tag st).pending = s.pending := by
  refine ⟨rfl, rfl, rfl, rfl, rfl, rfl, rfl, rfl, rfl, rfl, rfl, rfl, rfl, rfl, rfl, rfl, rfl, rfl, rfl, rfl, rfl, rfl, rfl, rfl, rfl, rfl, rfl, rfl⟩

@[simp] theorem updLink_fields (s : State) (f : Link → Link) :
    (s.updLink f).power = s.power ∧
    (s.updLink f).pins = s.pins ∧
    (s.updLink f).link = f s.link ∧
    (s.updLink f).causes = s.causes ∧
    (s.updLink f).stowIntact = s.stowIntact ∧
    (s.updLink f).stowGen = s.stowGen ∧
    (s.updLink f).stowKept = s.stowKept ∧
    (s.updLink f).vehicles = s.vehicles ∧
    (s.updLink f).standby = s.standby ∧
    (s.updLink f).voyage = s.voyage ∧
    (s.updLink f).store = s.store ∧
    (s.updLink f).profile = s.profile ∧
    (s.updLink f).draft = s.draft ∧
    (s.updLink f).limits = s.limits ∧
    (s.updLink f).decks = s.decks ∧
    (s.updLink f).sections = s.sections ∧
    (s.updLink f).lanes = s.lanes ∧
    (s.updLink f).panels = s.panels ∧
    (s.updLink f).listMoment = s.listMoment ∧
    (s.updLink f).listThreshold = s.listThreshold ∧
    (s.updLink f).listArm = s.listArm ∧
    (s.updLink f).listOver = s.listOver ∧
    (s.updLink f).lower = s.lower ∧
    (s.updLink f).upper = s.upper ∧
    (s.updLink f).closure = s.closure ∧
    (s.updLink f).ev = s.ev ∧
    (s.updLink f).freeCtr = s.freeCtr ∧
    (s.updLink f).pending = s.pending := by
  refine ⟨rfl, rfl, rfl, rfl, rfl, rfl, rfl, rfl, rfl, rfl, rfl, rfl, rfl, rfl, rfl, rfl, rfl, rfl, rfl, rfl, rfl, rfl, rfl, rfl, rfl, rfl, rfl, rfl⟩

@[simp] theorem sweepTrigger_fields (s : State) :
    (s.sweepTrigger).power = s.power ∧
    (s.sweepTrigger).pins = s.pins ∧
    (s.sweepTrigger).link = s.link ∧
    (s.sweepTrigger).causes = s.causes ∧
    (s.sweepTrigger).stowIntact = s.stowIntact ∧
    (s.sweepTrigger).stowGen = s.stowGen ∧
    (s.sweepTrigger).stowKept = s.stowKept ∧
    (s.sweepTrigger).vehicles = s.vehicles ∧
    (s.sweepTrigger).standby = s.standby ∧
    (s.sweepTrigger).voyage = s.voyage ∧
    (s.sweepTrigger).store = s.store ∧
    (s.sweepTrigger).profile = s.profile ∧
    (s.sweepTrigger).draft = s.draft ∧
    (s.sweepTrigger).limits = s.limits ∧
    (s.sweepTrigger).decks = s.decks ∧
    (s.sweepTrigger).sections = s.sections ∧
    (s.sweepTrigger).lanes = s.lanes ∧
    (s.sweepTrigger).panels = s.panels ∧
    (s.sweepTrigger).listMoment = s.listMoment ∧
    (s.sweepTrigger).listThreshold = s.listThreshold ∧
    (s.sweepTrigger).listArm = s.listArm ∧
    (s.sweepTrigger).listOver = s.listOver ∧
    (s.sweepTrigger).lower = s.lower ∧
    (s.sweepTrigger).upper = s.upper ∧
    (s.sweepTrigger).closure = s.closure ∧
    (s.sweepTrigger).ev = { s.ev with sweepDue := true } ∧
    (s.sweepTrigger).freeCtr = s.freeCtr ∧
    (s.sweepTrigger).pending = s.pending := by
  refine ⟨rfl, rfl, rfl, rfl, rfl, rfl, rfl, rfl, rfl, rfl, rfl, rfl, rfl, rfl, rfl, rfl, rfl, rfl, rfl, rfl, rfl, rfl, rfl, rfl, rfl, rfl, rfl, rfl⟩

@[simp] theorem notify_fields (s : State) (n : Notice) :
    (s.notify n).power = s.power ∧
    (s.notify n).pins = s.pins ∧
    (s.notify n).link = (if s.link.notices.length < Config.noticeCapacity then
      { s.link with notices := s.link.notices ++ [n] } else { s.link with noticesLost := true }) ∧
    (s.notify n).causes = s.causes ∧
    (s.notify n).stowIntact = s.stowIntact ∧
    (s.notify n).stowGen = s.stowGen ∧
    (s.notify n).stowKept = s.stowKept ∧
    (s.notify n).vehicles = s.vehicles ∧
    (s.notify n).standby = s.standby ∧
    (s.notify n).voyage = s.voyage ∧
    (s.notify n).store = s.store ∧
    (s.notify n).profile = s.profile ∧
    (s.notify n).draft = s.draft ∧
    (s.notify n).limits = s.limits ∧
    (s.notify n).decks = s.decks ∧
    (s.notify n).sections = s.sections ∧
    (s.notify n).lanes = s.lanes ∧
    (s.notify n).panels = s.panels ∧
    (s.notify n).listMoment = s.listMoment ∧
    (s.notify n).listThreshold = s.listThreshold ∧
    (s.notify n).listArm = s.listArm ∧
    (s.notify n).listOver = s.listOver ∧
    (s.notify n).lower = s.lower ∧
    (s.notify n).upper = s.upper ∧
    (s.notify n).closure = s.closure ∧
    (s.notify n).ev = s.ev ∧
    (s.notify n).freeCtr = s.freeCtr ∧
    (s.notify n).pending = s.pending := by
  refine ⟨rfl, rfl, rfl, rfl, rfl, rfl, rfl, rfl, rfl, rfl, rfl, rfl, rfl, rfl, rfl, rfl, rfl, rfl, rfl, rfl, rfl, rfl, rfl, rfl, rfl, rfl, rfl, rfl⟩

@[simp] theorem updLower_fields (s : State) (f : RampState → RampState) :
    (s.updRamp .lower f).power = s.power ∧
    (s.updRamp .lower f).pins = s.pins ∧
    (s.updRamp .lower f).link = s.link ∧
    (s.updRamp .lower f).causes = s.causes ∧
    (s.updRamp .lower f).stowIntact = s.stowIntact ∧
    (s.updRamp .lower f).stowGen = s.stowGen ∧
    (s.updRamp .lower f).stowKept = s.stowKept ∧
    (s.updRamp .lower f).vehicles = s.vehicles ∧
    (s.updRamp .lower f).standby = s.standby ∧
    (s.updRamp .lower f).voyage = s.voyage ∧
    (s.updRamp .lower f).store = s.store ∧
    (s.updRamp .lower f).profile = s.profile ∧
    (s.updRamp .lower f).draft = s.draft ∧
    (s.updRamp .lower f).limits = s.limits ∧
    (s.updRamp .lower f).decks = s.decks ∧
    (s.updRamp .lower f).sections = s.sections ∧
    (s.updRamp .lower f).lanes = s.lanes ∧
    (s.updRamp .lower f).panels = s.panels ∧
    (s.updRamp .lower f).listMoment = s.listMoment ∧
    (s.updRamp .lower f).listThreshold = s.listThreshold ∧
    (s.updRamp .lower f).listArm = s.listArm ∧
    (s.updRamp .lower f).listOver = s.listOver ∧
    (s.updRamp .lower f).lower = f s.lower ∧
    (s.updRamp .lower f).upper = s.upper ∧
    (s.updRamp .lower f).closure = s.closure ∧
    (s.updRamp .lower f).ev = s.ev ∧
    (s.updRamp .lower f).freeCtr = s.freeCtr ∧
    (s.updRamp .lower f).pending = s.pending := by
  refine ⟨rfl, rfl, rfl, rfl, rfl, rfl, rfl, rfl, rfl, rfl, rfl, rfl, rfl, rfl, rfl, rfl, rfl, rfl, rfl, rfl, rfl, rfl, rfl, rfl, rfl, rfl, rfl, rfl⟩

@[simp] theorem updUpper_fields (s : State) (f : RampState → RampState) :
    (s.updRamp .upper f).power = s.power ∧
    (s.updRamp .upper f).pins = s.pins ∧
    (s.updRamp .upper f).link = s.link ∧
    (s.updRamp .upper f).causes = s.causes ∧
    (s.updRamp .upper f).stowIntact = s.stowIntact ∧
    (s.updRamp .upper f).stowGen = s.stowGen ∧
    (s.updRamp .upper f).stowKept = s.stowKept ∧
    (s.updRamp .upper f).vehicles = s.vehicles ∧
    (s.updRamp .upper f).standby = s.standby ∧
    (s.updRamp .upper f).voyage = s.voyage ∧
    (s.updRamp .upper f).store = s.store ∧
    (s.updRamp .upper f).profile = s.profile ∧
    (s.updRamp .upper f).draft = s.draft ∧
    (s.updRamp .upper f).limits = s.limits ∧
    (s.updRamp .upper f).decks = s.decks ∧
    (s.updRamp .upper f).sections = s.sections ∧
    (s.updRamp .upper f).lanes = s.lanes ∧
    (s.updRamp .upper f).panels = s.panels ∧
    (s.updRamp .upper f).listMoment = s.listMoment ∧
    (s.updRamp .upper f).listThreshold = s.listThreshold ∧
    (s.updRamp .upper f).listArm = s.listArm ∧
    (s.updRamp .upper f).listOver = s.listOver ∧
    (s.updRamp .upper f).lower = s.lower ∧
    (s.updRamp .upper f).upper = f s.upper ∧
    (s.updRamp .upper f).closure = s.closure ∧
    (s.updRamp .upper f).ev = s.ev ∧
    (s.updRamp .upper f).freeCtr = s.freeCtr ∧
    (s.updRamp .upper f).pending = s.pending := by
  refine ⟨rfl, rfl, rfl, rfl, rfl, rfl, rfl, rfl, rfl, rfl, rfl, rfl, rfl, rfl, rfl, rfl, rfl, rfl, rfl, rfl, rfl, rfl, rfl, rfl, rfl, rfl, rfl, rfl⟩

@[simp] theorem updRamp_fields (s : State) (r : Ramp) (f : RampState → RampState) :
    (s.updRamp r f).power = s.power ∧
    (s.updRamp r f).pins = s.pins ∧
    (s.updRamp r f).link = s.link ∧
    (s.updRamp r f).causes = s.causes ∧
    (s.updRamp r f).stowIntact = s.stowIntact ∧
    (s.updRamp r f).stowGen = s.stowGen ∧
    (s.updRamp r f).stowKept = s.stowKept ∧
    (s.updRamp r f).vehicles = s.vehicles ∧
    (s.updRamp r f).standby = s.standby ∧
    (s.updRamp r f).voyage = s.voyage ∧
    (s.updRamp r f).store = s.store ∧
    (s.updRamp r f).profile = s.profile ∧
    (s.updRamp r f).draft = s.draft ∧
    (s.updRamp r f).limits = s.limits ∧
    (s.updRamp r f).decks = s.decks ∧
    (s.updRamp r f).sections = s.sections ∧
    (s.updRamp r f).lanes = s.lanes ∧
    (s.updRamp r f).panels = s.panels ∧
    (s.updRamp r f).listMoment = s.listMoment ∧
    (s.updRamp r f).listThreshold = s.listThreshold ∧
    (s.updRamp r f).listArm = s.listArm ∧
    (s.updRamp r f).listOver = s.listOver ∧
    (s.updRamp r f).closure = s.closure ∧
    (s.updRamp r f).ev = s.ev ∧
    (s.updRamp r f).freeCtr = s.freeCtr ∧
    (s.updRamp r f).pending = s.pending := by
  cases r <;> refine ⟨rfl, rfl, rfl, rfl, rfl, rfl, rfl, rfl, rfl, rfl, rfl, rfl, rfl, rfl, rfl, rfl, rfl, rfl, rfl, rfl, rfl, rfl, rfl, rfl, rfl, rfl⟩

@[simp] theorem ramp_lower (s : State) : s.ramp .lower = s.lower := rfl

@[simp] theorem ramp_upper (s : State) : s.ramp .upper = s.upper := rfl

/-- A ramp after an update of a ramp. -/
theorem updRamp_ramp (s : State) (r q : Ramp) (f : RampState → RampState) :
    (s.updRamp r f).ramp q = if q = r then f (s.ramp q) else s.ramp q := by
  cases r <;> cases q <;> rfl

/-- The ramp that is updated. -/
@[simp] theorem updRamp_same (s : State) (r : Ramp) (f : RampState → RampState) :
    (s.updRamp r f).ramp r = f (s.ramp r) := by
  cases r <;> rfl

/-- A lane after an update of a lane. -/
theorem updLane_lane? (s : State) (l k : Nat) (f : Lane → Lane) :
    (s.updLane l f).lane? k = if l = k then (s.lane? k).map f else s.lane? k := by
  simp only [State.lane?, updLane_fields, List.getElem?_modify]
  split <;> cases s.lanes[k]? <;> rfl

/-- The lane that is updated. -/
@[simp] theorem updLane_same (s : State) (l : Nat) (f : Lane → Lane) :
    (s.updLane l f).lane? l = (s.lane? l).map f := by
  rw [updLane_lane?, if_pos rfl]

/-- A section after an update of a section. -/
theorem updSect_sect? (s : State) (i k : Nat) (f : Sect → Sect) :
    (s.updSect i f).sect? k = if i = k then (s.sect? k).map f else s.sect? k := by
  simp only [State.sect?, updSect_fields, List.getElem?_modify]
  split <;> cases s.sections[k]? <;> rfl

/-- A deck after an update of a deck. -/
theorem updDeck_deck? (s : State) (d k : Nat) (f : Deck → Deck) :
    (s.updDeck d f).deck? k = if d = k then (s.deck? k).map f else s.deck? k := by
  simp only [State.deck?, updDeck_fields, List.getElem?_modify]
  split <;> cases s.decks[k]? <;> rfl

/-- A panel after an update of a panel. -/
theorem updPanel_panel? (s : State) (p k : Nat) (f : Panel → Panel) :
    (s.updPanel p f).panel? k = if p = k then (s.panel? k).map f else s.panel? k := by
  simp only [State.panel?, updPanel_fields, List.getElem?_modify]
  split <;> cases s.panels[k]? <;> rfl

/-- A record after it is freed. -/
@[simp] theorem freeVeh_veh? (s : State) (tag : Nat) : (s.freeVeh tag).veh? tag = none := by
  simp only [State.veh?, freeVeh_fields, List.find?_eq_none, List.mem_filter]
  intro v hv
  simpa using hv.2

end Sys2Proof.Machine
end

