-- ==== Sys2Proof/Laws/Books.lean ====
section
/-! SUPPORT. The part of the state that the laws of the books (`BookLaw`) speak of: two states with one `books` obey
the same laws, so an update that leaves it keeps them all. -/

namespace Sys2Proof.Machine

/-! ### The part of the state the laws speak of -/

def Vehicle.books (v : Vehicle) : Vehicle := { v with transit := .stopped }

def Lane.books (x : Lane) : Lane :=
  { x with
    state := .opened, entryCredits := 0, entryWindow := .stopped, exitCredits := 0, exitWindow := .stopped
    occupied := false, score := 0, suspect := false, clearing := false, mode := .sensed, watch := false
    signal := .auto, aspect := .dark }

def Sect.books (c : Sect) : Sect := { c with arm := .armed, mode := .sensed }

def Panel.books (p : Panel) : Panel :=
  { p with timer := .stopped, fault := LastFault.none, raise := false, lower := false }

def RampState.books (q : RampState) : RampState :=
  { RampState.cleared with
    direction := q.direction, light := q.light, heavy := q.heavy, onRamp := q.onRamp, mass := q.mass, seq := q.seq }

/-- The books of a state: everything else at its reset value. -/
def State.books (s : State) : State :=
  { State.reset with
    vehicles := s.vehicles.map Vehicle.books, standby := s.standby, voyage := s.voyage, store := s.store
    profile := s.profile, draft := s.draft, limits := s.limits, decks := s.decks.map Deck.built
    sections := s.sections.map Sect.books, lanes := s.lanes.map Lane.books, panels := s.panels.map Panel.books
    listMoment := s.listMoment, lower := s.lower.books, upper := s.upper.books }

/-! ### Readings of the books -/

/-- Records found the same way are the same. -/
theorem filterMap_same {α β : Type} {f g : α → Option β} :
    ∀ {xs : List α}, (∀ a ∈ xs, f a = g a) → xs.filterMap f = xs.filterMap g
  | [], _ => rfl
  | a :: as, h => by
    rw [List.filterMap_cons, List.filterMap_cons, h a List.mem_cons_self,
      filterMap_same fun b hb => h b (List.mem_cons_of_mem _ hb)]

variable (s : State)

@[simp] theorem books_vehicles : s.books.vehicles = s.vehicles.map Vehicle.books := rfl
@[simp] theorem books_standby : s.books.standby = s.standby := rfl
@[simp] theorem books_voyage : s.books.voyage = s.voyage := rfl
@[simp] theorem books_store : s.books.store = s.store := rfl
@[simp] theorem books_profile : s.books.profile = s.profile := rfl
@[simp] theorem books_draft : s.books.draft = s.draft := rfl
@[simp] theorem books_limits : s.books.limits = s.limits := rfl
@[simp] theorem books_decks : s.books.decks = s.decks.map Deck.built := rfl
@[simp] theorem books_sections : s.books.sections = s.sections.map Sect.books := rfl
@[simp] theorem books_lanes : s.books.lanes = s.lanes.map Lane.books := rfl
@[simp] theorem books_panels : s.books.panels = s.panels.map Panel.books := rfl
@[simp] theorem books_listMoment : s.books.listMoment = s.listMoment := rfl

@[simp] theorem books_ramp (r : Ramp) : s.books.ramp r = (s.ramp r).books := by cases r <;> rfl
@[simp] theorem books_queue (q : RampState) (k : Kind) : q.books.queue k = q.queue k := by cases k <;> rfl

@[simp] theorem books_veh? (tag : Nat) : s.books.veh? tag = (s.veh? tag).map Vehicle.books := by
  unfold State.veh?
  rw [books_vehicles, List.find?_map]
  rfl

@[simp] theorem books_stage? (tag : Nat) : s.books.stage? tag = s.stage? tag := by
  unfold State.stage?
  rw [books_veh?, Option.map_map]
  rfl

@[simp] theorem books_kind? (tag : Nat) : s.books.kind? tag = s.kind? tag := by
  unfold State.kind?
  rw [books_veh?, Option.map_map]
  rfl

@[simp] theorem books_lane? (l : Nat) : s.books.lane? l = (s.lane? l).map Lane.books := by simp [State.lane?]
@[simp] theorem books_sect? (i : Nat) : s.books.sect? i = (s.sect? i).map Sect.books := by simp [State.sect?]
@[simp] theorem books_deck? (d : Nat) : s.books.deck? d = (s.deck? d).map Deck.built := by simp [State.deck?]
@[simp] theorem books_panel? (p : Nat) : s.books.panel? p = (s.panel? p).map Panel.books := by simp [State.panel?]

@[simp] theorem books_records (tags : List Nat) : s.books.records tags = (s.records tags).map Vehicle.books := by
  unfold State.records
  rw [List.map_filterMap]
  exact filterMap_same fun t _ => books_veh? s t

@[simp] theorem books_deckOf (x : Lane) : s.books.deckOf x.books = (s.deckOf x).map Deck.built := by
  simp only [State.deckOf, books_sect?]
  cases h : s.sect? x.sect <;> simp [Lane.books, Sect.books, h]

@[simp] theorem books_deckNo (x : Lane) : s.books.deckNo x.books = s.deckNo x := by
  simp only [State.deckNo, books_sect?]
  cases h : s.sect? x.sect <;> simp [Lane.books, Sect.books, h]

@[simp] theorem books_rampOf (x : Lane) : s.books.rampOf x.books = s.rampOf x := by
  simp only [State.rampOf, books_deckOf]
  cases s.deckOf x <;> rfl

@[simp] theorem books_rampOfNo (l : Nat) : s.books.rampOfNo l = s.rampOfNo l := by
  simp only [State.rampOfNo, books_lane?]
  cases s.lane? l <;> simp

@[simp] theorem books_onHoist (x : Lane) : s.books.onHoist x.books = s.onHoist x := by
  simp only [State.onHoist, books_deckOf]
  cases s.deckOf x <;> rfl

@[simp] theorem books_onWeather (x : Lane) : s.books.onWeather x.books = s.onWeather x := by
  simp only [State.onWeather, books_deckOf]
  cases s.deckOf x <;> rfl

@[simp] theorem books_massOf (tags : List Nat) : s.books.massOf tags = s.massOf tags := by
  simp only [State.massOf, books_records, List.map_map]
  rfl

@[simp] theorem books_lengthOf (g : Nat) (tags : List Nat) : s.books.lengthOf g tags = s.lengthOf g tags := by
  simp only [State.lengthOf, books_records, List.map_map]
  rfl

@[simp] theorem books_firstClaimCall? (x : Lane) : s.books.firstClaimCall? x.books = s.firstClaimCall? x := by
  show (x.claims.head?.bind fun t => (s.books.veh? t).map Vehicle.call) = _
  unfold State.firstClaimCall?
  cases x.claims.head? with
  | none => rfl
  | some t => simp only [Option.bind_some, books_veh?, Option.map_map]; rfl

@[simp] theorem books_dgLevel (g h : Nat) : s.books.dgLevel g h = s.dgLevel g h := rfl
@[simp] theorem books_openDeckOnly (g : Nat) : s.books.openDeckOnly g = s.openDeckOnly g := rfl

@[simp] theorem books_adjacent (x y : Lane) : s.books.adjacent x.books y.books = s.adjacent x y := by
  unfold State.adjacent
  rw [books_deckNo, books_deckNo]
  rfl

@[simp] theorem books_permits (v l k : Nat) (x y : Lane) :
    s.books.permits v l x.books k y.books = s.permits v l x k y := by
  unfold State.permits
  rw [books_adjacent, books_deckNo, books_deckNo]
  rfl

@[simp] theorem books_carrier? (i : Nat) :
    s.books.carrier? i = (s.carrier? i).map fun q => (q.1, q.2.books) := by
  unfold State.carrier?
  have e : (List.range s.books.panels.length).filterMap (fun p => (s.books.panel? p).map fun x => (p, x)) =
      ((List.range s.panels.length).filterMap fun p => (s.panel? p).map fun x => (p, x)).map
        fun q => (q.1, q.2.books) := by
    rw [List.map_filterMap]
    simp only [books_panels, List.length_map]
    refine filterMap_same fun p _ => ?_
    rw [books_panel?]
    cases s.panel? p <;> rfl
  rw [e, List.find?_map]
  rfl

@[simp] theorem books_borrowed (x : Lane) : s.books.borrowed x.books = s.borrowed x := by
  unfold State.borrowed
  show (match s.books.carrier? x.sect with | some (_, p) => p.state.moving | none => false) = _
  rw [books_carrier?]
  cases s.carrier? x.sect <;> rfl

@[simp] theorem books_coverState? (x : Lane) : s.books.coverState? x.books = s.coverState? x := by
  unfold State.coverState?
  show (x.cover.bind fun c => (s.books.panel? c.panel).map Panel.state) = _
  cases x.cover with
  | none => rfl
  | some c => simp only [Option.bind_some, books_panel?, Option.map_map]; rfl

@[simp] theorem books_coverMoving (x : Lane) : s.books.coverMoving x.books = s.coverMoving x := by
  simp only [State.coverMoving, books_coverState?]

@[simp] theorem books_clearance (x : Lane) : s.books.clearance x.books = s.clearance x := by
  unfold State.clearance
  show (match x.cover with
    | none => x.baseClass
    | some c => match s.books.panel? c.panel with
      | some p => if p.state = PanelPos.stowed then x.baseClass else c.reduced
      | none => c.reduced) = _
  cases x.cover with
  | none => rfl
  | some c =>
    simp only [books_panel?]
    cases s.panel? c.panel <;> rfl

theorem books_figured (x : Lane) : s.books.figured x.books = (s.figured x).books := by
  have h : (((s.books.records (x.stow ++ x.claims)).filter Vehicle.reefer).length) =
      ((s.records (x.stow ++ x.claims)).filter Vehicle.reefer).length := by
    rw [books_records, List.filter_map, List.length_map]
    rfl
  show { x.books with
    used := s.books.lengthOf x.gap (x.stow ++ x.claims)
    reefers := ((s.books.records (x.stow ++ x.claims)).filter Vehicle.reefer).length
    mass := s.books.massOf (x.stow ++ x.claims), placedMass := s.books.massOf x.stow } = _
  rw [h, books_lengthOf, books_massOf, books_massOf]
  rfl

theorem books_weighed (i : Nat) (c : Sect) : s.books.weighed i c.books = (s.weighed i c).books := by
  have h : s.books.lanes.filter (fun x => x.sect == i) = (s.lanes.filter fun x => x.sect == i).map Lane.books := by
    rw [books_lanes, List.filter_map]; rfl
  simp only [State.weighed, h, List.map_map]
  rfl

@[simp] theorem books_momentOf : s.books.momentOf = s.momentOf := by
  simp only [State.momentOf, books_lanes, List.map_map]
  rfl

/-! ### One law for one book -/

theorem books_some_lane {l : Nat} {x : Lane} (h : s.books.lane? l = some x) :
    ∃ y, s.lane? l = some y ∧ y.books = x := by simpa using h

theorem books_mem_lanes {x : Lane} (h : x ∈ s.books.lanes) : ∃ y ∈ s.lanes, y.books = x := by simpa using h

theorem RecordLaw.books_iff : RecordLaw s.books ↔ RecordLaw s := by
  constructor <;> intro h <;> constructor
  · simpa [Function.comp_def, Vehicle.books] using h.tags
  · intro tag l e; simpa using h.bound tag l (by simpa using e)
  · simpa using h.standby
  · intro l x e; simpa [Lane.books] using h.stow l x.books (by simp [e])
  · intro l x e; simpa [Lane.books] using h.claims l x.books (by simp [e])
  · intro l x e; simpa [Lane.books] using h.pastCrest l x.books (by simp [e])
  · intro r; simpa [RampState.books] using h.onRamp r
  · intro r k; simpa using h.queue r k
  · simpa [Function.comp_def, Vehicle.books] using h.tags
  · intro tag l e; simpa using h.bound tag l (by simpa using e)
  · simpa using h.standby
  · intro l x e
    obtain ⟨y, hy, rfl⟩ := books_some_lane s e
    simpa [Lane.books] using h.stow l y hy
  · intro l x e
    obtain ⟨y, hy, rfl⟩ := books_some_lane s e
    simpa [Lane.books] using h.claims l y hy
  · intro l x e
    obtain ⟨y, hy, rfl⟩ := books_some_lane s e
    simpa [Lane.books] using h.pastCrest l y hy
  · intro r; simpa [RampState.books] using h.onRamp r
  · intro r k; simpa using h.queue r k

theorem figured_same (x : Lane) : s.figured x = x ↔ s.books.figured x.books = x.books := by
  rw [books_figured]
  constructor
  · intro h; rw [h]
  · intro h
    have e : ∀ y : Lane, (s.figured x).used = y.used → (s.figured x).reefers = y.reefers →
        (s.figured x).mass = y.mass → (s.figured x).placedMass = y.placedMass → y.books = x.books → s.figured x = x := by
      intro y a b c d hy
      simp only [Lane.books, Lane.mk.injEq] at hy
      cases x; cases y
      simp_all [State.figured]
    exact e (s.figured x) rfl rfl rfl rfl h

theorem weighed_same (i : Nat) (c : Sect) : s.weighed i c = c ↔ s.books.weighed i c.books = c.books := by
  rw [books_weighed]
  constructor
  · intro h; rw [h]
  · intro h
    simp only [Sect.books, State.weighed, Sect.mk.injEq] at h
    cases c
    simp_all [State.weighed]

theorem overdue_same (x : Lane) : ((s.books.records x.books.claims).filter Vehicle.overdue).length =
    ((s.records x.claims).filter Vehicle.overdue).length := by
  rw [books_records, List.filter_map, List.length_map]
  rfl

theorem FiguresLaw.books_iff : FiguresLaw s.books ↔ FiguresLaw s := by
  constructor <;> intro h <;> constructor
  · intro x hx
    have := h.lane x.books (by simpa using ⟨x, hx, rfl⟩)
    rw [overdue_same] at this
    exact ⟨(figured_same s x).2 this.1, this.2⟩
  · intro i c hc
    exact (weighed_same s i c).2 (h.sect i c.books (by simp [hc]))
  · simpa using h.moment
  · intro r; simpa [RampState.books] using h.ramp r
  · intro v hv; simpa [Vehicle.books] using h.overdue v.books (by simpa using ⟨v, hv, rfl⟩)
  · intro x hx
    obtain ⟨y, hy, rfl⟩ := books_mem_lanes s hx
    rw [overdue_same]
    exact ⟨(figured_same s y).1 (h.lane y hy).1, (h.lane y hy).2⟩
  · intro i c hc
    obtain ⟨y, hy, rfl⟩ : ∃ y, s.sect? i = some y ∧ y.books = c := by simpa using hc
    exact (weighed_same s i y).1 (h.sect i y hy)
  · simpa using h.moment
  · intro r; simpa [RampState.books] using h.ramp r
  · intro v hv
    obtain ⟨w, hw, rfl⟩ : ∃ w ∈ s.vehicles, w.books = v := by simpa using hv
    exact h.overdue w hw

theorem OrderLaw.books_iff : OrderLaw s.books ↔ OrderLaw s := by
  have c : ∀ tags, (s.books.records tags).map Vehicle.call = (s.records tags).map Vehicle.call := by
    intro tags; rw [books_records, List.map_map]; rfl
  constructor <;> intro h <;> constructor
  · intro x hx
    have := h.calls x.books (by simpa using ⟨x, hx, rfl⟩)
    rwa [c] at this
  · intro x hx v hv hr
    have := h.released x.books (by simpa using ⟨x, hx, rfl⟩) v.books
      (by rw [books_records]; exact List.mem_map_of_mem hv) hr
    rwa [books_firstClaimCall?] at this
  · intro x hx
    obtain ⟨y, hy, rfl⟩ := books_mem_lanes s hx
    rw [c]; exact h.calls y hy
  · intro x hx v hv hr
    obtain ⟨y, hy, rfl⟩ := books_mem_lanes s hx
    rw [books_records] at hv
    obtain ⟨w, hw, rfl⟩ := List.mem_map.1 hv
    rw [books_firstClaimCall?]; exact h.released y hy w hw hr

theorem LimitsLaw.books_iff : LimitsLaw s.books ↔ LimitsLaw s := by
  constructor <;> intro h <;> constructor
  · intro x hx; exact h.lane x.books (by simpa using ⟨x, hx, rfl⟩)
  · intro c hc; exact h.sect c.books (by simpa using ⟨c, hc, rfl⟩)
  · simpa using h.capacity
  · intro x hx
    obtain ⟨y, hy, rfl⟩ := books_mem_lanes s hx
    exact h.lane y hy
  · intro c hc
    obtain ⟨y, hy, rfl⟩ : ∃ y ∈ s.sections, y.books = c := by simpa using hc
    exact h.sect y hy
  · simpa using h.capacity

theorem SegregationLaw.books_iff : SegregationLaw s.books ↔ SegregationLaw s := by
  constructor <;> intro h <;> constructor
  · intro l x k y hx hy v hv w hw hne g d hg hd
    have := h.apart l x.books k y.books (by simp [hx]) (by simp [hy]) v.books
      (by rw [books_records]; exact List.mem_map_of_mem hv) w.books
      (by rw [books_records]; exact List.mem_map_of_mem hw) hne g d hg hd
    rwa [books_permits] at this
  · intro x hx v hv g hg ho
    have := h.openDeck x.books (by simpa using ⟨x, hx, rfl⟩) v.books
      (by rw [books_records]; exact List.mem_map_of_mem hv) g hg ho
    rwa [books_onWeather] at this
  · intro l x k y hx hy v hv w hw hne g d hg hd
    obtain ⟨x, hx', rfl⟩ := books_some_lane s hx
    obtain ⟨y, hy', rfl⟩ := books_some_lane s hy
    rw [books_records] at hv hw
    obtain ⟨v, hv', rfl⟩ := List.mem_map.1 hv
    obtain ⟨w, hw', rfl⟩ := List.mem_map.1 hw
    rw [books_permits]
    exact h.apart l x k y hx' hy' v hv' w hw' hne g d hg hd
  · intro x hx v hv g hg ho
    obtain ⟨x, hx', rfl⟩ := books_mem_lanes s hx
    rw [books_records] at hv
    obtain ⟨v, hv', rfl⟩ := List.mem_map.1 hv
    rw [books_onWeather]
    exact h.openDeck x hx' v hv' g hg ho

theorem RampLaw.books_iff : RampLaw s.books ↔ RampLaw s := by
  constructor <;> intro h <;> constructor
  · intro r; simpa [RampState.books] using h.running r
  · intro v hv l e
    simpa [RampState.books] using h.outbound v.books (by simpa using ⟨v, hv, rfl⟩) l e
  · intro r; simpa [RampState.books] using h.running r
  · intro v hv l e
    obtain ⟨w, hw, rfl⟩ : ∃ w ∈ s.vehicles, w.books = v := by simpa using hv
    simpa [RampState.books] using h.outbound w hw l e

theorem PanelLaw.books_iff : PanelLaw s.books ↔ PanelLaw s := by
  constructor <;> intro h <;> constructor
  · intro x hx v hv hr
    have := h.traffic x.books (by simpa using ⟨x, hx, rfl⟩) v.books
      (by rw [books_records]; exact List.mem_map_of_mem hv) hr
    rwa [books_borrowed, books_coverMoving] at this
  · intro x hx v hv
    have := h.clearance x.books (by simpa using ⟨x, hx, rfl⟩) v.books
      (by rw [books_records]; exact List.mem_map_of_mem hv)
    rwa [books_coverState?, books_clearance] at this
  · intro x hx v hv hr
    obtain ⟨x, hx', rfl⟩ := books_mem_lanes s hx
    rw [books_records] at hv
    obtain ⟨v, hv', rfl⟩ := List.mem_map.1 hv
    rw [books_borrowed, books_coverMoving]
    exact h.traffic x hx' v hv' hr
  · intro x hx v hv
    obtain ⟨x, hx', rfl⟩ := books_mem_lanes s hx
    rw [books_records] at hv
    obtain ⟨v, hv', rfl⟩ := List.mem_map.1 hv
    rw [books_coverState?, books_clearance]
    exact h.clearance x hx' v hv'

theorem CallLaw.books_iff : CallLaw s.books ↔ CallLaw s := by
  constructor <;> intro h <;> constructor
  · simpa [Vehicle.books] using h.range
  · exact h.load
  · simpa using h.ashore
  · simpa [Vehicle.books] using h.range
  · exact h.load
  · simpa using h.ashore

theorem ModelLaw.books_iff : ModelLaw s.books ↔ ModelLaw s := by
  have d : s.books.decks.map Deck.built = s.decks.map Deck.built := by
    rw [books_decks, List.map_map]; rfl
  have c : s.books.sections.map Sect.built = s.sections.map Sect.built := by
    rw [books_sections, List.map_map]; rfl
  have l : s.books.lanes.map Lane.built = s.lanes.map Lane.built := by
    rw [books_lanes, List.map_map]; rfl
  have p : s.books.panels.map Panel.built = s.panels.map Panel.built := by
    rw [books_panels, List.map_map]; rfl
  constructor <;> intro h <;> constructor
  · have := h.built; rwa [d, c, l, p] at this
  · exact h.symmetric
  · intro x hx; exact h.reduced x.books (by simpa using ⟨x, hx, rfl⟩)
  · intro x hx e
    have := h.carried x.books (by simpa using ⟨x, hx, rfl⟩)
    rw [books_carrier?, books_onHoist] at this
    exact this (by simpa [Lane.books] using e)
  · exact h.writing
  · rw [d, c, l, p]; exact h.built
  · exact h.symmetric
  · intro x hx
    obtain ⟨x, hx', rfl⟩ := books_mem_lanes s hx
    exact h.reduced x hx'
  · intro x hx e
    obtain ⟨x, hx', rfl⟩ := books_mem_lanes s hx
    rw [books_carrier?] at e
    rw [books_onHoist]
    exact h.carried x hx' (by simpa [Lane.books] using e)
  · exact h.writing

theorem BookLaw.books_iff : BookLaw s.books ↔ BookLaw s := by
  constructor <;> rintro ⟨a, b, c, d, e, f, g, h, i⟩
  · exact ⟨(RecordLaw.books_iff s).1 a, (FiguresLaw.books_iff s).1 b, (OrderLaw.books_iff s).1 c,
      (LimitsLaw.books_iff s).1 d, (SegregationLaw.books_iff s).1 e, (RampLaw.books_iff s).1 f,
      (PanelLaw.books_iff s).1 g, (CallLaw.books_iff s).1 h, (ModelLaw.books_iff s).1 i⟩
  · exact ⟨(RecordLaw.books_iff s).2 a, (FiguresLaw.books_iff s).2 b, (OrderLaw.books_iff s).2 c,
      (LimitsLaw.books_iff s).2 d, (SegregationLaw.books_iff s).2 e, (RampLaw.books_iff s).2 f,
      (PanelLaw.books_iff s).2 g, (CallLaw.books_iff s).2 h, (ModelLaw.books_iff s).2 i⟩

/-- States with the same books obey the same laws. -/
theorem BookLaw.of_books {s t : State} (h : BookLaw s) (e : t.books = s.books) : BookLaw t := by
  rw [← BookLaw.books_iff] at h ⊢
  rwa [e]

/-! ### Updates that leave the books -/

theorem map_modify_same {α β : Type} {g : α → β} {f : α → α} (h : ∀ a, g (f a) = g a) :
    ∀ (n : Nat) (xs : List α), (xs.modify n f).map g = xs.map g
  | _, [] => by simp
  | 0, a :: as => by simp [h]
  | n + 1, a :: as => by simp [map_modify_same h n as]

variable {s}

theorem updLane_books (l : Nat) {f : Lane → Lane} (h : ∀ x, (f x).books = x.books) : (s.updLane l f).books = s.books := by
  simp only [State.books, updLane_fields, map_modify_same h]

theorem updSect_books (i : Nat) {f : Sect → Sect} (h : ∀ c, (f c).books = c.books) : (s.updSect i f).books = s.books := by
  simp only [State.books, updSect_fields, map_modify_same h]

theorem updDeck_books (d : Nat) {f : Deck → Deck} (h : ∀ k, (f k).built = k.built) : (s.updDeck d f).books = s.books := by
  simp only [State.books, updDeck_fields, map_modify_same h]

theorem updPanel_books (p : Nat) {f : Panel → Panel} (h : ∀ x, (f x).books = x.books) :
    (s.updPanel p f).books = s.books := by
  simp only [State.books, updPanel_fields, map_modify_same h]

theorem updRamp_books (r : Ramp) {f : RampState → RampState} (h : ∀ q, (f q).books = q.books) :
    (s.updRamp r f).books = s.books := by
  cases r <;> simp [State.books, h, State.updRamp]

theorem updVeh_books (tag : Nat) {f : Vehicle → Vehicle} (h : ∀ v, (f v).books = v.books) :
    (s.updVeh tag f).books = s.books := by
  simp only [State.books, updVeh_fields, List.map_map]
  congr 1
  refine List.map_congr_left fun v _ => ?_
  simp only [Function.comp]
  split <;> simp [h]

theorem notify_books (n : Notice) : (s.notify n).books = s.books := rfl
theorem sweepTrigger_books : s.sweepTrigger.books = s.books := rfl

end Sys2Proof.Machine
end

