-- ==== Sys2Proof/Laws/Kit.lean ====
section
/-! SUPPORT. Lists of tags and their records: what a change of one record, a freed record and a tag taken off a list
do to `veh?`, `stage?` and `records`; and the frame of the deck model that no event but a build changes. -/

namespace Sys2Proof.Machine

/-! ### Lists of tags -/

theorem mem_without {t u : Nat} {xs : List Nat} : u ∈ without t xs ↔ u ∈ xs ∧ u ≠ t := by
  simp [without]

theorem without_nodup {xs : List Nat} (t : Nat) (h : xs.Nodup) : (without t xs).Nodup := h.filter _

theorem without_not_mem {t : Nat} {xs : List Nat} (h : t ∉ xs) : without t xs = xs := by
  rw [without, List.filter_eq_self]
  intro a ha
  have : a ≠ t := fun e => h (e ▸ ha)
  simpa using this

/-- A tag that a list holds once: the list around it, and the list without it. -/
theorem split_once {t : Nat} {xs : List Nat} (hm : t ∈ xs) (hn : xs.Nodup) :
    ∃ a b, xs = a ++ t :: b ∧ without t xs = a ++ b ∧ t ∉ a ∧ t ∉ b := by
  obtain ⟨a, b, rfl⟩ := List.append_of_mem hm
  rw [List.nodup_append] at hn
  obtain ⟨-, hb, hd⟩ := hn
  rw [List.nodup_cons] at hb
  have ha : t ∉ a := fun h => hd t h t List.mem_cons_self rfl
  refine ⟨a, b, rfl, ?_, ha, hb.1⟩
  have e1 := without_not_mem ha
  have e2 := without_not_mem hb.1
  simp only [without, List.filter_append] at *
  rw [List.filter_cons_of_neg (by simp), e1, e2]

theorem append_nodup {t : Nat} {xs : List Nat} (h : xs.Nodup) (hm : t ∉ xs) : (xs ++ [t]).Nodup := by
  rw [List.nodup_append]
  exact ⟨h, by simp, fun a ha b hb => by simp at hb; exact fun e => hm (hb ▸ e ▸ ha)⟩

/-! ### Records -/

variable {s t : State}

theorem veh?_tag {tag : Nat} {v : Vehicle} (h : s.veh? tag = some v) : v.tag = tag := by
  simpa using List.find?_some h

theorem veh?_mem {tag : Nat} {v : Vehicle} (h : s.veh? tag = some v) : v ∈ s.vehicles := List.mem_of_find?_eq_some h

/-- With one record for a tag, each record is found by its tag. -/
theorem veh?_of_mem (hn : (s.vehicles.map Vehicle.tag).Nodup) {v : Vehicle} (h : v ∈ s.vehicles) :
    s.veh? v.tag = some v := by
  unfold State.veh?
  generalize s.vehicles = vs at *
  induction vs with
  | nil => cases h
  | cons w ws ih =>
    rw [List.map_cons, List.nodup_cons] at hn
    rw [List.find?_cons]
    rcases List.mem_cons.1 h with rfl | h
    · simp
    · have : w.tag ≠ v.tag := fun e => hn.1 (e ▸ List.mem_map_of_mem h)
      rw [show (w.tag == v.tag) = false by simpa using this]
      exact ih hn.2 h

theorem veh?_updVeh (tag u : Nat) {f : Vehicle → Vehicle} (hf : ∀ v, (f v).tag = v.tag) :
    (s.updVeh tag f).veh? u = if u = tag then (s.veh? u).map f else s.veh? u := by
  unfold State.veh?
  simp only [updVeh_fields]
  induction s.vehicles with
  | nil => simp
  | cons v vs ih =>
    have e : (if v.tag = tag then f v else v).tag = v.tag := by split <;> simp [hf]
    by_cases h : v.tag = u
    · rw [List.map_cons, List.find?_cons_of_pos (by rw [e]; simpa using h), List.find?_cons_of_pos (by simpa using h)]
      by_cases k : u = tag
      · rw [if_pos k, if_pos (h.trans k)]; rfl
      · rw [if_neg k, if_neg (h ▸ k)]
    · rw [List.map_cons, List.find?_cons_of_neg (by rw [e]; simpa using h), List.find?_cons_of_neg (by simpa using h)]
      exact ih

theorem veh?_freeVeh (tag u : Nat) : (s.freeVeh tag).veh? u = if u = tag then none else s.veh? u := by
  by_cases h : u = tag
  · rw [h, if_pos rfl, freeVeh_veh?]
  · rw [if_neg h]
    unfold State.veh?
    simp only [freeVeh_fields]
    induction s.vehicles with
    | nil => rfl
    | cons v vs ih =>
      by_cases k : v.tag = tag
      · rw [List.filter_cons_of_neg (by simpa using k), List.find?_cons_of_neg (by simpa [k] using fun e => h e.symm), ih]
      · rw [List.filter_cons_of_pos (by simpa using k), List.find?_cons, List.find?_cons, ih]

/-- A new record at the end of the table. -/
theorem veh?_append {v : Vehicle} (hv : s.veh? v.tag = none) (e : t.vehicles = s.vehicles ++ [v]) (u : Nat) :
    t.veh? u = if u = v.tag then some v else s.veh? u := by
  unfold State.veh? at *
  rw [e, List.find?_append]
  by_cases h : u = v.tag
  · rw [h, hv]; simp
  · rw [if_neg h]
    have k : v.tag ≠ u := fun e => h e.symm
    cases List.find? (fun w => w.tag == u) s.vehicles <;> simp [k]

theorem veh?_same (e : t.vehicles = s.vehicles) (u : Nat) : t.veh? u = s.veh? u := by
  unfold State.veh?
  rw [e]

theorem records_append (a b : List Nat) : s.records (a ++ b) = s.records a ++ s.records b := by
  simp [State.records]

theorem records_cons {tag : Nat} {v : Vehicle} (h : s.veh? tag = some v) (b : List Nat) :
    s.records (tag :: b) = v :: s.records b := by
  simp [State.records, h]

theorem records_mem {tags : List Nat} {v : Vehicle} : v ∈ s.records tags ↔ v.tag ∈ tags ∧ s.veh? v.tag = some v := by
  simp only [State.records, List.mem_filterMap]
  constructor
  · rintro ⟨u, hu, hv⟩
    rw [veh?_tag hv]
    exact ⟨hu, hv⟩
  · rintro ⟨h, k⟩
    exact ⟨v.tag, h, k⟩

/-- Records of tags that read the same in two states. -/
theorem records_same {tags : List Nat} (h : ∀ u ∈ tags, t.veh? u = s.veh? u) : t.records tags = s.records tags :=
  filterMap_same h

theorem records_map {tags : List Nat} {f : Vehicle → Vehicle} (h : ∀ u ∈ tags, t.veh? u = (s.veh? u).map f) :
    t.records tags = (s.records tags).map f := by
  unfold State.records
  rw [List.map_filterMap]
  exact filterMap_same h

theorem stage?_of {tag : Nat} {v : Vehicle} (h : s.veh? tag = some v) : s.stage? tag = some v.stage := by
  simp [State.stage?, h]

theorem stage?_some {tag : Nat} {st : Stage} (h : s.stage? tag = some st) : ∃ v, s.veh? tag = some v ∧ v.stage = st := by
  simpa [State.stage?] using h

/-! ### The frame of the deck model -/

/-- What stays of the deck model between builds but for the panels' states. -/
def State.frame (s : State) : State :=
  { State.reset with
    limits := s.limits, decks := s.decks.map Deck.built, sections := s.sections.map Sect.built
    lanes := s.lanes.map Lane.built, panels := s.panels.map Panel.books }

section
variable (s : State)

theorem frame_lane? (l : Nat) : s.frame.lane? l = (s.lane? l).map Lane.built := by simp [State.lane?, State.frame]
theorem frame_sect? (i : Nat) : s.frame.sect? i = (s.sect? i).map Sect.built := by simp [State.sect?, State.frame]
theorem frame_deck? (d : Nat) : s.frame.deck? d = (s.deck? d).map Deck.built := by simp [State.deck?, State.frame]
theorem frame_panel? (p : Nat) : s.frame.panel? p = (s.panel? p).map Panel.books := by simp [State.panel?, State.frame]

theorem frame_deckOf (x : Lane) : s.frame.deckOf x.built = (s.deckOf x).map Deck.built := by
  simp only [State.deckOf, frame_sect?]
  show ((s.sect? x.sect).map Sect.built).bind _ = _
  cases s.sect? x.sect with
  | none => rfl
  | some c => exact frame_deck? s c.deck

theorem frame_deckNo (x : Lane) : s.frame.deckNo x.built = s.deckNo x := by
  simp only [State.deckNo, frame_sect?]
  show ((s.sect? x.sect).map Sect.built).map _ = _
  cases s.sect? x.sect <;> rfl

theorem frame_rampOf (x : Lane) : s.frame.rampOf x.built = s.rampOf x := by
  simp only [State.rampOf, frame_deckOf]
  cases s.deckOf x <;> rfl

theorem frame_rampOfNo (l : Nat) : s.frame.rampOfNo l = s.rampOfNo l := by
  simp only [State.rampOfNo, frame_lane?]
  cases s.lane? l with
  | none => rfl
  | some x => exact frame_rampOf s x

theorem frame_onWeather (x : Lane) : s.frame.onWeather x.built = s.onWeather x := by
  simp only [State.onWeather, frame_deckOf]
  cases s.deckOf x <;> rfl

theorem frame_onHoist (x : Lane) : s.frame.onHoist x.built = s.onHoist x := by
  simp only [State.onHoist, frame_deckOf]
  cases s.deckOf x <;> rfl

theorem frame_permits (v l k : Nat) (x y : Lane) : s.frame.permits v l x.built k y.built = s.permits v l x k y := by
  unfold State.permits State.adjacent
  rw [frame_deckNo, frame_deckNo]
  rfl

theorem frame_carrier? (i : Nat) : s.frame.carrier? i = (s.carrier? i).map fun q => (q.1, q.2.books) := by
  have e : s.frame.carrier? i = s.books.carrier? i := rfl
  rw [e, books_carrier?]

theorem frame_borrowed (x : Lane) : s.frame.borrowed x.built = s.borrowed x := by
  rw [← books_borrowed s x]
  rfl

theorem frame_coverState? (x : Lane) : s.frame.coverState? x.built = s.coverState? x := by
  rw [← books_coverState? s x]
  rfl

theorem frame_coverMoving (x : Lane) : s.frame.coverMoving x.built = s.coverMoving x := by
  simp only [State.coverMoving, frame_coverState?]

theorem frame_clearance (x : Lane) : s.frame.clearance x.built = s.clearance x := by
  rw [← books_clearance s x]
  rfl

end

/-! ### Two states of one frame -/

theorem frame_limits (h : t.frame = s.frame) : t.limits = s.limits := by
  have := congrArg (fun u => u.limits) h
  exact this
theorem frame_length (h : t.frame = s.frame) : t.lanes.length = s.lanes.length := by
  have := congrArg (fun u => u.lanes.length) h
  simpa [State.frame] using this

theorem same_rampOfNo (h : t.frame = s.frame) (l : Nat) : t.rampOfNo l = s.rampOfNo l := by
  rw [← frame_rampOfNo, h, frame_rampOfNo]

theorem same_dgLevel (h : t.frame = s.frame) (g k : Nat) : t.dgLevel g k = s.dgLevel g k := by
  unfold State.dgLevel; rw [frame_limits h]

theorem same_openDeckOnly (h : t.frame = s.frame) (g : Nat) : t.openDeckOnly g = s.openDeckOnly g := by
  unfold State.openDeckOnly; rw [frame_limits h]

section
variable (h : t.frame = s.frame) {x y x' y' : Lane} (e : x'.built = x.built) (e' : y'.built = y.built)
include h e

theorem same_rampOf : t.rampOf x' = s.rampOf x := by rw [← frame_rampOf, h, e, frame_rampOf]
theorem same_onWeather : t.onWeather x' = s.onWeather x := by rw [← frame_onWeather, h, e, frame_onWeather]
theorem same_onHoist : t.onHoist x' = s.onHoist x := by rw [← frame_onHoist, h, e, frame_onHoist]
theorem same_borrowed : t.borrowed x' = s.borrowed x := by rw [← frame_borrowed, h, e, frame_borrowed]
theorem same_coverState? : t.coverState? x' = s.coverState? x := by
  rw [← frame_coverState?, h, e, frame_coverState?]
theorem same_coverMoving : t.coverMoving x' = s.coverMoving x := by
  rw [← frame_coverMoving, h, e, frame_coverMoving]
theorem same_clearance : t.clearance x' = s.clearance x := by rw [← frame_clearance, h, e, frame_clearance]

include e' in
theorem same_permits (v l k : Nat) : t.permits v l x' k y' = s.permits v l x k y := by
  rw [← frame_permits, h, e, e', frame_permits]

end

/-- The lane of one state that stands where a lane of the other does. -/
theorem same_lane (h : t.frame = s.frame) {l : Nat} {x' : Lane} (e : t.lane? l = some x') :
    ∃ x, s.lane? l = some x ∧ x'.built = x.built := by
  have k := frame_lane? t l
  rw [h, frame_lane?, e] at k
  cases hs : s.lane? l with
  | none => rw [hs] at k; cases k
  | some x => rw [hs] at k; exact ⟨x, rfl, (Option.some.inj k).symm⟩

end Sys2Proof.Machine
end

