-- ==== Sys2Proof/Laws/Hold.lean ====
section
/-! SUPPORT. What the lanes hold: figures, order and limits of each lane, the sums of the sections and the list moment,
as one law (`HoldLaw`) with one lemma for a change of one lane and one for events that leave what lanes hold. -/

namespace Sys2Proof.Machine

/-! ### One lane -/

/-- What a vehicle weighs in its lane's figures: its record without stage and timer. -/
def Vehicle.cargo (v : Vehicle) : Vehicle := { v with stage := .standby, transit := .stopped }

/-- Figures, order and limits of a lane whose stow list has the records `S` and whose claim list the records `C`. -/
structure LaneHold (x : Lane) (S C : List Vehicle) : Prop where
  used : x.used = ((S ++ C).map fun v => v.length + x.gap).sum
  reefers : x.reefers = ((S ++ C).filter Vehicle.reefer).length
  mass : x.mass = ((S ++ C).map Vehicle.mass).sum
  placed : x.placedMass = (S.map Vehicle.mass).sum
  overdue : x.overdue = (C.filter Vehicle.overdue).length
  calls : ((S ++ C).map Vehicle.call).Pairwise (· ≥ ·)
  usable : x.used ≤ x.usable
  sockets : x.reefers ≤ x.sockets
  claims : x.claims.length ≤ 16
  total : x.stow.length + x.claims.length ≤ 48

/-- What a list of records weighs depends on the cargo alone. -/
theorem map_cargo {α : Type} (f : Vehicle → α) (hf : ∀ v, f v.cargo = f v) {A B : List Vehicle}
    (h : A.map Vehicle.cargo = B.map Vehicle.cargo) : A.map f = B.map f := by
  have e : ∀ X : List Vehicle, X.map f = (X.map Vehicle.cargo).map f := by
    intro X; rw [List.map_map]; exact List.map_congr_left fun v _ => (hf v).symm
  rw [e A, h, ← e B]

theorem count_cargo (p : Vehicle → Bool) (hp : ∀ v, p v.cargo = p v) {A B : List Vehicle}
    (h : A.map Vehicle.cargo = B.map Vehicle.cargo) : (A.filter p).length = (B.filter p).length := by
  have e : ∀ X : List Vehicle, (X.filter p).length = ((X.map Vehicle.cargo).filter p).length := by
    intro X
    rw [List.filter_map, List.length_map]
    congr 1
    exact List.filter_congr fun v _ => (hp v).symm
  rw [e A, h, ← e B]

theorem LaneHold.cargo {x : Lane} {S C S' C' : List Vehicle} (h : LaneHold x S C)
    (hS : S'.map Vehicle.cargo = S.map Vehicle.cargo) (hC : C'.map Vehicle.cargo = C.map Vehicle.cargo) :
    LaneHold x S' C' := by
  have hb : (S' ++ C').map Vehicle.cargo = (S ++ C).map Vehicle.cargo := by simp [hS, hC]
  exact {
    used := by rw [map_cargo (fun v => v.length + x.gap) (fun _ => rfl) hb]; exact h.used
    reefers := by rw [count_cargo Vehicle.reefer (fun _ => rfl) hb]; exact h.reefers
    mass := by rw [map_cargo Vehicle.mass (fun _ => rfl) hb]; exact h.mass
    placed := by rw [map_cargo Vehicle.mass (fun _ => rfl) hS]; exact h.placed
    overdue := by rw [count_cargo Vehicle.overdue (fun _ => rfl) hC]; exact h.overdue
    calls := by rw [map_cargo Vehicle.call (fun _ => rfl) hb]; exact h.calls
    usable := h.usable, sockets := h.sockets, claims := h.claims, total := h.total }

/-- Changes of a lane that its figures do not show. -/
theorem LaneHold.lane {x y : Lane} {S C : List Vehicle} (h : LaneHold x S C) (e : y.books = { x.books with pastCrest := y.pastCrest }) :
    LaneHold y S C := by
  simp only [Lane.books, Lane.mk.injEq] at e
  obtain ⟨e1, e2, e3, e4, e5, e6, e7, e8, e9, e10, e11, -, e13, e14, e15, e16, e17, -⟩ := e
  exact {
    used := by rw [e14, e5]; exact h.used
    reefers := by rw [e15]; exact h.reefers
    mass := by rw [e16]; exact h.mass
    placed := by rw [e17]; exact h.placed
    overdue := by rw [e13]; exact h.overdue
    calls := h.calls
    usable := by rw [e14, e4]; exact h.usable
    sockets := by rw [e15, e8]; exact h.sockets
    claims := by rw [e11]; exact h.claims
    total := by rw [e10, e11]; exact h.total }

/-- A claim joins the tail of the claim list. -/
theorem LaneHold.claim {x : Lane} {S C : List Vehicle} (h : LaneHold x S C) (v : Vehicle)
    (hlen : x.used + (v.length + x.gap) ≤ x.usable) (hr : x.reefers + (if v.reefer then 1 else 0) ≤ x.sockets)
    (hc : x.claims.length < 16) (ht : x.stow.length + x.claims.length < 48) (ho : v.overdue = false)
    (hcall : ∀ w ∈ S ++ C, v.call ≤ w.call) :
    LaneHold { x with
      claims := x.claims ++ [v.tag], used := x.used + (v.length + x.gap)
      reefers := x.reefers + (if v.reefer then 1 else 0), mass := x.mass + v.mass } S (C ++ [v]) := by
  have e : S ++ (C ++ [v]) = (S ++ C) ++ [v] := by simp
  constructor <;> simp only [e, List.map_append, List.filter_append, List.sum_append, List.length_append]
  · rw [h.used]; simp [List.sum_append]
  · rw [h.reefers]; cases hv : v.reefer <;> simp [hv]
  · rw [h.mass]; simp [List.sum_append]
  · exact h.placed
  · rw [h.overdue]; simp [ho]
  · have := h.calls
    rw [List.map_append] at this
    rw [List.pairwise_append]
    refine ⟨this, by simp, ?_⟩
    intro a ha b hb
    simp only [List.map_cons, List.map_nil, List.mem_singleton] at hb
    rw [← List.map_append] at ha
    obtain ⟨w, hw, rfl⟩ := List.mem_map.1 ha
    exact hb ▸ hcall w hw
  · exact hlen
  · exact hr
  · simp; omega
  · simp; omega

/-- A claim is taken off the claim list. -/
theorem LaneHold.dropClaim {x : Lane} {S A B : List Vehicle} {v : Vehicle} (h : LaneHold x S (A ++ v :: B)) {cs : List Nat}
    (hc : cs.length + 1 = x.claims.length) :
    LaneHold { x with
      claims := cs, overdue := x.overdue - (if v.overdue then 1 else 0), used := x.used - (v.length + x.gap)
      reefers := x.reefers - (if v.reefer then 1 else 0), mass := x.mass - v.mass } S (A ++ B) := by
  have hu := h.used; have hr := h.reefers; have hm := h.mass; have ho := h.overdue; have hcl := h.calls
  simp only [List.map_append, List.filter_append, List.sum_append, List.length_append, List.map_cons, List.sum_cons]
    at hu hr hm ho hcl
  have k := h.usable; have k' := h.sockets; have k1 := h.claims; have k2 := h.total
  constructor <;> simp only [List.map_append, List.filter_append, List.sum_append, List.length_append]
  · omega
  · cases hv : v.reefer <;> simp [hv] at hr ⊢ <;> omega
  · omega
  · exact h.placed
  · cases hv : v.overdue <;> simp [hv] at ho ⊢ <;> omega
  · refine List.Pairwise.sublist ?_ hcl
    exact (List.Sublist.refl _).append ((List.Sublist.refl _).append (List.sublist_cons_self _ _))
  · omega
  · omega
  · omega
  · omega

/-- A vehicle is taken off the stow list. -/
theorem LaneHold.dropPlaced {x : Lane} {C A B : List Vehicle} {v : Vehicle} (h : LaneHold x (A ++ v :: B) C) {ss : List Nat}
    (hc : ss.length + 1 = x.stow.length) :
    LaneHold { x with
      stow := ss, used := x.used - (v.length + x.gap), reefers := x.reefers - (if v.reefer then 1 else 0)
      mass := x.mass - v.mass, placedMass := x.placedMass - v.mass } (A ++ B) C := by
  have hu := h.used; have hr := h.reefers; have hm := h.mass; have hp := h.placed; have hcl := h.calls
  simp only [List.map_append, List.filter_append, List.sum_append, List.length_append, List.map_cons, List.sum_cons]
    at hu hr hm hp hcl
  have k := h.usable; have k' := h.sockets; have k1 := h.claims; have k2 := h.total
  constructor <;> simp only [List.map_append, List.filter_append, List.sum_append, List.length_append]
  · omega
  · cases hv : v.reefer <;> simp [hv] at hr ⊢ <;> omega
  · omega
  · omega
  · exact h.overdue
  · refine List.Pairwise.sublist ?_ hcl
    exact ((List.Sublist.refl _).append (List.sublist_cons_self _ _)).append (List.Sublist.refl _)
  · omega
  · omega
  · omega
  · omega

/-- A claim moves to the tail of the stow list, its OVERDUE mark cleared. -/
theorem LaneHold.place {x : Lane} {S A B : List Vehicle} {v w : Vehicle} (h : LaneHold x S (A ++ v :: B))
    (hw : w.length = v.length ∧ w.massCode = v.massCode ∧ w.call = v.call ∧ w.reefer = v.reefer)
    (hA : ∀ a ∈ A, a.call = v.call) {ss cs : List Nat} (hs : ss.length = x.stow.length + 1)
    (hc : cs.length + 1 = x.claims.length) :
    LaneHold { x with
      claims := cs, stow := ss, overdue := x.overdue - (if v.overdue then 1 else 0)
      placedMass := x.placedMass + v.mass } (S ++ [w]) (A ++ B) := by
  obtain ⟨w1, w2, w3, w4⟩ := hw
  have hmass : w.mass = v.mass := by unfold Vehicle.mass; rw [w2]
  have hu := h.used; have hr := h.reefers; have hm := h.mass; have hp := h.placed; have ho := h.overdue
  simp only [List.map_append, List.filter_append, List.sum_append, List.length_append, List.map_cons, List.sum_cons]
    at hu hr hm hp ho
  have k := h.usable; have k' := h.sockets; have k1 := h.claims; have k2 := h.total
  constructor <;> simp only [List.map_append, List.filter_append, List.sum_append, List.length_append,
    List.map_cons, List.map_nil, List.sum_cons, List.sum_nil]
  · omega
  · cases hv : v.reefer <;> simp [hv, w4] at hr ⊢ <;> omega
  · omega
  · omega
  · cases hv : v.overdue <;> simp [hv] at ho ⊢ <;> omega
  · have hcl := h.calls
    simp only [List.map_append, List.map_cons, List.append_assoc, List.pairwise_append, List.pairwise_cons,
      List.mem_append, List.mem_cons, List.mem_map, List.not_mem_nil] at hcl ⊢
    obtain ⟨h1, ⟨h2, ⟨h3, h4⟩, h5⟩, h6⟩ := hcl
    refine ⟨h1, ⟨by simp, ⟨h2, h4, fun a ha b hb => h5 a ha b (Or.inr hb)⟩, ?_⟩, ?_⟩
    · rintro a (rfl | ha) b hb
      · rcases hb with ⟨z, hz, rfl⟩ | ⟨z, hz, rfl⟩
        · exact Nat.le_of_eq (by rw [w3, hA z hz])
        · rw [w3]; exact h3 _ ⟨z, hz, rfl⟩
      · cases ha
    · rintro a ha b (hb | hb)
      · rcases hb with rfl | hb
        · rw [w3]; exact h6 a ha _ (Or.inr (Or.inl rfl))
        · cases hb
      · rcases hb with hb | hb
        · exact h6 a ha b (Or.inl hb)
        · exact h6 a ha b (Or.inr (Or.inr hb))
  · omega
  · omega
  · omega
  · omega

/-! ### All lanes -/

/-- A sum over the lanes of a section after one lane changes. -/
theorem sum_modify (p : Lane → Bool) (g : Lane → Nat) {f : Lane → Lane} {x : Lane} :
    ∀ {xs : List Lane} {l : Nat}, xs[l]? = some x → p (f x) = p x →
      (((xs.modify l f).filter p).map g).sum + (if p x then g x else 0) =
        ((xs.filter p).map g).sum + (if p x then g (f x) else 0)
  | [], _, h, _ => by simp at h
  | y :: ys, 0, h, e => by
    simp only [List.getElem?_cons_zero, Option.some.injEq] at h
    subst h
    simp only [List.modify_zero_cons, List.filter_cons, e]
    cases p y <;> simp <;> omega
  | y :: ys, n + 1, h, e => by
    have ih := sum_modify p g (l := n) (xs := ys) (by simpa using h) e
    simp only [List.modify_succ_cons, List.filter_cons]
    cases p y <;> simp <;> omega

theorem moment_modify (g : Lane → Int) {f : Lane → Lane} {x : Lane} :
    ∀ {xs : List Lane} {l : Nat}, xs[l]? = some x →
      ((xs.modify l f).map g).sum = (xs.map g).sum + (g (f x) - g x)
  | [], _, h => by simp at h
  | y :: ys, 0, h => by
    simp only [List.getElem?_cons_zero, Option.some.injEq] at h
    subst h
    simp only [List.modify_zero_cons, List.map_cons, List.sum_cons]
    omega
  | y :: ys, n + 1, h => by
    have ih := moment_modify g (f := f) (l := n) (xs := ys) (by simpa using h)
    simp only [List.modify_succ_cons, List.map_cons, List.sum_cons, ih]
    omega

/-- What lanes hold: each lane's figures, the sums of the sections within their limits, the list moment. -/
structure HoldLaw (s : State) : Prop where
  lane : ∀ l x, s.lane? l = some x → LaneHold x (s.records x.stow) (s.records x.claims)
  weigh : ∀ i c, s.sect? i = some c → s.weighed i c = c ∧ c.projected ≤ c.massLimit * 1000
  moment : s.listMoment = s.momentOf

theorem BookLaw.hold {s : State} (h : BookLaw s) : HoldLaw s where
  lane := by
    intro l x hl
    have hx : x ∈ s.lanes := List.mem_of_getElem? hl
    have f := h.figures.lane x hx
    have k := h.limits.lane x hx
    have es := congrArg Lane.used f.1
    have er := congrArg Lane.reefers f.1
    have em := congrArg Lane.mass f.1
    have ep := congrArg Lane.placedMass f.1
    simp only [State.figured, State.lengthOf, State.massOf, records_append] at es er em ep
    exact {
      used := es.symm, reefers := er.symm, mass := em.symm, placed := ep.symm, overdue := f.2
      calls := by rw [← records_append]; exact h.order.calls x hx
      usable := k.1, sockets := k.2.1, claims := k.2.2.1, total := k.2.2.2 }
  weigh := fun i c hc => ⟨h.figures.sect i c hc, h.limits.sect c (List.mem_of_getElem? hc)⟩
  moment := h.figures.moment

namespace HoldLaw

variable {s t : State}

theorem figured (h : HoldLaw s) : ∀ x ∈ s.lanes, s.figured x = x ∧
    x.overdue = ((s.records x.claims).filter Vehicle.overdue).length := by
  intro x hx
  obtain ⟨l, hl⟩ := List.mem_iff_getElem?.1 hx
  have k := h.lane l x hl
  refine ⟨?_, k.overdue⟩
  have e1 := k.used; have e2 := k.reefers; have e3 := k.mass; have e4 := k.placed
  simp only [State.figured, State.lengthOf, State.massOf, records_append]
  rw [← e1, ← e2, ← e3, ← e4]

theorem calls (h : HoldLaw s) : ∀ x ∈ s.lanes, ((s.records (x.stow ++ x.claims)).map Vehicle.call).Pairwise (· ≥ ·) := by
  intro x hx
  obtain ⟨l, hl⟩ := List.mem_iff_getElem?.1 hx
  rw [records_append]
  exact (h.lane l x hl).calls

theorem limits (h : HoldLaw s) : ∀ x ∈ s.lanes, x.used ≤ x.usable ∧ x.reefers ≤ x.sockets ∧ x.claims.length ≤ 16 ∧
    x.stow.length + x.claims.length ≤ 48 := by
  intro x hx
  obtain ⟨l, hl⟩ := List.mem_iff_getElem?.1 hx
  have k := h.lane l x hl
  exact ⟨k.usable, k.sockets, k.claims, k.total⟩

/-- An event that leaves what lanes hold. -/
theorem same (h : HoldLaw s)
    (lanes : t.lanes.map (fun x => { x.books with pastCrest := [] }) = s.lanes.map fun x => { x.books with pastCrest := [] })
    (sections : t.sections.map Sect.books = s.sections.map Sect.books) (moment : t.listMoment = s.listMoment)
    (cargo : ∀ l x, s.lane? l = some x → ∀ u ∈ x.stow ++ x.claims,
      (t.veh? u).map Vehicle.cargo = (s.veh? u).map Vehicle.cargo) : HoldLaw t := by
  have look : ∀ l y, t.lane? l = some y → ∃ x, s.lane? l = some x ∧
      y.books = { x.books with pastCrest := y.pastCrest } := by
    intro l y hy
    have e := congrArg (fun xs => xs[l]?) lanes
    simp only [List.getElem?_map] at e
    rw [show t.lanes[l]? = some y from hy] at e
    cases hx : s.lanes[l]? with
    | none => rw [hx] at e; cases e
    | some x =>
      rw [hx] at e
      refine ⟨x, hx, ?_⟩
      have e' := Option.some.inj e
      simp only [Lane.books, Lane.mk.injEq] at e' ⊢
      simp_all
  have recs : ∀ l x, s.lane? l = some x → ∀ ts, (∀ u ∈ ts, u ∈ x.stow ++ x.claims) →
      (t.records ts).map Vehicle.cargo = (s.records ts).map Vehicle.cargo := by
    intro l x hx ts hts
    simp only [State.records, List.map_filterMap]
    exact filterMap_same fun u hu => cargo l x hx u (hts u hu)
  have masses : ∀ g : Lane → Nat, (∀ x : Lane, g { x.books with pastCrest := [] } = g x) → ∀ i,
      ((t.lanes.filter fun x => x.sect == i).map g).sum = ((s.lanes.filter fun x => x.sect == i).map g).sum := by
    intro g hg i
    have e : ∀ xs : List Lane, ((xs.filter fun x => x.sect == i).map g) =
        (((xs.map fun x => ({ x.books with pastCrest := [] } : Lane)).filter fun x => x.sect == i).map g) := by
      intro xs
      rw [List.filter_map, List.map_map]
      exact List.map_congr_left fun x _ => (hg x).symm
    rw [e, lanes, ← e]
  constructor
  · intro l y hy
    obtain ⟨x, hx, e⟩ := look l y hy
    have e' := e
    simp only [Lane.books, Lane.mk.injEq] at e'
    have h1 : y.stow = x.stow := by simp_all
    have h2 : y.claims = x.claims := by simp_all
    rw [h1, h2]
    exact ((h.lane l x hx).lane e).cargo
      (recs l x hx _ fun u hu => List.mem_append_left _ hu) (recs l x hx _ fun u hu => List.mem_append_right _ hu)
  · intro i c hc
    have e := congrArg (fun xs => xs[i]?) sections
    simp only [List.getElem?_map] at e
    rw [show t.sections[i]? = some c from hc] at e
    cases hk : s.sections[i]? with
    | none => rw [hk] at e; cases e
    | some k =>
      rw [hk] at e
      have e' := Option.some.inj e
      simp only [Sect.books, Sect.mk.injEq] at e'
      obtain ⟨-, e2, e3, e4, -⟩ := e'
      obtain ⟨w, m⟩ := h.weigh i k hk
      have w1 := congrArg Sect.projected w
      have w2 := congrArg Sect.placed w
      simp only [State.weighed] at w1 w2 ⊢
      refine ⟨?_, by rw [e2, e3]; exact m⟩
      rw [masses Lane.mass (fun _ => rfl), masses Lane.placedMass (fun _ => rfl), w1, w2, ← e3, ← e4]
  · rw [moment, h.moment]
    simp only [State.momentOf]
    have e : ∀ xs : List Lane, xs.map (fun x => (x.mass : Int) * x.offset) =
        (xs.map fun x => ({ x.books with pastCrest := [] } : Lane)).map fun x => (x.mass : Int) * x.offset := by
      intro xs; rw [List.map_map]; rfl
    rw [e, e t.lanes, lanes]

/-- An event that changes what one lane holds, and with it its section's sums and the list moment. -/
theorem change (h : HoldLaw s) {l : Nat} {x : Lane} (hx : s.lane? l = some x) {f : Lane → Lane} {g : Sect → Sect}
    (lanes : t.lanes = s.lanes.modify l f) (sections : t.sections = s.sections.modify x.sect g)
    (moment : t.listMoment = s.listMoment + (((f x).mass : Int) * x.offset - (x.mass : Int) * x.offset))
    (sect : (f x).sect = x.sect) (offset : (f x).offset = x.offset)
    (sums : ∀ c, s.sect? x.sect = some c → c.projected ≤ c.massLimit * 1000 →
      x.mass ≤ c.projected → x.placedMass ≤ c.placed →
      (g c).projected + x.mass = c.projected + (f x).mass ∧ (g c).placed + x.placedMass = c.placed + (f x).placedMass ∧
      (g c).projected ≤ (g c).massLimit * 1000)
    (hold : LaneHold (f x) (t.records (f x).stow) (t.records (f x).claims))
    (cargo : ∀ k y, k ≠ l → s.lane? k = some y → ∀ u ∈ y.stow ++ y.claims,
      (t.veh? u).map Vehicle.cargo = (s.veh? u).map Vehicle.cargo) : HoldLaw t := by
  have lk : ∀ k, t.lane? k = if l = k then (s.lane? k).map f else s.lane? k := by
    intro k
    simp only [State.lane?, lanes, List.getElem?_modify]
    split <;> cases s.lanes[k]? <;> rfl
  have total : ∀ (g : Lane → Nat) i, ((t.lanes.filter fun y => y.sect == i).map g).sum + (if x.sect == i then g x else 0) =
      ((s.lanes.filter fun y => y.sect == i).map g).sum + (if x.sect == i then g (f x) else 0) := by
    intro g i
    rw [lanes]
    exact sum_modify (fun y => y.sect == i) g hx (by rw [sect])
  constructor
  · intro k y hy
    rw [lk] at hy
    by_cases e : l = k
    · rw [if_pos e, ← e, hx] at hy
      cases Option.some.inj hy
      exact hold
    · rw [if_neg e] at hy
      have recs : ∀ ts, (∀ u ∈ ts, u ∈ y.stow ++ y.claims) →
          (t.records ts).map Vehicle.cargo = (s.records ts).map Vehicle.cargo := by
        intro ts hts
        simp only [State.records, List.map_filterMap]
        exact filterMap_same fun u hu => cargo k y (Ne.symm e) hy u (hts u hu)
      exact (h.lane k y hy).cargo (recs _ fun u hu => List.mem_append_left _ hu)
        (recs _ fun u hu => List.mem_append_right _ hu)
  · intro i c hc
    simp only [State.sect?, sections, List.getElem?_modify] at hc
    cases hk : s.sections[i]? with
    | none => rw [hk] at hc; simp at hc
    | some k =>
      rw [hk] at hc
      obtain ⟨w, m⟩ := h.weigh i k hk
      have w1 := congrArg Sect.projected w
      have w2 := congrArg Sect.placed w
      simp only [State.weighed] at w1 w2 ⊢
      have t1 := total Lane.mass i
      have t2 := total Lane.placedMass i
      by_cases e : x.sect = i
      · have hc' : g k = c := by simpa [e] using hc
        subst hc'
        have in1 : x.mass ≤ k.projected := by
          have := sum_modify (fun y => y.sect == i) Lane.mass (f := fun y => { y with mass := 0 }) hx rfl
          simp only [e, beq_self_eq_true, if_true] at this
          omega
        have in2 : x.placedMass ≤ k.placed := by
          have := sum_modify (fun y => y.sect == i) Lane.placedMass (f := fun y => { y with placedMass := 0 }) hx rfl
          simp only [e, beq_self_eq_true, if_true] at this
          omega
        obtain ⟨s1, s2, s3⟩ := sums k (by rw [e]; exact hk) m in1 in2
        simp only [e, beq_self_eq_true, if_true] at t1 t2
        refine ⟨?_, s3⟩
        rw [show ((t.lanes.filter fun y => y.sect == i).map Lane.mass).sum = (g k).projected by omega,
          show ((t.lanes.filter fun y => y.sect == i).map Lane.placedMass).sum = (g k).placed by omega]
      · have hc' : k = c := by simpa [e] using hc
        subst hc'
        rw [show (x.sect == i) = false by simpa using e] at t1 t2
        simp only [Bool.false_eq_true, if_false, Nat.add_zero] at t1 t2
        refine ⟨?_, m⟩
        rw [t1, t2, w1, w2]
  · rw [moment, h.moment]
    simp only [State.momentOf, lanes]
    rw [moment_modify (fun y => (y.mass : Int) * y.offset) hx, offset]

end HoldLaw

end Sys2Proof.Machine
end

