-- ==== Sys2Proof/Laws/Record.lean ====
section
/-! SUPPORT. One record moves: the record law (R18) after a change of one vehicle's stage with the lists it stands on,
and the laws that only lose by it (segregation, clearance). -/

namespace Sys2Proof.Machine

variable {s t : State}

/-! ### The frame under named updates -/

theorem updLane_frame (l : Nat) {f : Lane → Lane} (h : ∀ x, (f x).built = x.built) : (s.updLane l f).frame = s.frame := by
  simp only [State.frame, updLane_fields, map_modify_same h]

theorem updSect_frame (i : Nat) {f : Sect → Sect} (h : ∀ c, (f c).built = c.built) : (s.updSect i f).frame = s.frame := by
  simp only [State.frame, updSect_fields, map_modify_same h]

theorem updRamp_frame (r : Ramp) (f : RampState → RampState) : (s.updRamp r f).frame = s.frame := by
  cases r <;> rfl

theorem updVeh_frame (tag : Nat) (f : Vehicle → Vehicle) : (s.updVeh tag f).frame = s.frame := rfl
theorem freeVeh_frame (tag : Nat) : (s.freeVeh tag).frame = s.frame := rfl

/-! ### The record law -/

/-- A list of tags after a tag that stood on it (`o`) or not comes to stand on it (`n`) or not. -/
def track (tag : Nat) (o n : Bool) (xs : List Nat) : List Nat :=
  match o, n with
  | false, true => xs ++ [tag]
  | true, false => without tag xs
  | true, true | false, false => xs

theorem track_eq (tag : Nat) (b : Bool) (xs : List Nat) : track tag b b xs = xs := by cases b <;> rfl

theorem track_spec {tag : Nat} {o n : Bool} {xs : List Nat} {P : Nat → Prop} (h : xs.Nodup ∧ ∀ u, u ∈ xs ↔ P u)
    (ho : o = true ↔ P tag) {Q : Nat → Prop} (hn : n = true ↔ Q tag) (hPQ : ∀ u, u ≠ tag → (P u ↔ Q u)) :
    (track tag o n xs).Nodup ∧ ∀ u, u ∈ track tag o n xs ↔ Q u := by
  have hm : tag ∈ xs ↔ o = true := (h.2 tag).trans ho.symm
  cases o <;> cases n <;> simp only [track]
  · refine ⟨h.1, fun u => ?_⟩
    by_cases e : u = tag
    · subst e; rw [← hn, hm]
    · rw [← hPQ u e]; exact h.2 u
  · refine ⟨append_nodup h.1 (by rw [hm]; simp), fun u => ?_⟩
    by_cases e : u = tag
    · subst e; simp [← hn]
    · rw [← hPQ u e, ← h.2 u]; simp [e]
  · refine ⟨without_nodup tag h.1, fun u => ?_⟩
    rw [mem_without]
    by_cases e : u = tag
    · subst e; simp [← hn]
    · rw [← hPQ u e, ← h.2 u]; simp [e]
  · refine ⟨h.1, fun u => ?_⟩
    by_cases e : u = tag
    · subst e; rw [← hn, hm]
    · rw [← hPQ u e]; exact h.2 u

/-! Whether a vehicle of a stage (none: no record) stands on a list. -/

def onStandby (st : Option Stage) : Bool := st = some .standby

def inStow (l : Nat) : Option Stage → Bool
  | some (.placed k _) => k == l
  | _ => false

def inClaims (l : Nat) : Option Stage → Bool
  | some (.assigned k) | some (.onRamp k) | some (.pastCrest k) => k == l
  | _ => false

def inCrest (l : Nat) : Option Stage → Bool
  | some (.pastCrest k) => k == l
  | _ => false

def onRampList (s : State) (r : Ramp) : Option Stage → Bool
  | some (.onRamp k) => s.rampOfNo k == r
  | _ => false

def inQueue (s : State) (r : Ramp) (k k' : Kind) : Option Stage → Bool
  | some (.assigned l) => s.rampOfNo l == r && k == k'
  | _ => false

/-- One record of kind `kd` goes from stage `old` to stage `new` (none: no record); the lists follow. -/
theorem RecordLaw.move (h : RecordLaw s) {tag : Nat} {old new : Option Stage} {kd : Kind} (frame : t.frame = s.frame)
    (tags : (t.vehicles.map Vehicle.tag).Nodup) (was : s.stage? tag = old)
    (stage : ∀ u, t.stage? u = if u = tag then new else s.stage? u)
    (kind : ∀ u, u ≠ tag → t.kind? u = s.kind? u) (kindWas : old ≠ none → s.kind? tag = some kd)
    (kindIs : new ≠ none → t.kind? tag = some kd)
    (bound : ∀ l, new.bind Stage.lane? = some l → l < s.lanes.length)
    (standby : t.standby = track tag (onStandby old) (onStandby new) s.standby)
    (lists : ∀ l x' x, t.lane? l = some x' → s.lane? l = some x →
      x'.stow = track tag (inStow l old) (inStow l new) x.stow ∧
      x'.claims = track tag (inClaims l old) (inClaims l new) x.claims ∧
      x'.pastCrest = track tag (inCrest l old) (inCrest l new) x.pastCrest)
    (ramps : ∀ r, (t.ramp r).onRamp = track tag (onRampList s r old) (onRampList s r new) (s.ramp r).onRamp ∧
      ∀ k, (t.ramp r).queue k = track tag (inQueue s r kd k old) (inQueue s r kd k new) ((s.ramp r).queue k)) :
    RecordLaw t := by
  have ss : s.stage? tag = old := was
  have ts : t.stage? tag = new := by rw [stage, if_pos rfl]
  have other : ∀ u, u ≠ tag → t.stage? u = s.stage? u := fun u e => by rw [stage, if_neg e]
  constructor
  · exact tags
  · intro u l hu
    rw [frame_length frame]
    by_cases e : u = tag
    · rw [e, ts] at hu; exact bound l hu
    · rw [other u e] at hu; exact h.bound u l hu
  · rw [standby]
    exact track_spec h.standby (by simp [onStandby, ss]) (by simp [onStandby, ts]) fun u e => by rw [other u e]
  · intro l x' hx'
    obtain ⟨x, hx, -⟩ := same_lane frame hx'
    rw [(lists l x' x hx' hx).1]
    have sp : ∀ st : Option Stage, inStow l st = true ↔ ∃ o, st = some (.placed l o) := by
      intro st
      rcases st with _ | st
      · simp [inStow]
      · cases st <;> simp [inStow]
    exact track_spec (h.stow l x hx) (by rw [sp, ss]) (by rw [sp, ts]) fun u e => by rw [other u e]
  · intro l x' hx'
    obtain ⟨x, hx, -⟩ := same_lane frame hx'
    rw [(lists l x' x hx' hx).2.1]
    have sp : ∀ st : Option Stage, inClaims l st = true ↔
        st = some (.assigned l) ∨ st = some (.onRamp l) ∨ st = some (.pastCrest l) := by
      intro st
      rcases st with _ | st
      · simp [inClaims]
      · cases st <;> simp [inClaims]
    exact track_spec (h.claims l x hx) (by rw [sp, ss]) (by rw [sp, ts]) fun u e => by rw [other u e]
  · intro l x' hx'
    obtain ⟨x, hx, -⟩ := same_lane frame hx'
    rw [(lists l x' x hx' hx).2.2]
    have sp : ∀ st : Option Stage, inCrest l st = true ↔ st = some (.pastCrest l) := by
      intro st
      rcases st with _ | st
      · simp [inCrest]
      · cases st <;> simp [inCrest]
    exact track_spec (h.pastCrest l x hx) (by rw [sp, ss]) (by rw [sp, ts]) fun u e => by rw [other u e]
  · intro r
    rw [(ramps r).1]
    have sp : ∀ st : Option Stage, onRampList s r st = true ↔ ∃ l, st = some (.onRamp l) ∧ s.rampOfNo l = r := by
      intro st
      rcases st with _ | st
      · simp [onRampList]
      · cases st <;> simp [onRampList]
    simp only [same_rampOfNo frame]
    exact track_spec (h.onRamp r) (by rw [sp, ss]) (by rw [sp, ts]) fun u e => by rw [other u e]
  · intro r k
    rw [(ramps r).2 k]
    have sp : ∀ st : Option Stage, inQueue s r kd k st = true ↔
        ∃ l, st = some (.assigned l) ∧ some kd = some k ∧ s.rampOfNo l = r := by
      intro st
      rcases st with _ | st
      · simp [inQueue]
      · cases st <;> simp [inQueue, and_comm]
    simp only [same_rampOfNo frame]
    refine track_spec (h.queue r k) ?_ ?_ fun u e => by rw [other u e, kind u e]
    · rw [sp, ss]
      by_cases e : old = none
      · simp [e]
      · rw [kindWas e]
    · rw [sp, ts]
      by_cases e : new = none
      · simp [e]
      · rw [kindIs e]

/-! ### The laws part by part -/

/-- The traffic half of the panel law (R141). -/
def TrafficLaw (s : State) : Prop := ∀ x ∈ s.lanes, ∀ v ∈ s.records x.claims, v.stage.released = true →
  s.borrowed x = false ∧ s.coverMoving x = false

/-- The clearance half of the panel law (R143). -/
def ClearanceLaw (s : State) : Prop := ∀ x ∈ s.lanes, ∀ v ∈ s.records (x.stow ++ x.claims), v.height ≤ x.baseClass ∧
  (s.coverState? x ≠ some .unknown → s.coverState? x ≠ some .fault → v.height ≤ s.clearance x)

/-- The release law (R110) of one lane, by the records of its claims. -/
def Gate (C : List Vehicle) : Prop := ∀ v ∈ C, v.stage.released = true → C.head?.map Vehicle.call = some v.call

/-- The figures that are not those of lanes, and the capacities. -/
structure TableLaw (s : State) : Prop where
  ramp : ∀ r, (s.ramp r).mass = s.massOf (s.ramp r).onRamp
  overdue : ∀ v ∈ s.vehicles, v.overdue = true → v.stage.released = true
  capacity : s.vehicles.length ≤ 2048 ∧ s.standby.length ≤ 128 ∧ ∀ r k, ((s.ramp r).queue k).length ≤ 48

/-- Every claim has a record, so the first claim's call is that of the first record. -/
theorem firstClaimCall?_eq {x : Lane} (h : ∀ u ∈ x.claims, (s.veh? u).isSome = true) :
    s.firstClaimCall? x = ((s.records x.claims).head?).map Vehicle.call := by
  unfold State.firstClaimCall? State.records
  cases hc : x.claims with
  | nil => rfl
  | cons u us =>
    obtain ⟨v, hv⟩ := Option.isSome_iff_exists.1 (h u (by rw [hc]; exact List.mem_cons_self))
    simp [hv]

theorem RecordLaw.claim_some (h : RecordLaw s) {l : Nat} {x : Lane} (hx : s.lane? l = some x) :
    ∀ u ∈ x.claims, (s.veh? u).isSome = true := by
  intro u hu
  have := ((h.claims l x hx).2 u).1 hu
  cases e : s.veh? u with
  | none => simp [State.stage?, e] at this
  | some v => rfl

theorem BookLaw.table (h : BookLaw s) : TableLaw s := ⟨h.figures.ramp, h.figures.overdue, h.limits.capacity⟩

theorem BookLaw.gate (h : BookLaw s) : ∀ l x, s.lane? l = some x → Gate (s.records x.claims) := by
  intro l x hx v hv hr
  rw [← firstClaimCall?_eq (h.record.claim_some hx)]
  exact h.order.released x (List.mem_of_getElem? hx) v hv hr

/-- The laws from their parts. -/
theorem BookLaw.of_parts (record : RecordLaw t) (hold : HoldLaw t) (table : TableLaw t)
    (gate : ∀ l x, t.lane? l = some x → Gate (t.records x.claims)) (segregation : SegregationLaw t) (ramp : RampLaw t)
    (traffic : TrafficLaw t) (clearance : ClearanceLaw t) (call : CallLaw t) (model : ModelLaw t) : BookLaw t where
  record := record
  figures := ⟨hold.figured, fun i c hc => (hold.weigh i c hc).1, hold.moment, table.ramp, table.overdue⟩
  order := ⟨hold.calls, by
    intro x hx v hv hr
    obtain ⟨l, hl⟩ := List.mem_iff_getElem?.1 hx
    rw [firstClaimCall?_eq (record.claim_some hl)]
    exact gate l x hl v hv hr⟩
  limits := ⟨hold.limits, by
    intro c hc
    obtain ⟨i, hi⟩ := List.mem_iff_getElem?.1 hc
    exact (hold.weigh i c hi).2, table.capacity⟩
  segregation := segregation
  ramp := ramp
  panel := ⟨traffic, clearance⟩
  call := call
  model := model

/-- The model law reads the frame and the store. -/
theorem ModelLaw.same (h : ModelLaw s) (frame : t.frame = s.frame) (store : t.store = s.store)
    (profile : t.profile = s.profile) (draft : t.draft = s.draft) : ModelLaw t where
  built := by
    intro hm
    rw [store] at hm ⊢
    obtain ⟨a, b, c, d, e⟩ := h.built hm
    have f2 : t.decks.map Deck.built = s.decks.map Deck.built := congrArg (fun u => u.decks) frame
    have f3 : t.sections.map Sect.built = s.sections.map Sect.built := congrArg (fun u => u.sections) frame
    have f4 : t.lanes.map Lane.built = s.lanes.map Lane.built := congrArg (fun u => u.lanes) frame
    have f5 : t.panels.map Panel.books = s.panels.map Panel.books := congrArg (fun u => u.panels) frame
    have f6 : t.panels.map Panel.built = s.panels.map Panel.built := by
      have g := congrArg (List.map Panel.built) f5
      rw [List.map_map, List.map_map] at g
      exact g
    exact ⟨(frame_limits frame).trans a, f2.trans b, f3.trans c, f4.trans d, f6.trans e⟩
  symmetric := by intro g k; rw [same_dgLevel frame, same_dgLevel frame]; exact h.symmetric g k
  reduced := by
    intro x' hx' k hk
    obtain ⟨l, hl⟩ := List.mem_iff_getElem?.1 hx'
    obtain ⟨x, hx, e⟩ := same_lane frame hl
    have e1 : x'.cover = x.cover := (congrArg Lane.cover e : x'.built.cover = x.built.cover)
    have e2 : x'.baseClass = x.baseClass := (congrArg Lane.baseClass e : x'.built.baseClass = x.built.baseClass)
    rw [e2]
    exact h.reduced x (List.mem_of_getElem? hx) k (e1 ▸ hk)
  carried := by
    intro x' hx' hk
    obtain ⟨l, hl⟩ := List.mem_iff_getElem?.1 hx'
    obtain ⟨x, hx, e⟩ := same_lane frame hl
    rw [same_onHoist frame e]
    refine h.carried x (List.mem_of_getElem? hx) ?_
    have e1 : x'.sect = x.sect := (congrArg Lane.sect e : x'.built.sect = x.built.sect)
    have k1 := frame_carrier? t x'.sect
    rw [frame, frame_carrier?, e1] at k1
    rw [e1] at hk
    have k2 := congrArg Option.isSome k1
    simpa [hk] using k2
  writing := by rw [store, profile, draft]; exact h.writing

/-! ### What only fewer vehicles stand by -/

/-- Where every lane's lists hold no more than before, and dangerous goods and heights read as before. -/
structure Fewer (s t : State) : Prop where
  frame : t.frame = s.frame
  lists : ∀ l x' x, t.lane? l = some x' → s.lane? l = some x → ∀ u, u ∈ x'.stow ++ x'.claims → u ∈ x.stow ++ x.claims
  reads : ∀ l x, s.lane? l = some x → ∀ u ∈ x.stow ++ x.claims, ∀ v', t.veh? u = some v' →
    ∃ v, s.veh? u = some v ∧ v'.dg = v.dg ∧ v'.height = v.height

theorem Fewer.back (h : Fewer s t) {l : Nat} {x' : Lane} (hx' : t.lane? l = some x') :
    ∃ x, s.lane? l = some x ∧ x'.built = x.built ∧ ∀ v' ∈ t.records (x'.stow ++ x'.claims),
      ∃ v ∈ s.records (x.stow ++ x.claims), v'.tag = v.tag ∧ v'.dg = v.dg ∧ v'.height = v.height := by
  obtain ⟨x, hx, e⟩ := same_lane h.frame hx'
  refine ⟨x, hx, e, fun v' hv' => ?_⟩
  obtain ⟨hm, hr⟩ := records_mem.1 hv'
  have hm := h.lists l x' x hx' hx _ hm
  obtain ⟨v, hv, hd, hh⟩ := h.reads l x hx _ hm v' hr
  have e := veh?_tag hv
  exact ⟨v, records_mem.2 ⟨e.symm ▸ hm, e.symm ▸ hv⟩, e.symm, hd, hh⟩

theorem SegregationLaw.fewer (h : SegregationLaw s) (f : Fewer s t) : SegregationLaw t where
  apart := by
    intro l x' k y' hx' hy' v' hv' w' hw' hne g d hg hd
    obtain ⟨x, hx, ex, bx⟩ := f.back hx'
    obtain ⟨y, hy, ey, by'⟩ := f.back hy'
    obtain ⟨v, hv, tv, gv, -⟩ := bx v' hv'
    obtain ⟨w, hw, tw, gw, -⟩ := by' w' hw'
    rw [same_permits f.frame ex ey, same_dgLevel f.frame]
    exact h.apart l x k y hx hy v hv w hw (by rw [← tv, ← tw]; exact hne) g d (gv ▸ hg) (gw ▸ hd)
  openDeck := by
    intro x' hx' v' hv' g hg ho
    obtain ⟨l, hl⟩ := List.mem_iff_getElem?.1 hx'
    obtain ⟨x, hx, ex, bx⟩ := f.back hl
    obtain ⟨v, hv, -, gv, -⟩ := bx v' hv'
    rw [same_onWeather f.frame ex]
    exact h.openDeck x (List.mem_of_getElem? hx) v hv g (gv ▸ hg) (by rwa [← same_openDeckOnly f.frame])

theorem ClearanceLaw.fewer (h : ClearanceLaw s) (f : Fewer s t) : ClearanceLaw t := by
  intro x' hx' v' hv'
  obtain ⟨l, hl⟩ := List.mem_iff_getElem?.1 hx'
  obtain ⟨x, hx, ex, bx⟩ := f.back hl
  obtain ⟨v, hv, -, -, hh⟩ := bx v' hv'
  rw [same_coverState? f.frame ex, same_clearance f.frame ex, hh]
  have e : x'.baseClass = x.baseClass := (congrArg Lane.baseClass ex : x'.built.baseClass = x.built.baseClass)
  rw [e]
  exact h x (List.mem_of_getElem? hx) v hv

/-! ### The first claim -/

/-- A claim leaves: the gate stays, by the order of the calls. -/
theorem Gate.drop {A B : List Vehicle} {v : Vehicle} (h : Gate (A ++ v :: B))
    (o : ((A ++ v :: B).map Vehicle.call).Pairwise (· ≥ ·)) : Gate (A ++ B) := by
  intro w hw hr
  have hm : w ∈ A ++ v :: B := by
    rcases List.mem_append.1 hw with e | e
    · exact List.mem_append_left _ e
    · exact List.mem_append_right _ (List.mem_cons_of_mem _ e)
  have k := h w hm hr
  cases A with
  | cons a as => exact k
  | nil =>
    have k' : v.call = w.call := by simpa using k
    cases B with
    | nil => cases hw
    | cons b bs =>
      have o' : (∀ a ∈ bs.map Vehicle.call, b.call ≥ a) := by
        have := o; simp only [List.nil_append, List.map_cons, List.pairwise_cons] at this
        exact this.2.1
      have ov : v.call ≥ b.call := by
        have := o; simp only [List.nil_append, List.map_cons, List.pairwise_cons] at this
        exact this.1 _ List.mem_cons_self
      simp only [List.nil_append, List.head?_cons, Option.map_some, Option.some.injEq]
      rcases List.mem_cons.1 (by simpa using hw : w ∈ b :: bs) with rfl | e
      · rfl
      · have := o' _ (List.mem_map_of_mem e)
        omega

end Sys2Proof.Machine
end

