-- ==== Sys2Proof/Laws/Moves.lean ====
section
/-! SUPPORT. The moves of a vehicle: each keeps the laws of the books (`BookLaw`). -/

namespace Sys2Proof.Machine

variable {s t : State}

/-! ### Moves that leave what lanes hold -/

theorem map_tags {tag : Nat} {f : Vehicle → Vehicle} (hf : ∀ v, (f v).tag = v.tag) :
    ((s.updVeh tag f).vehicles.map Vehicle.tag) = s.vehicles.map Vehicle.tag := by
  simp only [updVeh_fields, List.map_map]
  refine List.map_congr_left fun v _ => ?_
  simp only [Function.comp]
  split <;> simp [hf]

/-- A vehicle's record with another stage and timer: what lanes hold is as before. -/
theorem cargo_updVeh (tag : Nat) {f : Vehicle → Vehicle} (hf : ∀ v, (f v).cargo = v.cargo) (u : Nat) :
    ((s.updVeh tag f).veh? u).map Vehicle.cargo = (s.veh? u).map Vehicle.cargo := by
  have ht : ∀ v, (f v).tag = v.tag := fun v => (congrArg Vehicle.tag (hf v) : (f v).cargo.tag = v.cargo.tag)
  rw [veh?_updVeh tag u ht]
  split
  · rw [Option.map_map]
    cases s.veh? u with
    | none => rfl
    | some v => exact congrArg some (hf v)
  · rfl

theorem mem_updVeh {tag : Nat} {f : Vehicle → Vehicle} {w : Vehicle} (h : w ∈ (s.updVeh tag f).vehicles) :
    ∃ v ∈ s.vehicles, w = if v.tag = tag then f v else v := by
  simp only [updVeh_fields, List.mem_map] at h
  obtain ⟨v, hv, rfl⟩ := h
  exact ⟨v, hv, rfl⟩

/-- A record changed only in stage and timer reads the same in danger and height. -/
theorem reads_cargo {u : Nat} (h : (t.veh? u).map Vehicle.cargo = (s.veh? u).map Vehicle.cargo) {v' : Vehicle}
    (hv : t.veh? u = some v') : ∃ v, s.veh? u = some v ∧ v'.cargo = v.cargo := by
  rw [hv] at h
  cases e : s.veh? u with
  | none => rw [e] at h; cases h
  | some v => rw [e] at h; exact ⟨v, rfl, Option.some.inj h⟩

theorem cargo_dg {v w : Vehicle} (h : v.cargo = w.cargo) : v.dg = w.dg ∧ v.height = w.height ∧ v.call = w.call ∧
    v.mass = w.mass ∧ v.overdue = w.overdue :=
  ⟨(congrArg Vehicle.dg h : v.cargo.dg = w.cargo.dg), (congrArg Vehicle.height h : v.cargo.height = w.cargo.height),
    (congrArg Vehicle.call h : v.cargo.call = w.cargo.call), (congrArg Vehicle.mass h : v.cargo.mass = w.cargo.mass),
    (congrArg Vehicle.overdue h : v.cargo.overdue = w.cargo.overdue)⟩

/-- A sum of masses over tags whose cargo reads the same. -/
theorem massOf_cargo {tags : List Nat} (h : ∀ u ∈ tags, (t.veh? u).map Vehicle.cargo = (s.veh? u).map Vehicle.cargo) :
    t.massOf tags = s.massOf tags := by
  have e : (t.records tags).map Vehicle.cargo = (s.records tags).map Vehicle.cargo := by
    simp only [State.records, List.map_filterMap]
    exact filterMap_same h
  simp only [State.massOf]
  rw [map_cargo Vehicle.mass (fun _ => rfl) e]

theorem massOf_snoc {tag : Nat} {v : Vehicle} (hv : s.veh? tag = some v) (xs : List Nat) :
    s.massOf (xs ++ [tag]) = s.massOf xs + v.mass := by
  simp [State.massOf, State.records, hv]

/-- Calls within the voyage stay when no record is new and no call changes. -/
theorem CallLaw.fewer (h : CallLaw s) (voyage : t.voyage = s.voyage)
    (back : ∀ w ∈ t.vehicles, ∃ v ∈ s.vehicles, w.call = v.call) : CallLaw t where
  range := by
    intro c n e
    rw [voyage] at e
    obtain ⟨a, b, d, k⟩ := h.range c n e
    refine ⟨a, b, d, fun w hw => ?_⟩
    obtain ⟨v, hv, e⟩ := back w hw
    rw [e]; exact k v hv
  load := by rw [voyage]; exact h.load
  ashore := by
    intro e
    rw [voyage] at e
    have k := h.ashore e
    cases hw : t.vehicles with
    | nil => rfl
    | cons w ws =>
      obtain ⟨v, hv, -⟩ := back w (by rw [hw]; exact List.mem_cons_self)
      rw [k] at hv
      cases hv

/-- A change of stage and timer of one vehicle that leaves lanes' stow and claim lists, with the ramps it changes. -/
theorem BookLaw.restage (h : BookLaw s) {tag : Nat} {v : Vehicle} {f : Vehicle → Vehicle} (hv : s.veh? tag = some v)
    (hf : ∀ v, (f v).cargo = v.cargo) (vehicles : t.vehicles = (s.updVeh tag f).vehicles)
    (record : RecordLaw t) (frame : t.frame = s.frame)
    (lanes : ∀ l x', t.lane? l = some x' → ∃ x, s.lane? l = some x ∧ x'.claims = x.claims ∧ x'.stow = x.stow)
    (held : t.lanes.map (fun x => { x.books with pastCrest := [] }) = s.lanes.map fun x => { x.books with pastCrest := [] })
    (sections : t.sections.map Sect.books = s.sections.map Sect.books) (moment : t.listMoment = s.listMoment)
    (standby : t.standby = s.standby) (voyage : t.voyage = s.voyage) (store : t.store = s.store)
    (profile : t.profile = s.profile) (draft : t.draft = s.draft)
    (mass : ∀ r, (t.ramp r).mass = s.massOf (t.ramp r).onRamp)
    (queue : ∀ r k, ((t.ramp r).queue k).length ≤ ((s.ramp r).queue k).length)
    (seq : ∀ r, (t.ramp r).seq = (s.ramp r).seq ∧ (t.ramp r).direction = (s.ramp r).direction)
    (released : (f v).stage.released = true ∧ ∃ l, (f v).stage.lane? = some l ∧
      (s.ramp (s.rampOfNo l)).direction = .inbound ∧
      ∀ x, s.lane? l = some x → s.firstClaimCall? x = some v.call ∧ s.borrowed x = false ∧ s.coverMoving x = false) :
    BookLaw t := by
  obtain ⟨rel, l, hl, hin, hx⟩ := released
  have ht : ∀ v, (f v).tag = v.tag := fun v => (congrArg Vehicle.tag (hf v) : (f v).cargo.tag = v.cargo.tag)
  have veh : ∀ u, t.veh? u = if u = tag then (s.veh? u).map f else s.veh? u := fun u => by
    rw [veh?_same vehicles]; exact veh?_updVeh tag u ht
  have cargo : ∀ u, (t.veh? u).map Vehicle.cargo = (s.veh? u).map Vehicle.cargo := fun u => by
    rw [veh?_same vehicles]; exact cargo_updVeh tag hf u
  have recs : ∀ xs, t.records xs = (s.records xs).map fun w => if w.tag = tag then f w else w := by
    intro xs
    refine records_map fun u _ => ?_
    rw [veh]
    by_cases e : u = tag
    · rw [if_pos e, e, hv]
      simp [veh?_tag hv]
    · rw [if_neg e]
      cases hu : s.veh? u with
      | none => rfl
      | some w => simp [veh?_tag hu, e]
  have callF : ∀ w : Vehicle, (if w.tag = tag then f w else w).call = w.call := by
    intro w; split
    · exact (cargo_dg (hf w)).2.2.1
    · rfl
  have heads : ∀ xs, ((t.records xs).head?).map Vehicle.call = ((s.records xs).head?).map Vehicle.call := by
    intro xs
    rw [recs]
    cases s.records xs with
    | nil => rfl
    | cons w ws => simp only [List.map_cons, List.head?_cons, Option.map_some, callF]
  have back : ∀ w ∈ t.vehicles, ∃ u ∈ s.vehicles, w = if u.tag = tag then f u else u := by
    intro w hw; rw [vehicles] at hw; exact mem_updVeh hw
  have only : ∀ u ∈ s.vehicles, u.tag = tag → u = v := by
    intro u hu e
    have := veh?_of_mem h.record.tags hu
    rw [e, hv] at this
    exact (Option.some.inj this).symm
  have bound : ∀ l' x, s.lane? l' = some x → tag ∈ x.claims → v.stage.lane? = some l' := by
    intro l' x hx' hm
    have := ((h.record.claims l' x hx').2 tag).1 hm
    rw [stage?_of hv] at this
    rcases this with e | e | e <;> rw [Option.some.inj e] <;> rfl
  have few : Fewer s t := by
    refine ⟨frame, ?_, ?_⟩
    · intro l' x' x hx' hx2 u hu
      obtain ⟨y, hy, e1, e2⟩ := lanes l' x' hx'
      rw [hx2] at hy
      cases hy
      rw [e1, e2] at hu
      exact hu
    · intro l' x _ u _ v' hv'
      obtain ⟨w, hw, e⟩ := reads_cargo (cargo u) hv'
      exact ⟨w, hw, (cargo_dg e).1, (cargo_dg e).2.1⟩
  refine BookLaw.of_parts record (h.hold.same held sections moment fun _ _ _ u _ => cargo u) ⟨?_, ?_, ?_⟩ ?_
    (h.segregation.fewer few) ⟨?_, ?_⟩ ?_ (ClearanceLaw.fewer h.panel.clearance few) ?_
    (h.model.same frame store profile draft)
  · intro r
    rw [mass, massOf_cargo fun u _ => cargo u]
  · intro w hw ho
    obtain ⟨u, hu, rfl⟩ := back w hw
    split at ho
    · rename_i e
      rw [if_pos e, only u hu e]
      exact rel
    · rename_i e
      rw [if_neg e]
      exact h.figures.overdue u hu ho
  · refine ⟨?_, standby ▸ h.limits.capacity.2.1, fun r k => Nat.le_trans (queue r k) (h.limits.capacity.2.2 r k)⟩
    rw [vehicles]
    simpa using h.limits.capacity.1
  · intro l' x' hx' w hw hr
    obtain ⟨x, hx2, e1, -⟩ := lanes l' x' hx'
    rw [e1] at hw ⊢
    rw [heads]
    rw [recs] at hw
    obtain ⟨u, hu, rfl⟩ := List.mem_map.1 hw
    rw [callF]
    by_cases e : u.tag = tag
    · have hu' := records_mem.1 hu
      have ev : u = v := by rw [e, hv] at hu'; exact (Option.some.inj hu'.2).symm
      subst ev
      have b := bound l' x hx2 (e ▸ hu'.1)
      have el : l' = l := by
        have k := ((record.claims l' x' hx').2 tag).1 (by rw [e1, ← e]; exact hu'.1)
        rw [show t.stage? tag = some (f u).stage by simp [State.stage?, veh, hv]] at k
        rcases k with k | k | k <;> rw [Option.some.inj k] at hl <;> exact Option.some.inj hl
      subst el
      rw [← firstClaimCall?_eq (h.record.claim_some hx2)]
      exact (hx x hx2).1
    · rw [if_neg e] at hr
      exact h.gate l' x hx2 u hu hr
  · intro r hs
    rw [(seq r).1] at hs
    rw [(seq r).2]
    exact h.ramp.running r hs
  · intro w hw l' e
    rw [(seq _).2, same_rampOfNo frame]
    obtain ⟨u, hu, rfl⟩ := back w hw
    by_cases k : u.tag = tag
    · rw [if_pos k, only u hu k] at e
      have : l' = l := by
        rcases e with e | e <;> rw [e] at hl <;> exact Option.some.inj hl
      rw [this]; exact hin
    · rw [if_neg k] at e
      exact h.ramp.outbound u hu l' e
  · intro x' hx' w hw hr
    obtain ⟨l', hl'⟩ := List.mem_iff_getElem?.1 hx'
    obtain ⟨x, hx2, e1, -⟩ := lanes l' x' hl'
    obtain ⟨x2, hx3, eb⟩ := same_lane frame hl'
    rw [hx2] at hx3
    cases hx3
    rw [same_borrowed frame eb, same_coverMoving frame eb]
    rw [e1, recs] at hw
    obtain ⟨u, hu, rfl⟩ := List.mem_map.1 hw
    by_cases e : u.tag = tag
    · have hu' := records_mem.1 hu
      have ev : u = v := by rw [e, hv] at hu'; exact (Option.some.inj hu'.2).symm
      subst ev
      have el : l' = l := by
        have k := ((record.claims l' x' hl').2 tag).1 (by rw [e1, ← e]; exact hu'.1)
        rw [show t.stage? tag = some (f u).stage by simp [State.stage?, veh, hv]] at k
        rcases k with k | k | k <;> rw [Option.some.inj k] at hl <;> exact Option.some.inj hl
      subst el
      exact (hx x hx2).2
    · rw [if_neg e] at hr
      exact h.panel.traffic x (List.mem_of_getElem? hx2) u hu hr
  · refine h.call.fewer voyage fun w hw => ?_
    obtain ⟨u, hu, rfl⟩ := back w hw
    exact ⟨u, hu, callF u⟩

/-- The release: from the queue to the on-ramp list (R87). -/
theorem BookLaw.release (h : BookLaw s) {r : Ramp} {k : Kind} {tag : Nat} {rest : List Nat}
    (hq : (s.ramp r).queue k = tag :: rest) (hc : canRelease r tag s = true) (hd : (s.ramp r).direction = .inbound) :
    BookLaw (releaseHead r k tag s) := by
  have hin : tag ∈ (s.ramp r).queue k := by rw [hq]; exact List.mem_cons_self
  obtain ⟨l, hst, hk, hr⟩ := ((h.record.queue r k).2 tag).1 hin
  obtain ⟨v, hv, hst⟩ := stage?_some hst
  have hkd : v.cls.kind = k := by unfold State.kind? at hk; rw [hv] at hk; exact Option.some.inj hk
  have hl : v.stage.lane? = some l := by rw [hst]; rfl
  let f : Vehicle → Vehicle := fun v => { v with stage := .onRamp l, transit := .running (s.rampRec r).transit }
  let g : RampState → RampState := fun q => { (q.setQueue k (q.queue k).tail) with
    onRamp := q.onRamp ++ [tag], mass := q.mass + v.mass, runCount := q.runCount + 1, stall := .running q.stallLimit }
  let t := (s.updVeh tag f).updRamp r g
  have ebooks : (releaseHead r k tag s).books = t.books := by
    simp only [releaseHead, hv, hl]
    split <;> rfl
  refine BookLaw.of_books ?_ ebooks
  have frame : t.frame = s.frame := updRamp_frame r g
  have vehicles : t.vehicles = (s.updVeh tag f).vehicles := by simp [t]
  have veh : ∀ u, t.veh? u = if u = tag then (s.veh? u).map f else s.veh? u := fun u => by
    rw [veh?_same vehicles]; exact veh?_updVeh tag u fun _ => rfl
  have ramp : ∀ q, t.ramp q = if q = r then g (s.ramp q) else s.ramp q := fun q => by
    show ((s.updVeh tag f).updRamp r g).ramp q = _
    rw [updRamp_ramp]
    cases q <;> rfl
  have lanes : t.lanes = s.lanes := by simp [t]
  have nd := (h.record.queue r k).1
  rw [hq, List.nodup_cons] at nd
  have gq : ∀ k', (g (s.ramp r)).queue k' = if k' = k then rest else (s.ramp r).queue k' := by
    intro k'
    cases k <;> cases k' <;> simp_all [g, RampState.setQueue, RampState.queue]
  have out : without tag (tag :: rest) = rest := by
    have := without_not_mem nd.1
    simp only [without] at this ⊢
    rw [List.filter_cons_of_neg (by simp), this]
  have record : RecordLaw t := by
    refine h.record.move (tag := tag) (old := some (.assigned l)) (new := some (.onRamp l)) (kd := k) frame ?_
      (by rw [stage?_of hv, hst]) ?_ ?_ (fun _ => hk) ?_ ?_ (by simp [t, onStandby, track]) ?_ ?_
    · rw [vehicles, map_tags (f := f) fun _ => rfl]; exact h.record.tags
    · intro u; unfold State.stage?; rw [veh]
      split
      · rename_i e; rw [e, hv]; rfl
      · rfl
    · intro u hu; unfold State.kind?; rw [veh, if_neg hu]
    · intro _; unfold State.kind?; rw [veh, if_pos rfl, hv]; exact congrArg some hkd
    · intro l2 e
      cases e
      exact h.record.bound tag l (by rw [stage?_of hv, hst]; rfl)
    · intro l2 x' x hx' hx
      rw [show t.lane? l2 = s.lane? l2 by simp [State.lane?, lanes], hx] at hx'
      cases hx'
      simp [inStow, inClaims, inCrest, track_eq]
    · intro q
      rw [ramp]
      by_cases e : q = r
      · subst e
        simp only [if_true, onRampList, inQueue, hr, beq_self_eq_true, Bool.true_and]
        refine ⟨rfl, fun k' => ?_⟩
        rw [gq]
        by_cases e : k' = k
        · subst e; simp [track, hq, out]
        · rw [if_neg e, show (k == k') = false by simpa using Ne.symm e]; rfl
      · have k : (r == q) = false := by simpa using Ne.symm e
        simp [if_neg e, onRampList, inQueue, hr, k, track_eq]
  refine h.restage (f := f) hv (fun _ => rfl) vehicles record frame ?_ (by rw [lanes]) (by simp [t]) (by simp [t])
    (by simp [t]) (by simp [t]) (by simp [t]) (by simp [t]) (by simp [t]) ?_ ?_ ?_ ?_
  · intro l' x' hx'
    exact ⟨x', by rw [← hx']; simp [State.lane?, lanes], rfl, rfl⟩
  · intro q
    rw [ramp]
    by_cases e : q = r
    · subst e
      simp only [if_true, g]
      rw [massOf_snoc hv, h.figures.ramp]
    · rw [if_neg e]; exact h.figures.ramp q
  · intro q k'
    rw [ramp]
    by_cases e : q = r
    · subst e
      rw [if_pos rfl, gq]
      by_cases e : k' = k
      · subst e; rw [if_pos rfl, hq]; simp
      · exact Nat.le_of_eq (by rw [if_neg e])
    · exact Nat.le_of_eq (by rw [if_neg e])
  · intro q
    rw [ramp]
    by_cases e : q = r
    · subst e; rw [if_pos rfl]; cases k <;> exact ⟨rfl, rfl⟩
    · rw [if_neg e]; exact ⟨rfl, rfl⟩
  · refine ⟨rfl, l, rfl, by rw [hr]; exact hd, fun x hx => ?_⟩
    unfold canRelease at hc
    rw [hv] at hc
    cases hb : s.bandOf r with
    | none => rw [hb] at hc; cases hc
    | some b =>
      rw [hb] at hc
      simp only [hl, Option.bind_some, hx, Bool.and_eq_true, State.gateOpen, State.releasePath, beq_iff_eq] at hc
      obtain ⟨⟨⟨-, -⟩, p1, p2⟩, p3⟩ := hc
      refine ⟨p3, ?_, by simpa using p2⟩
      cases hcar : s.carrier? x.sect with
      | none => simp [State.borrowed, hcar]
      | some q =>
        have hh := h.model.carried x (List.mem_of_getElem? hx) (by rw [hcar]; rfl)
        rw [hh] at p1
        simp only [State.carrierWorking, hcar, Bool.not_true, Bool.false_or, decide_eq_true_eq] at p1
        simp only [State.borrowed, hcar, p1]
        rfl

/-- The crest event: from the on-ramp list to the past-crest list (R93). -/
theorem BookLaw.crest (h : BookLaw s) {r : Ramp} {tag : Nat} {v : Vehicle} {l : Nat} (hm : tag ∈ (s.ramp r).onRamp)
    (hv : s.veh? tag = some v) (hl : v.stage.lane? = some l) :
    BookLaw (((leaveRamp r v s).setStage tag (.pastCrest l)).updLane l fun x =>
      { x with pastCrest := x.pastCrest ++ [tag] }) := by
  obtain ⟨l', hst, hr⟩ := ((h.record.onRamp r).2 tag).1 hm
  rw [stage?_of hv] at hst
  have hst := Option.some.inj hst
  have : l' = l := by rw [hst] at hl; exact Option.some.inj hl
  subst this
  have hlt := h.record.bound tag l' (by rw [stage?_of hv, hst]; rfl)
  have hmass : (s.ramp r).mass = s.massOf (without tag (s.ramp r).onRamp) + v.mass := by
    rw [h.figures.ramp]
    obtain ⟨a, b, e1, e2, -, -⟩ := split_once hm (h.record.onRamp r).1
    rw [e2, e1]
    simp only [State.massOf, records_append, records_cons hv, List.map_append, List.map_cons, List.sum_append,
      List.sum_cons]
    omega
  have htag := veh?_tag hv
  let f : Vehicle → Vehicle := fun v => { v with stage := .pastCrest l' }
  let g : RampState → RampState := fun q => { q with onRamp := without tag q.onRamp, mass := q.mass - v.mass }
  let fl : Lane → Lane := fun x => { x with pastCrest := x.pastCrest ++ [tag] }
  let t := ((s.updRamp r g).updVeh tag f).updLane l' fl
  have et : ((leaveRamp r v s).setStage tag (.pastCrest l')).updLane l' fl = t := by
    simp only [t, leaveRamp, State.setStage, htag, g, f]
  show BookLaw (((leaveRamp r v s).setStage tag (.pastCrest l')).updLane l' fl)
  rw [et]
  have frame : t.frame = s.frame := (updLane_frame (f := fl) l' fun _ => rfl).trans (updRamp_frame r g)
  have vehicles : t.vehicles = (s.updVeh tag f).vehicles := by simp [t]
  have veh : ∀ u, t.veh? u = if u = tag then (s.veh? u).map f else s.veh? u := fun u => by
    rw [veh?_same vehicles]; exact veh?_updVeh tag u fun _ => rfl
  have ramp : ∀ q, t.ramp q = if q = r then g (s.ramp q) else s.ramp q := fun q => by
    have : t.ramp q = (s.updRamp r g).ramp q := by cases q <;> rfl
    rw [this, updRamp_ramp]
  have lane : ∀ k, t.lane? k = if l' = k then (s.lane? k).map fl else s.lane? k := fun k => by
    show (((s.updRamp r g).updVeh tag f).updLane l' fl).lane? k = _
    rw [updLane_lane?]
    have : ((s.updRamp r g).updVeh tag f).lane? k = s.lane? k := by simp [State.lane?]
    rw [this]
  have record : RecordLaw t := by
    refine h.record.move (tag := tag) (old := some (.onRamp l')) (new := some (.pastCrest l')) (kd := v.cls.kind) frame ?_
      (by rw [stage?_of hv, hst]) ?_ ?_ (fun _ => by simp [State.kind?, hv]) ?_ ?_ (by simp [t, onStandby, track]) ?_ ?_
    · rw [vehicles, map_tags (f := f) fun _ => rfl]; exact h.record.tags
    · intro u; unfold State.stage?; rw [veh]
      split
      · rename_i e; rw [e, hv]; rfl
      · rfl
    · intro u hu; unfold State.kind?; rw [veh, if_neg hu]
    · intro _; unfold State.kind?; rw [veh, if_pos rfl, hv]; rfl
    · intro l2 e; cases e; exact hlt
    · intro l2 x' x hx' hx
      rw [lane, hx] at hx'
      by_cases e : l' = l2
      · subst e
        rw [if_pos rfl] at hx'
        cases hx'
        simp [inStow, inClaims, inCrest, track, fl]
      · rw [if_neg e] at hx'
        cases hx'
        simp [inStow, inClaims, inCrest, track_eq, show (l' == l2) = false by simpa using e]
    · intro q
      rw [ramp]
      by_cases e : q = r
      · subst e
        simp only [if_true, onRampList, inQueue, hr, beq_self_eq_true]
        exact ⟨rfl, fun k' => by cases k' <;> rfl⟩
      · have k : (r == q) = false := by simpa using Ne.symm e
        simp [if_neg e, onRampList, inQueue, hr, k, track_eq]
  have look : ∀ l2 x', t.lane? l2 = some x' → ∃ x, s.lane? l2 = some x ∧ x'.claims = x.claims ∧ x'.stow = x.stow := by
    intro l2 x' hx'
    rw [lane] at hx'
    split at hx'
    · cases hx : s.lane? l2 with
      | none => rw [hx] at hx'; cases hx'
      | some x => rw [hx] at hx'; cases hx'; exact ⟨x, rfl, rfl, rfl⟩
    · exact ⟨x', hx', rfl, rfl⟩
  refine h.restage (f := f) hv (fun _ => rfl) vehicles record frame look ?_ (by simp [t]) (by simp [t])
    (by simp [t]) (by simp [t]) (by simp [t]) (by simp [t]) (by simp [t]) ?_ ?_ ?_ ?_
  · have : t.lanes = s.lanes.modify l' fl := by simp [t]
    rw [this]
    exact map_modify_same (f := fl) (fun _ => rfl) _ _
  · intro q
    rw [ramp]
    by_cases e : q = r
    · subst e
      rw [if_pos rfl]
      show (s.ramp q).mass - v.mass = s.massOf (without tag (s.ramp q).onRamp)
      omega
    · rw [if_neg e]; exact h.figures.ramp q
  · intro q k'
    rw [ramp]
    by_cases e : q = r
    · subst e; rw [if_pos rfl]; cases k' <;> exact Nat.le_refl _
    · exact Nat.le_of_eq (by rw [if_neg e])
  · intro q
    rw [ramp]
    split <;> exact ⟨rfl, rfl⟩
  · have hrel : v.stage.released = true := by rw [hst]; rfl
    refine ⟨rfl, l', rfl, h.ramp.outbound v (veh?_mem hv) l' (Or.inl hst), fun x hx => ?_⟩
    have hin : v ∈ s.records x.claims := by
      refine records_mem.2 ⟨?_, by rw [htag]; exact hv⟩
      rw [htag, (h.record.claims l' x hx).2, stage?_of hv, hst]
      exact Or.inr (Or.inl rfl)
    exact ⟨h.order.released x (List.mem_of_getElem? hx) v hin hrel,
      h.panel.traffic x (List.mem_of_getElem? hx) v hin hrel⟩

end Sys2Proof.Machine
end

