-- ==== Sys2Proof/Laws/Removals.lean ====
section
/-! SUPPORT. A vehicle's record is freed: recalls, shutting out and discharge removals keep the laws of the books. -/

namespace Sys2Proof.Machine

variable {s t : State}

/-! ### Where a vehicle of a lane stands -/

/-- What stands on a lane's lists is bound to the lane. -/
theorem RecordLaw.holds (h : RecordLaw s) {l : Nat} {x : Lane} (hx : s.lane? l = some x) {u : Nat}
    (hu : u ∈ x.stow ++ x.claims) : (s.stage? u).bind Stage.lane? = some l := by
  rcases List.mem_append.1 hu with e | e
  · obtain ⟨o, e⟩ := ((h.stow l x hx).2 u).1 e; rw [e]; rfl
  · rcases ((h.claims l x hx).2 u).1 e with e | e | e <;> rw [e] <;> rfl

/-- Records of tags after one record is freed. -/
theorem records_free {tag : Nat} (vehicles : t.vehicles = (s.freeVeh tag).vehicles) {xs : List Nat} :
    t.records (without tag xs) = s.records (without tag xs) := by
  refine records_same fun u hu => ?_
  rw [veh?_same vehicles, veh?_freeVeh, if_neg (mem_without.1 hu).2]

/-- A list that held the tag not, or once. -/
theorem records_without {tag : Nat} {v : Vehicle} (hv : s.veh? tag = some v) {xs : List Nat} (hn : xs.Nodup) :
    (tag ∉ xs ∧ without tag xs = xs) ∨ ∃ a b, s.records xs = s.records a ++ v :: s.records b ∧
      s.records (without tag xs) = s.records a ++ s.records b ∧ xs.length = (without tag xs).length + 1 ∧
      xs = a ++ tag :: b := by
  by_cases hm : tag ∈ xs
  · obtain ⟨a, b, e1, e2, -, -⟩ := split_once hm hn
    refine Or.inr ⟨a, b, ?_, ?_, ?_, e1⟩
    · rw [e1, records_append, records_cons hv]
    · rw [e2, records_append]
    · rw [e2, e1]; simp; omega
  · exact Or.inl ⟨hm, without_not_mem hm⟩

/-- A vehicle's record is freed, and the vehicle leaves every list it stands on. -/
theorem BookLaw.drop (h : BookLaw s) {tag : Nat} {v : Vehicle} (hv : s.veh? tag = some v)
    (frame : t.frame = s.frame) (vehicles : t.vehicles = (s.freeVeh tag).vehicles)
    (standby : t.standby = track tag (onStandby (some v.stage)) false s.standby)
    (lists : ∀ l x' x, t.lane? l = some x' → s.lane? l = some x →
      x'.stow = track tag (inStow l (some v.stage)) false x.stow ∧
      x'.claims = track tag (inClaims l (some v.stage)) false x.claims ∧
      x'.pastCrest = track tag (inCrest l (some v.stage)) false x.pastCrest)
    (ramps : ∀ r, (t.ramp r).onRamp = track tag (onRampList s r (some v.stage)) false (s.ramp r).onRamp ∧
      ∀ k, (t.ramp r).queue k = track tag (inQueue s r v.cls.kind k (some v.stage)) false ((s.ramp r).queue k))
    (hold : HoldLaw t) (mass : ∀ r, (t.ramp r).mass = s.massOf (t.ramp r).onRamp)
    (turn : ∀ r, (t.ramp r).seq = (s.ramp r).seq ∧ (t.ramp r).direction = (s.ramp r).direction)
    (voyage : t.voyage = s.voyage) (store : t.store = s.store) (profile : t.profile = s.profile)
    (draft : t.draft = s.draft) : BookLaw t := by
  have veh : ∀ u, t.veh? u = if u = tag then none else s.veh? u := fun u => by
    rw [veh?_same vehicles]; exact veh?_freeVeh tag u
  have record : RecordLaw t := by
    refine h.record.move (tag := tag) (old := some v.stage) (new := none) (kd := v.cls.kind) frame ?_ (stage?_of hv)
      ?_ ?_ (fun _ => by simp [State.kind?, hv]) (fun e => absurd rfl e) (fun _ e => by cases e) standby lists ramps
    · rw [vehicles]
      exact h.record.tags.sublist (List.Sublist.map _ List.filter_sublist)
    · intro u; unfold State.stage?; rw [veh]; split <;> rfl
    · intro u hu; unfold State.kind?; rw [veh, if_neg hu]
  have gone : ∀ {o : Bool} {xs : List Nat} {u : Nat}, u ∈ track tag o false xs → u ∈ xs := by
    intro o xs u hu
    cases o
    · exact hu
    · exact (mem_without.1 hu).1
  have short : ∀ {o : Bool} {xs : List Nat}, (track tag o false xs).length ≤ xs.length := by
    intro o xs
    cases o
    · exact Nat.le_refl _
    · exact List.length_filter_le _ _
  have back : ∀ w ∈ t.vehicles, w ∈ s.vehicles := by
    intro w hw; rw [vehicles] at hw; exact (List.mem_filter.1 hw).1
  have few : Fewer s t := by
    refine ⟨frame, ?_, ?_⟩
    · intro l x' x hx' hx u hu
      obtain ⟨e1, e2, -⟩ := lists l x' x hx' hx
      rw [e1, e2] at hu
      rcases List.mem_append.1 hu with e | e
      · exact List.mem_append_left _ (gone e)
      · exact List.mem_append_right _ (gone e)
    · intro l x _ u _ v' hv'
      rw [veh] at hv'
      split at hv'
      · cases hv'
      · exact ⟨v', hv', rfl, rfl⟩
  have tagNotIn : ∀ {u w}, t.veh? u = some w → u ≠ tag := by
    intro u w hu e
    rw [veh, if_pos e] at hu
    cases hu
  refine BookLaw.of_parts record hold ⟨?_, fun w hw ho => h.figures.overdue w (back w hw) ho, ?_⟩ ?_
    (h.segregation.fewer few) ⟨?_, ?_⟩ ?_ (ClearanceLaw.fewer h.panel.clearance few)
    (h.call.fewer voyage fun w hw => ⟨w, back w hw, rfl⟩) (h.model.same frame store profile draft)
  · intro r
    rw [mass]
    simp only [State.massOf]
    rw [records_same fun u hu => ?_]
    obtain ⟨l, e, -⟩ := ((record.onRamp r).2 u).1 hu
    obtain ⟨w, e, -⟩ := stage?_some e
    rw [veh, if_neg (tagNotIn e)]
  · refine ⟨?_, ?_, fun r k => ?_⟩
    · rw [vehicles]; exact Nat.le_trans (List.length_filter_le _ _) h.limits.capacity.1
    · rw [standby]; exact Nat.le_trans short h.limits.capacity.2.1
    · rw [(ramps r).2]; exact Nat.le_trans short (h.limits.capacity.2.2 r k)
  · intro l x' hx'
    obtain ⟨x, hx, -⟩ := same_lane frame hx'
    have e := (lists l x' x hx' hx).2.1
    have recs : t.records x'.claims = s.records x'.claims := by
      refine records_same fun u hu => ?_
      have := record.claim_some hx' u hu
      obtain ⟨w, hw⟩ := Option.isSome_iff_exists.1 this
      rw [veh, if_neg (tagNotIn hw)]
    rw [recs, e]
    have g := h.gate l x hx
    cases inClaims l (some v.stage)
    · exact g
    · rcases records_without hv (h.record.claims l x hx).1 with ⟨-, e⟩ | ⟨a, b, e1, e2, -, -⟩
      · simp only [track]; rw [e]; exact g
      · simp only [track]
        rw [e1] at g
        rw [e2]
        refine g.drop ?_
        have o := h.order.calls x (List.mem_of_getElem? hx)
        rw [records_append, e1, List.map_append, List.pairwise_append] at o
        exact o.2.1
  · intro r hs
    rw [(turn r).1] at hs
    rw [(turn r).2]
    exact h.ramp.running r hs
  · intro w hw l e
    rw [(turn _).2, same_rampOfNo frame]
    exact h.ramp.outbound w (back w hw) l e
  · intro x' hx' w hw hr
    obtain ⟨l, hl'⟩ := List.mem_iff_getElem?.1 hx'
    obtain ⟨x, hx, eb⟩ := same_lane frame hl'
    rw [same_borrowed frame eb, same_coverMoving frame eb]
    refine h.panel.traffic x (List.mem_of_getElem? hx) w ?_ hr
    have m := records_mem.1 hw
    have e := (lists l x' x hl' hx).2.1
    rw [e] at m
    refine records_mem.2 ⟨gone m.1, ?_⟩
    have k := m.2
    rwa [veh, if_neg (tagNotIn m.2)] at k

/-! ### The removals -/

/-- A vehicle on standby leaves (R11, R149). -/
theorem BookLaw.offStandby (h : BookLaw s) {tag : Nat} {v : Vehicle} (hv : s.veh? tag = some v)
    (hst : v.stage = .standby) : BookLaw ({ s with standby := without tag s.standby }.freeVeh tag) := by
  have same : ∀ r, (({ s with standby := without tag s.standby } : State).freeVeh tag).ramp r = s.ramp r := by
    intro r; cases r <;> rfl
  have notIn : ∀ l x, s.lane? l = some x → tag ∉ x.stow ++ x.claims := by
    intro l x hx hu
    have := h.record.holds hx hu
    rw [stage?_of hv, hst] at this
    cases this
  refine h.drop (v := v) hv rfl rfl (by rw [hst]; rfl) ?_ ?_ ?_ ?_ ?_ rfl rfl rfl rfl
  · intro l x' x hx' hx
    have : x' = x := by
      have e : s.lane? l = some x' := hx'
      rw [hx] at e; exact (Option.some.inj e).symm
    rw [this, hst]
    exact ⟨rfl, rfl, rfl⟩
  · intro r
    rw [same, hst]
    exact ⟨rfl, fun _ => rfl⟩
  · refine h.hold.same rfl rfl rfl ?_
    intro l x hx u hu
    have e : u ≠ tag := fun e => notIn l x hx (e ▸ hu)
    rw [veh?_freeVeh, if_neg e]
    rfl
  · intro r; rw [same]; exact h.figures.ramp r
  · intro r; rw [same]; exact ⟨rfl, rfl⟩

/-- The mass of a vehicle is within that of its lane. -/
theorem mass_le {x : Lane} {S C A B : List Vehicle} {v : Vehicle} (h : LaneHold x S C) (e : S ++ C = A ++ v :: B) :
    v.mass ≤ x.mass := by
  rw [h.mass, e]
  simp only [List.map_append, List.map_cons, List.sum_append, List.sum_cons]
  omega

theorem moment_less (m : Int) {a v : Nat} (o : Int) (h : v ≤ a) :
    m - v * o = m + (((a - v : Nat) : Int) * o - a * o) := by
  rw [Int.ofNat_sub h, Int.sub_mul]
  omega

/-- Two changes of one place are one. -/
theorem modify_twice {α : Type} (f g : α → α) : ∀ (l : Nat) (xs : List α), (xs.modify l f).modify l g = xs.modify l fun a => g (f a)
  | _, [] => by simp
  | 0, a :: as => by simp
  | n + 1, a :: as => by simp [modify_twice f g n as]

/-- A share taken from a lane that a change has just left, in one update of each part. -/
theorem dropShare_updLane {l : Nat} {x : Lane} {f : Lane → Lane} (hx : s.lane? l = some x) (v : Vehicle) (p : Bool)
    (hf : (f x).sect = x.sect ∧ (f x).offset = x.offset) :
    dropShare v l p (s.updLane l f) = { s with
      lanes := s.lanes.modify l fun y => { f y with
        used := (f y).used - (v.length + (f y).gap), reefers := (f y).reefers - (if v.reefer then 1 else 0)
        mass := (f y).mass - v.mass, placedMass := (f y).placedMass - (if p then v.mass else 0) }
      sections := s.sections.modify x.sect fun c =>
        { c with projected := c.projected - v.mass, placed := c.placed - (if p then v.mass else 0) }
      listMoment := s.listMoment - v.mass * x.offset } := by
  have e : (s.updLane l f).lane? l = some (f x) := by rw [updLane_same, hx]; rfl
  unfold dropShare
  rw [e]
  simp only [hf.1, hf.2, State.updLane, State.updSect, modify_twice]

/-- A vehicle leaves its stow list (R14, R154). -/
theorem BookLaw.unstow (h : BookLaw s) {tag : Nat} {v : Vehicle} {l o : Nat} (hv : s.veh? tag = some v)
    (hst : v.stage = .placed l o) : BookLaw (dropPlaced v l s) := by
  have htag := veh?_tag hv
  subst htag
  have hs := stage?_of hv
  rw [hst] at hs
  have hlt := h.record.bound v.tag l (by rw [hs]; rfl)
  obtain ⟨x, hx⟩ : ∃ x, s.lane? l = some x := ⟨s.lanes[l], by simp [State.lane?, hlt]⟩
  have hm : v.tag ∈ x.stow := ((h.record.stow l x hx).2 v.tag).2 ⟨o, hs⟩
  have hold := h.hold.lane l x hx
  obtain ⟨a, b, e1, e2, e3⟩ : ∃ a b, s.records x.stow = s.records a ++ v :: s.records b ∧
      s.records (without v.tag x.stow) = s.records a ++ s.records b ∧
      x.stow.length = (without v.tag x.stow).length + 1 := by
    rcases records_without hv (h.record.stow l x hx).1 with ⟨e, -⟩ | ⟨a, b, e1, e2, e3, -⟩
    · exact absurd hm e
    · exact ⟨a, b, e1, e2, e3⟩
  have le1 : v.mass ≤ x.mass := by
    refine mass_le (A := s.records a) (B := s.records b ++ s.records x.claims) hold ?_
    rw [e1]; simp
  have le2 : v.mass ≤ x.placedMass := by
    rw [hold.placed, e1]
    simp only [List.map_append, List.map_cons, List.sum_append, List.sum_cons]
    omega
  let F : Lane → Lane := fun y => { y with
    stow := without v.tag y.stow, used := y.used - (v.length + y.gap), reefers := y.reefers - (if v.reefer then 1 else 0)
    mass := y.mass - v.mass, placedMass := y.placedMass - v.mass }
  let G : Sect → Sect := fun c => { c with projected := c.projected - v.mass, placed := c.placed - v.mass }
  let t : State := { s with
    lanes := s.lanes.modify l F, sections := s.sections.modify x.sect G, listMoment := s.listMoment - v.mass * x.offset
    vehicles := (s.freeVeh v.tag).vehicles }
  have et : dropPlaced v l s = t := by
    unfold dropPlaced
    rw [dropShare_updLane hx v true ⟨rfl, rfl⟩]
    rfl
  rw [et]
  have lane : ∀ k, t.lane? k = if l = k then (s.lane? k).map F else s.lane? k := fun k => updLane_lane? s l k F
  have frame : t.frame = s.frame := by
    have e1 := updLane_frame (s := s) (f := F) l fun _ => rfl
    have e2 := updSect_frame (s := s.updLane l F) (f := G) x.sect fun _ => rfl
    exact e2.trans e1
  have ramp : ∀ r, t.ramp r = s.ramp r := by intro r; cases r <;> rfl
  refine h.drop (v := v) hv frame rfl (by rw [hst]; rfl) ?_ ?_ ?_ ?_ ?_ rfl rfl rfl rfl
  · intro k x' y hx' hy
    rw [lane, hy] at hx'
    rw [hst]
    by_cases e : l = k
    · rw [if_pos e] at hx'
      cases hx'
      exact ⟨by simp [inStow, e, track, F], rfl, rfl⟩
    · rw [if_neg e] at hx'
      cases hx'
      exact ⟨by simp [inStow, track, show (l == k) = false by simpa using e], rfl, rfl⟩
  · intro r
    rw [ramp, hst]
    exact ⟨rfl, fun _ => rfl⟩
  · refine h.hold.change hx (f := F) (g := G) rfl rfl ?_ rfl rfl ?_ ?_ ?_
    · exact moment_less _ _ le1
    · intro c _ hc le3 le4
      refine ⟨?_, ?_, ?_⟩
      · show c.projected - v.mass + x.mass = c.projected + (x.mass - v.mass); omega
      · show c.placed - v.mass + x.placedMass = c.placed + (x.placedMass - v.mass); omega
      · show c.projected - v.mass ≤ c.massLimit * 1000; omega
    · have k : LaneHold (F x) (s.records a ++ s.records b) (s.records x.claims) := by
        rw [e1] at hold
        exact (hold.dropPlaced e3.symm)
      have r1 : t.records (without v.tag x.stow) = s.records a ++ s.records b := by
        rw [records_free (s := s) (t := t) (tag := v.tag) rfl, e2]
      have r2 : t.records x.claims = s.records x.claims := by
        have n : v.tag ∉ x.claims := by
          rw [(h.record.claims l x hx).2, hs]
          simp
        rw [← without_not_mem n, records_free (s := s) (t := t) (tag := v.tag) rfl]
      show LaneHold (F x) (t.records (without v.tag x.stow)) (t.records x.claims)
      rw [r1, r2]
      exact k
    · intro k y hk hy u hu
      have e : u ≠ v.tag := by
        intro e
        have := h.record.holds hy hu
        rw [e, hs] at this
        exact hk (Option.some.inj this).symm
      rw [veh?_same (s := s.freeVeh v.tag) (t := t) rfl, veh?_freeVeh, if_neg e]
  · intro r; rw [ramp]; exact h.figures.ramp r
  · intro r; rw [ramp]; exact ⟨rfl, rfl⟩

/-! ### A vehicle of a claim list leaves its queue, its ramp or its crest -/

/-- The vehicle off the queue, the on-ramp list or the past-crest list that its stage names. -/
def leaves (v : Vehicle) (s : State) : State :=
  match v.stage with
  | .assigned l => s.updRamp (s.rampOfNo l) fun q => q.setQueue v.cls.kind (without v.tag (q.queue v.cls.kind))
  | .onRamp l => leaveRamp (s.rampOfNo l) v s
  | .pastCrest l => leaveCrest l v.tag s
  | .standby | .placed _ _ => s

/-- What `leaves` does: lists without the vehicle, the ramp mass without its mass. -/
structure Left (s t : State) (v : Vehicle) (l : Nat) : Prop where
  rest : t = { s with
    lanes := s.lanes.modify l fun y => { y with pastCrest := track v.tag (inCrest l (some v.stage)) false y.pastCrest }
    lower := t.lower, upper := t.upper }
  lists : ∀ r, (t.ramp r).onRamp = track v.tag (onRampList s r (some v.stage)) false (s.ramp r).onRamp ∧
    ∀ k, (t.ramp r).queue k = track v.tag (inQueue s r v.cls.kind k (some v.stage)) false ((s.ramp r).queue k)
  mass : ∀ r, (t.ramp r).mass = s.massOf (t.ramp r).onRamp
  turn : ∀ r, (t.ramp r).seq = (s.ramp r).seq ∧ (t.ramp r).direction = (s.ramp r).direction

theorem modify_same {α : Type} : ∀ (l : Nat) (xs : List α), (xs.modify l fun a => a) = xs
  | _, [] => by simp
  | 0, a :: as => by simp
  | n + 1, a :: as => by simp [modify_same n as]

/-- A vehicle of a claim list, in the stages it may have. -/
def Stage.claimed (st : Stage) (l : Nat) : Prop := st = .assigned l ∨ st = .onRamp l ∨ st = .pastCrest l

theorem BookLaw.left (h : BookLaw s) {v : Vehicle} {l : Nat} (hv : s.veh? v.tag = some v) (hst : v.stage.claimed l) :
    Left s (leaves v s) v l := by
  have hs := stage?_of hv
  unfold leaves
  rcases hst with e | e | e
  · rw [e] at hs ⊢
    have ramp : ∀ r, ((s.updRamp (s.rampOfNo l) fun q => q.setQueue v.cls.kind (without v.tag (q.queue v.cls.kind))).ramp r) =
        if r = s.rampOfNo l then (s.ramp r).setQueue v.cls.kind (without v.tag ((s.ramp r).queue v.cls.kind))
        else s.ramp r := fun r => by rw [updRamp_ramp]
    constructor
    · simp only [e, inCrest, track, modify_same]
      cases s.rampOfNo l <;> rfl
    · intro r
      dsimp only
      rw [ramp]
      by_cases k : r = s.rampOfNo l
      · rw [if_pos k, e]
        refine ⟨by cases v.cls.kind <;> rfl, fun k' => ?_⟩
        simp only [inQueue, ← k, beq_self_eq_true, Bool.true_and]
        cases v.cls.kind <;> cases k' <;> rfl
      · have k' : (s.rampOfNo l == r) = false := by simpa using Ne.symm k
        simp [if_neg k, e, onRampList, inQueue, k', track]
    · intro r
      dsimp only
      rw [ramp]
      split
      · cases v.cls.kind <;> exact h.figures.ramp r
      · exact h.figures.ramp r
    · intro r
      dsimp only
      rw [ramp]
      split
      · cases v.cls.kind <;> exact ⟨rfl, rfl⟩
      · exact ⟨rfl, rfl⟩
  · rw [e] at hs ⊢
    have ramp : ∀ r, ((leaveRamp (s.rampOfNo l) v s).ramp r) = if r = s.rampOfNo l then
        { s.ramp r with onRamp := without v.tag (s.ramp r).onRamp, mass := (s.ramp r).mass - v.mass } else s.ramp r :=
      fun r => by unfold leaveRamp; rw [updRamp_ramp]
    have hm : v.tag ∈ (s.ramp (s.rampOfNo l)).onRamp := ((h.record.onRamp _).2 v.tag).2 ⟨l, hs, rfl⟩
    constructor
    · simp only [e, inCrest, track, modify_same, leaveRamp]
      cases s.rampOfNo l <;> rfl
    · intro r
      dsimp only
      rw [ramp]
      by_cases k : r = s.rampOfNo l
      · rw [if_pos k, e]
        simp only [onRampList, ← k, beq_self_eq_true]
        exact ⟨rfl, fun k' => by cases k' <;> rfl⟩
      · have k' : (s.rampOfNo l == r) = false := by simpa using Ne.symm k
        simp [if_neg k, e, onRampList, inQueue, k', track]
    · intro r
      dsimp only
      rw [ramp]
      split
      · rename_i k
        subst k
        dsimp only
        rw [h.figures.ramp]
        rcases records_without hv (h.record.onRamp (s.rampOfNo l)).1 with ⟨n, -⟩ | ⟨a, b, e1, e2, -, -⟩
        · exact absurd hm n
        · simp only [State.massOf, e1, e2, List.map_append, List.map_cons, List.sum_append, List.sum_cons]
          omega
      · exact h.figures.ramp r
    · intro r
      dsimp only
      rw [ramp]
      split <;> exact ⟨rfl, rfl⟩
  · rw [e] at hs ⊢
    have ramp : ∀ r, (leaveCrest l v.tag s).ramp r = s.ramp r := by intro r; cases r <;> rfl
    constructor
    · simp only [e, inCrest, track, leaveCrest, beq_self_eq_true]
      rfl
    · intro r
      dsimp only
      rw [ramp, e]
      exact ⟨rfl, fun _ => rfl⟩
    · intro r
      dsimp only
      rw [ramp]
      exact h.figures.ramp r
    · intro r
      dsimp only
      rw [ramp]
      exact ⟨rfl, rfl⟩

theorem Left.lane? {t : State} {v : Vehicle} {l : Nat} (h : Left s t v l) (k : Nat) : t.lane? k =
    if l = k then (s.lane? k).map fun y => { y with pastCrest := track v.tag (inCrest l (some v.stage)) false y.pastCrest }
    else s.lane? k := by
  have := updLane_lane? s l k fun y => { y with pastCrest := track v.tag (inCrest l (some v.stage)) false y.pastCrest }
  rw [← this, h.rest]
  rfl

/-- A vehicle leaves its claim list with its queue, its ramp or its crest (R11 to R13). -/
theorem BookLaw.unclaim (h : BookLaw s) {v : Vehicle} {l : Nat} (hv : s.veh? v.tag = some v) (hst : v.stage.claimed l) :
    BookLaw ((dropShare v l false ((leaves v s).updLane l fun x =>
      { x with claims := without v.tag x.claims, overdue := x.overdue - (if v.overdue then 1 else 0) })).freeVeh v.tag) := by
  have left := h.left hv hst
  have hs := stage?_of hv
  have hb : v.stage.lane? = some l := by rcases hst with e | e | e <;> rw [e] <;> rfl
  have hlt := h.record.bound v.tag l (by rw [hs]; exact hb)
  obtain ⟨x, hx⟩ : ∃ x, s.lane? l = some x := ⟨s.lanes[l], by simp [State.lane?, hlt]⟩
  have hm : v.tag ∈ x.claims := ((h.record.claims l x hx).2 v.tag).2 (by
    rw [hs]; rcases hst with e | e | e <;> simp [e])
  have hns : v.tag ∉ x.stow := by
    rw [(h.record.stow l x hx).2, hs]
    rcases hst with e | e | e <;> simp [e]
  have hold := h.hold.lane l x hx
  obtain ⟨a, b, e1, e2, e3⟩ : ∃ a b, s.records x.claims = s.records a ++ v :: s.records b ∧
      s.records (without v.tag x.claims) = s.records a ++ s.records b ∧
      x.claims.length = (without v.tag x.claims).length + 1 := by
    rcases records_without hv (h.record.claims l x hx).1 with ⟨e, -⟩ | ⟨a, b, e1, e2, e3, -⟩
    · exact absurd hm e
    · exact ⟨a, b, e1, e2, e3⟩
  have le1 : v.mass ≤ x.mass := by
    refine mass_le (A := s.records x.stow ++ s.records a) (B := s.records b) hold ?_
    rw [e1]; simp
  let P : Lane → Lane := fun y => { y with pastCrest := track v.tag (inCrest l (some v.stage)) false y.pastCrest }
  let F : Lane → Lane := fun y => { P y with
    claims := without v.tag y.claims, overdue := y.overdue - (if v.overdue then 1 else 0)
    used := y.used - (v.length + y.gap), reefers := y.reefers - (if v.reefer then 1 else 0), mass := y.mass - v.mass }
  let G : Sect → Sect := fun c => { c with projected := c.projected - v.mass }
  let t : State := { s with
    lanes := s.lanes.modify l F, sections := s.sections.modify x.sect G, listMoment := s.listMoment - v.mass * x.offset
    vehicles := (s.freeVeh v.tag).vehicles, lower := (leaves v s).lower, upper := (leaves v s).upper }
  have et : (dropShare v l false ((leaves v s).updLane l fun x =>
      { x with claims := without v.tag x.claims, overdue := x.overdue - (if v.overdue then 1 else 0) })).freeVeh v.tag = t := by
    have hx' : (leaves v s).lane? l = some (P x) := by rw [left.lane?, if_pos rfl, hx]; rfl
    rw [dropShare_updLane hx' v false ⟨rfl, rfl⟩, left.rest]
    simp only [modify_twice, Bool.false_eq_true, if_false]
    rfl
  rw [et]
  have lane : ∀ k, t.lane? k = if l = k then (s.lane? k).map F else s.lane? k := fun k => updLane_lane? s l k F
  have frame : t.frame = s.frame := by
    have e1 := updLane_frame (s := s) (f := F) l fun _ => rfl
    have e2 := updSect_frame (s := s.updLane l F) (f := G) x.sect fun _ => rfl
    exact e2.trans e1
  have ramp : ∀ r, t.ramp r = (leaves v s).ramp r := by intro r; cases r <;> rfl
  refine h.drop (v := v) hv frame rfl ?_ ?_ ?_ ?_ ?_ ?_ rfl rfl rfl rfl
  · rcases hst with e | e | e <;> rw [e] <;> rfl
  · intro k x' y hx' hy
    rw [lane, hy] at hx'
    by_cases e : l = k
    · rw [if_pos e] at hx'
      cases hx'
      subst e
      refine ⟨?_, ?_, rfl⟩
      · rcases hst with e | e | e <;> rw [e] <;> rfl
      · rcases hst with e | e | e <;> simp [e, inClaims, track, F]
    · rw [if_neg e] at hx'
      cases hx'
      have k' : (l == k) = false := by simpa using e
      rcases hst with e | e | e <;> simp [e, inStow, inClaims, inCrest, track, k']
  · intro r; rw [ramp]; exact left.lists r
  · refine h.hold.change hx (f := F) (g := G) rfl rfl ?_ rfl rfl ?_ ?_ ?_
    · exact moment_less _ _ le1
    · intro c _ hc le3 le4
      refine ⟨?_, rfl, ?_⟩
      · show c.projected - v.mass + x.mass = c.projected + (x.mass - v.mass); omega
      · show c.projected - v.mass ≤ c.massLimit * 1000; omega
    · have r1 : t.records (without v.tag x.claims) = s.records a ++ s.records b := by
        rw [records_free (s := s) (t := t) (tag := v.tag) rfl, e2]
      have r2 : t.records x.stow = s.records x.stow := by
        rw [← without_not_mem hns, records_free (s := s) (t := t) (tag := v.tag) rfl]
      show LaneHold (F x) (t.records x.stow) (t.records (without v.tag x.claims))
      rw [r1, r2]
      rw [e1] at hold
      exact (hold.dropClaim e3.symm).lane rfl
    · intro k y hk hy u hu
      have e : u ≠ v.tag := by
        intro e
        have := h.record.holds hy hu
        rw [e, hs, Option.bind_some, hb] at this
        exact hk (Option.some.inj this).symm
      rw [veh?_same (s := s.freeVeh v.tag) (t := t) rfl, veh?_freeVeh, if_neg e]
  · intro r; rw [ramp]; exact left.mass r
  · intro r; rw [ramp]; exact left.turn r

end Sys2Proof.Machine
end

