-- ==== Sys2Proof/Laws/Placements.lean ====
section
/-! SUPPORT. A placement (R99) and a transit expiry (R107) keep the laws of the books. -/

namespace Sys2Proof.Machine

variable {s t : State}

/-- A RELEASED vehicle is placed at the end of its lane's stow list. -/
theorem BookLaw.placed (h : BookLaw s) {v : Vehicle} {l : Nat} (hv : s.veh? v.tag = some v)
    (hst : v.stage = .onRamp l ∨ v.stage = .pastCrest l) : BookLaw (placeBind v l (leaves v s)) := by
  have hcl : v.stage.claimed l := Or.inr hst
  have left := h.left hv hcl
  have hs := stage?_of hv
  have hb : v.stage.lane? = some l := by rcases hst with e | e <;> rw [e] <;> rfl
  have hrel : v.stage.released = true := by rcases hst with e | e <;> rw [e] <;> rfl
  have hlt := h.record.bound v.tag l (by rw [hs]; exact hb)
  obtain ⟨x, hx⟩ : ∃ x, s.lane? l = some x := ⟨s.lanes[l], by simp [State.lane?, hlt]⟩
  have hxm := List.mem_of_getElem? hx
  have hm : v.tag ∈ x.claims := ((h.record.claims l x hx).2 v.tag).2 (by
    rw [hs]; rcases hst with e | e <;> simp [e])
  have hns : v.tag ∉ x.stow := by
    rw [(h.record.stow l x hx).2, hs]
    rcases hst with e | e <;> simp [e]
  have hold := h.hold.lane l x hx
  obtain ⟨a, b, e1, e2, e3⟩ : ∃ a b, s.records x.claims = s.records a ++ v :: s.records b ∧
      s.records (without v.tag x.claims) = s.records a ++ s.records b ∧
      x.claims.length = (without v.tag x.claims).length + 1 := by
    rcases records_without hv (h.record.claims l x hx).1 with ⟨e, -⟩ | ⟨a, b, e1, e2, e3, -⟩
    · exact absurd hm e
    · exact ⟨a, b, e1, e2, e3⟩
  have le2 : x.placedMass + v.mass ≤ x.mass := by
    rw [hold.placed, hold.mass, e1]
    simp only [List.map_append, List.map_cons, List.sum_append, List.sum_cons]
    omega
  -- every claim before the vehicle has its call
  have hA : ∀ w ∈ s.records a, w.call = v.call := by
    have g := h.gate l x hx v (by rw [e1]; simp) hrel
    have o := h.order.calls x hxm
    rw [records_append, e1, List.map_append, List.pairwise_append] at o
    have o := o.2.1
    rw [e1] at g
    cases ha : s.records a with
    | nil => intro w hw; cases hw
    | cons c cs =>
      rw [ha] at g o
      simp only [List.cons_append, List.head?_cons, Option.map_some, Option.some.injEq] at g
      simp only [List.cons_append, List.map_cons, List.map_append, List.pairwise_cons, List.pairwise_append,
        List.mem_append, List.mem_cons, List.mem_map] at o
      intro w hw
      rcases List.mem_cons.1 hw with rfl | hw
      · exact g
      · have k1 := o.1 w.call (Or.inl ⟨w, hw, rfl⟩)
        have k2 := o.2.2.2 w.call ⟨w, hw, rfl⟩ v.call (Or.inl rfl)
        omega
  let off := s.lengthOf x.gap x.stow
  let w : Vehicle := { v with stage := .placed l off, transit := .stopped, overdue := false }
  let f : Vehicle → Vehicle := fun u => { u with stage := .placed l off, transit := .stopped, overdue := false }
  let P : Lane → Lane := fun y => { y with pastCrest := track v.tag (inCrest l (some v.stage)) false y.pastCrest }
  let F : Lane → Lane := fun y => { P y with
    claims := without v.tag y.claims, stow := y.stow ++ [v.tag]
    overdue := y.overdue - (if v.overdue then 1 else 0), placedMass := y.placedMass + v.mass }
  let G : Sect → Sect := fun c => { c with placed := c.placed + v.mass }
  let t : State := { s with
    lanes := s.lanes.modify l F, sections := s.sections.modify x.sect G
    vehicles := (s.updVeh v.tag f).vehicles, lower := (leaves v s).lower, upper := (leaves v s).upper }
  have et : placeBind v l (leaves v s) = t := by
    have hx' : (leaves v s).lane? l = some (P x) := by rw [left.lane?, if_pos rfl, hx]; rfl
    unfold placeBind
    rw [hx', left.rest]
    simp only [State.updLane, State.updSect, State.updVeh, modify_twice]
    rfl
  rw [et]
  have lane : ∀ k, t.lane? k = if l = k then (s.lane? k).map F else s.lane? k := fun k => updLane_lane? s l k F
  have frame : t.frame = s.frame := by
    have e1 := updLane_frame (s := s) (f := F) l fun _ => rfl
    have e2 := updSect_frame (s := s.updLane l F) (f := G) x.sect fun _ => rfl
    exact e2.trans e1
  have ramp : ∀ r, t.ramp r = (leaves v s).ramp r := by intro r; cases r <;> rfl
  have veh : ∀ u, t.veh? u = if u = v.tag then some w else s.veh? u := fun u => by
    rw [veh?_same (s := s.updVeh v.tag f) (t := t) rfl, veh?_updVeh (f := f) v.tag u fun _ => rfl]
    split
    · rename_i e; rw [e, hv]; rfl
    · rfl
  have look : ∀ k x' y, t.lane? k = some x' → s.lane? k = some y →
      (l = k ∧ x' = F y) ∨ (l ≠ k ∧ x' = y) := by
    intro k x' y hx' hy
    rw [lane, hy] at hx'
    by_cases e : l = k
    · rw [if_pos e] at hx'; cases hx'; exact Or.inl ⟨e, rfl⟩
    · rw [if_neg e] at hx'; cases hx'; exact Or.inr ⟨e, rfl⟩
  have record : RecordLaw t := by
    refine h.record.move (tag := v.tag) (old := some v.stage) (new := some (.placed l off)) (kd := v.cls.kind) frame ?_ hs
      ?_ ?_ (fun _ => by simp [State.kind?, hv]) ?_ ?_ ?_ ?_ ?_
    · rw [show t.vehicles = (s.updVeh v.tag f).vehicles from rfl, map_tags (f := f) fun _ => rfl]; exact h.record.tags
    · intro u; unfold State.stage?; rw [veh]; split <;> rfl
    · intro u hu; unfold State.kind?; rw [veh, if_neg hu]
    · intro _; unfold State.kind?; rw [veh, if_pos rfl]; rfl
    · intro l2 e; cases e; exact hlt
    · rcases hst with e | e <;> rw [e] <;> rfl
    · intro k x' y hx' hy
      rcases look k x' y hx' hy with ⟨e, rfl⟩ | ⟨e, rfl⟩
      · subst e
        refine ⟨?_, ?_, rfl⟩
        · rcases hst with e | e <;> simp [e, inStow, track, F]
        · rcases hst with e | e <;> simp [e, inClaims, track, F]
      · have k' : (l == k) = false := by simpa using e
        rcases hst with e | e <;> simp [e, inStow, inClaims, inCrest, track, k']
    · intro r
      rw [ramp]
      exact left.lists r
  have notTag : ∀ {k y u}, k ≠ l → s.lane? k = some y → u ∈ y.stow ++ y.claims → u ≠ v.tag := by
    intro k y u hk hy hu e
    have := h.record.holds hy hu
    rw [e, hs, Option.bind_some, hb] at this
    exact hk (Option.some.inj this).symm
  have recs : ∀ {xs}, v.tag ∉ xs → t.records xs = s.records xs := by
    intro xs n
    refine records_same fun u hu => ?_
    rw [veh, if_neg fun e : u = v.tag => n (e ▸ hu)]
  have out : ∀ xs, v.tag ∉ without v.tag xs := fun xs k => (mem_without.1 k).2 rfl
  have few : Fewer s t := by
    refine ⟨frame, ?_, ?_⟩
    · intro k x' y hx' hy u hu
      rcases look k x' y hx' hy with ⟨e, rfl⟩ | ⟨e, rfl⟩
      · subst e
        rw [hx] at hy
        cases hy
        simp only [F, List.mem_append, List.mem_singleton] at hu ⊢
        rcases hu with (hu | rfl) | hu
        · exact Or.inl hu
        · exact Or.inr hm
        · exact Or.inr (mem_without.1 hu).1
      · exact hu
    · intro k y _ u _ v' hv'
      rw [veh] at hv'
      split at hv'
      · rename_i e
        cases hv'
        exact ⟨v, e ▸ hv, rfl, rfl⟩
      · exact ⟨v', hv', rfl, rfl⟩
  have back : ∀ u ∈ t.vehicles, u = w ∨ u ∈ s.vehicles ∧ u.tag ≠ v.tag := by
    intro u hu
    have k := veh?_of_mem record.tags hu
    rw [veh] at k
    split at k
    · exact Or.inl (Option.some.inj k).symm
    · rename_i e; exact Or.inr ⟨veh?_mem k, e⟩
  refine BookLaw.of_parts record ?_ ⟨?_, ?_, ?_⟩ ?_ (h.segregation.fewer few) ⟨?_, ?_⟩ ?_
    (ClearanceLaw.fewer h.panel.clearance few) (h.call.fewer rfl fun u hu => ?_) (h.model.same frame rfl rfl rfl)
  · refine h.hold.change hx (f := F) (g := G) rfl rfl ?_ rfl rfl ?_ ?_ ?_
    · show s.listMoment = s.listMoment + ((x.mass : Int) * x.offset - x.mass * x.offset); omega
    · intro c _ hc le3 le4
      refine ⟨rfl, ?_, hc⟩
      show c.placed + v.mass + x.placedMass = c.placed + (x.placedMass + v.mass); omega
    · have r1 : t.records (x.stow ++ [v.tag]) = s.records x.stow ++ [w] := by
        rw [records_append, recs hns, records_cons (v := w) (by rw [veh, if_pos rfl])]
        rfl
      have r2 : t.records (without v.tag x.claims) = s.records a ++ s.records b := by
        rw [recs (out _), e2]
      show LaneHold (F x) (t.records (x.stow ++ [v.tag])) (t.records (without v.tag x.claims))
      rw [r1, r2]
      rw [e1] at hold
      exact (hold.place (w := w) ⟨rfl, rfl, rfl, rfl⟩ hA (ss := x.stow ++ [v.tag]) (by simp) e3.symm).lane rfl
    · intro k y hk hy u hu
      rw [veh, if_neg (notTag hk hy hu)]
  · intro r
    rw [ramp, left.mass]
    have n : v.tag ∉ ((leaves v s).ramp r).onRamp := by
      rw [← ramp, (record.onRamp r).2]
      rintro ⟨k, e, -⟩
      rw [stage?_of (v := w) (by rw [veh, if_pos rfl])] at e
      cases e
    unfold State.massOf
    rw [recs n]
  · intro u hu ho
    rcases back u hu with rfl | ⟨hu, -⟩
    · cases ho
    · exact h.figures.overdue u hu ho
  · refine ⟨?_, h.limits.capacity.2.1, fun r k => ?_⟩
    · rw [show t.vehicles = (s.updVeh v.tag f).vehicles from rfl]
      simpa using h.limits.capacity.1
    · rw [ramp, (left.lists r).2]
      refine Nat.le_trans ?_ (h.limits.capacity.2.2 r k)
      cases inQueue s r v.cls.kind k (some v.stage)
      · exact Nat.le_refl _
      · exact List.length_filter_le _ _
  · intro k x' hx'
    obtain ⟨y, hy, -⟩ := same_lane frame hx'
    rcases look k x' y hx' hy with ⟨e, rfl⟩ | ⟨e, rfl⟩
    · subst e
      rw [hx] at hy
      cases hy
      show Gate (t.records (without v.tag x.claims))
      rw [recs (out _), e2]
      have g := h.gate l x hx
      rw [e1] at g
      refine g.drop ?_
      have o := h.order.calls x hxm
      rw [records_append, e1, List.map_append, List.pairwise_append] at o
      exact o.2.1
    · rw [recs fun n => notTag (Ne.symm e) hy (List.mem_append_right _ n) rfl]
      exact h.gate k x' hy
  · intro r hq
    rw [ramp, (left.turn r).1] at hq
    rw [ramp, (left.turn r).2]
    exact h.ramp.running r hq
  · intro u hu k e
    rw [ramp, (left.turn _).2, same_rampOfNo frame]
    rcases back u hu with rfl | ⟨hu, -⟩
    · rcases e with e | e <;> cases e
    · exact h.ramp.outbound u hu k e
  · intro x' hx' u hu hr
    obtain ⟨k, hl'⟩ := List.mem_iff_getElem?.1 hx'
    obtain ⟨y, hy, eb⟩ := same_lane frame hl'
    rw [same_borrowed frame eb, same_coverMoving frame eb]
    obtain ⟨m1, m2⟩ := records_mem.1 hu
    have hu' : u ∈ s.vehicles ∧ u.tag ≠ v.tag := by
      rcases back u (veh?_mem m2) with rfl | k
      · cases hr
      · exact k
    refine h.panel.traffic y (List.mem_of_getElem? hy) u ?_ hr
    refine records_mem.2 ⟨?_, veh?_of_mem h.record.tags hu'.1⟩
    rcases look k x' y hl' hy with ⟨e, rfl⟩ | ⟨e, rfl⟩
    · exact (mem_without.1 m1).1
    · exact m1
  · rcases back u hu with rfl | ⟨hu, -⟩
    · exact ⟨v, veh?_mem hv, rfl⟩
    · exact ⟨u, hu, rfl⟩

/-- A claim becomes OVERDUE. -/
theorem LaneHold.late {x : Lane} {S A B : List Vehicle} {v w : Vehicle} (h : LaneHold x S (A ++ v :: B))
    (hw : w.length = v.length ∧ w.massCode = v.massCode ∧ w.call = v.call ∧ w.reefer = v.reefer)
    (ho : v.overdue = false ∧ w.overdue = true) : LaneHold { x with overdue := x.overdue + 1 } S (A ++ w :: B) := by
  obtain ⟨w1, w2, w3, w4⟩ := hw
  have hmass : w.mass = v.mass := by unfold Vehicle.mass; rw [w2]
  have hr := h.reefers; have hc := h.overdue
  simp only [List.filter_append, List.length_append, List.filter_cons] at hr hc
  exact {
    used := by rw [h.used]; simp [w1]
    reefers := by
      simp only [List.filter_append, List.length_append, List.filter_cons, w4]
      rw [hr]
      split <;> rfl
    mass := by rw [h.mass]; simp [hmass]
    placed := h.placed
    overdue := by
      simp only [ho.1, ho.2, List.filter_append, List.length_append, List.filter_cons, if_true,
        Bool.false_eq_true, if_false, List.length_cons] at hc ⊢
      omega
    calls := by have := h.calls; simpa [w3] using this
    usable := h.usable, sockets := h.sockets, claims := h.claims, total := h.total }

/-- A RELEASED vehicle becomes OVERDUE (R107). -/
theorem BookLaw.late (h : BookLaw s) {v : Vehicle} {l : Nat} (hv : s.veh? v.tag = some v) (hrel : v.stage.released = true)
    (hb : v.stage.lane? = some l) (ho : v.overdue = false) :
    BookLaw ((s.updVeh v.tag fun u => { u with transit := .expired, overdue := true }).updLane l fun x =>
      { x with overdue := x.overdue + 1 }) := by
  have hs := stage?_of hv
  have hst : v.stage = .onRamp l ∨ v.stage = .pastCrest l := by
    cases e : v.stage <;> rw [e] at hrel hb <;> first | (cases hrel; done) | (simp only [Stage.lane?, Option.some.injEq] at hb; simp [hb])
  have hlt := h.record.bound v.tag l (by rw [hs]; exact hb)
  obtain ⟨x, hx⟩ : ∃ x, s.lane? l = some x := ⟨s.lanes[l], by simp [State.lane?, hlt]⟩
  have hm : v.tag ∈ x.claims := ((h.record.claims l x hx).2 v.tag).2 (by
    rw [hs]; rcases hst with e | e <;> simp [e])
  have hns : v.tag ∉ x.stow := by
    rw [(h.record.stow l x hx).2, hs]
    rcases hst with e | e <;> simp [e]
  obtain ⟨a, b, e1, -, ha, hb'⟩ := split_once hm (h.record.claims l x hx).1
  let f : Vehicle → Vehicle := fun u => { u with transit := .expired, overdue := true }
  let F : Lane → Lane := fun y => { y with overdue := y.overdue + 1 }
  let t := (s.updVeh v.tag f).updLane l F
  show BookLaw t
  have lane : ∀ k, t.lane? k = if l = k then (s.lane? k).map F else s.lane? k := fun k => updLane_lane? (s.updVeh v.tag f) l k F
  have frame : t.frame = s.frame := updLane_frame (s := s.updVeh v.tag f) (f := F) l fun _ => rfl
  have ramp : ∀ r, t.ramp r = s.ramp r := by intro r; cases r <;> rfl
  have veh : ∀ u, t.veh? u = if u = v.tag then some (f v) else s.veh? u := fun u => by
    rw [veh?_same (s := s.updVeh v.tag f) (t := t) rfl, veh?_updVeh (f := f) v.tag u fun _ => rfl]
    split
    · rename_i e; rw [e, hv]; rfl
    · rfl
  have look : ∀ k x' y, t.lane? k = some x' → s.lane? k = some y → (l = k ∧ x' = F y) ∨ (l ≠ k ∧ x' = y) := by
    intro k x' y hx' hy
    rw [lane, hy] at hx'
    by_cases e : l = k
    · rw [if_pos e] at hx'; cases hx'; exact Or.inl ⟨e, rfl⟩
    · rw [if_neg e] at hx'; cases hx'; exact Or.inr ⟨e, rfl⟩
  have lists : ∀ k x' y, t.lane? k = some x' → s.lane? k = some y →
      x'.stow = y.stow ∧ x'.claims = y.claims ∧ x'.pastCrest = y.pastCrest := by
    intro k x' y hx' hy
    rcases look k x' y hx' hy with ⟨-, rfl⟩ | ⟨-, rfl⟩ <;> exact ⟨rfl, rfl, rfl⟩
  have recs : ∀ {xs}, v.tag ∉ xs → t.records xs = s.records xs := by
    intro xs n
    refine records_same fun u hu => ?_
    rw [veh, if_neg fun e : u = v.tag => n (e ▸ hu)]
  have fs : ∀ xs, t.records xs = (s.records xs).map fun u => if u.tag = v.tag then f u else u := by
    intro xs
    refine records_map fun u _ => ?_
    rw [veh]
    split
    · rename_i e; rw [e, hv]; simp
    · rename_i e
      cases hu : s.veh? u with
      | none => rfl
      | some w => simp [veh?_tag hu, e]
  have fcall : ∀ u : Vehicle, (if u.tag = v.tag then f u else u).call = u.call := fun u => by split <;> rfl
  have fmass : ∀ u : Vehicle, (if u.tag = v.tag then f u else u).mass = u.mass := fun u => by split <;> rfl
  have frel : ∀ u : Vehicle, (if u.tag = v.tag then f u else u).stage = u.stage := fun u => by split <;> rfl
  have notTag : ∀ {k y u}, k ≠ l → s.lane? k = some y → u ∈ y.stow ++ y.claims → u ≠ v.tag := by
    intro k y u hk hy hu e
    have := h.record.holds hy hu
    rw [e, hs, Option.bind_some, hb] at this
    exact hk (Option.some.inj this).symm
  have record : RecordLaw t := by
    refine h.record.move (tag := v.tag) (old := some v.stage) (new := some v.stage) (kd := v.cls.kind) frame ?_ hs
      ?_ ?_ (fun _ => by simp [State.kind?, hv]) ?_ ?_ ?_ ?_ ?_
    · rw [show t.vehicles = (s.updVeh v.tag f).vehicles from rfl, map_tags (f := f) fun _ => rfl]; exact h.record.tags
    · intro u; unfold State.stage?; rw [veh]; split <;> rfl
    · intro u hu; unfold State.kind?; rw [veh, if_neg hu]
    · intro _; unfold State.kind?; rw [veh, if_pos rfl]; rfl
    · intro l2 e
      rw [Option.bind_some, hb] at e
      cases e; exact hlt
    · rw [track_eq]; rfl
    · intro k x' y hx' hy
      simp only [track_eq]
      exact lists k x' y hx' hy
    · intro r
      rw [ramp]
      exact ⟨(track_eq _ _ _).symm, fun _ => (track_eq _ _ _).symm⟩
  have back : ∀ u ∈ t.vehicles, u = f v ∨ u ∈ s.vehicles ∧ u.tag ≠ v.tag := by
    intro u hu
    have k := veh?_of_mem record.tags hu
    rw [veh] at k
    split at k
    · exact Or.inl (Option.some.inj k).symm
    · rename_i e; exact Or.inr ⟨veh?_mem k, e⟩
  have few : Fewer s t := by
    refine ⟨frame, ?_, ?_⟩
    · intro k x' y hx' hy u hu
      obtain ⟨p, q, -⟩ := lists k x' y hx' hy
      rwa [p, q] at hu
    · intro k y _ u _ v' hv'
      rw [veh] at hv'
      split at hv'
      · rename_i e
        cases hv'
        exact ⟨v, e ▸ hv, rfl, rfl⟩
      · exact ⟨v', hv', rfl, rfl⟩
  refine BookLaw.of_parts record ?_ ⟨?_, ?_, ?_⟩ ?_ (h.segregation.fewer few) ⟨?_, ?_⟩ ?_
    (ClearanceLaw.fewer h.panel.clearance few) (h.call.fewer rfl fun u hu => ?_) (h.model.same frame rfl rfl rfl)
  · refine h.hold.change hx (f := F) (g := fun c => c) rfl ?_ ?_ rfl rfl ?_ ?_ ?_
    · rw [modify_same]; rfl
    · show s.listMoment = s.listMoment + ((x.mass : Int) * x.offset - x.mass * x.offset); omega
    · intro c _ hc _ _
      exact ⟨rfl, rfl, hc⟩
    · have r2 : t.records x.claims = s.records a ++ f v :: s.records b := by
        rw [e1, records_append, recs ha, records_cons (v := f v) (by rw [veh, if_pos rfl]), recs hb']
      have r0 : s.records x.claims = s.records a ++ v :: s.records b := by
        rw [e1, records_append, records_cons hv]
      have hold := h.hold.lane l x hx
      rw [r0] at hold
      show LaneHold (F x) (t.records x.stow) (t.records x.claims)
      rw [recs hns, r2]
      exact hold.late ⟨rfl, rfl, rfl, rfl⟩ ⟨ho, rfl⟩
    · intro k y hk hy u hu
      rw [veh, if_neg (notTag hk hy hu)]
  · intro r
    rw [ramp, h.figures.ramp]
    simp only [State.massOf, fs, List.map_map]
    congr 1
    exact List.map_congr_left fun u _ => (fmass u).symm
  · intro u hu ho
    rcases back u hu with rfl | ⟨hu, -⟩
    · exact hrel
    · exact h.figures.overdue u hu ho
  · refine ⟨?_, h.limits.capacity.2.1, fun r k => by rw [ramp]; exact h.limits.capacity.2.2 r k⟩
    rw [show t.vehicles = (s.updVeh v.tag f).vehicles from rfl]
    simpa using h.limits.capacity.1
  · intro k x' hx'
    obtain ⟨y, hy, -⟩ := same_lane frame hx'
    rw [(lists k x' y hx' hy).2.1, fs]
    intro u hu hr
    obtain ⟨u, hm, rfl⟩ := List.mem_map.1 hu
    have g := h.gate k y hy u hm (by rwa [frel] at hr)
    rw [fcall]
    cases e : s.records y.claims with
    | nil => rw [e] at hm; cases hm
    | cons c cs =>
      rw [e] at g
      simp only [List.map_cons, List.head?_cons, Option.map_some, fcall]
      exact g
  · intro r hq; rw [ramp] at hq ⊢; exact h.ramp.running r hq
  · intro u hu k e
    rw [ramp, same_rampOfNo frame]
    rcases back u hu with rfl | ⟨hu, -⟩
    · exact h.ramp.outbound v (veh?_mem hv) k e
    · exact h.ramp.outbound u hu k e
  · intro x' hx' u hu hr
    obtain ⟨k, hl'⟩ := List.mem_iff_getElem?.1 hx'
    obtain ⟨y, hy, eb⟩ := same_lane frame hl'
    rw [same_borrowed frame eb, same_coverMoving frame eb]
    rw [(lists k x' y hl' hy).2.1, fs] at hu
    obtain ⟨u, hm, rfl⟩ := List.mem_map.1 hu
    exact h.panel.traffic y (List.mem_of_getElem? hy) u hm (by rwa [frel] at hr)
  · rcases back u hu with rfl | ⟨hu, -⟩
    · exact ⟨v, veh?_mem hv, rfl⟩
    · exact ⟨u, hu, rfl⟩

/-- A vehicle OVERDUE already. -/
theorem BookLaw.lateAgain (h : BookLaw s) {v : Vehicle} (hv : s.veh? v.tag = some v) (ho : v.overdue = true) :
    BookLaw (s.updVeh v.tag fun u => { u with transit := .expired, overdue := true }) := by
  refine h.of_books ?_
  simp only [State.books, updVeh_fields, List.map_map]
  congr 1
  refine List.map_congr_left fun u hu => ?_
  simp only [Function.comp]
  split
  · rename_i e
    have k := veh?_of_mem h.record.tags hu
    rw [e, hv] at k
    cases k
    simp [Vehicle.books, ho]
  · rfl

end Sys2Proof.Machine
end

