-- ==== Sys2Proof/Laws/Claims.lean ====
section
/-! SUPPORT. A claim (R58) keeps the laws of the books: what the lane tests T1 to T11 (R45) say of the lane an allocation
chooses, and the claim on admission and in the standby sweep. -/

namespace Sys2Proof.Machine

variable {s t : State}

/-! ### What an allocation says of its lane -/

/-- Lanes that filters leave pass every test. -/
theorem runFilters_lanes {v : Vehicle} : ∀ {ts : List (State → Vehicle → Nat → Lane → Bool)} {n : Nat} {ls ms : List Nat},
    runFilters s v ts n ls = .lanes ms → ∀ l ∈ ms, l ∈ ls ∧ ∀ t ∈ ts, ∃ x, s.lane? l = some x ∧ t s v l x = true
  | [], _, _, _, h, l, hl => by cases h; exact ⟨hl, fun _ k => by cases k⟩
  | t :: ts, n, ls, ms, h, l, hl => by
    unfold runFilters at h
    dsimp only at h
    split at h
    · cases h
    · obtain ⟨h1, h2⟩ := runFilters_lanes h l hl
      unfold keepLanes at h1
      obtain ⟨h3, h4⟩ := List.mem_filter.1 h1
      refine ⟨h3, fun u hu => ?_⟩
      rcases List.mem_cons.1 hu with rfl | hu
      · split at h4
        · rename_i x hx; exact ⟨x, hx, h4⟩
        · cases h4
      · exact h2 u hu

theorem bestLane_mem {v : Vehicle} : ∀ {ls : List Nat} {l : Nat}, bestLane s v ls = some l → l ∈ ls
  | [], _, h => by cases h
  | a :: as, l, h => by
    simp only [bestLane, Option.some.injEq] at h
    rw [← h]
    clear h
    have : ∀ (as : List Nat) (b : Nat), as.foldl (fun b k => if ranksBefore (prefKeys s v k) (prefKeys s v b) then k else b) b
        ∈ b :: as := by
      intro as
      induction as with
      | nil => intro b; exact List.mem_cons_self
      | cons c cs ih =>
        intro b
        rw [List.foldl_cons]
        have := ih (if ranksBefore (prefKeys s v c) (prefKeys s v b) then c else b)
        rcases List.mem_cons.1 this with e | e
        · rw [e]; split <;> simp
        · exact List.mem_cons_of_mem _ (List.mem_cons_of_mem _ e)
    exact this as a

/-- The lane of a claim passes every lane test. -/
theorem allocate_claim {v : Vehicle} {l : Nat} (h : allocate s v = .claim l) :
    ∃ x, s.lane? l = some x ∧ ∀ t ∈ laneTests, t s v l x = true := by
  unfold allocate candidates at h
  split at h
  · cases h
  · rename_i ls e
    split at h
    · rename_i k hk
      cases h
      obtain ⟨-, h2⟩ := runFilters_lanes e l (bestLane_mem hk)
      obtain ⟨x, hx, -⟩ := h2 testT1 (by simp [laneTests])
      refine ⟨x, hx, fun t ht => ?_⟩
      obtain ⟨y, hy, k⟩ := h2 t ht
      rw [hx] at hy
      cases hy
      exact k
    · cases h

/-! ### The last call -/

theorem records_last {xs : List Nat} (h : ∀ u ∈ xs, (s.veh? u).isSome = true) :
    (s.records xs).getLast? = xs.getLast?.bind s.veh? := by
  rcases List.eq_nil_or_concat xs with rfl | ⟨xs, u, rfl⟩
  · rfl
  · obtain ⟨v, hv⟩ := Option.isSome_iff_exists.1 (h u (by simp))
    rw [List.concat_eq_append, records_append]
    simp [State.records, hv]

/-- In a list whose values never increase the last is the least. -/
theorem last_least {xs : List Vehicle} (h : (xs.map Vehicle.call).Pairwise (· ≥ ·)) {v : Vehicle} (hl : xs.getLast? = some v) :
    ∀ w ∈ xs, v.call ≤ w.call := by
  obtain ⟨ys, rfl⟩ := List.getLast?_eq_some_iff.1 hl
  rw [List.map_append, List.pairwise_append] at h
  intro w hw
  rcases List.mem_append.1 hw with e | e
  · exact h.2.2 _ (List.mem_map_of_mem e) _ (by simp)
  · exact Nat.le_of_eq (by rw [List.mem_singleton.1 e])

theorem RecordLaw.stow_some (h : RecordLaw s) {l : Nat} {x : Lane} (hx : s.lane? l = some x) :
    ∀ u ∈ x.stow, (s.veh? u).isSome = true := by
  intro u hu
  obtain ⟨o, e⟩ := ((h.stow l x hx).2 u).1 hu
  obtain ⟨v, hv, -⟩ := stage?_some e
  rw [hv]; rfl

/-- T7: the vehicle's call is no later than that of any vehicle in the lane. -/
theorem BookLaw.callsAbove (h : BookLaw s) {v : Vehicle} {l : Nat} {x : Lane} (hx : s.lane? l = some x)
    (t7 : testT7 s v l x = true) : ∀ w ∈ s.records x.stow ++ s.records x.claims, v.call ≤ w.call := by
  have hc := (h.hold.lane l x hx).calls
  have r1 := records_last (h.record.claim_some hx)
  have r2 := records_last (h.record.stow_some hx)
  unfold testT7 State.lastCall? at t7
  cases hl : x.claims.getLast? with
  | some u =>
    obtain ⟨w, hw⟩ := Option.isSome_iff_exists.1 (h.record.claim_some hx u (List.mem_of_getLast? hl))
    rw [hl] at r1 t7
    simp only [hw, Option.map_some, decide_eq_true_eq] at t7
    have e : (s.records x.stow ++ s.records x.claims).getLast? = some w := by
      rw [List.getLast?_append, r1, Option.bind_some, hw]; rfl
    intro z hz
    exact Nat.le_trans t7 (last_least hc e z hz)
  | none =>
    have ec : x.claims = [] := by simpa using hl
    have ec' : s.records x.claims = [] := by rw [ec]; rfl
    rw [hl] at t7
    rw [ec', List.append_nil] at hc ⊢
    cases hs : x.stow.getLast? with
    | none =>
      have : x.stow = [] := by simpa using hs
      intro w hw
      rw [this] at hw
      cases hw
    | some u =>
      obtain ⟨w, hw⟩ := Option.isSome_iff_exists.1 (h.record.stow_some hx u (List.mem_of_getLast? hs))
      rw [hs] at r2 t7
      simp only [Option.bind_some, hw, Option.map_some, decide_eq_true_eq] at t7
      have e : (s.records x.stow).getLast? = some w := by rw [r2, Option.bind_some, hw]
      intro z hz
      exact Nat.le_trans t7 (last_least hc e z hz)

/-! ### Levels the other way round -/

theorem adjacent_comm (x y : Lane) : s.adjacent x y = s.adjacent y x := by
  unfold State.adjacent
  rw [Bool.or_comm]
  congr 1
  cases s.deckNo x <;> cases s.deckNo y <;> first | rfl | (simp only; rw [Bool.eq_iff_iff]; simp; exact eq_comm)

theorem permits_comm (v l k : Nat) (x y : Lane) : s.permits v l x k y = s.permits v k y l x := by
  have e1 : (l != k) = (k != l) := by rw [Bool.eq_iff_iff]; simp; exact ne_comm
  have e2 : (x.sect != y.sect) = (y.sect != x.sect) := by rw [Bool.eq_iff_iff]; simp; exact ne_comm
  have e3 : (s.deckNo x != s.deckNo y) = (s.deckNo y != s.deckNo x) := by rw [Bool.eq_iff_iff]; simp; exact ne_comm
  unfold State.permits
  split <;> simp only [e1, e2, e3, adjacent_comm x y]

theorem moment_more (m : Int) (a v : Nat) (o : Int) : m + v * o = m + (((a + v : Nat) : Int) * o - a * o) := by
  rw [Int.natCast_add, Int.add_mul]
  omega

/-! ### The claim -/

/-- A vehicle that stood by, or has just arrived, claims the lane that an allocation chose for it. -/
theorem BookLaw.claim (h : BookLaw s) {v : Vehicle} {l : Nat} (ha : allocate s v = .claim l) (ho : v.overdue = false)
    (was : (s.veh? v.tag = none ∧ s.vehicles.length < 2048) ∨ s.veh? v.tag = some v ∧ v.stage = .standby)
    (voy : ∃ c n, s.voyage = .load c n ∧ c ≤ v.call ∧ v.call ≤ n) (u : State)
    (vehicles : u.vehicles = if (s.veh? v.tag).isNone then s.vehicles ++ [v] else s.vehicles)
    (rest : u = { s with vehicles := u.vehicles, standby := without v.tag s.standby }) : BookLaw (bindClaim v l u) := by
  obtain ⟨x, hx, tests⟩ := allocate_claim ha
  have t3 := tests testT3 (by simp [laneTests])
  have t5 := tests testT5 (by simp [laneTests])
  have t6 := tests testT6 (by simp [laneTests])
  have t7 := tests testT7 (by simp [laneTests])
  have t8 := tests testT8 (by simp [laneTests])
  have t9 := tests testT9 (by simp [laneTests])
  have t11 := tests testT11 (by simp [laneTests])
  have hxm := List.mem_of_getElem? hx
  have hlt : l < s.lanes.length := (List.getElem?_eq_some_iff.1 hx).1
  have hold := h.hold.lane l x hx
  have hr : s.rampOfNo l = s.rampOf x := by unfold State.rampOfNo; rw [hx]
  let old : Option Stage := s.stage? v.tag
  have hold' : old = none ∨ old = some .standby := by
    rcases was with ⟨e, -⟩ | ⟨e, k⟩
    · exact Or.inl (by simp [old, State.stage?, e])
    · exact Or.inr (by simp [old, State.stage?, e, k])
  have free : ∀ {k y}, s.lane? k = some y → v.tag ∉ y.stow ++ y.claims := by
    intro k y hy hu
    have e := h.record.holds hy hu
    rcases hold' with k | k <;> simp only [old] at k <;> rw [k] at e <;> cases e
  let f : Vehicle → Vehicle := fun w => { w with stage := .assigned l }
  let F : Lane → Lane := fun y => { y with
    claims := y.claims ++ [v.tag], used := y.used + (v.length + y.gap), reefers := y.reefers + (if v.reefer then 1 else 0)
    mass := y.mass + v.mass }
  let G : Sect → Sect := fun c => { c with projected := c.projected + v.mass }
  let Q : RampState → RampState := fun q => q.setQueue v.cls.kind (q.queue v.cls.kind ++ [v.tag])
  let t : State := { (s.updRamp (s.rampOfNo l) Q) with
    lanes := s.lanes.modify l F, sections := s.sections.modify x.sect G, listMoment := s.listMoment + v.mass * x.offset
    vehicles := (u.updVeh v.tag f).vehicles, standby := without v.tag s.standby }
  have et : bindClaim v l u = t := by
    have e1 : u.rampOfNo l = s.rampOfNo l := by rw [rest]; rfl
    unfold bindClaim addShare
    simp only [e1]
    have hx' : (((u.setStage v.tag (.assigned l)).updLane l fun y => { y with claims := y.claims ++ [v.tag] }).updRamp
        (s.rampOfNo l) Q).lane? l = some { x with claims := x.claims ++ [v.tag] } := by
      have : ∀ (a : State), (a.updRamp (s.rampOfNo l) Q).lane? l = a.lane? l := fun a => by simp [State.lane?]
      rw [this, updLane_same]
      have : (u.setStage v.tag (.assigned l)).lane? l = s.lane? l := by rw [rest]; rfl
      rw [this, hx]
      rfl
    rw [hx']
    simp only [t]
    rw [rest]
    cases s.rampOfNo l <;> simp only [State.setStage, State.updLane, State.updSect, State.updVeh, State.updRamp, modify_twice]
      <;> rfl
  rw [et]
  have lane : ∀ k, t.lane? k = if l = k then (s.lane? k).map F else s.lane? k := fun k => by
    rw [← updLane_lane? s l k F]; rfl
  have frame : t.frame = s.frame := by
    have e1 := updLane_frame (s := s) (f := F) l fun _ => rfl
    have e2 := updSect_frame (s := s.updLane l F) (f := G) x.sect fun _ => rfl
    refine Eq.trans ?_ (e2.trans e1)
    simp only [t]
    cases s.rampOfNo l <;> rfl
  have ramp : ∀ r, t.ramp r = if r = s.rampOfNo l then Q (s.ramp r) else s.ramp r := by
    intro r
    rw [← updRamp_ramp]
    cases r <;> rfl
  have uveh : ∀ w, u.veh? w = if w = v.tag then some v else s.veh? w := by
    intro w
    rcases was with ⟨e, -⟩ | ⟨e, -⟩
    · rw [e] at vehicles
      exact veh?_append e vehicles w
    · rw [e] at vehicles
      rw [veh?_same (s := s) (by rw [vehicles]; rfl)]
      split
      · rename_i k; rw [k, e]
      · rfl
  have veh : ∀ w, t.veh? w = if w = v.tag then some (f v) else s.veh? w := by
    intro w
    rw [veh?_same (s := u.updVeh v.tag f) (t := t) rfl, veh?_updVeh (f := f) v.tag w fun _ => rfl, uveh]
    by_cases e : w = v.tag
    · simp [e]
    · simp [e]
  have tags : (t.vehicles.map Vehicle.tag).Nodup := by
    rw [show t.vehicles = (u.updVeh v.tag f).vehicles from rfl, map_tags (f := f) fun _ => rfl, vehicles]
    rcases was with ⟨e, -⟩ | ⟨e, -⟩
    · rw [e]
      simp only [Option.isNone_none, if_true, List.map_append, List.map_cons, List.map_nil]
      refine append_nodup h.record.tags fun k => ?_
      obtain ⟨w, hw, k⟩ := List.mem_map.1 k
      have := veh?_of_mem h.record.tags hw
      rw [k, e] at this
      cases this
    · rw [e]
      exact h.record.tags
  have look : ∀ k x' y, t.lane? k = some x' → s.lane? k = some y → (l = k ∧ x' = F y) ∨ (l ≠ k ∧ x' = y) := by
    intro k x' y hx' hy
    rw [lane, hy] at hx'
    by_cases e : l = k
    · rw [if_pos e] at hx'; cases hx'; exact Or.inl ⟨e, rfl⟩
    · rw [if_neg e] at hx'; cases hx'; exact Or.inr ⟨e, rfl⟩
  have record : RecordLaw t := by
    refine h.record.move (tag := v.tag) (old := old) (new := some (.assigned l)) (kd := v.cls.kind) frame tags rfl
      ?_ ?_ ?_ ?_ ?_ ?_ ?_ ?_
    · intro w; unfold State.stage?; rw [veh]; split <;> rfl
    · intro w hw; unfold State.kind?; rw [veh, if_neg hw]
    · intro e
      rcases was with ⟨k, -⟩ | ⟨k, -⟩
      · exact absurd (by simp [old, State.stage?, k]) e
      · simp [State.kind?, k]
    · intro _; unfold State.kind?; rw [veh, if_pos rfl]; rfl
    · intro l2 e; cases e; exact hlt
    · show without v.tag s.standby = _
      rcases hold' with e | e
      · rw [e]
        refine without_not_mem fun k => ?_
        rw [h.record.standby.2] at k
        simp only [old] at e
        rw [e] at k
        cases k
      · rw [e]; rfl
    · intro k x' y hx' hy
      have o1 : inStow k old = false := by rcases hold' with e | e <;> rw [e] <;> rfl
      have o2 : inClaims k old = false := by rcases hold' with e | e <;> rw [e] <;> rfl
      have o3 : inCrest k old = false := by rcases hold' with e | e <;> rw [e] <;> rfl
      rw [o1, o2, o3]
      rcases look k x' y hx' hy with ⟨e, rfl⟩ | ⟨e, rfl⟩
      · subst e
        exact ⟨rfl, by simp [inClaims, track, F], rfl⟩
      · exact ⟨rfl, by simp [inClaims, track, show (l == k) = false by simpa using e], rfl⟩
    · intro r
      have o1 : onRampList s r old = false := by rcases hold' with e | e <;> rw [e] <;> rfl
      have o2 : ∀ k, inQueue s r v.cls.kind k old = false := by intro k; rcases hold' with e | e <;> rw [e] <;> rfl
      rw [o1, ramp]
      simp only [o2]
      by_cases k : r = s.rampOfNo l
      · rw [if_pos k]
        refine ⟨by simp only [Q]; cases v.cls.kind <;> rfl, fun k' => ?_⟩
        simp only [inQueue, ← k, beq_self_eq_true, Bool.true_and, Q]
        cases v.cls.kind <;> cases k' <;> rfl
      · have k' : (s.rampOfNo l == r) = false := by simpa using Ne.symm k
        rw [if_neg k]
        exact ⟨rfl, fun k2 => by simp [inQueue, k', track]⟩
  have recs : ∀ {xs}, v.tag ∉ xs → t.records xs = s.records xs := by
    intro xs n
    refine records_same fun w hw => ?_
    rw [veh, if_neg fun e : w = v.tag => n (e ▸ hw)]
  have recS : ∀ {k y}, s.lane? k = some y → t.records y.stow = s.records y.stow :=
    fun hy => recs fun n => free hy (List.mem_append_left _ n)
  have recC : ∀ {k y}, s.lane? k = some y → t.records y.claims = s.records y.claims :=
    fun hy => recs fun n => free hy (List.mem_append_right _ n)
  have recF : t.records (x.claims ++ [v.tag]) = s.records x.claims ++ [f v] := by
    rw [records_append, recC hx, records_cons (v := f v) (by rw [veh, if_pos rfl])]
    rfl
  have back : ∀ w ∈ t.vehicles, w = f v ∨ w ∈ s.vehicles ∧ w.tag ≠ v.tag := by
    intro w hw
    have k := veh?_of_mem tags hw
    rw [veh] at k
    split at k
    · exact Or.inl (Option.some.inj k).symm
    · rename_i e; exact Or.inr ⟨veh?_mem k, e⟩
  -- what stands in a lane now
  have inLane : ∀ k x', t.lane? k = some x' → ∃ y, s.lane? k = some y ∧ x'.built = y.built ∧
      ∀ w ∈ t.records (x'.stow ++ x'.claims), (w = f v ∧ l = k) ∨ w ∈ s.records (y.stow ++ y.claims) := by
    intro k x' hx'
    obtain ⟨y, hy, eb⟩ := same_lane frame hx'
    refine ⟨y, hy, eb, fun w hw => ?_⟩
    rw [records_append] at hw ⊢
    rcases look k x' y hx' hy with ⟨e, rfl⟩ | ⟨e, rfl⟩
    · subst e
      rw [hx] at hy
      cases hy
      rw [show (F x).stow = x.stow from rfl, show (F x).claims = x.claims ++ [v.tag] from rfl, recS hx, recF] at hw
      simp only [List.mem_append, List.mem_singleton] at hw ⊢
      rcases hw with hw | hw | hw
      · exact Or.inr (Or.inl hw)
      · exact Or.inr (Or.inr hw)
      · exact Or.inl ⟨hw, trivial⟩
    · rw [recS hy, recC hy] at hw
      exact Or.inr hw
  -- T8
  have t8' : ∀ g, v.dg = some g → (s.openDeckOnly g = true → s.onWeather x = true) ∧
      ∀ k y, s.lane? k = some y → ∀ w ∈ s.records (y.stow ++ y.claims), ∀ d, w.dg = some d →
        s.permits (s.dgLevel g d) l x k y = true := by
    intro g hg
    unfold testT8 at t8
    rw [hg] at t8
    simp only [Bool.and_eq_true, Bool.or_eq_true, Bool.not_eq_true', List.all_eq_true, List.mem_range] at t8
    refine ⟨fun e => ?_, fun k y hy w hw d hd => ?_⟩
    · rcases t8.1 with e' | e'
      · exact e'
      · rw [e] at e'; cases e'
    · have := t8.2 k (List.getElem?_eq_some_iff.1 hy).1
      rw [hy] at this
      simp only [List.all_eq_true] at this
      refine this d ?_
      unfold State.dgGroups
      rw [List.mem_filterMap]
      exact ⟨w, hw, hd⟩
  refine BookLaw.of_parts record ?_ ⟨?_, ?_, ?_⟩ ?_ ⟨?_, ?_⟩ ⟨?_, ?_⟩ ?_ ?_ ⟨?_, ?_, ?_⟩ (h.model.same frame ?_ ?_ ?_)
  · refine h.hold.change hx (f := F) (g := G) rfl rfl ?_ rfl rfl ?_ ?_ ?_
    · exact moment_more _ _ _ _
    · intro c hc hl _ _
      unfold testT9 at t9
      rw [hc] at t9
      simp only [decide_eq_true_eq] at t9
      refine ⟨?_, rfl, t9⟩
      show c.projected + v.mass + x.mass = c.projected + (x.mass + v.mass); omega
    · show LaneHold (F x) (t.records x.stow) (t.records (x.claims ++ [v.tag]))
      rw [recS hx, recF]
      unfold testT6 Lane.remaining at t6
      simp only [Bool.and_eq_true, decide_eq_true_eq] at t6
      simp only [Config.claimCapacity, Config.laneCapacity] at t6
      unfold testT5 at t5
      simp only [Bool.or_eq_true, Bool.not_eq_true', decide_eq_true_eq] at t5
      have k1 := hold.usable
      have k2 := hold.sockets
      refine hold.claim (f v) (by show x.used + (v.length + x.gap) ≤ x.usable; omega) ?_ t6.1.2 t6.2 ho
        (h.callsAbove hx t7)
      show x.reefers + (if v.reefer then 1 else 0) ≤ x.sockets
      rcases t5 with e | e
      · rw [e]; exact k2
      · split <;> omega
    · intro k y hk hy w hw
      rw [veh, if_neg fun e : w = v.tag => free hy (e ▸ hw)]
  · intro r
    have e : (t.ramp r).mass = (s.ramp r).mass ∧ (t.ramp r).onRamp = (s.ramp r).onRamp := by
      rw [ramp]
      split
      · simp only [Q]; cases v.cls.kind <;> exact ⟨rfl, rfl⟩
      · exact ⟨rfl, rfl⟩
    rw [e.1, e.2, h.figures.ramp]
    unfold State.massOf
    rw [recs fun n => ?_]
    obtain ⟨k, e, -⟩ := ((h.record.onRamp r).2 v.tag).1 n
    rcases hold' with k' | k' <;> simp only [old] at k' <;> rw [k'] at e <;> cases e
  · intro w hw hov
    rcases back w hw with rfl | ⟨hw, -⟩
    · rw [show (f v).overdue = v.overdue from rfl, ho] at hov; cases hov
    · exact h.figures.overdue w hw hov
  · refine ⟨?_, Nat.le_trans (List.length_filter_le _ _) h.limits.capacity.2.1, fun r k => ?_⟩
    · rw [show t.vehicles = (u.updVeh v.tag f).vehicles from rfl]
      simp only [updVeh_fields, List.length_map]
      rw [vehicles]
      rcases was with ⟨e, k⟩ | ⟨e, -⟩
      · rw [e]; simp; omega
      · rw [e]; exact h.limits.capacity.1
    · unfold testT11 at t11
      simp only [decide_eq_true_eq] at t11
      simp only [Config.queueCapacity] at t11
      rw [ramp]
      have := h.limits.capacity.2.2 r k
      split
      · rename_i e
        rw [← hr, ← e] at t11
        simp only [Q]
        generalize v.cls.kind = k0 at *
        cases k0 <;> cases k <;> simp only [RampState.setQueue, RampState.queue, List.length_append,
          List.length_cons, List.length_nil] at * <;> omega
      · exact this
  · intro k x' hx'
    obtain ⟨y, hy, -⟩ := same_lane frame hx'
    rcases look k x' y hx' hy with ⟨e, rfl⟩ | ⟨e, rfl⟩
    · subst e
      rw [hx] at hy
      cases hy
      show Gate (t.records (x.claims ++ [v.tag]))
      rw [recF]
      intro w hw hrel
      rcases List.mem_append.1 hw with hw | hw
      · have g := h.gate l x hx w hw hrel
        cases e : s.records x.claims with
        | nil => rw [e] at hw; cases hw
        | cons c cs => rw [e] at g; exact g
      · rw [List.mem_singleton.1 hw] at hrel; cases hrel
    · rw [recC hy]
      exact h.gate k x' hy
  · intro k x' k' y' hx' hy' w hw z hz hne g d hg hd
    obtain ⟨x0, hx0, ex, bx⟩ := inLane k x' hx'
    obtain ⟨y0, hy0, ey, byy⟩ := inLane k' y' hy'
    rw [same_permits frame ex ey, same_dgLevel frame]
    rcases bx w hw with ⟨rfl, e⟩ | hw
    · rcases byy z hz with ⟨rfl, -⟩ | hz
      · exact absurd rfl hne
      · subst e
        rw [hx] at hx0
        cases hx0
        exact (t8' g hg).2 k' y0 hy0 z hz d hd
    · rcases byy z hz with ⟨rfl, e⟩ | hz
      · subst e
        rw [hx] at hy0
        cases hy0
        rw [permits_comm, h.model.symmetric]
        exact (t8' d hd).2 k x0 hx0 w hw g hg
      · exact h.segregation.apart k x0 k' y0 hx0 hy0 w hw z hz hne g d hg hd
  · intro x' hx' w hw g hg hod
    obtain ⟨k, hk⟩ := List.mem_iff_getElem?.1 hx'
    obtain ⟨x0, hx0, ex, bx⟩ := inLane k x' hk
    rw [same_onWeather frame ex]
    rw [same_openDeckOnly frame] at hod
    rcases bx w hw with ⟨rfl, e⟩ | hw
    · subst e
      rw [hx] at hx0
      cases hx0
      exact (t8' g hg).1 hod
    · exact h.segregation.openDeck x0 (List.mem_of_getElem? hx0) w hw g hg hod
  · intro r hq
    have e : (t.ramp r).seq = (s.ramp r).seq ∧ (t.ramp r).direction = (s.ramp r).direction := by
      rw [ramp]
      split
      · simp only [Q]; cases v.cls.kind <;> exact ⟨rfl, rfl⟩
      · exact ⟨rfl, rfl⟩
    rw [e.1] at hq
    rw [e.2]
    exact h.ramp.running r hq
  · intro w hw k e
    have e' : ∀ r, (t.ramp r).direction = (s.ramp r).direction := by
      intro r
      rw [ramp]
      split
      · simp only [Q]; cases v.cls.kind <;> rfl
      · rfl
    rw [e', same_rampOfNo frame]
    rcases back w hw with rfl | ⟨hw, -⟩
    · rcases e with e | e <;> cases e
    · exact h.ramp.outbound w hw k e
  · intro x' hx' w hw hrel
    obtain ⟨k, hk⟩ := List.mem_iff_getElem?.1 hx'
    obtain ⟨y, hy, eb⟩ := same_lane frame hk
    rw [same_borrowed frame eb, same_coverMoving frame eb]
    refine h.panel.traffic y (List.mem_of_getElem? hy) w ?_ hrel
    rcases look k x' y hk hy with ⟨e, rfl⟩ | ⟨e, rfl⟩
    · subst e
      rw [hx] at hy
      cases hy
      rw [show (F x).claims = x.claims ++ [v.tag] from rfl, recF] at hw
      rcases List.mem_append.1 hw with hw | hw
      · exact hw
      · rw [List.mem_singleton.1 hw] at hrel; cases hrel
    · rwa [recC hy] at hw
  · intro x' hx' w hw
    obtain ⟨k, hk⟩ := List.mem_iff_getElem?.1 hx'
    obtain ⟨x0, hx0, ex, bx⟩ := inLane k x' hk
    have e : x'.baseClass = x0.baseClass := (congrArg Lane.baseClass ex : x'.built.baseClass = x0.built.baseClass)
    rw [same_coverState? frame ex, same_clearance frame ex, e]
    rcases bx w hw with ⟨rfl, e⟩ | hw
    · subst e
      rw [hx] at hx0
      cases hx0
      unfold testT3 at t3
      simp only [decide_eq_true_eq] at t3
      refine ⟨Nat.le_trans t3 ?_, fun _ _ => t3⟩
      unfold State.clearance
      cases hc : x.cover with
      | none => exact Nat.le_refl _
      | some c =>
        have red := h.model.reduced x hxm c hc
        simp only
        split
        · split
          · exact Nat.le_refl _
          · exact red
        · exact red
    · exact h.panel.clearance x0 (List.mem_of_getElem? hx0) w hw
  · intro c n e
    have ev : t.voyage = s.voyage := by simp [t]
    rw [ev] at e
    obtain ⟨k1, k2, k3, k4⟩ := h.call.range c n e
    refine ⟨k1, k2, k3, fun w hw => ?_⟩
    rcases back w hw with rfl | ⟨hw, -⟩
    · obtain ⟨c', n', e', v1, v2⟩ := voy
      rw [e'] at e
      rcases e with e | e | e <;> cases e
      exact ⟨v1, v2⟩
    · exact k4 w hw
  · rw [show t.voyage = s.voyage by simp [t]]; exact h.call.load
  · intro e
    obtain ⟨c', n', e', -⟩ := voy
    rw [show t.voyage = s.voyage by simp [t], e'] at e
    cases e
  · simp [t]
  · simp [t]
  · simp [t]

end Sys2Proof.Machine
end

