-- ==== Sys2Proof/Laws/Turns.lean ====
section
/-! SUPPORT. Events that leave what lanes, queues and ramps hold: sequencer states, directions, panels, the voyage and the
profile. Each keeps the laws of the books. -/

namespace Sys2Proof.Machine

variable {s t : State}

/-! ### What stays -/

/-- A ramp's lists and mass. -/
def RampState.held (q : RampState) : RampState :=
  { RampState.cleared with light := q.light, heavy := q.heavy, onRamp := q.onRamp, mass := q.mass }

/-- The books without panels, sequencer states, directions, voyage, store, profile and draft. -/
def State.holdings (s : State) : State :=
  { State.reset with
    vehicles := s.vehicles.map Vehicle.books, standby := s.standby, limits := s.limits, decks := s.decks.map Deck.built
    sections := s.sections.map Sect.books, lanes := s.lanes.map Lane.books, listMoment := s.listMoment
    lower := s.lower.held, upper := s.upper.held }

theorem holdings_ramp (s : State) (r : Ramp) : s.holdings.ramp r = (s.books.ramp r).held := by cases r <;> rfl

theorem held_queue (q : RampState) (k : Kind) : q.held.queue k = q.queue k := by cases k <;> rfl

theorem RecordLaw.holdings_iff (s : State) : RecordLaw s.holdings ↔ RecordLaw s.books := by
  constructor <;> intro h
  · exact ⟨h.tags, h.bound, h.standby, h.stow, h.claims, h.pastCrest,
      fun r => by have := h.onRamp r; rw [holdings_ramp] at this; exact this,
      fun r k => by have := h.queue r k; rw [holdings_ramp, held_queue] at this; exact this⟩
  · exact ⟨h.tags, h.bound, h.standby, h.stow, h.claims, h.pastCrest,
      fun r => by rw [holdings_ramp]; exact h.onRamp r,
      fun r k => by rw [holdings_ramp, held_queue]; exact h.queue r k⟩

theorem FiguresLaw.holdings_iff (s : State) : FiguresLaw s.holdings ↔ FiguresLaw s.books := by
  constructor <;> intro h
  · exact ⟨h.lane, h.sect, h.moment, fun r => by have := h.ramp r; rw [holdings_ramp] at this; exact this, h.overdue⟩
  · exact ⟨h.lane, h.sect, h.moment, fun r => by rw [holdings_ramp]; exact h.ramp r, h.overdue⟩

theorem OrderLaw.holdings_iff (s : State) : OrderLaw s.holdings ↔ OrderLaw s.books :=
  ⟨fun h => ⟨h.calls, h.released⟩, fun h => ⟨h.calls, h.released⟩⟩

theorem LimitsLaw.holdings_iff (s : State) : LimitsLaw s.holdings ↔ LimitsLaw s.books := by
  constructor <;> intro h
  · exact ⟨h.lane, h.sect, h.capacity.1, h.capacity.2.1, fun r k => by
      have := h.capacity.2.2 r k; rw [holdings_ramp, held_queue] at this; exact this⟩
  · exact ⟨h.lane, h.sect, h.capacity.1, h.capacity.2.1, fun r k => by
      rw [holdings_ramp, held_queue]; exact h.capacity.2.2 r k⟩

theorem SegregationLaw.holdings_iff (s : State) : SegregationLaw s.holdings ↔ SegregationLaw s.books :=
  ⟨fun h => ⟨h.apart, h.openDeck⟩, fun h => ⟨h.apart, h.openDeck⟩⟩

/-- An event that leaves the holdings. -/
theorem BookLaw.turn (h : BookLaw s) (e : t.holdings = s.holdings) (ramp : RampLaw t) (panel : PanelLaw t) (call : CallLaw t)
    (model : ModelLaw t) : BookLaw t where
  record := by
    have := (RecordLaw.holdings_iff s).2 ((RecordLaw.books_iff s).2 h.record)
    rw [← e] at this
    exact (RecordLaw.books_iff t).1 ((RecordLaw.holdings_iff t).1 this)
  figures := by
    have := (FiguresLaw.holdings_iff s).2 ((FiguresLaw.books_iff s).2 h.figures)
    rw [← e] at this
    exact (FiguresLaw.books_iff t).1 ((FiguresLaw.holdings_iff t).1 this)
  order := by
    have := (OrderLaw.holdings_iff s).2 ((OrderLaw.books_iff s).2 h.order)
    rw [← e] at this
    exact (OrderLaw.books_iff t).1 ((OrderLaw.holdings_iff t).1 this)
  limits := by
    have := (LimitsLaw.holdings_iff s).2 ((LimitsLaw.books_iff s).2 h.limits)
    rw [← e] at this
    exact (LimitsLaw.books_iff t).1 ((LimitsLaw.holdings_iff t).1 this)
  segregation := by
    have := (SegregationLaw.holdings_iff s).2 ((SegregationLaw.books_iff s).2 h.segregation)
    rw [← e] at this
    exact (SegregationLaw.books_iff t).1 ((SegregationLaw.holdings_iff t).1 this)
  ramp := ramp
  panel := panel
  call := call
  model := model

theorem RampLaw.same (h : RampLaw s) (vehicles : t.vehicles = s.vehicles) (frame : t.frame = s.frame)
    (turn : ∀ r, (t.ramp r).seq = (s.ramp r).seq ∧ (t.ramp r).direction = (s.ramp r).direction) : RampLaw t where
  running := by intro r; rw [(turn r).1, (turn r).2]; exact h.running r
  outbound := by
    intro v hv l e
    rw [(turn _).2, same_rampOfNo frame]
    rw [vehicles] at hv
    exact h.outbound v hv l e

theorem PanelLaw.same (h : PanelLaw s) (vehicles : t.vehicles = s.vehicles) (lanes : t.lanes = s.lanes)
    (frame : t.frame = s.frame) : PanelLaw t where
  traffic := by
    intro x hx v hv
    rw [same_borrowed frame rfl, same_coverMoving frame rfl]
    rw [lanes] at hx
    rw [records_same fun u _ => veh?_same vehicles u] at hv
    exact h.traffic x hx v hv
  clearance := by
    intro x hx v hv
    rw [same_coverState? frame rfl, same_clearance frame rfl]
    rw [lanes] at hx
    rw [records_same fun u _ => veh?_same vehicles u] at hv
    exact h.clearance x hx v hv

theorem CallLaw.same (h : CallLaw s) (vehicles : t.vehicles = s.vehicles) (voyage : t.voyage = s.voyage) : CallLaw t where
  range := by rw [vehicles, voyage]; exact h.range
  load := by rw [voyage]; exact h.load
  ashore := by rw [vehicles, voyage]; exact h.ashore

/-! ### Sequencers and directions -/

/-- A ramp takes a sequencer state or a direction. -/
theorem BookLaw.ramps (h : BookLaw s) (r : Ramp) {f : RampState → RampState}
    (hf : ∀ q, (f q).held = q.held)
    (run : (f (s.ramp r)).seq ≠ .stopped → (f (s.ramp r)).direction = .inbound)
    (out : (f (s.ramp r)).direction = .inbound ∨ ∀ v ∈ s.vehicles, ∀ l, v.stage = .onRamp l ∨ v.stage = .pastCrest l →
      s.rampOfNo l ≠ r) : BookLaw (s.updRamp r f) := by
  have frame : (s.updRamp r f).frame = s.frame := updRamp_frame r f
  have vehicles : (s.updRamp r f).vehicles = s.vehicles := by simp
  refine h.turn ?_ ⟨?_, ?_⟩ (h.panel.same vehicles (by simp) frame) (h.call.same vehicles (by simp))
    (h.model.same frame (by simp) (by simp) (by simp))
  · cases r <;> simp only [State.holdings, State.updRamp, hf]
  · intro q
    rw [updRamp_ramp]
    split
    · rename_i e; subst e; exact run
    · exact h.ramp.running q
  · intro v hv l e
    rw [same_rampOfNo frame, updRamp_ramp]
    rw [vehicles] at hv
    split
    · rename_i k
      rcases out with o | o
      · rw [k]; exact o
      · exact absurd k (o v hv l e)
    · exact h.ramp.outbound v hv l e

/-- A sequencer that stands in an INBOUND ramp, or stops. -/
theorem BookLaw.sequencer (h : BookLaw s) (r : Ramp) {f : RampState → RampState} (hf : ∀ q, (f q).held = q.held)
    (hd : (f (s.ramp r)).direction = (s.ramp r).direction)
    (run : (f (s.ramp r)).seq = .stopped ∨ (f (s.ramp r)).seq = (s.ramp r).seq ∨ (s.ramp r).direction = .inbound) :
    BookLaw (s.updRamp r f) := by
  refine h.ramps r hf ?_ ?_
  · intro e
    rw [hd]
    rcases run with k | k | k
    · exact absurd k e
    · rw [k] at e; exact h.ramp.running r e
    · exact k
  · rw [hd]
    cases e : (s.ramp r).direction with
    | inbound => exact Or.inl rfl
    | outbound =>
      refine Or.inr fun v hv l k kr => ?_
      have := h.ramp.outbound v hv l k
      rw [kr, e] at this
      cases this

/-! ### Panels -/

theorem carrier?_some {i q : Nat} {y : Panel} (h : s.carrier? i = some (q, y)) : s.panel? q = some y ∧ y.carried = i := by
  unfold State.carrier? at h
  have h1 := List.find?_some h
  have h2 := List.mem_of_find?_eq_some h
  rw [List.mem_filterMap] at h2
  obtain ⟨p, -, h2⟩ := h2
  cases hp : s.panel? p with
  | none => rw [hp] at h2; cases h2
  | some x =>
    rw [hp] at h2
    cases h2
    exact ⟨hp, by simpa using h1⟩

theorem carrier?_updPanel {p : Nat} {f : Panel → Panel} (hf : ∀ x, (f x).carried = x.carried) (i : Nat) :
    (s.updPanel p f).carrier? i = (s.carrier? i).map fun q => (q.1, if p = q.1 then f q.2 else q.2) := by
  unfold State.carrier?
  have e : (List.range (s.updPanel p f).panels.length).filterMap (fun k => ((s.updPanel p f).panel? k).map fun x => (k, x)) =
      ((List.range s.panels.length).filterMap fun k => (s.panel? k).map fun x => (k, x)).map
        fun q => (q.1, if p = q.1 then f q.2 else q.2) := by
    rw [List.map_filterMap]
    simp only [updPanel_fields, List.length_modify]
    refine filterMap_same fun k _ => ?_
    rw [updPanel_panel?]
    split
    · rename_i e; subst e; cases s.panel? p <;> simp
    · rename_i e; cases s.panel? k <;> simp [e]
  rw [e, List.find?_map]
  congr 2
  funext q
  simp only [Function.comp]
  split <;> simp [hf]

theorem mem_lanesWhere {g : Lane → Bool} {l : Nat} : l ∈ s.lanesWhere g ↔ ∃ x, s.lane? l = some x ∧ g x = true := by
  unfold State.lanesWhere
  rw [List.mem_filter, List.mem_range]
  constructor
  · rintro ⟨-, e⟩
    split at e
    · rename_i x hx; exact ⟨x, hx, e⟩
    · cases e
  · rintro ⟨x, hx, e⟩
    refine ⟨(List.getElem?_eq_some_iff.1 hx).1, ?_⟩
    rw [hx]
    exact e

theorem updPanel_coverState? {p : Nat} {f : Panel → Panel} (x : Lane) : (s.updPanel p f).coverState? x =
    x.cover.bind fun c => (s.panel? c.panel).map fun y => if p = c.panel then (f y).state else y.state := by
  unfold State.coverState?
  cases x.cover with
  | none => rfl
  | some c =>
    simp only [Option.bind_some, updPanel_panel?]
    split
    · rw [Option.map_map]; rfl
    · rfl

/-- A panel takes a state. -/
theorem BookLaw.panelMoves (h : BookLaw s) {p : Nat} {x : Panel} (hx : s.panel? p = some x) {f : Panel → Panel}
    (hf : ∀ y, (f y).built = y.built)
    (traffic : (f x).state.moving = true → ∀ l ∈ s.lanesOnUnder p, ∀ y, s.lane? l = some y →
      ∀ v ∈ s.records y.claims, v.stage.released = false)
    (clear : (f x).state ≠ .stowed → (f x).state ≠ .unknown → (f x).state ≠ .fault → ∀ y ∈ s.lanes, ∀ c,
      y.cover = some c → c.panel = p → ∀ v ∈ s.records (y.stow ++ y.claims), v.height ≤ c.reduced) :
    BookLaw (s.updPanel p f) := by
  have carried : ∀ y, (f y).carried = y.carried := fun y =>
    (congrArg Panel.carried (hf y) : (f y).built.carried = y.built.carried)
  refine h.turn rfl ⟨?_, ?_⟩ ⟨?_, ?_⟩ (h.call.same rfl rfl) ⟨?_, ?_, ?_, ?_, ?_⟩
  · intro r; cases r
    · exact h.ramp.running .lower
    · exact h.ramp.running .upper
  · intro v hv l e
    have := h.ramp.outbound v hv l e
    revert this
    rw [show (s.updPanel p f).rampOfNo l = s.rampOfNo l from rfl]
    cases s.rampOfNo l <;> exact id
  · intro y hy v hv hr
    obtain ⟨l, hl⟩ := List.mem_iff_getElem?.1 hy
    have old := h.panel.traffic y hy v hv hr
    have on : ∀ {g}, s.lanesOnUnder p = g → l ∈ s.lanesOnUnder p → (f x).state.moving = true → False := by
      intro _ _ hm hmov
      have := traffic hmov l hm y hl v hv
      rw [hr] at this
      cases this
    have mem : (y.sect = x.carried ∨ y.under p = true) → l ∈ s.lanesOnUnder p := by
      intro e
      unfold State.lanesOnUnder
      rw [hx]
      refine mem_lanesWhere.2 ⟨y, hl, ?_⟩
      rcases e with e | e <;> simp [e]
    constructor
    · cases hc : s.carrier? y.sect with
      | none =>
        unfold State.borrowed
        rw [carrier?_updPanel carried, hc]; rfl
      | some q =>
        obtain ⟨q, z⟩ := q
        have k := carrier?_some hc
        unfold State.borrowed
        rw [carrier?_updPanel carried, hc]
        simp only [Option.map_some]
        by_cases e : p = q
        · subst e
          rw [hx] at k
          have k1 := Option.some.inj k.1
          subst k1
          rw [if_pos rfl]
          cases hm : (f x).state.moving with
          | false => rfl
          | true => exact (on rfl (mem (Or.inl k.2.symm)) hm).elim
        · rw [if_neg e]
          have := old.1
          unfold State.borrowed at this
          rw [hc] at this
          exact this
    · unfold State.coverMoving
      rw [updPanel_coverState?]
      cases hc : y.cover with
      | none => rfl
      | some c =>
        simp only [Option.bind_some]
        by_cases e : p = c.panel
        · subst e
          rw [hx, Option.map_some, if_pos rfl]
          cases hm : (f x).state.moving with
          | false => exact hm
          | true => exact (on rfl (mem (Or.inr (by simp [Lane.under, hc]))) hm).elim
        · have := old.2
          unfold State.coverMoving State.coverState? at this
          rw [hc, Option.bind_some] at this
          simp only [if_neg e]
          exact this
  · intro y hy v hv
    have old := h.panel.clearance y hy v hv
    refine ⟨old.1, ?_⟩
    rw [updPanel_coverState?]
    unfold State.clearance
    cases hc : y.cover with
    | none =>
      intro _ _
      exact old.1
    | some c =>
      simp only [Option.bind_some, updPanel_panel?]
      by_cases e : p = c.panel
      · subst e
        rw [if_pos rfl, hx]
        simp only [Option.map_some]
        intro n1 n2
        by_cases k : (f x).state = .stowed
        · rw [if_pos k]; exact old.1
        · rw [if_neg k]
          exact clear k (fun k => n1 (congrArg some k)) (fun k => n2 (congrArg some k)) y hy c hc rfl v hv
      · rw [if_neg e]
        simp only [if_neg e]
        have o := old.2
        unfold State.coverState? State.clearance at o
        rw [hc] at o
        exact o
  · have e : (s.updPanel p f).panels.map Panel.built = s.panels.map Panel.built := by
      simp only [updPanel_fields, map_modify_same hf]
    rw [e]
    exact h.model.built
  · exact h.model.symmetric
  · exact h.model.reduced
  · intro y hy e
    rw [carrier?_updPanel carried] at e
    exact h.model.carried y hy (by simpa using e)
  · exact h.model.writing

/-- A panel that comes to rest in a state without a clearance of its own, or rests STOWED. -/
theorem BookLaw.panelRests (h : BookLaw s) {p : Nat} {x : Panel} (hx : s.panel? p = some x) {f : Panel → Panel}
    (hf : ∀ y, (f y).built = y.built) (st : (f x).state = .stowed ∨ (f x).state = .unknown ∨ (f x).state = .fault) :
    BookLaw (s.updPanel p f) := by
  refine h.panelMoves hx hf ?_ ?_
  · intro m
    rcases st with e | e | e <;> rw [e] at m <;> cases m
  · intro a b c
    rcases st with e | e | e
    · exact absurd e a
    · exact absurd e b
    · exact absurd e c

end Sys2Proof.Machine
end

