-- ==== Sys2Proof/Laws/Calls.lean ====
section
/-! SUPPORT. Standby, shutting out, overcarry and the voyage (R10, R60, R145 to R150), and what the lines of HOIST_MOVE
say of a panel's lanes (R135): they keep the laws of the books. -/

namespace Sys2Proof.Machine

variable {s t : State}

/-! ### Standby -/

/-- A vehicle that arrives joins the standby list (R60). -/
theorem BookLaw.standBy (h : BookLaw s) {v : Vehicle} (hv : s.veh? v.tag = none) (hst : v.stage = .standby)
    (ho : v.overdue = false) (room : s.vehicles.length < 2048 ∧ s.standby.length < 128)
    (voy : ∃ c n, s.voyage = .load c n ∧ c ≤ v.call ∧ v.call ≤ n) :
    BookLaw { s with vehicles := s.vehicles ++ [v], standby := s.standby ++ [v.tag] } := by
  let t : State := { s with vehicles := s.vehicles ++ [v], standby := s.standby ++ [v.tag] }
  show BookLaw t
  have frame : t.frame = s.frame := rfl
  have ramp : ∀ r, t.ramp r = s.ramp r := by intro r; cases r <;> rfl
  have veh : ∀ w, t.veh? w = if w = v.tag then some v else s.veh? w := fun w => veh?_append hv rfl w
  have was : s.stage? v.tag = none := by simp [State.stage?, hv]
  have free : ∀ {k y}, s.lane? k = some y → v.tag ∉ y.stow ++ y.claims := by
    intro k y hy hu
    have e := h.record.holds hy hu
    rw [was] at e
    cases e
  have tags : (t.vehicles.map Vehicle.tag).Nodup := by
    simp only [t, List.map_append, List.map_cons, List.map_nil]
    refine append_nodup h.record.tags fun k => ?_
    obtain ⟨w, hw, k⟩ := List.mem_map.1 k
    have := veh?_of_mem h.record.tags hw
    rw [k, hv] at this
    cases this
  have record : RecordLaw t := by
    refine h.record.move (tag := v.tag) (old := none) (new := some .standby) (kd := v.cls.kind) frame tags was
      ?_ ?_ (fun e => absurd rfl e) ?_ (fun _ e => by cases e) rfl ?_ ?_
    · intro w; unfold State.stage?; rw [veh]
      split
      · exact congrArg some hst
      · rfl
    · intro w hw; unfold State.kind?; rw [veh, if_neg hw]
    · intro _; unfold State.kind?; rw [veh, if_pos rfl]; rfl
    · intro k x' y hx' hy
      have e : s.lane? k = some x' := hx'
      rw [hy] at e
      cases e
      exact ⟨rfl, rfl, rfl⟩
    · intro r; rw [ramp]; exact ⟨rfl, fun _ => rfl⟩
  have recs : ∀ {xs}, v.tag ∉ xs → t.records xs = s.records xs := by
    intro xs n
    refine records_same fun w hw => ?_
    rw [veh, if_neg fun e : w = v.tag => n (e ▸ hw)]
  have recC : ∀ {k y}, s.lane? k = some y → t.records y.claims = s.records y.claims :=
    fun hy => recs fun n => free hy (List.mem_append_right _ n)
  have back : ∀ w ∈ t.vehicles, w = v ∨ w ∈ s.vehicles := by
    intro w hw
    rcases List.mem_append.1 hw with e | e
    · exact Or.inr e
    · exact Or.inl (List.mem_singleton.1 e)
  have few : Fewer s t := by
    refine ⟨frame, ?_, ?_⟩
    · intro k x' y hx' hy u hu
      have e : s.lane? k = some x' := hx'
      rw [hy] at e
      cases e
      exact hu
    · intro k y hy u hu v' hv'
      rw [veh, if_neg fun e : u = v.tag => free hy (e ▸ hu)] at hv'
      exact ⟨v', hv', rfl, rfl⟩
  refine BookLaw.of_parts record ?_ ⟨?_, ?_, ?_⟩ ?_ (h.segregation.fewer few) ⟨?_, ?_⟩ ?_
    (ClearanceLaw.fewer h.panel.clearance few) ⟨?_, h.call.load, ?_⟩ (h.model.same frame rfl rfl rfl)
  · refine h.hold.same rfl rfl rfl fun k y hy u hu => ?_
    rw [veh, if_neg fun e : u = v.tag => free hy (e ▸ hu)]
  · intro r
    rw [ramp, h.figures.ramp]
    unfold State.massOf
    rw [recs fun n => ?_]
    obtain ⟨k, e, -⟩ := ((h.record.onRamp r).2 v.tag).1 n
    rw [was] at e
    cases e
  · intro w hw hov
    rcases back w hw with rfl | hw
    · rw [ho] at hov; cases hov
    · exact h.figures.overdue w hw hov
  · refine ⟨?_, ?_, fun r k => by rw [ramp]; exact h.limits.capacity.2.2 r k⟩
    · simp only [t, List.length_append, List.length_cons, List.length_nil]; omega
    · simp only [t, List.length_append, List.length_cons, List.length_nil]; omega
  · intro k x' hx'
    rw [recC (y := x') hx']
    exact h.gate k x' hx'
  · intro r hq; rw [ramp] at hq ⊢; exact h.ramp.running r hq
  · intro w hw k e
    rw [ramp, same_rampOfNo frame]
    rcases back w hw with rfl | hw
    · rw [hst] at e; rcases e with e | e <;> cases e
    · exact h.ramp.outbound w hw k e
  · intro x' hx' w hw hr
    obtain ⟨k, hk⟩ := List.mem_iff_getElem?.1 hx'
    rw [recC (y := x') hk] at hw
    exact h.panel.traffic x' hx' w hw hr
  · intro c n e
    obtain ⟨k1, k2, k3, k4⟩ := h.call.range c n e
    refine ⟨k1, k2, k3, fun w hw => ?_⟩
    rcases back w hw with rfl | hw
    · obtain ⟨c', n', e', v1, v2⟩ := voy
      have e : s.voyage = .atSea c n ∨ s.voyage = .discharge c n ∨ s.voyage = .load c n := e
      rw [e'] at e
      rcases e with e | e | e <;> cases e
      exact ⟨v1, v2⟩
    · exact k4 w hw
  · intro e
    obtain ⟨c', n', e', -⟩ := voy
    have e : s.voyage = .noVoyage := e
    rw [e'] at e
    cases e

/-- One vehicle of the standby list is shut out. -/
theorem BookLaw.shutOutOne (h : BookLaw s) {tag : Nat} (hm : tag ∈ s.standby) : BookLaw (shutOutOne s tag) := by
  obtain ⟨v, hv, hst⟩ := stage?_some ((h.record.standby.2 tag).1 hm)
  unfold Machine.shutOutOne
  rw [hv]
  exact (h.offStandby hv hst).of_books (notify_books _)

/-- The standby list is shut out: no vehicle is left on it. -/
theorem BookLaw.shutOut (h : BookLaw s) : BookLaw (shutOut s) ∧ (shutOut s).standby = [] ∧
    (∀ w ∈ (shutOut s).vehicles, w ∈ s.vehicles) ∧ (shutOut s).voyage = s.voyage := by
  have key : ∀ (xs : List Nat) (s : State), BookLaw s → s.standby = xs →
      BookLaw (xs.foldl Machine.shutOutOne s) ∧ (xs.foldl Machine.shutOutOne s).standby = [] ∧
        (∀ w ∈ (xs.foldl Machine.shutOutOne s).vehicles, w ∈ s.vehicles) ∧ (xs.foldl Machine.shutOutOne s).voyage = s.voyage := by
    intro xs
    induction xs with
    | nil => intro s h e; exact ⟨h, e, fun _ h => h, rfl⟩
    | cons a as ih =>
      intro s h e
      have hm : a ∈ s.standby := by rw [e]; exact List.mem_cons_self
      have h1 := h.shutOutOne hm
      obtain ⟨v, hv, -⟩ := stage?_some ((h.record.standby.2 a).1 hm)
      have nd := h.record.standby.1
      rw [e, List.nodup_cons] at nd
      have e1 : (Machine.shutOutOne s a).standby = as := by
        unfold Machine.shutOutOne
        rw [hv]
        show without a s.standby = as
        have := without_not_mem nd.1
        rw [e]
        simp only [without] at this ⊢
        rw [List.filter_cons_of_neg (by simp), this]
      have e2 : ∀ w ∈ (Machine.shutOutOne s a).vehicles, w ∈ s.vehicles := by
        intro w hw
        unfold Machine.shutOutOne at hw
        rw [hv] at hw
        exact (List.mem_filter.1 hw).1
      have e3 : (Machine.shutOutOne s a).voyage = s.voyage := by
        unfold Machine.shutOutOne
        rw [hv]
        rfl
      obtain ⟨k1, k2, k3, k4⟩ := ih _ h1 e1
      rw [List.foldl_cons]
      exact ⟨k1, k2, fun w hw => e2 w (k3 w hw), k4.trans e3⟩
  exact key s.standby s h rfl

/-! ### Overcarry -/

/-- The call is closed with every vehicle placed: those due at it are due at the next (R150). -/
theorem BookLaw.overcarried (h : BookLaw s) {c n : Nat} (hv : s.voyage = .discharge c n ∨ s.voyage = .load c n)
    (placed : ∀ v ∈ s.vehicles, v.stage.isPlaced = true) (last : c = n → ∀ v ∈ s.vehicles, v.call ≠ c) :
    BookLaw { overcarry c s with voyage := if c = n then .noVoyage else .atSea (c + 1) n } := by
  let g : Vehicle → Vehicle := fun v => if v.stage.isPlaced && v.call == c then { v with call := c + 1 } else v
  let t : State := { s with vehicles := s.vehicles.map g, voyage := if c = n then .noVoyage else .atSea (c + 1) n }
  show BookLaw t
  obtain ⟨n1, n2, cn, range⟩ := h.call.range c n (Or.inr hv)
  have gs : ∀ v, (g v).tag = v.tag ∧ (g v).stage = v.stage ∧ (g v).cls = v.cls ∧ (g v).length = v.length ∧
      (g v).mass = v.mass ∧ (g v).reefer = v.reefer ∧ (g v).overdue = v.overdue ∧ (g v).dg = v.dg ∧
      (g v).height = v.height := by
    intro v
    simp only [g]
    split <;> exact ⟨rfl, rfl, rfl, rfl, rfl, rfl, rfl, rfl, rfl⟩
  have gc : ∀ v ∈ s.vehicles, (g v).call = if v.call = c then c + 1 else v.call := by
    intro v hv
    simp only [g, placed v hv, Bool.true_and, beq_iff_eq]
    split <;> rfl
  have veh : ∀ u, t.veh? u = (s.veh? u).map g := by
    intro u
    unfold State.veh?
    show (s.vehicles.map g).find? _ = _
    rw [List.find?_map]
    congr 2
    funext v
    simp [(gs v).1]
  have recs : ∀ xs, t.records xs = (s.records xs).map g := fun xs => records_map fun u _ => veh u
  have stage : ∀ u, t.stage? u = s.stage? u := by
    intro u; unfold State.stage?; rw [veh, Option.map_map]
    cases s.veh? u <;> simp [(gs _).2.1]
  have kind : ∀ u, t.kind? u = s.kind? u := by
    intro u; unfold State.kind?; rw [veh, Option.map_map]
    cases s.veh? u <;> simp [(gs _).2.2.1]
  have ramp : ∀ r, t.ramp r = s.ramp r := by intro r; cases r <;> rfl
  have inV : ∀ {xs v}, v ∈ s.records xs → v ∈ s.vehicles := fun hv => veh?_mem (records_mem.1 hv).2
  have frame : t.frame = s.frame := rfl
  have noRel : ∀ v ∈ s.vehicles, v.stage.released = false := by
    intro v hv
    have := placed v hv
    cases e : v.stage <;> rw [e] at this <;> first | rfl | cases this
  have masses : ∀ xs, t.massOf xs = s.massOf xs := by
    intro xs
    unfold State.massOf
    rw [recs, List.map_map]
    congr 1
    exact List.map_congr_left fun v _ => (gs v).2.2.2.2.1
  have few : Fewer s t := by
    refine ⟨frame, ?_, ?_⟩
    · intro k x' y hx' hy u hu
      have e : s.lane? k = some x' := hx'
      rw [hy] at e
      cases e
      exact hu
    · intro k y _ u _ v' hv'
      rw [veh] at hv'
      obtain ⟨v, hv, rfl⟩ := Option.map_eq_some_iff.1 hv'
      exact ⟨v, hv, (gs v).2.2.2.2.2.2.2.1, (gs v).2.2.2.2.2.2.2.2⟩
  refine ⟨⟨?_, ?_, ?_, ?_, ?_, ?_, ?_, ?_⟩, ⟨?_, ?_, ?_, ?_, ?_⟩, ⟨?_, ?_⟩, ⟨h.limits.lane, h.limits.sect, ?_⟩,
    h.segregation.fewer few, ⟨?_, ?_⟩, ⟨?_, ClearanceLaw.fewer h.panel.clearance few⟩, ⟨?_, ?_, ?_⟩,
    h.model.same frame rfl rfl rfl⟩
  · have e : t.vehicles.map Vehicle.tag = s.vehicles.map Vehicle.tag := by
      show (s.vehicles.map g).map _ = _
      rw [List.map_map]
      exact List.map_congr_left fun v _ => (gs v).1
    rw [e]; exact h.record.tags
  · intro u l e; rw [stage] at e; exact h.record.bound u l e
  · refine ⟨h.record.standby.1, fun u => ?_⟩; rw [stage]; exact h.record.standby.2 u
  · intro l x hx; refine ⟨(h.record.stow l x hx).1, fun u => ?_⟩; rw [stage]; exact (h.record.stow l x hx).2 u
  · intro l x hx; refine ⟨(h.record.claims l x hx).1, fun u => ?_⟩; rw [stage]; exact (h.record.claims l x hx).2 u
  · intro l x hx; refine ⟨(h.record.pastCrest l x hx).1, fun u => ?_⟩; rw [stage]; exact (h.record.pastCrest l x hx).2 u
  · intro r; rw [ramp]; refine ⟨(h.record.onRamp r).1, fun u => ?_⟩; rw [stage]; exact (h.record.onRamp r).2 u
  · intro r k; rw [ramp]; refine ⟨(h.record.queue r k).1, fun u => ?_⟩; rw [stage, kind]; exact (h.record.queue r k).2 u
  · intro x hx
    obtain ⟨f1, f2⟩ := h.figures.lane x hx
    constructor
    · have e : t.figured x = s.figured x := by
        simp only [State.figured, State.lengthOf, masses, recs, List.map_map, List.filter_map, List.length_map]
        congr 1
        · congr 1
          exact List.map_congr_left fun v _ => by simp [(gs v).2.2.2.1]
        · congr 1
          exact List.filter_congr fun v _ => by simp [(gs v).2.2.2.2.2.1]
      rw [e]; exact f1
    · rw [f2, recs, List.filter_map, List.length_map]
      congr 1
      exact List.filter_congr fun v _ => by simp [(gs v).2.2.2.2.2.2.1]
  · exact h.figures.sect
  · exact h.figures.moment
  · intro r; rw [ramp, masses]; exact h.figures.ramp r
  · intro w hw ho
    obtain ⟨v, hv, rfl⟩ := List.mem_map.1 hw
    rw [(gs v).2.2.2.2.2.2.1] at ho
    rw [(gs v).2.1]
    exact h.figures.overdue v hv ho
  · intro x hx
    have o := h.order.calls x hx
    rw [recs, List.map_map]
    have e : (s.records (x.stow ++ x.claims)).map (Vehicle.call ∘ g) =
        ((s.records (x.stow ++ x.claims)).map Vehicle.call).map fun k => if k = c then c + 1 else k := by
      rw [List.map_map]
      exact List.map_congr_left fun v hv => gc v (inV hv)
    rw [e, List.pairwise_map]
    refine o.imp_of_mem ?_
    intro a b ha hb hab
    obtain ⟨v, hv, rfl⟩ := List.mem_map.1 ha
    obtain ⟨w, hw, rfl⟩ := List.mem_map.1 hb
    have r1 := (range v (inV hv)).1
    have r2 := (range w (inV hw)).1
    show _ ≤ _
    have hab : w.call ≤ v.call := hab
    split <;> split <;> omega
  · intro x hx w hw hr
    rw [recs] at hw
    obtain ⟨v, hv, rfl⟩ := List.mem_map.1 hw
    rw [(gs v).2.1, noRel v (inV hv)] at hr
    cases hr
  · refine ⟨?_, h.limits.capacity.2.1, fun r k => by rw [ramp]; exact h.limits.capacity.2.2 r k⟩
    show (s.vehicles.map g).length ≤ 2048
    rw [List.length_map]
    exact h.limits.capacity.1
  · intro r hq; rw [ramp] at hq ⊢; exact h.ramp.running r hq
  · intro w hw k e
    rw [ramp, same_rampOfNo frame]
    obtain ⟨v, hv, rfl⟩ := List.mem_map.1 hw
    rw [(gs v).2.1] at e
    exact h.ramp.outbound v hv k e
  · intro x hx w hw hr
    rw [recs] at hw
    obtain ⟨v, hv, rfl⟩ := List.mem_map.1 hw
    rw [(gs v).2.1, noRel v (inV hv)] at hr
    cases hr
  · intro c' n' e
    by_cases k : c = n
    · have e : t.voyage = .noVoyage := if_pos k
      simp_all
    · have e' : t.voyage = .atSea (c + 1) n := if_neg k
      rw [e'] at e
      rcases e with e | e | e <;> cases e
      refine ⟨n1, n2, by omega, fun w hw => ?_⟩
      obtain ⟨v, hv, rfl⟩ := List.mem_map.1 hw
      rw [gc v hv]
      have := range v hv
      split <;> omega
  · intro c' n' e
    by_cases k : c = n
    · have e' : t.voyage = .noVoyage := if_pos k
      rw [e'] at e; cases e
    · have e' : t.voyage = .atSea (c + 1) n := if_neg k
      rw [e'] at e; cases e
  · intro e
    by_cases k : c = n
    · have : s.vehicles = [] := by
        cases hs : s.vehicles with
        | nil => rfl
        | cons v vs =>
          have hv : v ∈ s.vehicles := by rw [hs]; exact List.mem_cons_self
          have r1 := range v hv
          exact absurd (by omega) (last k v hv)
      show s.vehicles.map g = []
      rw [this]; rfl
    · have e' : t.voyage = .atSea (c + 1) n := if_neg k
      rw [e'] at e; cases e

/-! ### The voyage -/

theorem BookLaw.sails (h : BookLaw s) {y : Voyage} (call : CallLaw { s with voyage := y }) : BookLaw { s with voyage := y } :=
  h.turn rfl (h.ramp.same rfl rfl fun r => by cases r <;> exact ⟨rfl, rfl⟩) (h.panel.same rfl rfl rfl) call
    (h.model.same rfl rfl rfl rfl)

/-! ### What the lines of HOIST_MOVE say -/

/-- No vehicle under the panel is above its lane's reduced class. -/
def State.lowUnder (s : State) (p : Nat) : Prop := ∀ y ∈ s.lanes, ∀ c, y.cover = some c → c.panel = p →
  ∀ v ∈ s.records (y.stow ++ y.claims), v.height ≤ c.reduced

/-- No RELEASED vehicle is bound to a lane on or under the panel. -/
def State.quietUnder (s : State) (p : Nat) : Prop := ∀ l ∈ s.lanesOnUnder p, ∀ y, s.lane? l = some y →
  ∀ v ∈ s.records y.claims, v.stage.released = false

theorem lowUnder_of_none {p : Nat} (h : s.firstTallUnder p = none) : s.lowUnder p := by
  intro y hy c hc hp v hv
  obtain ⟨l, hl⟩ := List.mem_iff_getElem?.1 hy
  unfold State.firstTallUnder at h
  rw [List.head?_eq_none_iff, List.flatMap_eq_nil_iff] at h
  have hm : l ∈ s.lanesUnder p := mem_lanesWhere.2 ⟨y, hl, by simp [Lane.under, hc, hp]⟩
  have k := h l hm
  unfold State.tallIn at k
  rw [show s.lane? l = some y from hl] at k
  simp only [hc, List.map_eq_nil_iff, List.filter_eq_nil_iff, decide_eq_true_eq] at k
  exact Nat.le_of_not_lt (k v hv)

theorem quietUnder_of_none {p : Nat} (h : s.firstTraffic p = none) : s.quietUnder p := by
  intro l hl y hy v hv
  unfold State.firstTraffic at h
  rw [List.head?_eq_none_iff, List.flatMap_eq_nil_iff] at h
  have k := h l hl
  unfold State.trafficIn at k
  rw [hy] at k
  simp only [List.append_eq_nil_iff, List.map_eq_nil_iff, List.filter_eq_nil_iff] at k
  cases e : v.stage.released
  · rfl
  · exact absurd e (k.1 v hv)

/-- Under a panel that stands in a state with the reduced clearance. -/
theorem BookLaw.lowUnder (h : BookLaw s) {p : Nat} {x : Panel} (hx : s.panel? p = some x)
    (st : x.state = .working ∨ x.state.moving = true) : s.lowUnder p := by
  intro y hy c hc hp v hv
  have k := (h.panel.clearance y hy v hv).2
  have e : s.coverState? y = some x.state := by
    unfold State.coverState?
    rw [hc, Option.bind_some, hp, hx]; rfl
  have e2 : s.clearance y = c.reduced := by
    unfold State.clearance
    rw [hc]
    simp only [hp, hx]
    rw [if_neg]
    intro k
    rw [k] at st
    rcases st with st | st <;> cases st
  rw [e, e2] at k
  refine k ?_ ?_ <;> intro k <;> rw [Option.some.inj k] at st <;> rcases st with st | st <;> cases st

end Sys2Proof.Machine
end

