-- ==== Sys2Proof/Laws/Builds.lean ====
section
/-! SUPPORT. The build of the deck model at a reset and at a commit's end (R17, R19, R180, R181) keeps the laws of the
books. -/

namespace Sys2Proof.Machine

variable {s t : State}

/-! ### Lists with their numbers -/

theorem mapNumbered_get {α : Type} (f : Nat → α → α) : ∀ (n : Nat) (xs : List α) (i : Nat),
    (mapNumbered f n xs)[i]? = (xs[i]?).map (f (n + i))
  | _, [], _ => by simp [mapNumbered]
  | n, x :: xs, 0 => by simp [mapNumbered]
  | n, x :: xs, i + 1 => by
    simp only [mapNumbered, List.getElem?_cons_succ]
    rw [mapNumbered_get f (n + 1) xs i]
    congr 2
    omega

theorem map_mapNumbered {α β : Type} {f : Nat → α → α} {g : α → β} (h : ∀ n x, g (f n x) = g x) :
    ∀ (n : Nat) (xs : List α), (mapNumbered f n xs).map g = xs.map g
  | _, [] => rfl
  | n, x :: xs => by simp only [mapNumbered, List.map_cons, h, map_mapNumbered h (n + 1) xs]

/-! ### The plan of the deck model -/

/-- What a build alone sets of the deck model. -/
def State.plan (s : State) : State :=
  { State.reset with
    limits := s.limits, decks := s.decks.map Deck.built, sections := s.sections.map Sect.built
    lanes := s.lanes.map Lane.built, panels := s.panels.map Panel.built }

theorem carrier?_isSome (s : State) (i : Nat) : (s.carrier? i).isSome = true ↔ ∃ y ∈ s.panels, y.carried = i := by
  unfold State.carrier?
  rw [List.find?_isSome]
  constructor
  · rintro ⟨⟨p, y⟩, hm, e⟩
    obtain ⟨q, -, hq⟩ := List.mem_filterMap.1 hm
    cases hp : s.panel? q with
    | none => rw [hp] at hq; cases hq
    | some x =>
      rw [hp] at hq
      cases hq
      exact ⟨_, List.mem_of_getElem? hp, by simpa using e⟩
  · rintro ⟨y, hy, e⟩
    obtain ⟨p, hp⟩ := List.mem_iff_getElem?.1 hy
    refine ⟨(p, y), List.mem_filterMap.2 ⟨p, ?_, ?_⟩, by simpa using e⟩
    · exact List.mem_range.2 (List.getElem?_eq_some_iff.1 hp).1
    · show (s.panel? p).map _ = _
      rw [show s.panel? p = some y from hp]
      rfl

theorem plan_onHoist (s : State) (x : Lane) : s.plan.onHoist x.built = s.onHoist x := frame_onHoist s x

/-- The model law of a state with the plan of another. -/
theorem ModelLaw.planned (h : ModelLaw s) (plan : t.plan = s.plan)
    (built : t.store.mark = .active → t.limits = buildLimits t.store.records ∧
      t.decks.map Deck.built = (List.range (deckCount t.store.records)).map (buildDeck t.store.records) ∧
      t.sections.map Sect.built = (List.range (sectCount t.store.records)).map (buildSect t.store.records) ∧
      t.lanes.map Lane.built = (List.range (laneCount t.store.records)).map (buildLane t.store.records) ∧
      t.panels.map Panel.built = (List.range (panelCount t.store.records)).map (buildPanel t.store.records))
    (writing : t.profile.isCommitting = true → validate (candidate t.store t.draft) = none) : ModelLaw t where
  built := built
  symmetric := by
    have e : t.limits = s.limits := congrArg (fun u => u.limits) plan
    intro g k
    unfold State.dgLevel
    rw [e]
    exact h.symmetric g k
  reduced := by
    intro x hx k hk
    have e : t.lanes.map Lane.built = s.lanes.map Lane.built := congrArg (fun u => u.lanes) plan
    have hm : x.built ∈ s.lanes.map Lane.built := e ▸ List.mem_map_of_mem hx
    obtain ⟨y, hy, e⟩ := List.mem_map.1 hm
    have e1 : y.cover = x.cover := (congrArg Lane.cover e : y.built.cover = x.built.cover)
    have e2 : y.baseClass = x.baseClass := (congrArg Lane.baseClass e : y.built.baseClass = x.built.baseClass)
    rw [← e2]
    exact h.reduced y hy k (e1 ▸ hk)
  carried := by
    intro x hx hk
    have e : t.lanes.map Lane.built = s.lanes.map Lane.built := congrArg (fun u => u.lanes) plan
    have ep : t.panels.map Panel.built = s.panels.map Panel.built := congrArg (fun u => u.panels) plan
    have hm : x.built ∈ s.lanes.map Lane.built := e ▸ List.mem_map_of_mem hx
    obtain ⟨y, hy, e⟩ := List.mem_map.1 hm
    have e1 : y.sect = x.sect := (congrArg Lane.sect e : y.built.sect = x.built.sect)
    rw [← plan_onHoist, ← e, plan, plan_onHoist]
    refine h.carried y hy ?_
    rw [carrier?_isSome] at hk ⊢
    obtain ⟨p, hp, e2⟩ := hk
    have hm : p.built ∈ s.panels.map Panel.built := ep ▸ List.mem_map_of_mem hp
    obtain ⟨q, hq, e3⟩ := List.mem_map.1 hm
    have e4 : q.carried = p.carried := (congrArg Panel.carried e3 : q.built.carried = p.built.carried)
    exact ⟨q, hq, by rw [e4, e1]; exact e2⟩
  writing := writing

/-! ### A deck model with nothing in it -/

/-- Stow memory cleared: no vehicle, no voyage, every list empty, every figure 0, both ramps STOPPED. -/
structure Bare (t : State) : Prop where
  vehicles : t.vehicles = []
  standby : t.standby = []
  voyage : t.voyage = .noVoyage
  lanes : ∀ x ∈ t.lanes, x.stow = [] ∧ x.claims = [] ∧ x.pastCrest = [] ∧ x.overdue = 0 ∧ x.used = 0 ∧ x.reefers = 0 ∧
    x.mass = 0 ∧ x.placedMass = 0
  sections : ∀ c ∈ t.sections, c.projected = 0 ∧ c.placed = 0
  moment : t.listMoment = 0
  ramps : ∀ r, (t.ramp r).light = [] ∧ (t.ramp r).heavy = [] ∧ (t.ramp r).onRamp = [] ∧ (t.ramp r).mass = 0 ∧
    (t.ramp r).seq = .stopped

theorem sum_zeros : ∀ {xs : List Nat}, (∀ n ∈ xs, n = 0) → xs.sum = 0
  | [], _ => rfl
  | a :: as, h => by
    rw [List.sum_cons, h a List.mem_cons_self, sum_zeros fun n hn => h n (List.mem_cons_of_mem _ hn)]

theorem sum_int_zeros : ∀ {xs : List Int}, (∀ n ∈ xs, n = 0) → xs.sum = 0
  | [], _ => rfl
  | a :: as, h => by
    rw [List.sum_cons, h a List.mem_cons_self, sum_int_zeros fun n hn => h n (List.mem_cons_of_mem _ hn)]
    rfl

theorem Bare.bookLaw (b : Bare t) (model : ModelLaw t) : BookLaw t := by
  have veh : ∀ u, t.veh? u = none := by intro u; unfold State.veh?; rw [b.vehicles]; rfl
  have stage : ∀ u, t.stage? u = none := by intro u; unfold State.stage?; rw [veh]; rfl
  have recs : ∀ xs, t.records xs = [] := by
    intro xs
    rw [List.eq_nil_iff_forall_not_mem]
    intro v hv
    have := (records_mem.1 hv).2
    rw [veh] at this
    cases this
  have queue : ∀ r k, (t.ramp r).queue k = [] := by
    intro r k
    cases k
    · exact (b.ramps r).1
    · exact (b.ramps r).2.1
  have zeros : ∀ (f : Lane → Nat) (p : Lane → Bool), (∀ x ∈ t.lanes, f x = 0) → ((t.lanes.filter p).map f).sum = 0 := by
    intro f p hf
    refine sum_zeros fun n hn => ?_
    obtain ⟨x, hx, rfl⟩ := List.mem_map.1 hn
    exact hf x (List.mem_filter.1 hx).1
  have noV : ∀ {P : Vehicle → Prop}, ∀ v ∈ t.vehicles, P v := by
    intro P v hv; rw [b.vehicles] at hv; cases hv
  refine ⟨⟨?_, ?_, ?_, ?_, ?_, ?_, ?_, ?_⟩, ⟨?_, ?_, ?_, ?_, noV⟩, ⟨?_, ?_⟩, ⟨?_, ?_, ?_⟩, ⟨?_, ?_⟩, ⟨?_, noV⟩,
    ⟨?_, ?_⟩, ⟨?_, ?_, fun _ => b.vehicles⟩, model⟩
  · rw [b.vehicles]; exact List.nodup_nil
  · intro u l e; rw [stage] at e; cases e
  · rw [b.standby]; exact ⟨List.nodup_nil, fun u => by rw [stage]; simp⟩
  · intro l x hx
    obtain ⟨e, -⟩ := b.lanes x (List.mem_of_getElem? hx)
    rw [e]; exact ⟨List.nodup_nil, fun u => by rw [stage]; simp⟩
  · intro l x hx
    obtain ⟨-, e, -⟩ := b.lanes x (List.mem_of_getElem? hx)
    rw [e]; exact ⟨List.nodup_nil, fun u => by rw [stage]; simp⟩
  · intro l x hx
    obtain ⟨-, -, e, -⟩ := b.lanes x (List.mem_of_getElem? hx)
    rw [e]; exact ⟨List.nodup_nil, fun u => by rw [stage]; simp⟩
  · intro r
    rw [(b.ramps r).2.2.1]; exact ⟨List.nodup_nil, fun u => by rw [stage]; simp⟩
  · intro r k
    rw [queue]; exact ⟨List.nodup_nil, fun u => by rw [stage]; simp⟩
  · intro x hx
    obtain ⟨-, -, -, e1, e2, e3, e4, e5⟩ := b.lanes x hx
    simp only [State.figured, State.lengthOf, State.massOf, recs]
    refine ⟨?_, by rw [e1]; rfl⟩
    cases x
    simp_all
  · intro i c hc
    obtain ⟨e1, e2⟩ := b.sections c (List.mem_of_getElem? hc)
    simp only [State.weighed]
    rw [zeros Lane.mass _ fun x hx => (b.lanes x hx).2.2.2.2.2.2.1,
      zeros Lane.placedMass _ fun x hx => (b.lanes x hx).2.2.2.2.2.2.2]
    cases c
    simp_all
  · rw [b.moment]
    unfold State.momentOf
    symm
    refine sum_int_zeros fun n hn => ?_
    obtain ⟨x, hx, rfl⟩ := List.mem_map.1 hn
    rw [(b.lanes x hx).2.2.2.2.2.2.1]
    simp
  · intro r
    rw [(b.ramps r).2.2.2.1]
    simp [State.massOf, recs]
  · intro x _; rw [recs]; exact List.Pairwise.nil
  · intro x _ v hv; rw [recs] at hv; cases hv
  · intro x hx
    obtain ⟨e1, e2, -, -, e3, e4, -⟩ := b.lanes x hx
    rw [e1, e2, e3, e4]
    simp
  · intro c hc
    rw [(b.sections c hc).1]
    exact Nat.zero_le _
  · rw [b.vehicles, b.standby]
    refine ⟨Nat.zero_le _, Nat.zero_le _, fun r k => ?_⟩
    rw [queue]
    exact Nat.zero_le _
  · intro l x k y _ _ v hv; rw [recs] at hv; cases hv
  · intro x _ v hv; rw [recs] at hv; cases hv
  · intro r e; exact absurd (b.ramps r).2.2.2.2 e
  · intro x _ v hv; rw [recs] at hv; cases hv
  · intro x _ v hv; rw [recs] at hv; cases hv
  · intro c n e
    rw [b.voyage] at e
    rcases e with e | e | e <;> cases e
  · intro c n e
    rw [b.voyage] at e
    cases e

end Sys2Proof.Machine
end

