-- ==== Sys2Proof/Laws/Clears.lean ====
section
/-! SUPPORT. A SUSPECT loop's lane in CONFIRM stays as it is when modes are recomputed (R122, R123): what a clear of a
borrowed loop rests on (R121), until the loop is handed back (R127). -/

namespace Sys2Proof.Machine

variable {s : State} {l : Nat} {x : Lane}

theorem remodeLane_confirm (h : s.lane? l = some x) (suspect : x.suspect = true) (mode : x.mode = .confirm) (k : Nat) :
    (remodeLane k s).lane? l = some x := by
  unfold remodeLane
  split
  · exact h
  · split
    · exact h
    · show (s.lanes.modify k _)[l]? = some x
      rw [List.getElem?_modify, show s.lanes[l]? = some x from h]
      show some _ = some x
      split
      · simp [placementMode, suspect, Lane.takeMode, mode]
      · rfl

theorem remodeLanes_confirm (suspect : x.suspect = true) (mode : x.mode = .confirm) (ks : List Nat) :
    ∀ {s : State}, s.lane? l = some x → (ks.foldl (fun s k => remodeLane k s) s).lane? l = some x := by
  induction ks with
  | nil => exact fun h => h
  | cons k ks ih => exact fun h => ih (remodeLane_confirm h suspect mode k)

theorem remodeSect_confirm (h : s.lane? l = some x) (suspect : x.suspect = true) (mode : x.mode = .confirm) (i : Nat) :
    (remodeSect i s).lane? l = some x := by
  unfold remodeSect
  split
  · exact h
  · dsimp only
    split
    · exact h
    · exact remodeLanes_confirm suspect mode _ h

end Sys2Proof.Machine
end

