-- ==== Sys2Proof/Laws/Finds.lean ====
section
/-! SUPPORT. What "the first" means: the first of a list that passes, the first number below a count that has one, the
first lane in order that gives one; and what stands in the way in one lane (R135). -/

namespace Sys2Proof.Machine

theorem find?_split {α : Type} {p : α → Bool} {xs : List α} {v : α} :
    xs.find? p = some v ↔ ∃ a b, xs = a ++ v :: b ∧ p v = true ∧ ∀ w ∈ a, p w = false := by
  rw [List.find?_eq_some_iff_append]
  constructor
  · rintro ⟨h, a, b, e, g⟩; exact ⟨a, b, e, h, fun w hw => by simpa using g w hw⟩
  · rintro ⟨a, b, e, h, g⟩; exact ⟨h, a, b, e, fun w hw => by simpa using g w hw⟩

/-- The least number below `n` at which `f` has an entry that passes, with that entry. -/
theorem find?_numbered {α : Type} (f : Nat → Option α) (q : α → Bool) (n p : Nat) (y : α) :
    (((List.range n).filterMap fun i => (f i).map fun x => (i, x)).find? fun e => q e.2) = some (p, y) ↔
      p < n ∧ f p = some y ∧ q y = true ∧ ∀ i z, i < p → f i = some z → q z = false := by
  induction n with
  | zero => simp
  | succ n ih =>
    rw [List.range_succ, List.filterMap_append, List.find?_append, Option.or_eq_some_iff, ih]
    constructor
    · rintro (⟨a, b⟩ | ⟨a, b⟩)
      · exact ⟨by omega, b⟩
      · cases hn : f n with
        | none => simp [hn] at b
        | some w =>
          simp [hn] at b
          obtain ⟨passes, rfl, rfl⟩ := b
          refine ⟨by omega, hn, passes, fun i z hi hz => ?_⟩
          have := List.find?_eq_none.mp a (i, z)
            (by rw [List.mem_filterMap]; exact ⟨i, List.mem_range.mpr hi, by rw [hz]; rfl⟩)
          simpa using this
    · rintro ⟨below, entry, passes, least⟩
      by_cases hp : p < n
      · exact Or.inl ⟨hp, entry, passes, least⟩
      · obtain rfl : p = n := by omega
        refine Or.inr ⟨?_, by simp [entry, passes]⟩
        rw [List.find?_eq_none]
        rintro ⟨i, z⟩ hm
        rw [List.mem_filterMap] at hm
        obtain ⟨k, hk, hw⟩ := hm
        rw [Option.map_eq_some_iff] at hw
        obtain ⟨w, hw, e⟩ := hw
        injection e with e1 e2; subst e1; subst e2
        simp [least k w (List.mem_range.mp hk) hw]

/-- The head of what the numbers of a rising list give: the least that gives anything. -/
theorem head?_flatMap_rising {α : Type} {f : Nat → List α} {xs : List Nat} (h : xs.Pairwise (· < ·)) {a : α} :
    (xs.flatMap f).head? = some a ↔ ∃ l ∈ xs, (f l).head? = some a ∧ ∀ k ∈ xs, k < l → f k = [] := by
  induction xs with
  | nil => simp
  | cons b xs ih =>
    rw [List.pairwise_cons] at h
    rw [List.flatMap_cons, List.head?_append]
    cases hb : (f b).head? with
    | some c =>
      simp only [Option.some_or]
      constructor
      · intro e
        refine ⟨b, by simp, by rw [hb]; exact e, fun k hk hlt => ?_⟩
        rcases List.mem_cons.mp hk with rfl | hk
        · omega
        · have := h.1 k hk; omega
      · rintro ⟨l, hl, e, hk⟩
        rcases List.mem_cons.mp hl with rfl | hl
        · rw [← hb]; exact e
        · have := hk b (by simp) (h.1 l hl); rw [this] at hb; simp at hb
    | none =>
      simp only [Option.none_or]
      rw [ih h.2]
      have hb' : f b = [] := List.head?_eq_none_iff.mp hb
      constructor
      · rintro ⟨l, hl, e, hk⟩
        refine ⟨l, by simp [hl], e, fun k hk' hlt => ?_⟩
        rcases List.mem_cons.mp hk' with rfl | hk'
        · exact hb'
        · exact hk k hk' hlt
      · rintro ⟨l, hl, e, hk⟩
        rcases List.mem_cons.mp hl with rfl | hl
        · rw [hb'] at e; simp at e
        · exact ⟨l, hl, e, fun k hk' hlt => hk k (by simp [hk']) hlt⟩

variable {s : State} {l : Nat} {x : Lane}

theorem trafficIn_eq_nil (hx : s.lane? l = some x) : s.trafficIn l = [] ↔
    x.state ≠ .unloading ∧ ∀ v ∈ s.records x.claims, v.stage.released = false := by
  unfold State.trafficIn; rw [hx]
  simp only [List.append_eq_nil_iff, List.map_eq_nil_iff, List.filter_eq_nil_iff]
  constructor
  · rintro ⟨a, b⟩
    refine ⟨fun e => ?_, fun v hv => by simpa using a v hv⟩
    rw [if_pos e] at b; simp at b
  · rintro ⟨a, b⟩; exact ⟨fun v hv => by simp [b v hv], by rw [if_neg a]⟩

theorem trafficIn_head? {k : Nat} {t : Option Nat} (hx : s.lane? l = some x) : (s.trafficIn l).head? = some (t, k) ↔
    k = l ∧ t = ((s.records x.claims).find? fun v => v.stage.released).map Vehicle.tag ∧
      (t ≠ none ∨ x.state = .unloading) := by
  unfold State.trafficIn; rw [hx]
  simp only [List.head?_append, List.head?_map, List.head?_filter]
  cases h : (s.records x.claims).find? fun v => v.stage.released with
  | some v =>
    simp; constructor
    · rintro ⟨rfl, rfl⟩; simp
    · rintro ⟨rfl, rfl, _⟩; simp
  | none =>
    by_cases u : x.state = .unloading
    · simp [u]; constructor
      · rintro ⟨rfl, rfl⟩; simp
      · rintro ⟨rfl, rfl⟩; simp
    · simp [u]

end Sys2Proof.Machine
end

