-- ==== Sys2Proof/Laws/Neutral.lean ====
section
/-! SUPPORT. The shared operations that leave the books (`State.books`): marks, scores and modes, credits, borrowed loops,
outputs, the link. -/

namespace Sys2Proof.Machine

variable {s : State}

/-- A pass over a list, each part of which leaves the books. -/
theorem foldl_books {α : Type} {f : State → α → State} (hf : ∀ t a, (f t a).books = t.books) :
    ∀ (xs : List α) (s : State), (xs.foldl f s).books = s.books
  | [], _ => rfl
  | a :: as, s => by rw [List.foldl_cons, foldl_books hf as, hf]

/-! ### Marks -/

theorem judgeSect_books (i : Nat) : (judgeSect i s).books = s.books := by
  unfold judgeSect
  split
  · rfl
  · dsimp only
    split
    · rw [notify_books]; exact updSect_books i fun _ => rfl
    · exact updSect_books i fun _ => rfl
    · rfl
    · rfl

theorem judgeList_books : (judgeList s).books = s.books := by
  unfold judgeList
  split
  · dsimp only
    split
    · rfl
    · rw [notify_books]; rfl
  · rfl
  · rfl
  · rfl

theorem judgeListOver_books : (judgeListOver s).books = s.books := by
  unfold judgeListOver
  split
  · split
    · rfl
    · rw [notify_books]; rfl
  · rfl

theorem clearListOver_books : (clearListOver s).books = s.books := by
  unfold clearListOver
  split <;> rfl

theorem judgeRemoval_books (l : Nat) : (judgeRemoval l s).books = s.books := by
  unfold judgeRemoval
  split
  · rfl
  · rw [judgeListOver_books, judgeList_books, judgeSect_books]

theorem judgeClaim_books (l : Nat) : (judgeClaim l s).books = s.books := by
  unfold judgeClaim
  split
  · rfl
  · rw [clearListOver_books, judgeList_books, judgeSect_books]

/-! ### Sequencer -/

theorem adoptPair_books (r : Ramp) : (adoptPair r s).books = s.books := by
  unfold adoptPair
  dsimp only
  split
  · exact updRamp_books r fun _ => rfl
  · rw [notify_books]; exact updRamp_books r fun _ => rfl

/-! ### Outputs and the link -/

theorem refresh_books : (refresh s).books = s.books := by
  unfold refresh
  split <;> simp only [State.books, outputsOn, outputsOff, List.map_map] <;> rfl

theorem updLink_books (f : Link → Link) : (s.updLink f).books = s.books := rfl

theorem kick_books : (kick s).books = s.books := by
  unfold kick
  split <;> rfl

theorem readyReply_books (f : Frame) (r : Reply) : (readyReply f r s).books = s.books := rfl
theorem reject_books (r : Result) : (reject r s).books = s.books := rfl
theorem hearFrame_books : (hearFrame s).books = s.books := rfl
theorem bufferFrame_books (f : Frame) : (bufferFrame f s).books = s.books := rfl
theorem setRx_books (r : Rx) : (setRx r s).books = s.books := rfl

/-! ### Sensors -/

theorem takeMode_books (x : Lane) (m : PlacementMode) : (x.takeMode m).books = x.books := by
  unfold Lane.takeMode
  split
  · dsimp only
    split <;> rfl
  · rfl
  · rfl
  · rfl

theorem remodeLane_books (l : Nat) : (remodeLane l s).books = s.books := by
  unfold remodeLane
  split
  · rfl
  · split
    · rfl
    · exact updLane_books l fun x => takeMode_books x _

theorem remodeSect_books (i : Nat) : (remodeSect i s).books = s.books := by
  unfold remodeSect
  split
  · rfl
  · dsimp only
    split
    · rfl
    · rw [foldl_books fun t l => remodeLane_books l, notify_books]
      exact updSect_books i fun _ => rfl

theorem remodeSects_books (is : List Nat) : (remodeSects is s).books = s.books :=
  foldl_books (fun _ i => remodeSect_books i) is s

theorem makeSuspect_books (l : Nat) : (makeSuspect l s).books = s.books := by
  unfold makeSuspect
  split
  · rfl
  · rw [updLane_books l fun x => takeMode_books x _, notify_books]
    exact updLane_books l fun _ => rfl

theorem judgeLoop_books (l : Nat) : (judgeLoop l s).books = s.books := by
  unfold judgeLoop
  split
  · rfl
  · split
    · rw [remodeSect_books, makeSuspect_books]
    · rfl

theorem changeScore_books (l : Nat) (f : Nat → Nat) : (changeScore l f s).books = s.books := by
  unfold changeScore
  split
  · rfl
  · split
    · rfl
    · split
      · rfl
      · rw [judgeLoop_books]; exact updLane_books l fun _ => rfl

theorem scorePhantom_books (l : Nat) : (scorePhantom l s).books = s.books := changeScore_books l _
theorem scoreMatched_books (l : Nat) : (scoreMatched l s).books = s.books := changeScore_books l _
theorem scoreSilent_books (l n : Nat) : (scoreSilent l n s).books = s.books := changeScore_books l _

theorem judgeLoops_books (ls is : List Nat) : (judgeLoops ls is s).books = s.books := by
  unfold judgeLoops
  rw [remodeSects_books]
  refine foldl_books (fun t l => ?_) ls s
  split
  · split
    · exact makeSuspect_books l
    · rfl
  · rfl

/-! ### Credits -/

theorem gainCrest_books (r : Ramp) : (gainCrest r s).books = s.books :=
  updRamp_books r fun q => by split <;> rfl

theorem gainEntry_books (l : Nat) : (gainEntry l s).books = s.books := by
  unfold gainEntry
  split
  · rfl
  · split
    · exact updLane_books l fun _ => rfl
    · exact scoreSilent_books l 1

theorem gainExit_books (l : Nat) : (gainExit l s).books = s.books :=
  updLane_books l fun x => by split <;> rfl

theorem entryWindowExpires_books (l : Nat) : (entryWindowExpires l s).books = s.books := by
  unfold entryWindowExpires
  split
  · rfl
  · rw [scoreSilent_books]; exact updLane_books l fun _ => rfl

theorem exitWindowExpires_books (l : Nat) : (exitWindowExpires l s).books = s.books := by
  unfold exitWindowExpires
  split
  · rfl
  · rw [scoreSilent_books]; exact updLane_books l fun _ => rfl

theorem crestWindowExpires_books (r : Ramp) : (crestWindowExpires r s).books = s.books := updRamp_books r fun _ => rfl

/-! ### Discharge, hoist, loops -/

theorem judgeUnloading_books (l : Nat) : (judgeUnloading l s).books = s.books := by
  unfold judgeUnloading
  split
  · rfl
  · split
    · rfl
    · rw [notify_books]; exact updLane_books l fun _ => rfl

theorem beginBorrow_books (p : Nat) : (beginBorrow p s).books = s.books :=
  foldl_books (fun _ l => updLane_books (f := fun x => { x with entryWindow := x.entryWindow.suspend }) l fun _ => rfl) _ s

theorem handBack_books (x : Lane) : x.handBack.books = x.books := rfl

theorem endBorrow_books (p : Nat) : (endBorrow p s).books = s.books := by
  unfold endBorrow
  dsimp only
  rw [foldl_books fun t l => remodeLane_books l, judgeLoops_books]
  exact foldl_books (fun _ l => updLane_books l handBack_books) _ s

theorem endBorrowIf_books (was : PanelPos) (p : Nat) : (endBorrowIf was p s).books = s.books := by
  unfold endBorrowIf
  split
  · exact endBorrow_books p
  · rfl

theorem watchEdge_books (l : Nat) (x : Lane) (o : Bool) : (watchEdge l x o s).books = s.books := by
  unfold watchEdge
  split
  · split
    · dsimp only
      split
      · rw [notify_books]; exact updDeck_books _ fun _ => rfl
      · exact updDeck_books _ fun _ => rfl
    · rfl
  · rfl

theorem updLanes_books (ls : List Nat) {f : Lane → Lane} (hf : ∀ x, (f x).books = x.books) :
    (updLanes ls f s).books = s.books :=
  foldl_books (fun _ l => updLane_books l hf) ls s

theorem clear_books (x : Lane) (b : Bool) : (x.clear b).books = x.books := by
  unfold Lane.clear
  split <;> rfl

theorem clearSuspect_books (l i : Nat) : (clearSuspect l i s).books = s.books := by
  have e : (remodeSect i (remodeLane l (s.updLane l fun x => x.clear (s.borrowed x)))).books = s.books := by
    rw [remodeSect_books, remodeLane_books]
    exact updLane_books l fun x => clear_books x _
  unfold clearSuspect
  dsimp only
  split
  · rw [sweepTrigger_books]; exact e
  · exact e

/-! ### The passing of time -/

theorem countDown_books : (countDown s).books = s.books := by
  simp only [State.books, countDown, List.map_map]
  rfl

end Sys2Proof.Machine
end

