-- ==== Sys2Proof/Laws/Resets.lean ====
section
/-! SUPPORT. What `buildModel` gives, and the resets and the commit's end that call it: they keep the laws of the books. -/

namespace Sys2Proof.Machine

variable {s t : State}

/-! ### The build -/

/-- The deck model of records `rs` before its sums, readings and panels. -/
def rawModel (rs : List ProfRec) (old : List Lane) (s : State) : State :=
  { s with
    limits := buildLimits rs
    decks := (List.range (deckCount rs)).map (buildDeck rs)
    sections := (List.range (sectCount rs)).map (buildSect rs)
    lanes := (List.range (laneCount rs)).map fun l =>
      match old[l]? with
      | some x => (buildLane rs l).keep x
      | none => buildLane rs l
    panels := (List.range (panelCount rs)).map (buildPanel rs)
    listThreshold := Config.listThreshold
    closure := Closure.cleared }

/-- The same with its sums and readings, its panels not yet settled. -/
def readModel (rs : List ProfRec) (old : List Lane) (s : State) : State := takeReadings (rebuildSums (rawModel rs old s))

theorem buildModel_eq (rs : List ProfRec) (old : List Lane) (s : State) :
    buildModel rs old s = settlePanels (readModel rs old s) := rfl

/-- The lanes of the raw model with their figures. -/
def State.figuredLanes (s : State) : State := { s with lanes := s.lanes.map s.figured }

section
variable (rs : List ProfRec) (old : List Lane) (s : State)

theorem readModel_lanes : (readModel rs old s).lanes.map Lane.books =
    (rawModel rs old s).figuredLanes.lanes.map Lane.books :=
  map_mapNumbered (f := fun (l : Nat) (x : Lane) => { x with
      occupied := (rebuildSums (rawModel rs old s)).reads x (((rebuildSums (rawModel rs old s)).pins.loops[l]?).getD false) })
    (g := Lane.books) (fun _ _ => rfl) 0 (rebuildSums (rawModel rs old s)).lanes

theorem readModel_sections : (readModel rs old s).sections.map Sect.books =
    (mapNumbered (rawModel rs old s).figuredLanes.weighed 0 (rawModel rs old s).sections).map Sect.books := by
  show (List.map _ (mapNumbered _ _ _)).map Sect.books = _
  rw [List.map_map]
  rfl

theorem buildModel_built : (buildModel rs old s).decks.map Deck.built = (List.range (deckCount rs)).map (buildDeck rs) ∧
    (buildModel rs old s).sections.map Sect.built = (List.range (sectCount rs)).map (buildSect rs) ∧
    (buildModel rs old s).lanes.map Lane.built = (List.range (laneCount rs)).map (buildLane rs) ∧
    (buildModel rs old s).panels.map Panel.built = (List.range (panelCount rs)).map (buildPanel rs) := by
  refine ⟨?_, ?_, ?_, ?_⟩
  · show ((List.range (deckCount rs)).map (buildDeck rs)).map Deck.built = _
    rw [List.map_map]
    rfl
  · have e := congrArg (List.map Sect.built) (readModel_sections rs old s)
    rw [List.map_map, List.map_map] at e
    refine Eq.trans (show _ = _ from e) ?_
    rw [map_mapNumbered (f := (rawModel rs old s).figuredLanes.weighed) fun _ _ => rfl]
    show ((List.range (sectCount rs)).map (buildSect rs)).map (Sect.built ∘ Sect.books) = _
    rw [List.map_map]
    rfl
  · have e := congrArg (List.map Lane.built) (readModel_lanes rs old s)
    rw [List.map_map, List.map_map] at e
    refine Eq.trans (show _ = _ from e) ?_
    show (((List.range (laneCount rs)).map _).map _).map _ = _
    rw [List.map_map, List.map_map]
    refine List.map_congr_left fun l _ => ?_
    simp only [Function.comp]
    split <;> rfl
  · show (mapNumbered (readModel rs old s).settledPanel 0 ((List.range (panelCount rs)).map (buildPanel rs))).map _ = _
    rw [map_mapNumbered (f := (readModel rs old s).settledPanel) (g := Panel.built) (fun _ _ => rfl), List.map_map]
    rfl

end

/-! ### Settled panels -/

theorem positionCheck_rests (s : State) (p : Nat) : (positionCheck s p).1 = .stowed ∨ (positionCheck s p).1 = .unknown ∨
    (positionCheck s p).1 = .fault ∨ ((positionCheck s p).1 = .working ∧ s.lowUnder p) := by
  unfold positionCheck
  split
  · split
    · exact Or.inl rfl
    · exact Or.inr (Or.inr (Or.inl rfl))
  · split
    · rename_i e
      exact Or.inr (Or.inr (Or.inr ⟨rfl, lowUnder_of_none e⟩))
    · exact Or.inr (Or.inr (Or.inl rfl))
  · exact Or.inr (Or.inl rfl)
  · exact Or.inr (Or.inr (Or.inl rfl))

theorem settled_panel? {p : Nat} {y : Panel} (h : (settlePanels s).panel? p = some y) : y.state = (positionCheck s p).1 := by
  unfold State.panel? settlePanels at h
  simp only at h
  rw [mapNumbered_get, Nat.zero_add] at h
  obtain ⟨x, -, rfl⟩ := Option.map_eq_some_iff.1 h
  rfl

/-- Panels that have taken their states from their lines. -/
theorem PanelLaw.settled (base : ∀ y ∈ s.lanes, ∀ v ∈ s.records (y.stow ++ y.claims), v.height ≤ y.baseClass ∧
      ∀ c, y.cover = some c → s.panel? c.panel = none → v.height ≤ c.reduced) :
    PanelLaw (settlePanels s) where
  traffic := by
    intro x hx v hv hr
    have rest : ∀ p y, (settlePanels s).panel? p = some y → y.state.moving = false := by
      intro p y hy
      rw [settled_panel? hy]
      rcases positionCheck_rests s p with e | e | e | ⟨e, -⟩ <;> rw [e] <;> rfl
    constructor
    · unfold State.borrowed
      cases hc : (settlePanels s).carrier? x.sect with
      | none => rfl
      | some q => exact rest q.1 q.2 (carrier?_some hc).1
    · unfold State.coverMoving State.coverState?
      cases hc : x.cover with
      | none => rfl
      | some c =>
        simp only [Option.bind_some]
        cases hp : (settlePanels s).panel? c.panel with
        | none => rfl
        | some y => exact rest c.panel y hp
  clearance := by
    intro x hx v hv
    have b := (base x hx v hv).1
    refine ⟨b, ?_⟩
    unfold State.coverState? State.clearance
    cases hc : x.cover with
    | none => intro _ _; exact b
    | some c =>
      simp only [Option.bind_some]
      cases hp : (settlePanels s).panel? c.panel with
      | none =>
        intro _ _
        refine (base x hx v hv).2 c hc ?_
        unfold State.panel? settlePanels at hp
        simp only at hp
        rw [mapNumbered_get] at hp
        simpa [State.panel?] using hp
      | some y =>
        simp only [Option.map_some]
        intro n1 n2
        have e := settled_panel? hp
        rcases positionCheck_rests s c.panel with k | k | k | ⟨k, low⟩
        · rw [if_pos (e.trans k)]; exact b
        · exact absurd (congrArg some (e.trans k)) n1
        · exact absurd (congrArg some (e.trans k)) n2
        · rw [if_neg (by rw [e, k]; intro h; cases h)]
          exact low x hx c hc rfl v hv

/-! ### A build over a cleared stow memory -/

/-- Every lane a build gives is a figured one of the raw model, its reading apart. -/
theorem readModel_lane {rs : List ProfRec} {old : List Lane} {s : State} {x : Lane} (hx : x ∈ (readModel rs old s).lanes) :
    ∃ y ∈ (rawModel rs old s).lanes, x.books = ((rawModel rs old s).figured y).books := by
  have hm : x.books ∈ (rawModel rs old s).figuredLanes.lanes.map Lane.books := by
    rw [← readModel_lanes]; exact List.mem_map_of_mem hx
  obtain ⟨z, hz, e⟩ := List.mem_map.1 hm
  obtain ⟨y, hy, rfl⟩ := List.mem_map.1 (show z ∈ (rawModel rs old s).lanes.map _ from hz)
  exact ⟨y, hy, e.symm⟩

theorem bare_build {rs : List ProfRec} {old : List Lane} {s : State} (vehicles : s.vehicles = []) (standby : s.standby = [])
    (voyage : s.voyage = .noVoyage)
    (lanes : ∀ x ∈ old, x.stow = [] ∧ x.claims = [] ∧ x.pastCrest = [] ∧ x.overdue = 0)
    (ramps : ∀ r, (s.ramp r).light = [] ∧ (s.ramp r).heavy = [] ∧ (s.ramp r).onRamp = [] ∧ (s.ramp r).seq = .stopped) :
    Bare (buildModel rs old s) := by
  have raw : ∀ y ∈ (rawModel rs old s).lanes, y.stow = [] ∧ y.claims = [] ∧ y.pastCrest = [] ∧ y.overdue = 0 := by
    intro y hy
    obtain ⟨l, -, rfl⟩ := List.mem_map.1 hy
    split
    · rename_i x hx
      exact lanes x (List.mem_of_getElem? hx)
    · exact ⟨rfl, rfl, rfl, rfl⟩
  have fig : ∀ y ∈ (rawModel rs old s).lanes, ((rawModel rs old s).figured y).used = 0 ∧
      ((rawModel rs old s).figured y).reefers = 0 ∧ ((rawModel rs old s).figured y).mass = 0 ∧
      ((rawModel rs old s).figured y).placedMass = 0 := by
    intro y hy
    obtain ⟨e1, e2, -, -⟩ := raw y hy
    simp only [State.figured, e1, e2]
    exact ⟨rfl, rfl, rfl, rfl⟩
  have figs : ∀ y ∈ (rawModel rs old s).figuredLanes.lanes, y.mass = 0 ∧ y.placedMass = 0 := by
    intro y hy
    obtain ⟨z, hz, rfl⟩ := List.mem_map.1 (show y ∈ (rawModel rs old s).lanes.map _ from hy)
    exact ⟨(fig z hz).2.2.1, (fig z hz).2.2.2⟩
  refine ⟨vehicles, standby, voyage, ?_, ?_, ?_, ?_⟩
  · intro x hx
    have hx : x ∈ (readModel rs old s).lanes := hx
    obtain ⟨y, hy, e⟩ := readModel_lane hx
    obtain ⟨a, b, c, d⟩ := raw y hy
    obtain ⟨f1, f2, f3, f4⟩ := fig y hy
    refine ⟨?_, ?_, ?_, ?_, ?_, ?_, ?_, ?_⟩
    · exact (congrArg Lane.stow e).trans a
    · exact (congrArg Lane.claims e).trans b
    · exact (congrArg Lane.pastCrest e).trans c
    · exact (congrArg Lane.overdue e).trans d
    · exact (congrArg Lane.used e).trans f1
    · exact (congrArg Lane.reefers e).trans f2
    · exact (congrArg Lane.mass e).trans f3
    · exact (congrArg Lane.placedMass e).trans f4
  · intro c hc
    have hm : c.books ∈ (mapNumbered (rawModel rs old s).figuredLanes.weighed 0 (rawModel rs old s).sections).map
        Sect.books := by
      rw [← readModel_sections]; exact List.mem_map_of_mem hc
    obtain ⟨z, hz, e⟩ := List.mem_map.1 hm
    obtain ⟨i, hi⟩ := List.mem_iff_getElem?.1 hz
    rw [mapNumbered_get] at hi
    obtain ⟨c0, -, rfl⟩ := Option.map_eq_some_iff.1 hi
    have z1 : ∀ f : Lane → Nat, (∀ y ∈ (rawModel rs old s).figuredLanes.lanes, f y = 0) → ∀ p : Lane → Bool,
        (((rawModel rs old s).figuredLanes.lanes.filter p).map f).sum = 0 := by
      intro f hf p
      refine sum_zeros fun n hn => ?_
      obtain ⟨y, hy, rfl⟩ := List.mem_map.1 hn
      exact hf y (List.mem_filter.1 hy).1
    constructor
    · exact (congrArg Sect.projected e).symm.trans (z1 _ (fun y hy => (figs y hy).1) _)
    · exact (congrArg Sect.placed e).symm.trans (z1 _ (fun y hy => (figs y hy).2) _)
  · show (rawModel rs old s).figuredLanes.momentOf = 0
    unfold State.momentOf
    refine sum_int_zeros fun n hn => ?_
    obtain ⟨y, hy, rfl⟩ := List.mem_map.1 hn
    rw [(figs y hy).1]
    simp
  · intro r
    obtain ⟨a, b, c, d⟩ := ramps r
    cases r
    · exact ⟨a, b, c, by
        show (rawModel rs old s).figuredLanes.massOf s.lower.onRamp = 0
        rw [show s.lower.onRamp = [] from c]; rfl, d⟩
    · exact ⟨a, b, c, by
        show (rawModel rs old s).figuredLanes.massOf s.upper.onRamp = 0
        rw [show s.upper.onRamp = [] from c]; rfl, d⟩

/-- Without a deck model. -/
theorem bare_drop {s : State} (vehicles : s.vehicles = []) (standby : s.standby = []) (voyage : s.voyage = .noVoyage)
    (ramps : ∀ r, (s.ramp r).light = [] ∧ (s.ramp r).heavy = [] ∧ (s.ramp r).onRamp = [] ∧ (s.ramp r).mass = 0 ∧
      (s.ramp r).seq = .stopped) : Bare (dropModel s) := by
  refine ⟨vehicles, standby, voyage, ?_, ?_, rfl, ?_⟩
  · intro x hx; cases hx
  · intro c hc; cases hc
  · intro r
    cases r
    · exact ramps .lower
    · exact ramps .upper

theorem dropModel_model {s : State} (mark : s.store.mark ≠ .active) (free : s.profile.isCommitting = false) :
    ModelLaw (dropModel s) where
  built := fun e => absurd e mark
  symmetric := fun _ _ => rfl
  reduced := fun _ h => nomatch h
  carried := fun _ h => nomatch h
  writing := by
    intro e
    have e : s.profile.isCommitting = true := e
    rw [free] at e
    cases e

/-! ### Resets -/

/-- The plan of a deck model built again from the records it came from. -/
theorem replan (h : ModelLaw s) (mark : s.store.mark = .active) (old : List Lane) {u : State} :
    (buildModel s.store.records old u).plan = s.plan := by
  obtain ⟨a, b, c, d, e⟩ := h.built mark
  obtain ⟨b', c', d', e'⟩ := buildModel_built s.store.records old u
  have a' : (buildModel s.store.records old u).limits = buildLimits s.store.records := rfl
  simp only [State.plan, a, b, c, d, e, a', b', c', d', e']

/-- A reset with its stow memory kept. -/
theorem BookLaw.rebuilt (h : BookLaw s) (mark : s.store.mark = .active) {u : State} (vehicles : u.vehicles = s.vehicles)
    (standby : u.standby = s.standby) (voyage : u.voyage = s.voyage) (store : u.store = s.store)
    (free : u.profile.isCommitting = false)
    (ramps : ∀ r, (u.ramp r).light = (s.ramp r).light ∧ (u.ramp r).heavy = (s.ramp r).heavy ∧
      (u.ramp r).onRamp = (s.ramp r).onRamp ∧ (u.ramp r).direction = (s.ramp r).direction ∧ (u.ramp r).seq = .stopped) :
    BookLaw (buildModel s.store.records s.lanes u) := by
  let rs := s.store.records
  let t := buildModel rs s.lanes u
  show BookLaw t
  obtain ⟨bl, bd, bs, bx, bp⟩ := h.model.built mark
  have veh : ∀ w, (rawModel rs s.lanes u).veh? w = s.veh? w := fun w => veh?_same (by exact vehicles) w
  have recs : ∀ xs, (rawModel rs s.lanes u).records xs = s.records xs := fun xs => records_same fun w _ => veh w
  have vt : t.vehicles = s.vehicles := vehicles
  have trecs : ∀ xs, t.records xs = s.records xs := fun xs => records_same fun w _ => veh?_same vt w
  have figured : ∀ l x, s.lane? l = some x →
      ((rawModel rs s.lanes u).figured ((buildLane rs l).keep x)).books = x.books := by
    intro l x hx
    have e : x.built = buildLane rs l := by
      have k := congrArg (fun xs => xs[l]?) bx
      simp only [List.getElem?_map] at k
      rw [show s.lanes[l]? = some x from hx] at k
      have hl : l < laneCount rs := by
        rcases Nat.lt_or_ge l (laneCount rs) with g | g
        · exact g
        · rw [List.getElem?_eq_none (by simpa using g)] at k; cases k
      rw [List.getElem?_range hl] at k
      exact Option.some.inj k
    have f := (h.figures.lane x (List.mem_of_getElem? hx)).1
    rw [← e]
    have k : (rawModel rs s.lanes u).figured (x.built.keep x) = { s.figured x with
        state := x.state, entryCredits := 0, entryWindow := .stopped, exitCredits := 0, exitWindow := .stopped
        occupied := false, score := 0, suspect := false, clearing := false, mode := .sensed, watch := false
        signal := .auto, aspect := .dark } := by
      simp only [State.figured, State.lengthOf, State.massOf, Lane.keep, Lane.built, recs]
    rw [k, f]
    rfl
  have lanes : t.lanes.map Lane.books = s.lanes.map Lane.books := by
    show (readModel rs s.lanes u).lanes.map Lane.books = _
    rw [readModel_lanes]
    refine List.ext_getElem? fun l => ?_
    show (((((List.range (laneCount rs)).map _).map _).map Lane.books)[l]?) = _
    have len : s.lanes.length = laneCount rs := by
      have := congrArg List.length bx
      simpa using this
    simp only [List.getElem?_map]
    by_cases hl : l < laneCount rs
    · have hx : s.lanes[l]? = some (s.lanes[l]'(len ▸ hl)) := List.getElem?_eq_getElem _
      rw [List.getElem?_range hl, hx]
      simp only [Option.map_some]
      rw [hx]
      simp only
      rw [figured l _ hx]
    · rw [List.getElem?_eq_none (by simpa using Nat.le_of_not_lt hl),
        List.getElem?_eq_none (by rw [len]; exact Nat.le_of_not_lt hl)]
      rfl
  have flanes : (rawModel rs s.lanes u).figuredLanes.lanes.map Lane.books = s.lanes.map Lane.books := by
    rw [← readModel_lanes]; exact lanes
  have weighed : ∀ i c, s.sect? i = some c → ((rawModel rs s.lanes u).figuredLanes.weighed i c.built).books = c.books := by
    intro i c hc
    have e := h.figures.sect i c hc
    have e1 : ∀ f : Lane → Nat, (∀ x : Lane, f x.books = f x) →
        (((rawModel rs s.lanes u).figuredLanes.lanes.filter fun x => x.sect == i).map f).sum =
        ((s.lanes.filter fun x => x.sect == i).map f).sum := by
      intro f hf
      have e2 : ∀ xs : List Lane, (xs.filter fun x => x.sect == i).map f =
          ((xs.map Lane.books).filter fun x => x.sect == i).map f := by
        intro xs
        rw [List.filter_map, List.map_map]
        exact List.map_congr_left fun x _ => (hf x).symm
      rw [e2, flanes, ← e2]
    have p1 := e1 Lane.mass fun _ => rfl
    have p2 := e1 Lane.placedMass fun _ => rfl
    have e1 := congrArg Sect.projected e
    have e2 := congrArg Sect.placed e
    simp only [State.weighed] at e1 e2 ⊢
    rw [p1, p2, e1, e2]
    rfl
  have sections : t.sections.map Sect.books = s.sections.map Sect.books := by
    show (readModel rs s.lanes u).sections.map Sect.books = _
    rw [readModel_sections]
    refine List.ext_getElem? fun i => ?_
    rw [List.getElem?_map, List.getElem?_map, mapNumbered_get, Nat.zero_add]
    have e : (rawModel rs s.lanes u).sections = s.sections.map Sect.built := by rw [bs]; rfl
    rw [e, List.getElem?_map]
    cases hc : s.sections[i]? with
    | none => rfl
    | some c => exact congrArg some (weighed i c hc)
  have moment : t.listMoment = s.listMoment := by
    rw [h.figures.moment]
    show (rawModel rs s.lanes u).figuredLanes.momentOf = _
    unfold State.momentOf
    have e : ∀ xs : List Lane, xs.map (fun x => (x.mass : Int) * x.offset) =
        (xs.map Lane.books).map fun x => (x.mass : Int) * x.offset := by
      intro xs; rw [List.map_map]; rfl
    rw [e, flanes, ← e]
  have plan : t.plan = s.plan := replan h.model mark s.lanes
  have held : ∀ r, (t.ramp r).held = (s.ramp r).held := by
    intro r
    obtain ⟨a, b, c, -⟩ := ramps r
    have m : (t.ramp r).mass = (s.ramp r).mass := by
      have e : ∀ xs, (rawModel rs s.lanes u).figuredLanes.massOf xs = s.massOf xs := fun xs => by
        show (rawModel rs s.lanes u).massOf xs = _
        unfold State.massOf
        rw [recs]
      rw [h.figures.ramp r, ← c, ← e]
      cases r <;> rfl
    have l1 : (t.ramp r).light = (s.ramp r).light := by rw [← a]; cases r <;> rfl
    have l2 : (t.ramp r).heavy = (s.ramp r).heavy := by rw [← b]; cases r <;> rfl
    have l3 : (t.ramp r).onRamp = (s.ramp r).onRamp := by rw [← c]; cases r <;> rfl
    simp only [RampState.held, l1, l2, l3, m]
  have dir : ∀ r, (t.ramp r).direction = (s.ramp r).direction ∧ (t.ramp r).seq = .stopped := by
    intro r
    obtain ⟨-, -, -, d, e⟩ := ramps r
    rw [← d, ← e]
    cases r <;> exact ⟨rfl, rfl⟩
  have hold : t.holdings = s.holdings := by
    have k1 := held .lower
    have k2 := held .upper
    have l : t.limits = s.limits := congrArg (fun u => u.limits) plan
    have d : t.decks.map Deck.built = s.decks.map Deck.built := congrArg (fun u => u.decks) plan
    have st : t.standby = s.standby := standby
    simp only [ramp_lower, ramp_upper] at k1 k2
    simp only [State.holdings, lanes, sections, moment, k1, k2, l, d, vt, st]
  refine h.turn hold ⟨?_, ?_⟩ ?_ (h.call.same vt voyage) (h.model.planned plan ?_ ?_)
  · intro r e; exact absurd (dir r).2 e
  · intro v hv l e
    rw [(dir _).1]
    rw [vt] at hv
    have k : t.rampOfNo l = s.rampOfNo l := by
      have k1 : t.holdings.rampOfNo l = t.books.rampOfNo l := rfl
      have k2 : s.holdings.rampOfNo l = s.books.rampOfNo l := rfl
      rw [← books_rampOfNo, ← k1, hold, k2, books_rampOfNo]
    rw [k]
    exact h.ramp.outbound v hv l e
  · refine PanelLaw.settled (s := readModel rs s.lanes u) ?_
    intro y hy v hv
    have hy' : y.books ∈ s.lanes.map Lane.books := lanes ▸ List.mem_map_of_mem hy
    obtain ⟨x, hx, e⟩ := List.mem_map.1 hy'
    have e1 : x.stow = y.stow := (congrArg Lane.stow e : x.books.stow = y.books.stow)
    have e2 : x.claims = y.claims := (congrArg Lane.claims e : x.books.claims = y.books.claims)
    have e3 : x.baseClass = y.baseClass := (congrArg Lane.baseClass e : x.books.baseClass = y.books.baseClass)
    have e4 : x.cover = y.cover := (congrArg Lane.cover e : x.books.cover = y.books.cover)
    have hv' : v ∈ s.records (x.stow ++ x.claims) := by rw [e1, e2]; exact (trecs _) ▸ hv
    have k := h.panel.clearance x hx v hv'
    refine ⟨e3 ▸ k.1, fun c hc hp => ?_⟩
    have hp' : s.panel? c.panel = none := by
      have len : s.panels.length = panelCount rs := by
        have := congrArg List.length bp
        simpa using this
      have hp : ((List.range (panelCount rs)).map (buildPanel rs))[c.panel]? = none := hp
      unfold State.panel?
      rw [List.getElem?_eq_none_iff] at hp ⊢
      rw [len]
      simpa using hp
    have k2 := k.2
    unfold State.coverState? State.clearance at k2
    rw [e4, hc] at k2
    simp only [Option.bind_some, hp', Option.map_none] at k2
    exact k2 (by simp) (by simp)
  · intro _
    have st : t.store = s.store := store
    rw [st]
    obtain ⟨a, b, c, d⟩ := buildModel_built rs s.lanes u
    exact ⟨rfl, a, b, c, d⟩
  · intro e
    have e : u.profile.isCommitting = true := e
    rw [free] at e
    cases e

theorem keep_ramp (q : RampState) : q.keep.light = q.light ∧ q.keep.heavy = q.heavy ∧ q.keep.onRamp = q.onRamp ∧
    q.keep.direction = q.direction ∧ q.keep.seq = .stopped := ⟨rfl, rfl, rfl, rfl, rfl⟩

/-- The deck model a reset builds, or that it has none. -/
def remodel (s : State) : State :=
  match s.profile with
  | .active =>
    let t := buildModel s.store.records s.lanes s
    { t with vehicles := t.vehicles.map t.restartTransit }
  | .none | .committing _ => dropModel s

/-- A RELEASED vehicle's transit timer is in no book. -/
theorem BookLaw.restarted {u : State} (hu : BookLaw u) : BookLaw { u with vehicles := u.vehicles.map u.restartTransit } := by
  refine hu.of_books ?_
  simp only [State.books, List.map_map]
  congr 1
  refine List.map_congr_left fun v _ => ?_
  simp only [Function.comp, State.restartTransit]
  split <;> rfl

theorem BookLaw.remodelKept (h : BookLaw s) (mark : s.store.mark = .active) {u : State} (profile : u.profile = .active)
    (vehicles : u.vehicles = s.vehicles) (standby : u.standby = s.standby) (voyage : u.voyage = s.voyage)
    (store : u.store = s.store) (lanes : u.lanes = s.lanes)
    (ramps : ∀ r, (u.ramp r).light = (s.ramp r).light ∧ (u.ramp r).heavy = (s.ramp r).heavy ∧
      (u.ramp r).onRamp = (s.ramp r).onRamp ∧ (u.ramp r).direction = (s.ramp r).direction ∧ (u.ramp r).seq = .stopped) :
    BookLaw (remodel u) := by
  unfold remodel
  rw [profile]
  simp only
  refine BookLaw.restarted ?_
  rw [store, lanes]
  exact h.rebuilt mark vehicles standby voyage store (by rw [profile]; rfl) ramps

theorem BookLaw.remodelBare (h : BookLaw s) (mark : s.store.mark = .active) {u : State} (profile : u.profile = .active)
    (store : u.store = s.store) (vehicles : u.vehicles = []) (standby : u.standby = []) (voyage : u.voyage = .noVoyage)
    (lanes : ∀ x ∈ u.lanes, x.stow = [] ∧ x.claims = [] ∧ x.pastCrest = [] ∧ x.overdue = 0)
    (ramps : ∀ r, (u.ramp r).light = [] ∧ (u.ramp r).heavy = [] ∧ (u.ramp r).onRamp = [] ∧ (u.ramp r).seq = .stopped) :
    BookLaw (remodel u) := by
  unfold remodel
  rw [profile]
  simp only
  refine BookLaw.restarted ?_
  rw [store]
  refine (bare_build vehicles standby voyage lanes ramps).bookLaw (h.model.planned (replan h.model mark _) ?_ ?_)
  · intro _
    rw [show (buildModel s.store.records u.lanes u).store = s.store from store]
    obtain ⟨a, b, c, d⟩ := buildModel_built s.store.records u.lanes u
    exact ⟨rfl, a, b, c, d⟩
  · intro e
    have e : u.profile.isCommitting = true := e
    rw [profile] at e
    cases e

theorem remodelNone {u : State} (profile : u.profile = .none) (mark : u.store.mark ≠ .active)
    (vehicles : u.vehicles = []) (standby : u.standby = []) (voyage : u.voyage = .noVoyage)
    (ramps : ∀ r, (u.ramp r).light = [] ∧ (u.ramp r).heavy = [] ∧ (u.ramp r).onRamp = [] ∧ (u.ramp r).mass = 0 ∧
      (u.ramp r).seq = .stopped) : BookLaw (remodel u) := by
  unfold remodel
  rw [profile]
  exact (bare_drop vehicles standby voyage ramps).bookLaw (dropModel_model mark (by rw [profile]; rfl))

/-- What a reset leaves before the deck model is built again. -/
def atReset (k : ResetCause) (s : State) : State :=
  { s with
    causes := s.causes.add k, link := Link.cleared, draft := [], closure := Closure.cleared, ev := EventMarks.none
    store := s.store.atReset, profile := .ofMark s.store.mark, lower := s.lower.keep, upper := s.upper.keep }

theorem doReset_eq (k : ResetCause) (s : State) : doReset k s = remodel
    { (if (atReset k s).keepsStow then atReset k s else clearStow (atReset k s)) with
      stowKept := (atReset k s).keepsStow } := rfl

/-- Every reset keeps the laws (R16, R17, R19). -/
theorem BookLaw.reset (h : BookLaw s) (k : ResetCause) : BookLaw (doReset k s) := by
  rw [doReset_eq]
  cases hm : s.store.mark with
  | active =>
    have st : s.store.atReset = s.store := by unfold Store.atReset; rw [hm]
    have pr : ProfileState.ofMark s.store.mark = .active := by rw [hm]; rfl
    by_cases kept : (atReset k s).keepsStow = true
    · simp only [kept, if_true]
      refine h.remodelKept hm pr rfl rfl rfl st rfl fun r => ?_
      cases r
      · exact keep_ramp s.lower
      · exact keep_ramp s.upper
    · simp only [Bool.not_eq_true] at kept
      simp only [kept, Bool.false_eq_true, if_false]
      refine h.remodelBare hm pr st rfl rfl rfl ?_ ?_
      · intro x hx
        obtain ⟨y, -, rfl⟩ := List.mem_map.1 (show x ∈ s.lanes.map _ from hx)
        exact ⟨rfl, rfl, rfl, rfl⟩
      · intro r; cases r <;> exact ⟨rfl, rfl, rfl, rfl⟩
  | committing =>
    have st : s.store.atReset.mark = .none := by unfold Store.atReset; rw [hm]
    have kept : (atReset k s).keepsStow = false := by
      have e : (atReset k s).store.mark = .none := st
      unfold State.keepsStow; rw [e]; simp
    simp only [kept, Bool.false_eq_true, if_false]
    refine remodelNone (show ProfileState.ofMark s.store.mark = .none by rw [hm]; rfl) ?_ rfl rfl rfl ?_
    · show s.store.atReset.mark ≠ _
      rw [st]; exact fun e => nomatch e
    · intro r; cases r <;> exact ⟨rfl, rfl, rfl, rfl, rfl⟩
  | none =>
    have st : s.store.atReset.mark = .none := by unfold Store.atReset; rw [hm]; exact hm
    have kept : (atReset k s).keepsStow = false := by
      have e : (atReset k s).store.mark = .none := st
      unfold State.keepsStow; rw [e]; simp
    simp only [kept, Bool.false_eq_true, if_false]
    refine remodelNone (show ProfileState.ofMark s.store.mark = .none by rw [hm]; rfl) ?_ rfl rfl rfl ?_
    · show s.store.atReset.mark ≠ _
      rw [st]; exact fun e => nomatch e
    · intro r; cases r <;> exact ⟨rfl, rfl, rfl, rfl, rfl⟩

/-! ### The end of a commit -/

/-- The store reports a failure to write (R181). -/
theorem BookLaw.writeFails (type index : Byte) (s : State) : BookLaw (commitFails type index s) := by
  unfold commitFails
  refine BookLaw.of_books ((bare_drop rfl rfl rfl fun r => ?_).bookLaw (dropModel_model ?_ rfl)) (notify_books _)
  · cases r <;> exact ⟨rfl, rfl, rfl, rfl, rfl⟩
  · exact fun e => nomatch e

theorem firstFailure_none {rs : List ProfRec} : ∀ {ks : List (RecType × Nat)}, firstFailure rs ks = none →
    ∀ q ∈ ks, keyFailure rs q.1 q.2 = none
  | [], _, q, hq => by cases hq
  | (t, i) :: ks, h, q, hq => by
    unfold firstFailure at h
    split at h
    · cases h
    · rename_i e
      rcases List.mem_cons.1 hq with rfl | hq
      · exact e
      · exact firstFailure_none h q hq

theorem mem_keysOf {t : RecType} {i : Nat} (h : t.indexOk i = true) (hi : i < 96) : (t, i) ∈ keysOf t :=
  List.mem_map.2 ⟨i, List.mem_filter.2 ⟨List.mem_range.2 hi, h⟩, rfl⟩

theorem mem_allKeys {t : RecType} {i : Nat} (h : t.indexOk i = true) (hi : i < 96) : (t, i) ∈ allKeys := by
  have k := mem_keysOf h hi
  unfold allKeys
  simp only [List.mem_append]
  cases t <;> simp only [k, true_or, or_true]

/-- In a validated profile a required key has its record, which passes the checks of its type. -/
theorem validated {rs : List ProfRec} (h : validate rs = none) {t : RecType} {i : Nat} (hi : i < 96)
    (req : required rs t i = true) : ∃ x, findRec rs t i = some x ∧ recordFailure rs x = none := by
  have ok : t.indexOk i = true := by unfold required at req; simp only [Bool.and_eq_true] at req; exact req.1
  have k := firstFailure_none h _ (mem_allKeys ok hi)
  unfold keyFailure at k
  simp only [req] at k
  cases e : findRec rs t i with
  | none => rw [e] at k; cases k
  | some x => rw [e] at k; exact ⟨x, rfl, k⟩

/-- The values and references of a record that passes. -/
theorem passes {rs : List ProfRec} {x : ProfRec} (h : recordFailure rs x = none) : x.valuesOk = true ∧ x.refsOk rs = true := by
  unfold recordFailure at h
  cases hv : x.valuesOk with
  | false => rw [hv] at h; cases h
  | true =>
    cases hr : x.refsOk rs with
    | false => rw [hv, hr] at h; cases h
    | true => exact ⟨rfl, rfl⟩

theorem findRec_key {rs : List ProfRec} {t : RecType} {i : Nat} {x : ProfRec} (h : findRec rs t i = some x) :
    x.type = t ∧ x.index = i := by
  have := List.find?_some h
  simpa using this

/-- The counts of a validated profile. -/
theorem counts {rs : List ProfRec} (h : validate rs = none) : deckCount rs ≤ 6 ∧ sectCount rs ≤ 24 ∧ laneCount rs ≤ 96 ∧
    panelCount rs ≤ 4 := by
  obtain ⟨x, hx, hf⟩ := validated h (t := .vessel) (i := 0) (by omega) rfl
  have v := (passes hf).1
  unfold ProfRec.valuesOk at v
  rw [(findRec_key hx).1] at v
  simp only [Bool.and_eq_true, within, decide_eq_true_eq] at v
  unfold deckCount sectCount laneCount panelCount vesselByte
  rw [hx]
  exact ⟨v.1.1.1.1.2, v.1.1.1.2.2, v.1.1.2.2, v.1.2.2⟩

theorem counted {rs : List ProfRec} {t : RecType} {i n : Nat} (ok : t.indexOk i = true) (c : countOf rs t = some n)
    (hi : i < n) : required rs t i = true := by
  unfold required
  rw [ok, c]
  simpa using hi

/-- Levels of a built DG record. -/
theorem buildDg_level {rs : List ProfRec} {g : Nat} {x : ProfRec} (hx : findRec rs .dg g = some x) {b : Nat} (hb : b < 6) :
    (buildDg rs g).levels[b]? = some (x.byte b) := by
  unfold buildDg
  rw [hx]
  match b, hb with
  | 0, _ | 1, _ | 2, _ | 3, _ | 4, _ | 5, _ => rfl

theorem buildLimits_dg (rs : List ProfRec) {a : Nat} (ha : a < 6) : (buildLimits rs).dg[a]? = some (buildDg rs (a + 1)) := by
  unfold buildLimits
  match a, ha with
  | 0, _ | 1, _ | 2, _ | 3, _ | 4, _ | 5, _ => rfl

theorem dg_symmetric {rs : List ProfRec} (h : validate rs = none) {t : State} (limits : t.limits = buildLimits rs)
    (g k : Nat) : t.dgLevel g k = t.dgLevel k g := by
  have recs : ∀ a, a < 6 → ∃ x, findRec rs .dg (a + 1) = some x ∧ recordFailure rs x = none := fun a ha =>
    validated h (by omega) (by
      unfold required
      simp only [RecType.indexOk, countOf, Bool.and_true, Bool.and_eq_true, decide_eq_true_eq]
      omega)
  -- the level of two groups in order of the groups
  have low : ∀ a b, a < b → b < 6 → ∀ x y, findRec rs .dg (a + 1) = some x → findRec rs .dg (b + 1) = some y →
      recordFailure rs y = none → x.byte b = y.byte a := by
    intro a b hab hb x y hx hy hf
    have v := passes hf
    unfold recordFailure at hf
    simp only [v.1, v.2, (findRec_key hy).1, Bool.not_true, Bool.false_eq_true, if_false] at hf
    cases e : asymmetric rs y with
    | true => rw [e] at hf; cases hf
    | false =>
      unfold asymmetric at e
      rw [(findRec_key hy).2, List.any_eq_false] at e
      have k := e (a + 1) (List.mem_range.2 (by omega))
      rw [hx] at k
      simpa using k
  have out : ∀ a b, 6 ≤ a ∨ 6 ≤ b → ((t.limits.dg[a]?).bind fun d => d.levels[b]?).getD 0 = 0 := by
    intro a b e
    rw [limits]
    by_cases ha : a < 6
    · rw [buildLimits_dg rs ha, Option.bind_some]
      have : (buildDg rs (a + 1)).levels[b]? = none := by
        rw [List.getElem?_eq_none_iff]
        show 6 ≤ b
        omega
      rw [this]; rfl
    · have : (buildLimits rs).dg[a]? = none := by
        rw [List.getElem?_eq_none_iff]
        show 6 ≤ a
        omega
      rw [this]; rfl
  have level : ∀ a b, a < 6 → b < 6 → ∀ x, findRec rs .dg (a + 1) = some x →
      ((t.limits.dg[a]?).bind fun d => d.levels[b]?).getD 0 = x.byte b := by
    intro a b ha hb x hx
    rw [limits, buildLimits_dg rs ha, Option.bind_some, buildDg_level hx hb]
    rfl
  unfold State.dgLevel
  generalize g - 1 = a
  generalize k - 1 = b
  by_cases ha : a < 6
  · by_cases hb : b < 6
    · obtain ⟨x, hx, fx⟩ := recs a ha
      obtain ⟨y, hy, fy⟩ := recs b hb
      rw [level a b ha hb x hx, level b a hb ha y hy]
      rcases Nat.lt_trichotomy a b with e | e | e
      · exact low a b e hb x y hx hy fy
      · subst e
        rw [hx] at hy
        cases hy
        rfl
      · exact (low b a e ha y x hy hx fx).symm
    · rw [out a b (Or.inr (Nat.le_of_not_lt hb)), out b a (Or.inl (Nat.le_of_not_lt hb))]
  · rw [out a b (Or.inl (Nat.le_of_not_lt ha)), out b a (Or.inr (Nat.le_of_not_lt ha))]

/-- The deck model of a validated profile (R178). -/
theorem ModelLaw.validated {rs : List ProfRec} (h : validate rs = none) {t : State} (records : t.store.records = rs)
    (free : t.profile.isCommitting = false)
    (built : t.limits = buildLimits rs ∧ t.decks.map Deck.built = (List.range (deckCount rs)).map (buildDeck rs) ∧
      t.sections.map Sect.built = (List.range (sectCount rs)).map (buildSect rs) ∧
      t.lanes.map Lane.built = (List.range (laneCount rs)).map (buildLane rs) ∧
      t.panels.map Panel.built = (List.range (panelCount rs)).map (buildPanel rs)) : ModelLaw t where
  built := fun _ => records.symm ▸ built
  symmetric := dg_symmetric h built.1
  reduced := by
    intro x hx k hk
    have hm : x.built ∈ (List.range (laneCount rs)).map (buildLane rs) := built.2.2.2.1 ▸ List.mem_map_of_mem hx
    obtain ⟨l, hl, e⟩ := List.mem_map.1 hm
    have hl := List.mem_range.1 hl
    have c := (counts h).2.2.1
    obtain ⟨r, hr, hf⟩ := Machine.validated h (t := .lane) (i := l) (by omega)
      (counted (by simp only [RecType.indexOk, decide_eq_true_eq]; omega) rfl hl)
    have e1 : x.cover = r.cover? := by
      have := congrArg Lane.cover e
      unfold buildLane at this
      rw [hr] at this
      exact this.symm
    have e2 : x.baseClass = r.byte 7 := by
      have := congrArg Lane.baseClass e
      unfold buildLane at this
      rw [hr] at this
      exact this.symm
    have v := passes hf
    unfold recordFailure at hf
    simp only [v.1, v.2, (findRec_key hr).1, Bool.not_true, Bool.false_eq_true, if_false] at hf
    rw [e1] at hk
    rw [hk] at hf
    rw [e2]
    split at hf
    · cases hf
    · simp only at hf
      split at hf
      · cases hf
      · split at hf
        · cases hf
        · rename_i n; exact Nat.le_of_not_lt n
  carried := by
    intro x hx hk
    rw [carrier?_isSome] at hk
    obtain ⟨y, hy, ey⟩ := hk
    have hm : y.built ∈ (List.range (panelCount rs)).map (buildPanel rs) := built.2.2.2.2 ▸ List.mem_map_of_mem hy
    obtain ⟨p, hp, e⟩ := List.mem_map.1 hm
    have hp := List.mem_range.1 hp
    obtain ⟨c1, c2, c3, c4⟩ := counts h
    obtain ⟨r, hr, hf⟩ := Machine.validated h (t := .panel) (i := p) (by omega)
      (counted (by simp only [RecType.indexOk, decide_eq_true_eq]; omega) rfl hp)
    have e1 : y.carried = r.byte 0 := by
      have := congrArg Panel.carried e
      unfold buildPanel at this
      rw [hr] at this
      exact this.symm
    have v := passes hf
    unfold recordFailure at hf
    simp only [v.1, v.2, (findRec_key hr).1, Bool.not_true, Bool.false_eq_true, if_false] at hf
    have hkind : sectDeckKind rs (r.byte 0) = some 1 := by
      split at hf
      · cases hf
      · rename_i n; simpa using n
    have hs : r.byte 0 < sectCount rs := by
      have := v.2
      unfold ProfRec.refsOk at this
      rw [(findRec_key hr).1] at this
      simpa using this
    obtain ⟨q, hq, hqf⟩ := Machine.validated h (t := .sect) (i := r.byte 0) (by omega)
      (counted (by simp only [RecType.indexOk, decide_eq_true_eq]; omega) rfl hs)
    have hd : q.byte 0 < deckCount rs := by
      have := (passes hqf).2
      unfold ProfRec.refsOk at this
      rw [(findRec_key hq).1] at this
      simpa using this
    unfold sectDeckKind sectDeck at hkind
    rw [hq, Option.map_some, Option.bind_some] at hkind
    obtain ⟨w, hw, ew⟩ := Option.map_eq_some_iff.1 hkind
    -- the lane's section and deck
    have g1 : ∃ c, t.sect? x.sect = some c ∧ c.deck = q.byte 0 := by
      have k := congrArg (fun xs => xs[r.byte 0]?) built.2.2.1
      simp only [List.getElem?_map, List.getElem?_range hs, Option.map_some] at k
      obtain ⟨c, hc, ec⟩ := Option.map_eq_some_iff.1 k
      refine ⟨c, by rw [← ey, e1]; exact hc, ?_⟩
      have := congrArg Sect.deck ec
      unfold buildSect at this
      rw [hq] at this
      exact this
    obtain ⟨c, hc, ec⟩ := g1
    have g2 : ∃ d, t.deck? (q.byte 0) = some d ∧ d.kind = .hoist := by
      have k := congrArg (fun xs => xs[q.byte 0]?) built.2.1
      simp only [List.getElem?_map, List.getElem?_range hd, Option.map_some] at k
      obtain ⟨d, hd', ed⟩ := Option.map_eq_some_iff.1 k
      refine ⟨d, hd', ?_⟩
      have := congrArg Deck.kind ed
      unfold buildDeck at this
      rw [hw] at this
      simp only [Option.getD_some, ew] at this
      exact this
    obtain ⟨d, hd', ed⟩ := g2
    unfold State.onHoist State.deckOf
    rw [hc, Option.bind_some, ec, hd']
    simp [ed]
  writing := by intro e; rw [free] at e; cases e

/-- The writing of the profile completes (R180). -/
theorem BookLaw.writeCompletes (h : BookLaw s) (hc : s.profile.isCommitting = true) : BookLaw (commitCompletes s) := by
  have ok := h.model.writing hc
  unfold commitCompletes
  refine BookLaw.of_books ((bare_build rfl rfl rfl (fun x hx => absurd hx List.not_mem_nil) fun r => ?_).bookLaw
    (ModelLaw.validated ok rfl rfl ⟨rfl, buildModel_built _ _ _⟩)) (notify_books _)
  cases r <;> exact ⟨rfl, rfl, rfl, rfl⟩

end Sys2Proof.Machine
end

