-- ==== Sys2Proof/Laws/Kept.lean ====
section
/-! SUPPORT. The events of the blocks keep the laws of the books: sequencer, claims and the sweep, tracking, discharge,
hoist, loops. -/

namespace Sys2Proof.Machine

variable {s t : State}

/-- A pass over a list, each part of which keeps the laws. -/
theorem BookLaw.foldl {α : Type} {f : State → α → State} (hf : ∀ t a, BookLaw t → BookLaw (f t a)) :
    ∀ (xs : List α) {s : State}, BookLaw s → BookLaw (xs.foldl f s)
  | [], _, h => h
  | a :: as, _, h => BookLaw.foldl hf as (hf _ a h)

theorem BookLaw.notify (h : BookLaw s) (n : Notice) : BookLaw (s.notify n) := h.of_books rfl
theorem BookLaw.sweepTrigger (h : BookLaw s) : BookLaw s.sweepTrigger := h.of_books rfl

/-! ### Sequencer -/

/-- What acts of a sequencer leave: the directions, the standby list, the voyage. -/
def Calm (s t : State) : Prop := (∀ r, (t.ramp r).direction = (s.ramp r).direction) ∧ t.standby = s.standby ∧
  t.voyage = s.voyage

theorem Calm.refl (s : State) : Calm s s := ⟨fun _ => rfl, rfl, rfl⟩

theorem Calm.trans {u : State} (h : Calm s t) (k : Calm t u) : Calm s u :=
  ⟨fun r => (k.1 r).trans (h.1 r), k.2.1.trans h.2.1, k.2.2.trans h.2.2⟩

theorem calm_updRamp (r : Ramp) {f : RampState → RampState} (hf : ∀ q, (f q).direction = q.direction) :
    Calm s (s.updRamp r f) := by
  refine ⟨fun q => ?_, by simp, by simp⟩
  rw [updRamp_ramp]
  split
  · exact hf _
  · rfl

theorem calm_notify (n : Notice) : Calm s (s.notify n) := ⟨fun r => by cases r <;> rfl, rfl, rfl⟩

theorem calm_books (e : t.books = s.books) : Calm s t := by
  refine ⟨fun r => ?_, congrArg (fun u => u.standby) e, congrArg (fun u => u.voyage) e⟩
  have := congrArg (fun u => (u.ramp r).direction) e
  simpa [RampState.books] using this

theorem calm_releaseHead (r : Ramp) (k : Kind) (tag : Nat) : Calm s (releaseHead r k tag s) := by
  unfold releaseHead
  split
  · exact Calm.refl s
  · split
    · exact Calm.refl s
    · dsimp only
      have key : ∀ (a : State) (f : RampState → RampState), Calm s a → (∀ q, (f q).direction = q.direction) →
          ∀ n, Calm s ((a.updRamp r f).notify n) := fun a f ha hf n =>
        (ha.trans (calm_updRamp r hf)).trans (calm_notify n)
      have k1 : ∀ g, Calm s (s.updVeh tag g) := fun g => ⟨fun q => by cases q <;> rfl, rfl, rfl⟩
      split
      · refine Calm.trans ?_ (calm_books sweepTrigger_books)
        exact key _ _ (k1 _) (by intro q; cases k <;> rfl) _
      · exact key _ _ (k1 _) (by intro q; cases k <;> rfl) _

theorem calm_seqNext (r : Ramp) (a : SeqAct) : Calm s (seqNext r a s).1 := by
  unfold seqNext
  cases a with
  | cycleStart =>
    dsimp only
    split <;> dsimp only
    · exact (calm_books (adoptPair_books r)).trans (calm_updRamp r fun _ => rfl)
    · exact calm_books (adoptPair_books r)
  | begin k =>
    dsimp only
    split <;> dsimp only <;> exact calm_updRamp r fun _ => rfl
  | examine =>
    dsimp only
    split
    · exact Calm.refl s
    · split
      · exact Calm.refl s
      · split
        · split <;> exact calm_releaseHead r _ _
        · exact Calm.refl s
  | endRun k =>
    dsimp only
    have h1 : Calm s (s.updRamp r fun q => { q with stall := .stopped, runCount := 0 }) := calm_updRamp r fun _ => rfl
    cases k with
    | heavy => exact h1
    | light =>
      dsimp only
      split
      · exact h1
      · split
        · exact h1
        · refine Calm.trans ?_ (calm_notify _)
          exact h1.trans (calm_updRamp r fun _ => rfl)

/-- An act that a sequencer may carry out: an examination, or any act at an INBOUND ramp. -/
def Acts (r : Ramp) (a : SeqAct) (s : State) : Prop := a = .examine ∨ (s.ramp r).direction = .inbound

theorem run_some {q : SeqState} {k : Kind} (h : q.run? = some k) : q ≠ .stopped := by
  intro e; rw [e] at h; cases h

theorem BookLaw.seqNext (h : BookLaw s) {r : Ramp} {a : SeqAct} (ha : Acts r a s) : BookLaw (seqNext r a s).1 ∧
    ∀ b, (Machine.seqNext r a s).2 = some b → Acts r b (Machine.seqNext r a s).1 := by
  have calm := calm_seqNext (s := s) r a
  have inb : (s.ramp r).direction = .inbound → ∀ b, (Machine.seqNext r a s).2 = some b → Acts r b (Machine.seqNext r a s).1 :=
    fun e b _ => Or.inr ((calm.1 r).trans e)
  have stand : ∀ {u : State} (hu : BookLaw u) {f : RampState → RampState}, (∀ q, (f q).held = q.held) →
      (∀ q, (f q).direction = q.direction) → ((f (u.ramp r)).seq = .stopped ∨ (f (u.ramp r)).seq = (u.ramp r).seq ∨
        (u.ramp r).direction = .inbound) → BookLaw (u.updRamp r f) :=
    fun hu _ hf hd hr => hu.sequencer r hf (hd _) hr
  refine ⟨?_, ?_⟩
  · clear calm inb
    unfold Machine.seqNext
    cases a with
    | cycleStart =>
      have hd : (s.ramp r).direction = .inbound := by
        rcases ha with e | e
        · cases e
        · exact e
      have h1 : BookLaw (adoptPair r s) := h.of_books (adoptPair_books r)
      have hd1 : ((adoptPair r s).ramp r).direction = .inbound := ((calm_books (adoptPair_books r)).1 r).trans hd
      dsimp only
      split <;> dsimp only
      · exact stand h1 (fun _ => rfl) (fun _ => rfl) (Or.inr (Or.inr hd1))
      · exact h1
    | begin k =>
      have hd : (s.ramp r).direction = .inbound := by
        rcases ha with e | e
        · cases e
        · exact e
      dsimp only
      split <;> dsimp only <;> exact stand h (fun _ => rfl) (fun _ => rfl) (Or.inr (Or.inr hd))
    | examine =>
      dsimp only
      split
      · exact h
      · rename_i k hk
        have hd := h.ramp.running r (run_some hk)
        split
        · exact h
        · rename_i tag rest hq
          split
          · rename_i hc
            split <;> exact h.release hq hc hd
          · exact h
    | endRun k =>
      have hd : (s.ramp r).direction = .inbound := by
        rcases ha with e | e
        · cases e
        · exact e
      dsimp only
      have h1 : BookLaw (s.updRamp r fun q => { q with stall := .stopped, runCount := 0 }) :=
        h.of_books (updRamp_books r fun _ => rfl)
      have hd1 : ((s.updRamp r fun q => { q with stall := .stopped, runCount := 0 }).ramp r).direction = .inbound := by
        rw [updRamp_same]; exact hd
      cases k with
      | heavy => exact h1
      | light =>
        dsimp only
        split
        · exact h1
        · split
          · exact h1
          · refine BookLaw.notify ?_ _
            exact stand h1 (fun _ => rfl) (fun _ => rfl) (Or.inr (Or.inr hd1))
  · rcases ha with rfl | hd
    · intro b hb
      refine inb ?_ b hb
      unfold Machine.seqNext at hb
      dsimp only at hb
      cases hk : (s.ramp r).seq.run? with
      | none => rw [hk] at hb; cases hb
      | some k => exact h.ramp.running r (run_some hk)
    · exact inb hd

theorem BookLaw.seqGo {r : Ramp} : ∀ (n : Nat) {s : State} (_ : BookLaw s) {a : SeqAct} (_ : Acts r a s),
    BookLaw (seqGo n r a s) ∧ Calm s (Machine.seqGo n r a s)
  | 0, s, h, _, _ => ⟨h, Calm.refl s⟩
  | n + 1, s, h, a, ha => by
    obtain ⟨h1, h2⟩ := h.seqNext ha
    have c := calm_seqNext (s := s) r a
    unfold Machine.seqGo
    revert h1 h2 c
    cases Machine.seqNext r a s with
    | mk u b =>
      cases b with
      | none => exact fun h1 _ c => ⟨h1, c⟩
      | some b =>
        intro h1 h2 c
        obtain ⟨k1, k2⟩ := BookLaw.seqGo n h1 (h2 b rfl)
        exact ⟨k1, c.trans k2⟩

theorem BookLaw.acts (h : BookLaw s) {r : Ramp} {a : SeqAct} (ha : Acts r a s) :
    BookLaw (seqAct r a s) ∧ Calm s (seqAct r a s) := BookLaw.seqGo _ h ha

theorem BookLaw.examine (h : BookLaw s) (r : Ramp) : BookLaw (examineRamp r s) := (h.acts (Or.inl rfl)).1

/-- Acts of a sequencer that is not STOPPED. -/
theorem BookLaw.running (h : BookLaw s) {r : Ramp} (a : SeqAct) (hr : (s.ramp r).seq ≠ .stopped) :
    BookLaw (seqAct r a s) ∧ Calm s (seqAct r a s) := h.acts (Or.inr (h.ramp.running r hr))

theorem BookLaw.examineBoth (h : BookLaw s) : BookLaw (examineBoth s) := (h.examine .lower).examine .upper

theorem BookLaw.claimReaches (h : BookLaw s) (r : Ramp) : BookLaw (claimReaches r s) ∧ Calm s (claimReaches r s) := by
  unfold Machine.claimReaches
  split
  · rename_i e; exact h.running _ (by rw [e]; exact fun k => nomatch k)
  · exact h.acts (Or.inl rfl)
  · exact h.acts (Or.inl rfl)
  · exact ⟨h, Calm.refl s⟩
  · exact ⟨h, Calm.refl s⟩

theorem BookLaw.trigger (h : BookLaw s) (r : Ramp) : BookLaw (triggerRamp r s) := by
  unfold triggerRamp
  split
  · rename_i e; exact (h.running _ (by rw [e]; exact fun k => nomatch k)).1
  all_goals exact h

theorem BookLaw.recallReaches (h : BookLaw s) (r : Ramp) (k : Kind) : BookLaw (recallReaches r k s) := by
  unfold Machine.recallReaches
  split <;> (try split) <;> first
    | exact h
    | exact h.examine r
    | (rename_i e _; exact (h.running _ (by rw [e]; exact fun k => nomatch k)).1)

theorem BookLaw.stallExpires (h : BookLaw s) (r : Ramp) : BookLaw (stallExpires r s) := by
  unfold Machine.stallExpires
  split
  · exact h
  · rename_i k hk
    refine ((h.notify _).running _ ?_).1
    have : ∀ n, ((s.notify n).ramp r).seq = (s.ramp r).seq := fun n => by cases r <;> rfl
    rw [this]
    exact run_some hk

theorem BookLaw.stop (h : BookLaw s) (r : Ramp) : BookLaw (stopRamp r s) :=
  h.sequencer r (fun _ => rfl) rfl (Or.inl rfl)

theorem BookLaw.silenceStops (h : BookLaw s) : BookLaw (silenceStops s) := by
  unfold Machine.silenceStops
  dsimp only
  have h1 : BookLaw (if (s.lower.seq != .stopped) = true then stopRamp .lower s else s) := by
    split
    · exact h.stop .lower
    · exact h
  have h2 : BookLaw (if (s.upper.seq != .stopped) = true then
      stopRamp .upper (if (s.lower.seq != .stopped) = true then stopRamp .lower s else s) else
      (if (s.lower.seq != .stopped) = true then stopRamp .lower s else s)) := by
    split
    · exact h1.stop .upper
    · exact h1
  split
  · exact h2.notify _
  · exact h2

theorem BookLaw.setBand (h : BookLaw s) (r : Ramp) (n : Nat) : BookLaw (setBand r n s) := by
  unfold Machine.setBand
  split
  · exact h
  · refine BookLaw.examine ?_ r
    exact h.of_books (updRamp_books r fun _ => rfl)

/-! ### Claims and the sweep -/

/-- A claim with its judgements and what it reaches. -/
theorem BookLaw.claimLane (h : BookLaw s) {v : Vehicle} {l : Nat} (ha : allocate s v = .claim l) (ho : v.overdue = false)
    (was : (s.veh? v.tag = none ∧ s.vehicles.length < 2048) ∨ s.veh? v.tag = some v ∧ v.stage = .standby)
    (voy : ∃ c n, s.voyage = .load c n ∧ c ≤ v.call ∧ v.call ≤ n) (u : State)
    (vehicles : u.vehicles = if (s.veh? v.tag).isNone then s.vehicles ++ [v] else s.vehicles)
    (rest : u = { s with vehicles := u.vehicles, standby := without v.tag s.standby }) (announce : Bool) :
    BookLaw (claimLane v l announce u) ∧ (Machine.claimLane v l announce u).standby = without v.tag s.standby ∧
      (Machine.claimLane v l announce u).voyage = s.voyage := by
  have b := h.claim ha ho was voy u vehicles rest
  have e1 : (bindClaim v l u).standby = without v.tag s.standby ∧ (bindClaim v l u).voyage = s.voyage := by
    have add : ∀ w : State, (addShare v l w).standby = w.standby ∧ (addShare v l w).voyage = w.voyage := by
      intro w
      unfold addShare
      split
      · exact ⟨rfl, rfl⟩
      · simp
    rw [rest]
    unfold bindClaim
    simp only [add]
    simp
  unfold Machine.claimLane
  dsimp only
  have key : ∀ w : State, BookLaw w → w.standby = without v.tag s.standby → w.voyage = s.voyage → ∀ r,
      BookLaw (Machine.claimReaches r (judgeClaim l w)) ∧
        (Machine.claimReaches r (judgeClaim l w)).standby = without v.tag s.standby ∧
        (Machine.claimReaches r (judgeClaim l w)).voyage = s.voyage := by
    intro w hw e1 e2 r
    obtain ⟨k1, k2⟩ := (hw.of_books (judgeClaim_books l)).claimReaches r
    have c := (calm_books (judgeClaim_books (s := w) l)).trans k2
    exact ⟨k1, c.2.1.trans e1, c.2.2.trans e2⟩
  split
  · exact key _ (b.notify _) e1.1 e1.2 _
  · exact key _ b e1.1 e1.2 _

theorem BookLaw.sweepOne (h : BookLaw s) {c n : Nat} (hv : s.voyage = .load c n) {tag : Nat} (hm : tag ∈ s.standby) :
    BookLaw (sweepOne s tag) ∧ ((sweepOne s tag).standby = s.standby ∨ (Machine.sweepOne s tag).standby = without tag s.standby) ∧
      (Machine.sweepOne s tag).voyage = s.voyage := by
  obtain ⟨v, hveh, hst⟩ := stage?_some ((h.record.standby.2 tag).1 hm)
  have htag := veh?_tag hveh
  subst htag
  unfold Machine.sweepOne
  rw [hveh]
  dsimp only
  cases ha : allocate s v with
  | noCandidate _ => exact ⟨h, Or.inl rfl, rfl⟩
  | claim l =>
    have hvm := veh?_mem hveh
    have ho : v.overdue = false := by
      cases e : v.overdue with
      | false => rfl
      | true =>
        have := h.figures.overdue v hvm e
        rw [hst] at this
        cases this
    have hr := (h.call.range c n (Or.inr (Or.inr hv))).2.2.2 v hvm
    obtain ⟨k1, k2, k3⟩ := h.claimLane ha ho (Or.inr ⟨hveh, hst⟩) ⟨c, n, hv, hr⟩
      { s with standby := without v.tag s.standby } (by rw [hveh]; rfl) rfl true
    exact ⟨k1, Or.inr k2, k3⟩

theorem BookLaw.sweep (h : BookLaw s) {c n : Nat} (hv : s.voyage = .load c n) : BookLaw (sweep s) := by
  have key : ∀ (xs : List Nat) {s : State}, BookLaw s → s.voyage = .load c n → xs.Nodup → (∀ u ∈ xs, u ∈ s.standby) →
      BookLaw (xs.foldl Machine.sweepOne s) := by
    intro xs
    induction xs with
    | nil => intro s h _ _ _; exact h
    | cons a as ih =>
      intro s h hv nd hm
      rw [List.nodup_cons] at nd
      obtain ⟨k1, k2, k3⟩ := h.sweepOne hv (hm a List.mem_cons_self)
      rw [List.foldl_cons]
      refine ih k1 (k3.trans hv) nd.2 fun u hu => ?_
      have hus := hm u (List.mem_cons_of_mem _ hu)
      rcases k2 with e | e
      · rw [e]; exact hus
      · rw [e, mem_without]
        exact ⟨hus, fun e => nd.1 (e ▸ hu)⟩
  exact key s.standby h hv h.record.standby.1 fun _ hu => hu

theorem BookLaw.sweepIfDue (h : BookLaw s) : BookLaw (sweepIfDue s) := by
  unfold Machine.sweepIfDue
  dsimp only
  refine BookLaw.of_books (s := if s.ev.sweepDue = true then
    (match s.voyage with
      | .load _ _ => Machine.sweep s
      | .noVoyage | .atSea _ _ | .discharge _ _ => s) else s) ?_ rfl
  split
  · split
    · rename_i e; exact h.sweep e
    all_goals exact h
  · exact h

/-! ### Tracking -/

theorem BookLaw.crestEvent (h : BookLaw s) (r : Ramp) : BookLaw (crestEvent r s) := by
  unfold Machine.crestEvent
  split
  · exact h
  · split
    · exact h.of_books (updRamp_books r fun _ => rfl)
    · split
      · exact h.notify _
      · rename_i tag hh
        split
        · exact h
        · rename_i v hv
          split
          · exact h
          · rename_i l hl
            exact (h.crest (List.mem_of_mem_head? hh) hv hl).examine r

/-- A placement commutes with a crest credit. -/
theorem placeBind_gainCrest (v : Vehicle) (l : Nat) (r : Ramp) :
    placeBind v l (gainCrest r s) = gainCrest r (placeBind v l s) := by
  have e1 : (gainCrest r s).lane? l = s.lane? l := by simp [gainCrest, State.lane?]
  unfold placeBind
  rw [e1]
  split
  · rfl
  · cases r <;> rfl

theorem BookLaw.place (h : BookLaw (placeBind v l s)) (m : PlaceMeans) : BookLaw (place v l m s) :=
  (h.notify _).examine _

/-- A RELEASED vehicle on a ramp is placed. -/
theorem BookLaw.placeFromRamp (h : BookLaw s) {v : Vehicle} {l : Nat} (hv : s.veh? v.tag = some v) (hst : v.stage = .onRamp l)
    (m : PlaceMeans) : BookLaw (Machine.place v l m (gainCrest (s.rampOfNo l) (leaveRamp (s.rampOfNo l) v s))) := by
  refine BookLaw.place ?_ m
  rw [placeBind_gainCrest]
  refine BookLaw.of_books ?_ (gainCrest_books _)
  have := h.placed hv (Or.inl hst)
  unfold leaves at this
  rw [hst] at this
  exact this

theorem BookLaw.placeFromCrest (h : BookLaw s) {v : Vehicle} {l : Nat} (hv : s.veh? v.tag = some v)
    (hst : v.stage = .pastCrest l) (m : PlaceMeans) : BookLaw (Machine.place v l m (leaveCrest l v.tag s)) := by
  refine BookLaw.place ?_ m
  have := h.placed hv (Or.inr hst)
  unfold leaves at this
  rw [hst] at this
  exact this

theorem rampOfNo_of {l : Nat} {x : Lane} (hx : s.lane? l = some x) : s.rampOfNo l = s.rampOf x := by
  unfold State.rampOfNo; rw [hx]

theorem BookLaw.entryEvent (h : BookLaw s) (l : Nat) : BookLaw (entryEvent l s).1 := by
  unfold Machine.entryEvent
  split
  · exact h
  · rename_i x hx
    split
    · exact h.of_books (updLane_books l fun _ => rfl)
    · split
      · rename_i v hv
        obtain ⟨tag, ht, hv⟩ := Option.bind_eq_some_iff.1 hv
        have e := veh?_tag hv
        subst e
        have hst := ((h.record.pastCrest l x hx).2 v.tag).1 (List.mem_of_mem_head? ht)
        rw [stage?_of hv] at hst
        exact h.placeFromCrest hv (Option.some.inj hst) _
      · split
        · rename_i v hf
          unfold State.firstOnRampFor at hf
          obtain ⟨hm, hv⟩ := records_mem.1 (List.mem_of_find?_eq_some hf)
          have hl := List.find?_some hf
          obtain ⟨k, hst, -⟩ := ((h.record.onRamp _).2 v.tag).1 hm
          rw [stage?_of hv] at hst
          have hst := Option.some.inj hst
          have e : k = l := by rw [hst] at hl; simpa [Stage.lane?] using hl
          subst e
          rw [← rampOfNo_of hx]
          exact h.placeFromRamp hv hst _
        · exact h

theorem BookLaw.confirmPlace (h : BookLaw s) {v : Vehicle} {l : Nat} (hv : s.veh? v.tag = some v)
    (hst : v.stage = .onRamp l ∨ v.stage = .pastCrest l) : BookLaw (confirmPlace v l s) := by
  unfold Machine.confirmPlace
  split
  · exact h
  · rename_i x hx
    dsimp only
    have key : ∀ u : State, BookLaw u → ∀ m : PlacementMode, BookLaw (match m with
        | .sensed => gainEntry l u
        | .confirm => u) := by
      intro u hu m
      cases m
      · exact hu.of_books (gainEntry_books l)
      · exact hu
    refine key _ ?_ _
    rcases hst with e | e
    · rw [e]
      simp only
      rw [← rampOfNo_of hx]
      exact h.placeFromRamp hv e _
    · rw [e]
      exact h.placeFromCrest hv e _

theorem BookLaw.transitExpires (h : BookLaw s) (tag : Nat) : BookLaw (transitExpires tag s) := by
  unfold Machine.transitExpires
  split
  · exact h
  · rename_i v hv
    have e := veh?_tag hv
    subst e
    split
    · rename_i l hr hl
      dsimp only
      split
      · rename_i ho
        exact h.lateAgain hv ho
      · rename_i ho
        exact (h.late hv hr hl (by simpa using ho)).notify _
    · exact h

/-! ### Removals -/

theorem BookLaw.dischargeRemoval (h : BookLaw s) {v : Vehicle} {l o : Nat} (hv : s.veh? v.tag = some v)
    (hst : v.stage = .placed l o) (m : DepartMeans) (credit : Bool) : BookLaw (dischargeRemoval v l m credit s) := by
  have h1 : BookLaw (departTail v l m s) := ((h.unstow hv hst).notify _).of_books (judgeRemoval_books l)
  unfold Machine.dischargeRemoval
  dsimp only
  refine BookLaw.sweepTrigger (BookLaw.of_books ?_ (judgeUnloading_books l))
  split
  · exact h1.of_books (gainExit_books l)
  · exact h1

theorem BookLaw.exitEvent (h : BookLaw s) (l : Nat) : BookLaw (exitEvent l s).1 := by
  unfold Machine.exitEvent
  split
  · exact h
  · rename_i x hx
    split
    · exact h.of_books (updLane_books l fun _ => rfl)
    · split
      · split
        · rename_i v hv
          obtain ⟨tag, ht, hv⟩ := Option.bind_eq_some_iff.1 hv
          have e := veh?_tag hv
          subst e
          obtain ⟨o, hst⟩ := ((h.record.stow l x hx).2 v.tag).1 (List.mem_of_getLast? ht)
          rw [stage?_of hv] at hst
          exact h.dischargeRemoval hv (Option.some.inj hst) _ _
        · exact h
      · exact h

/-! ### Hoist -/

theorem BookLaw.tellNeighbours (h : BookLaw s) (a : Bool) : BookLaw (tellNeighbours a s) := by
  unfold Machine.tellNeighbours
  dsimp only
  split
  · exact h.examineBoth.sweepTrigger
  · exact h.examineBoth

theorem BookLaw.enterFault (h : BookLaw s) (p : Nat) (f : LastFault) : BookLaw (enterFault p f s) := by
  unfold Machine.enterFault
  split
  · exact h
  · rename_i x hx
    refine BookLaw.tellNeighbours (BookLaw.of_books (BookLaw.notify ?_ _) (endBorrowIf_books _ _)) _
    have h1 : BookLaw (setPanel p .fault s) := h.panelRests hx (fun _ => rfl) (Or.inr (Or.inr rfl))
    exact h1.of_books (updPanel_books p fun _ => rfl)

theorem BookLaw.arrive (h : BookLaw s) {p : Nat} {st : PanelPos} (ok : st = .stowed ∨ st = .working ∧ s.lowUnder p)
    (m : DoneMeans) : BookLaw (arrive p st m s) := by
  unfold Machine.arrive
  split
  · exact h
  · rename_i x hx
    refine BookLaw.tellNeighbours (BookLaw.of_books (BookLaw.notify ?_ _) (endBorrowIf_books _ _)) _
    rcases ok with rfl | ⟨rfl, low⟩
    · exact h.panelRests hx (fun _ => rfl) (Or.inl rfl)
    · exact h.panelMoves hx (fun _ => rfl) (fun e => nomatch e) fun _ _ _ => low

theorem BookLaw.losePosition (h : BookLaw s) {p : Nat} {x : Panel} (hx : s.panel? p = some x) (was : PanelPos) :
    BookLaw (losePosition p was s) := by
  refine BookLaw.tellNeighbours (BookLaw.notify ?_ _) _
  exact h.panelRests hx (fun _ => rfl) (Or.inr (Or.inl rfl))

theorem positionCheck_working {p : Nat} {f : LastFault} (h : positionCheck s p = (.working, f)) : s.lowUnder p := by
  have e : (positionCheck s p).1 = .working := by rw [h]
  rcases positionCheck_rests s p with k | k | k | ⟨-, k⟩
  · rw [k] at e; cases e
  · rw [k] at e; cases e
  · rw [k] at e; cases e
  · exact k

theorem BookLaw.regain (h : BookLaw s) (p : Nat) : BookLaw (regain p s) := by
  unfold Machine.regain
  split
  · exact h.arrive (Or.inl rfl) _
  · rename_i f e; exact h.arrive (Or.inr ⟨rfl, positionCheck_working e⟩) _
  · exact h.enterFault p _
  all_goals exact h

theorem BookLaw.limitEvent (h : BookLaw s) (p : Nat) (line : LimitLine) (a : Bool) : BookLaw (limitEvent p line a s) := by
  unfold Machine.limitEvent
  split
  · exact h
  · rename_i x hx
    split <;> (try split) <;> first
      | with_reducible exact h
      | with_reducible exact h.enterFault p _
      | with_reducible exact h.losePosition hx _
      | with_reducible exact h.regain p
      | with_reducible exact h.arrive (Or.inl rfl) _
      | skip
    rename_i e _
    exact h.arrive (Or.inr ⟨rfl, h.lowUnder hx (Or.inr (by rw [e]; rfl))⟩) _

theorem BookLaw.moveExpires (h : BookLaw s) (p : Nat) : BookLaw (moveExpires p s) := by
  unfold Machine.moveExpires
  split
  · exact h
  · split
    · exact h.enterFault p _
    · exact h

theorem BookLaw.beginMove (h : BookLaw s) {p : Nat} (st : PanelPos) (quiet : s.quietUnder p) (low : s.lowUnder p) :
    BookLaw (beginMove p st s) := by
  unfold Machine.beginMove
  split
  · exact h
  · rename_i x hx
    have h1 : BookLaw (beginBorrow p (s.updPanel p fun y => { y with state := st, timer := .running x.moveLimit })) := by
      refine BookLaw.of_books ?_ (beginBorrow_books p)
      exact h.panelMoves hx (fun _ => rfl) (fun _ => quiet) fun _ _ _ => low
    dsimp only
    split
    · exact h1.enterFault p _
    · exact h1.tellNeighbours _

theorem BookLaw.stopPanel (h : BookLaw s) (p : Nat) : BookLaw (stopPanel p s) := by
  unfold Machine.stopPanel
  split
  · exact h
  · rename_i x hx
    split
    · split
      · split
        · exact h
        · refine BookLaw.notify ?_ _
          exact h.of_books (updPanel_books p fun _ => rfl)
      · exact h.enterFault p _
    · split
      · exact h
      · exact h.arrive (Or.inl rfl) _
    · rename_i f e
      split
      · exact h
      · exact h.arrive (Or.inr ⟨rfl, positionCheck_working e⟩) _
    all_goals
      split
      · exact h
      · refine BookLaw.tellNeighbours (BookLaw.of_books ?_ (endBorrowIf_books _ _)) _
        exact h.panelRests hx (fun _ => rfl) (Or.inr (Or.inl rfl))

/-! ### Loops -/

theorem BookLaw.countedEdge (h : BookLaw s) (l : Nat) (x : Lane) (o : Bool) : BookLaw (countedEdge l x o s) := by
  have h1 : BookLaw (watchEdge l x o s) := h.of_books (watchEdge_books l x o)
  have key : ∀ a : State × Bool, BookLaw a.1 → BookLaw (if a.2 = true then scoreMatched l a.1 else scorePhantom l a.1) := by
    intro a ha
    split
    · exact ha.of_books (scoreMatched_books l)
    · exact ha.of_books (scorePhantom_books l)
  unfold Machine.countedEdge
  dsimp only
  split
  · exact h1
  · split <;> first | exact key _ (h1.exitEvent l) | exact key _ (h1.entryEvent l)

theorem BookLaw.laneEdge (h : BookLaw s) (l : Nat) (o : Bool) : BookLaw (laneEdge l o s) := by
  have h1 : BookLaw (s.updLane l fun x => { x with occupied := o }) := h.of_books (updLane_books l fun _ => rfl)
  unfold Machine.laneEdge
  split
  · exact h
  · dsimp only
    split <;> split <;> first
      | exact h1
      | exact h1.enterFault _ _
      | exact h1.countedEdge _ _ _

theorem BookLaw.laneLine (h : BookLaw s) (l : Nat) (b : Bool) : BookLaw (laneLine l b s) := by
  unfold Machine.laneLine
  split
  · exact h
  · split
    · exact h
    · exact h.laneEdge _ _

theorem BookLaw.crestLine (h : BookLaw s) (r : Ramp) (b : Bool) : BookLaw (crestLine r b s) := by
  have h1 : BookLaw (s.updRamp r fun q => { q with crestOccupied := b }) := h.of_books (updRamp_books r fun _ => rfl)
  unfold Machine.crestLine
  split
  · dsimp only
    split
    · exact h1.crestEvent r
    · exact h1
  · exact h

theorem BookLaw.pressRamp (h : BookLaw s) (l : TriggerLine) (r : Ramp) : BookLaw (pressRamp l r s) := by
  unfold Machine.pressRamp; split
  · exact h.trigger r
  · exact h

theorem BookLaw.pressLine (h : BookLaw s) (l : TriggerLine) : BookLaw (pressLine l s) := (h.pressRamp l _).pressRamp l _

end Sys2Proof.Machine
end

