-- ==== Sys2Proof/Laws/Handled.lean ====
section
/-! SUPPORT. The requests keep the laws of the books. -/

namespace Sys2Proof.Machine

variable {s t : State}

/-- A request that keeps the laws. -/
def Keeps (f : Handler) : Prop := ∀ s, BookLaw s → BookLaw (f s).1

theorem BookLaw.ite {c : Prop} [Decidable c] (h : BookLaw s) (k : BookLaw t) : BookLaw (if c then s else t) := by
  split
  · exact h
  · exact k

/-! ### Vehicles -/

theorem BookLaw.enrol (h : BookLaw s) {v : Vehicle} (hv : s.veh? v.tag = none) (hst : v.stage = .standby)
    (ho : v.overdue = false) (room : s.vehicles.length < 2048)
    (voy : ∃ c n, s.voyage = .load c n ∧ c ≤ v.call ∧ v.call ≤ n) : BookLaw (enrol v s).1 := by
  unfold Machine.enrol
  cases ha : allocate s v with
  | claim l =>
    refine (h.claimLane ha ho (Or.inl ⟨hv, room⟩) voy { s with vehicles := s.vehicles ++ [v] } (by rw [hv]; rfl) ?_ false).1
    have : v.tag ∉ s.standby := fun hm => by
      have := (h.record.standby.2 v.tag).1 hm
      rw [State.stage?, hv] at this
      cases this
    rw [without_not_mem this]
  | noCandidate n =>
    dsimp only
    split
    · rename_i hr
      exact h.standBy hv hst ho ⟨room, hr⟩ voy
    · exact h

theorem keeps_arrive (a : Arrival) : Keeps (reqArrive a) := by
  intro s h
  unfold reqArrive
  split
  · exact h
  · exact h
  · exact h
  · rename_i c n hv
    split
    · exact h
    · split
      · exact h
      · rename_i hc
        split
        · exact h
        · rename_i hd
          split
          · exact h
          · rename_i hr
            split
            · exact h
            · have hc : c < a.call ∧ a.call ≤ n := by simpa using hc
              exact h.enrol (Option.not_isSome_iff_eq_none.1 hd) rfl rfl (by simpa [Config.vehicleCapacity] using hr)
                ⟨c, n, hv, Nat.le_of_lt hc.1, hc.2⟩

theorem keeps_arriveShort : Keeps reqArriveShort := by
  intro s h
  unfold reqArriveShort
  split <;> exact h

/-- A recalled vehicle of a claim list leaves it. -/
theorem BookLaw.recalled (h : BookLaw s) {v : Vehicle} {l : Nat} (hv : s.veh? v.tag = some v) (hst : v.stage.claimed l) :
    BookLaw (dropClaim v l (leaves v s)) :=
  (h.unclaim hv hst).of_books (judgeRemoval_books l)

theorem BookLaw.recallRemoval (h : BookLaw s) {v : Vehicle} (hv : s.veh? v.tag = some v) (u : State)
    (hu : recallRemoval v s = some u) : BookLaw u := by
  unfold Machine.recallRemoval at hu
  split at hu
  · rename_i e
    cases hu
    exact h.offStandby hv e
  · rename_i l e
    cases hu
    have := h.recalled hv (l := l) (Or.inl e)
    unfold leaves at this
    rw [e] at this
    exact this.recallReaches _ _
  · rename_i l e
    cases hu
    have := h.recalled hv (l := l) (Or.inr (Or.inl e))
    unfold leaves at this
    rw [e] at this
    exact this.examine _
  · rename_i l e
    cases hu
    have := h.recalled hv (l := l) (Or.inr (Or.inr e))
    unfold leaves at this
    rw [e] at this
    exact this.examine _
  · rename_i l o e
    split at hu
    · cases hu
    · split at hu
      · cases hu
        exact (h.unstow hv e).of_books (judgeRemoval_books l)
      · cases hu

theorem keeps_recall (tag : Nat) : Keeps (reqRecall tag) := by
  intro s h
  unfold reqRecall
  split
  · exact h
  · rename_i v hv
    have e := veh?_tag hv
    subst e
    split
    · rename_i u hu
      exact (h.recallRemoval hv u hu).sweepTrigger
    · exact h

theorem keeps_vehicleGet (tag : Nat) : Keeps (reqVehicleGet tag) := by
  intro s h
  unfold reqVehicleGet
  split <;> exact h

theorem keeps_confirm (tag lane : Nat) : Keeps (reqConfirm tag lane) := by
  intro s h
  unfold reqConfirm
  split
  · exact h
  · split
    · exact h
    · split
      · exact h
      · rename_i v hv
        have e := veh?_tag hv
        subst e
        split
        · split <;> exact h
        · exact h
        · exact h
        · rename_i l hst
          split
          · exact h
          · rename_i hl
            have hl : l = lane := by simpa using hl
            subst hl
            split
            · exact h
            · exact h.confirmPlace hv (Or.inl hst)
        · rename_i l hst
          split
          · exact h
          · rename_i hl
            have hl : l = lane := by simpa using hl
            subst hl
            split
            · exact h
            · exact h.confirmPlace hv (Or.inr hst)

theorem mayDepart_some {v : Vehicle} {l : Nat} {x : Lane} (h : s.mayDepart v = some (l, x)) :
    ∃ o, v.stage = .placed l o := by
  unfold State.mayDepart at h
  split at h
  · rename_i k o e
    split at h
    · split at h
      · cases h; exact ⟨o, e⟩
      · cases h
    · cases h
  all_goals cases h

theorem keeps_depart (tag : Nat) : Keeps (reqDepart tag) := by
  intro s h
  unfold reqDepart
  split
  · exact h
  · split
    · exact h
    · rename_i v hv
      have e := veh?_tag hv
      subst e
      split
      · exact h
      · rename_i l x hm
        obtain ⟨o, hst⟩ := mayDepart_some hm
        dsimp only
        exact BookLaw.ite ((h.dischargeRemoval hv hst _ _).of_books (scoreSilent_books _ _))
          (h.dischargeRemoval hv hst _ _)

/-! ### Decks, sensors, signals -/

theorem BookLaw.freeByte (h : BookLaw s) : BookLaw s.freeByte.1 := h.of_books rfl

theorem keeps_laneGet (lane start : Nat) : Keeps (reqLaneGet lane start) := by
  intro s h
  unfold reqLaneGet
  split
  · exact h
  · split
    · exact h
    · split
      · exact h
      · split
        · exact h
        · exact h.freeByte

theorem keeps_sectionGet (i : Nat) : Keeps (reqSectionGet i) := by
  intro s h
  unfold reqSectionGet
  split
  · exact h
  · split
    · exact h
    · split
      · exact h
      · exact h.freeByte

theorem keeps_thresholdSet (target n : Nat) : Keeps (reqThresholdSet target n) := by
  intro s h
  unfold reqThresholdSet
  split
  · exact h
  · split
    · exact h
    · split
      · exact BookLaw.of_books (h.of_books (t := { s with listThreshold := n }) rfl) judgeList_books
      · split
        · exact h
        · exact BookLaw.foldl (fun u i k => k.of_books (judgeSect_books i)) _
            (h.of_books (updDeck_books target fun _ => rfl))

theorem keeps_laneShut (lane : Nat) : Keeps (reqLaneShut lane) := by
  intro s h
  unfold reqLaneShut
  split
  · exact h
  · split
    · exact h
    · split
      · exact h
      · exact h
      · exact h.of_books (updLane_books lane fun _ => rfl)

theorem keeps_laneOpen (lane : Nat) : Keeps (reqLaneOpen lane) := by
  intro s h
  unfold reqLaneOpen
  split
  · exact h
  · split
    · exact h
    · split
      · exact h
      · exact h
      · refine BookLaw.sweepTrigger (BookLaw.of_books (s := s) ?_ (updLane_books lane ?_))
        · exact h
        · exact fun _ => rfl

theorem keeps_sensorWatch (scope ident watch notice : Nat) : Keeps (reqSensorWatch scope ident watch notice) := by
  intro s h
  unfold reqSensorWatch
  split
  · exact h
  · split
    · rename_i ls d w n _ _ _
      have h1 : BookLaw (updLanes ls (fun x => { x with watch := w }) s) := h.of_books (updLanes_books ls fun _ => rfl)
      dsimp only
      split
      · exact h1.of_books (updDeck_books d fun _ => rfl)
      · exact h1
    · exact h

theorem keeps_sensorLevel (deck level : Nat) : Keeps (reqSensorLevel deck level) := by
  intro s h
  unfold reqSensorLevel
  split
  · exact h
  · split
    · exact h
    · split
      · exact h
      · dsimp only
        refine BookLaw.of_books ?_ (judgeLoops_books _ _)
        exact h.of_books (updDeck_books deck fun _ => rfl)

theorem keeps_sensorLatches (clear : Nat) : Keeps (reqSensorLatches clear) := by
  intro s h
  unfold reqSensorLatches
  split
  · exact h
  · split
    · exact h
    · refine BookLaw.foldl (fun u d k => ?_) _ h
      exact k.of_books (updDeck_books d fun _ => rfl)

theorem keeps_sensorClear (lane : Nat) : Keeps (reqSensorClear lane) := by
  intro s h
  unfold reqSensorClear
  split
  · exact h
  · split
    · exact h
    · exact BookLaw.ite (h.of_books (clearSuspect_books _ _)) (h.of_books (updLane_books lane fun _ => rfl))

theorem keeps_signalSet (scope ident mode : Nat) : Keeps (reqSignalSet scope ident mode) := by
  intro s h
  unfold reqSignalSet
  split
  · exact h
  · split
    · exact h.of_books (updLanes_books _ fun _ => rfl)
    · exact h

theorem keeps_closureSet (carried a b sel en glob : Nat) : Keeps (reqClosureSet carried a b sel en glob) := by
  intro s h
  unfold reqClosureSet
  split
  · exact h
  · split
    · exact h
    · rename_i i _
      have h1 : BookLaw { s with closure := s.closure.apply i } := h.of_books rfl
      exact BookLaw.ite h1 h1.sweepTrigger

/-! ### Ramps -/

/-- A part of a ramp request that keeps the laws. -/
def PartKeeps (part : Ramp → State → State × Result) : Prop := ∀ r s, BookLaw s → BookLaw (part r s).1

theorem keeps_parts {part : Ramp → State → State × Result} (hp : PartKeeps part) :
    ∀ (rs : List Ramp) {s : State}, BookLaw s → BookLaw (rampParts part rs s).1
  | [], _, h => h
  | r :: rs, _, h => keeps_parts hp rs (hp r _ h)

theorem keeps_onRamps (code : Nat) {part : Ramp → State → State × Result} (hp : PartKeeps part) :
    Keeps (onRamps code part) := by
  intro s h
  unfold onRamps
  split
  · exact h
  · exact keeps_parts hp _ h

theorem partKeeps_start : PartKeeps startPart := by
  intro r s h
  unfold startPart
  split
  · exact h
  · split
    · exact h
    · split
      · exact h
      · rename_i e
        exact (h.acts (Or.inr e)).1

theorem partKeeps_stop : PartKeeps stopPart := by
  intro r s h
  unfold stopPart
  split
  · exact h
  all_goals exact h.stop r

theorem partKeeps_direction (d : Direction) : PartKeeps (directionPart d) := by
  intro r s h
  unfold directionPart
  split
  · exact h
  · split
    · exact h
    · rename_i hs
      split
      · exact h
      · split
        · exact h
        · rename_i hb
          refine h.ramps r (f := fun q => { q with direction := d }) (fun _ => rfl) (fun k => ?_) ?_
          · exact absurd (by simpa using hs) k
          · cases d with
            | inbound => exact Or.inl rfl
            | outbound =>
              refine Or.inr fun v hv l hl he => hb ?_
              have hr : v.stage.released = true ∧ v.stage.lane? = some l := by rcases hl with e | e <;> rw [e] <;> exact ⟨rfl, rfl⟩
              have hlen := h.record.bound v.tag l (by rw [stage?_of (veh?_of_mem h.record.tags hv)]; exact hr.2)
              have hx : s.lane? l = some (s.lanes[l]) := List.getElem?_eq_getElem hlen
              have hm : l ∈ s.lanesOf r := mem_lanesWhere.2 ⟨_, hx, by rw [← rampOfNo_of hx, he]; simp⟩
              show s.releasedTo r = true
              unfold State.releasedTo
              rw [List.any_eq_true]
              refine ⟨v, hv, ?_⟩
              rw [hr.1, hr.2]
              simpa using hm

theorem partKeeps_runPair (light heavy : Nat) (stall : Option Nat) : PartKeeps (runPairPart light heavy stall) := by
  intro r s h
  unfold runPairPart
  split
  · exact h.of_books (updRamp_books r fun _ => rfl)
  · exact h

theorem partKeeps_triggerMode (mode source : Nat) : PartKeeps (triggerModePart mode source) := by
  intro r s h
  unfold triggerModePart
  split
  · rename_i m src _ _
    have h1 : BookLaw (s.updRamp r fun q => { q with mode := m, source := src }) := h.of_books (updRamp_books r fun _ => rfl)
    dsimp only
    split
    · exact h1.trigger r
    all_goals exact h1
  · exact h

theorem partKeeps_trigger : PartKeeps triggerPart := by
  intro r s h
  unfold triggerPart
  split
  · exact h
  · exact h
  · split
    · exact h.trigger r
    all_goals exact h

theorem partKeeps_band (n : Nat) : PartKeeps (bandPart n) := by
  intro r s h
  unfold bandPart
  split
  · exact h
  · split
    · exact h
    · exact h.setBand r n

theorem keeps_rampDirection (ramp dir : Nat) : Keeps (reqRampDirection ramp dir) := by
  intro s h
  unfold reqRampDirection
  split
  · exact keeps_onRamps ramp (partKeeps_direction _) s h
  · exact keeps_onRamps ramp (fun _ _ k => k) s h

theorem keeps_linkSilence (limit : Nat) : Keeps (reqLinkSilence limit) := by
  intro s h
  unfold reqLinkSilence
  split
  · exact h.of_books rfl
  · exact h

/-! ### Panels -/

theorem hoistTarget_some {code : Nat} {g m : PanelPos} {l : LinePos} (h : hoistTarget code = some (g, l, m)) :
    g = .stowed ∨ g = .working := by
  unfold hoistTarget at h
  split at h
  · cases h; exact Or.inl rfl
  · cases h; exact Or.inr rfl
  · cases h

theorem keeps_hoistMove (panel target : Nat) : Keeps (reqHoistMove panel target) := by
  intro s h
  unfold reqHoistMove
  split
  · exact h
  · split
    · rename_i x goal line moving hx hg
      split
      · exact h
      · rename_i hb
        split
        · exact h
        · split
          · exact h
          · rename_i hne
            split
            · exact h
            · split
              · exact h
              · rename_i hclear
                split
                · exact h
                · rename_i ht
                  have low : s.lowUnder panel := by
                    split at hclear
                    · exact lowUnder_of_none hclear
                    · rename_i ha
                      refine h.lowUnder hx ?_
                      unfold clearanceApplies at ha
                      rcases hoistTarget_some hg with e | e <;> subst e
                      · cases e : x.state <;> rw [e] at ha hne hb <;> simp [PanelPos.moving] at ha hne hb ⊢
                      · exact absurd (by simp) ha
                  split
                  · refine h.arrive ?_ _
                    rcases hoistTarget_some hg with e | e
                    · exact Or.inl e
                    · exact Or.inr ⟨e, low⟩
                  · exact h.beginMove moving (quietUnder_of_none ht) low
    · exact h

theorem keeps_hoistStop (panel : Nat) : Keeps (reqHoistStop panel) := by
  intro s h
  unfold reqHoistStop
  split
  · exact h
  · split
    · exact h
    · exact h.stopPanel panel

/-! ### The voyage -/

theorem keeps_voyageSet (n : Nat) : Keeps (reqVoyageSet n) := by
  intro s h
  unfold reqVoyageSet
  split
  · exact h
  · exact h
  · rename_i hv
    split
    · exact h
    · rename_i hn
      refine h.sails { range := ?_, load := ?_, ashore := ?_ }
      · rintro c k (e | e | e) <;> cases e
        have hn : ¬ n < 1 ∧ ¬ 4 < n := by simpa using hn
        refine ⟨by omega, by omega, Nat.zero_le _, fun v hm => ?_⟩
        have := h.call.ashore hv
        dsimp only at hm
        rw [this] at hm
        cases hm
      · intro c k e; cases e
      · intro e; cases e
  all_goals exact h

theorem keeps_callOpen : Keeps reqCallOpen := by
  intro s h
  unfold reqCallOpen
  split
  · rename_i c n hv
    refine h.sails { range := ?_, load := ?_, ashore := ?_ }
    · rintro c k (e | e | e) <;> cases e
      exact h.call.range _ _ (Or.inl hv)
    · intro c k e; cases e
    · intro e; cases e
  all_goals exact h

theorem keeps_phaseLoad : Keeps reqPhaseLoad := by
  intro s h
  unfold reqPhaseLoad
  split
  · rename_i c n hv
    split
    · exact h
    · rename_i hn
      have r := h.call.range c n (Or.inr (Or.inl hv))
      refine BookLaw.sweepTrigger (h.sails { range := ?_, load := ?_, ashore := ?_ })
      · rintro c k (e | e | e) <;> cases e
        exact r
      · intro c k e
        cases e
        omega
      · intro e; cases e
  all_goals exact h

/-- With no vehicle on its way, every record that the shut out leaves is PLACED. -/
theorem BookLaw.shutPlaced (h : BookLaw s) (quiet : ¬ 0 < s.assignedCount + s.releasedCount) :
    ∀ v ∈ (Machine.shutOut s).vehicles, v.stage.isPlaced = true := by
  obtain ⟨k, ks, km, -⟩ := h.shutOut
  intro v hv
  have hs := km v hv
  have h1 : v.stage.isAssigned = false := by
    cases e : v.stage.isAssigned with
    | false => rfl
    | true =>
      exfalso
      apply quiet
      have : v ∈ s.vehicles.filter fun w => w.stage.isAssigned := List.mem_filter.2 ⟨hs, e⟩
      have := List.length_pos_of_mem this
      unfold State.assignedCount
      omega
  have h2 : v.stage.released = false := by
    cases e : v.stage.released with
    | false => rfl
    | true =>
      exfalso
      apply quiet
      have : v ∈ s.vehicles.filter fun w => w.stage.released := List.mem_filter.2 ⟨hs, e⟩
      have := List.length_pos_of_mem this
      unfold State.releasedCount
      omega
  have h3 : v.stage ≠ .standby := fun e => by
    have := (k.record.standby.2 v.tag).2 (by rw [stage?_of (veh?_of_mem k.record.tags hv), e])
    rw [ks] at this
    cases this
  cases e : v.stage <;> rw [e] at h1 h2 h3
  · exact absurd rfl h3
  · cases h1
  · cases h2
  · cases h2
  · rfl

theorem BookLaw.closeCall (h : BookLaw s) {c n : Nat} (hv : s.voyage = .discharge c n ∨ s.voyage = .load c n)
    (quiet : ¬ 0 < s.assignedCount + s.releasedCount) (none : c = n → s.dueCount c = 0) : BookLaw (closeCall c n s) := by
  obtain ⟨k, -, km, kv⟩ := h.shutOut
  have placed := h.shutPlaced quiet
  refine k.overcarried (by rw [kv]; exact hv) placed fun e v hm hc => ?_
  have : v ∈ s.vehicles.filter fun w => w.stage.isPlaced && w.call == c :=
    List.mem_filter.2 ⟨km v hm, by rw [placed v hm]; simpa using hc⟩
  have := List.length_pos_of_mem this
  have := none e
  unfold State.dueCount at this
  omega

theorem BookLaw.closeOpen (h : BookLaw s) {c n : Nat} (hv : s.voyage = .discharge c n ∨ s.voyage = .load c n) (yes : Bool) :
    BookLaw (closeOpen yes c n s).1 := by
  unfold Machine.closeOpen
  split
  · exact h
  · rename_i quiet
    split
    · exact h
    · split
      · exact h
      · split
        · exact h
        · rename_i hd
          refine h.closeCall hv quiet fun e => ?_
          subst e
          simpa using hd

theorem keeps_callClose (choice : Nat) : Keeps (reqCallClose choice) := by
  intro s h
  unfold reqCallClose
  split
  · exact h
  · split
    · exact h
    · exact h
    · rename_i e; exact h.closeOpen (Or.inl e) _
    · rename_i e; exact h.closeOpen (Or.inr e) _

theorem BookLaw.dischargeOpen (h : BookLaw s) (lane : Nat) (x : Lane) (c : Nat) : BookLaw (dischargeOpen lane x c s).1 := by
  unfold Machine.dischargeOpen
  split
  · exact h
  · split
    · exact h
    · split
      · exact h
      · split
        · exact h
        · split
          · exact h.of_books (updLane_books lane fun _ => rfl)
          · exact h

theorem keeps_dischargeLane (lane : Nat) : Keeps (reqDischargeLane lane) := by
  intro s h
  unfold reqDischargeLane
  split
  · exact h
  · exact h
  all_goals
    split
    · exact h
    · exact h.dischargeOpen _ _ _

/-! ### Profile and link -/

/-- The deck model stands, while no profile is being written. -/
theorem BookLaw.drafted (h : BookLaw s) (d : List ProfRec) (free : ¬ s.profile.isCommitting = true) :
    BookLaw { s with draft := d } :=
  h.turn rfl (h.ramp.same rfl rfl fun _ => ⟨rfl, rfl⟩) (h.panel.same rfl rfl rfl) (h.call.same rfl rfl)
    { h.model with writing := fun k => absurd k free }

theorem keeps_draftPut (type index : Nat) (fields : List Byte) : Keeps (reqDraftPut type index fields) := by
  intro s h
  unfold reqDraftPut
  split
  · exact h
  · rename_i free
    split
    · exact h
    · split
      · exact h
      · split
        · exact h
        · exact h.drafted _ free

theorem keeps_draftClear : Keeps reqDraftClear := by
  intro s h
  unfold reqDraftClear
  split
  · exact h
  · rename_i free; exact h.drafted _ free

theorem keeps_draftGet (type index : Nat) : Keeps (reqDraftGet type index) := by
  intro s h
  unfold reqDraftGet
  split
  · exact h
  · split
    · exact h
    · split <;> exact h

theorem keeps_profileCommit (count sum : Nat) : Keeps (reqProfileCommit count sum) := by
  intro s h
  unfold reqProfileCommit
  split
  · exact h
  · split
    · exact h
    · split
      · exact h
      · split
        · exact h
        · split
          · exact h
          · rename_i ok
            exact h.turn rfl (h.ramp.same rfl rfl fun _ => ⟨rfl, rfl⟩) (h.panel.same rfl rfl rfl) (h.call.same rfl rfl)
              { h.model with built := fun k => (nomatch k), writing := fun _ => ok }

theorem keeps_profileLock : Keeps reqProfileLock := by
  intro s h
  unfold reqProfileLock
  split
  · exact h
  · exact h
  · rename_i e
    exact h.turn rfl (h.ramp.same rfl rfl fun _ => ⟨rfl, rfl⟩) (h.panel.same rfl rfl rfl) (h.call.same rfl rfl)
      { h.model with writing := fun k => by dsimp only at k; rw [e] at k; cases k }

theorem keeps_profileGet (type index : Nat) : Keeps (reqProfileGet type index) := by
  intro s h
  unfold reqProfileGet
  split
  · exact h
  · split
    · exact h
    · split <;> exact h

theorem keeps_status (clear : Nat) : Keeps (reqStatus clear) := by
  intro s h
  unfold reqStatus
  split
  · exact h
  · exact BookLaw.ite (h.of_books rfl) h

theorem keeps_reset : Keeps reqReset := fun _ h => h.of_books rfl

end Sys2Proof.Machine
end

