-- ==== Sys2Proof/Laws/Within.lean ====
section
/-! SUPPORT. What any operation of an event can do: `Within s t` says that `t` follows from `s` within one event.
One lemma for each shared operation, in the form that chains: from `Within s t` to `Within s (op t)`. -/

namespace Sys2Proof.Machine

/-- Within one event the supply, the lines, the queue, the stow memory's mark, the limits, the shape of the deck
model and the transmitter stay; NOTICES_LOST is never cleared; notices are only appended, up to the capacity;
active pairs stay lawful. -/
structure Within (s t : State) : Prop where
  power : t.power = s.power
  pins : t.pins = s.pins
  pending : t.pending = s.pending
  stowIntact : t.stowIntact = s.stowIntact
  stowGen : t.stowGen = s.stowGen
  stowKept : t.stowKept = s.stowKept
  limits : t.limits = s.limits
  lanesLength : t.lanes.length = s.lanes.length
  sectionsLength : t.sections.length = s.sections.length
  decksLength : t.decks.length = s.decks.length
  panelsLength : t.panels.length = s.panels.length
  rx : t.link.rx = s.link.rx
  rxBuf : t.link.rxBuf = s.link.rxBuf
  inProgress : t.link.inProgress = s.link.inProgress
  waitingReply : t.link.waitingReply = s.link.waitingReply
  waitingRejection : t.link.waitingRejection = s.link.waitingRejection
  rejectionFirst : t.link.rejectionFirst = s.link.rejectionFirst
  overrun : t.link.overrun = s.link.overrun
  quiet : t.link.quiet = s.link.quiet
  resetDue : t.link.resetDue = s.link.resetDue
  lost : s.link.noticesLost = true → t.link.noticesLost = true
  notices : s.link.notices <+: t.link.notices
  bound : s.link.notices.length ≤ Config.noticeCapacity → t.link.notices.length ≤ Config.noticeCapacity
  lower : s.lower.active.lawful = true → t.lower.active.lawful = true
  upper : s.upper.active.lawful = true → t.upper.active.lawful = true

namespace Within

variable {s t : State}

@[simp] theorem refl (s : State) : Within s s := by
  constructor <;> first | rfl | exact id | exact List.prefix_refl _

theorem trans {u : State} (h : Within s t) (k : Within t u) : Within s u where
  power := k.power.trans h.power
  pins := k.pins.trans h.pins
  pending := k.pending.trans h.pending
  stowIntact := k.stowIntact.trans h.stowIntact
  stowGen := k.stowGen.trans h.stowGen
  stowKept := k.stowKept.trans h.stowKept
  limits := k.limits.trans h.limits
  lanesLength := k.lanesLength.trans h.lanesLength
  sectionsLength := k.sectionsLength.trans h.sectionsLength
  decksLength := k.decksLength.trans h.decksLength
  panelsLength := k.panelsLength.trans h.panelsLength
  rx := k.rx.trans h.rx
  rxBuf := k.rxBuf.trans h.rxBuf
  inProgress := k.inProgress.trans h.inProgress
  waitingReply := k.waitingReply.trans h.waitingReply
  waitingRejection := k.waitingRejection.trans h.waitingRejection
  rejectionFirst := k.rejectionFirst.trans h.rejectionFirst
  overrun := k.overrun.trans h.overrun
  quiet := k.quiet.trans h.quiet
  resetDue := k.resetDue.trans h.resetDue
  lost := k.lost ∘ h.lost
  notices := h.notices.trans k.notices
  bound := k.bound ∘ h.bound
  lower := k.lower ∘ h.lower
  upper := k.upper ∘ h.upper

/-! ### Named updates -/

@[simp] theorem updLane (h : Within s t) (l : Nat) (f : Lane → Lane) : Within s (t.updLane l f) :=
  h.trans (by constructor <;> simp)

@[simp] theorem updSect (h : Within s t) (i : Nat) (f : Sect → Sect) : Within s (t.updSect i f) :=
  h.trans (by constructor <;> simp)

@[simp] theorem updDeck (h : Within s t) (d : Nat) (f : Deck → Deck) : Within s (t.updDeck d f) :=
  h.trans (by constructor <;> simp)

@[simp] theorem updPanel (h : Within s t) (p : Nat) (f : Panel → Panel) : Within s (t.updPanel p f) :=
  h.trans (by constructor <;> simp)

@[simp] theorem updVeh (h : Within s t) (tag : Nat) (f : Vehicle → Vehicle) : Within s (t.updVeh tag f) :=
  h.trans (by constructor <;> simp)

@[simp] theorem freeVeh (h : Within s t) (tag : Nat) : Within s (t.freeVeh tag) :=
  h.trans (by constructor <;> simp)

@[simp] theorem setStage (h : Within s t) (tag : Nat) (st : Stage) : Within s (t.setStage tag st) :=
  h.trans (by constructor <;> simp)

@[simp] theorem sweepTrigger (h : Within s t) : Within s t.sweepTrigger :=
  h.trans (by constructor <;> simp)

/-- An update of a ramp that keeps its active pair lawful. -/
theorem updRamp (h : Within s t) (r : Ramp) {f : RampState → RampState}
    (hf : ∀ q : RampState, q.active.lawful = true → (f q).active.lawful = true) : Within s (t.updRamp r f) := by
  refine h.trans ?_
  cases r <;> constructor <;> first | (simp; done) | exact hf _ | exact id

/-- An update of a ramp that leaves its active pair. -/
@[simp] theorem updRamp_active (h : Within s t) (r : Ramp) (f : RampState → RampState)
    (hf : ∀ q : RampState, (f q).active = q.active) : Within s (t.updRamp r f) :=
  h.updRamp r fun q hq => (hf q).symm ▸ hq

@[simp] theorem notify (h : Within s t) (n : Notice) : Within s (t.notify n) := by
  refine h.trans ?_
  constructor <;> simp only [notify_fields, imp_self] <;> split <;>
    first | rfl | (simp; done) | exact id | skip
  simp_all [Config.noticeCapacity] <;> omega

/-- A pass over a list, each part within the event. -/
theorem foldl {α : Type} {f : State → α → State} (hf : ∀ t a, Within s t → Within s (f t a)) (xs : List α) :
    ∀ {t : State}, Within s t → Within s (xs.foldl f t) := by
  induction xs with
  | nil => exact id
  | cons a as ih => exact fun h => ih (hf _ a h)

/-- Another value of fields that `Within` does not speak of. -/
theorem of_eq {u : State} (h : Within s t) (e : u = { t with
    causes := u.causes, vehicles := u.vehicles, standby := u.standby, voyage := u.voyage, store := u.store
    profile := u.profile, draft := u.draft, listMoment := u.listMoment, listThreshold := u.listThreshold
    listArm := u.listArm, listOver := u.listOver, closure := u.closure, ev := u.ev, freeCtr := u.freeCtr }) :
    Within s u := by
  refine h.trans ?_
  rw [e]
  constructor <;> first | rfl | exact id | exact List.prefix_refl _

end Within

end Sys2Proof.Machine
end

