-- ==== Sys2Proof/Laws/Ops.lean ====
section
/-! SUPPORT. Every shared operation of an event stays within it (`Within`), by block: marks and figures, sequencer,
allocation, outputs, sensors, tracking, discharge, hoist, loops. -/

namespace Sys2Proof.Machine

variable {s t : State}

/-! ### Marks and figures -/

theorem stopRamp_within (h : Within s t) (r : Ramp) : Within s (stopRamp r t) :=
  h.updRamp_active r _ (by intro q; rfl)

theorem judgeSect_within (h : Within s t) (i : Nat) : Within s (judgeSect i t) := by
  unfold judgeSect
  split
  · exact h
  · dsimp only
    split <;> first | exact h | exact (h.updSect _ _).notify _ | exact h.updSect _ _

theorem judgeList_within (h : Within s t) : Within s (judgeList t) := by
  unfold judgeList
  split
  · dsimp only
    split
    · exact h.of_eq rfl
    · exact (h.of_eq (u := { t with listArm := .spent }) rfl).notify _
  · exact h.of_eq rfl
  · exact h
  · exact h

theorem judgeListOver_within (h : Within s t) : Within s (judgeListOver t) := by
  unfold judgeListOver
  split
  · split
    · exact h
    · exact (h.of_eq (u := { t with listOver := true }) rfl).notify _
  · exact h.of_eq rfl

theorem clearListOver_within (h : Within s t) : Within s (clearListOver t) := by
  unfold clearListOver
  split
  · exact h
  · exact h.of_eq rfl

theorem addShare_within (h : Within s t) (v : Vehicle) (l : Nat) : Within s (addShare v l t) := by
  unfold addShare
  split
  · exact h
  · exact ((h.updLane _ _).updSect _ _).of_eq rfl

theorem dropShare_within (h : Within s t) (v : Vehicle) (l : Nat) (p : Bool) :
    Within s (dropShare v l p t) := by
  unfold dropShare
  split
  · exact h
  · exact ((h.updLane _ _).updSect _ _).of_eq rfl

theorem judgeRemoval_within (h : Within s t) (l : Nat) : Within s (judgeRemoval l t) := by
  unfold judgeRemoval
  split
  · exact h
  · exact judgeListOver_within (judgeList_within (judgeSect_within h _))

theorem judgeClaim_within (h : Within s t) (l : Nat) : Within s (judgeClaim l t) := by
  unfold judgeClaim
  split
  · exact h
  · exact clearListOver_within (judgeList_within (judgeSect_within h _))

/-! ### Sequencer -/

/-- Setting a queue leaves the active pair. -/
theorem setQueue_active (q : RampState) (k : Kind) (xs : List Nat) : (q.setQueue k xs).active = q.active := by
  cases k <;> rfl

/-- Setting a queue sets that queue. -/
theorem setQueue_queue (q : RampState) (k : Kind) (xs : List Nat) : (q.setQueue k xs).queue k = xs := by
  cases k <;> rfl

theorem releaseHead_within (h : Within s t) (r : Ramp) (k : Kind) (tag : Nat) :
    Within s (releaseHead r k tag t) := by
  unfold releaseHead
  split
  · exact h
  · split
    · exact h
    · dsimp only
      split
      · exact ((h.updVeh _ _).updRamp_active r _ (by intro q; cases k <;> rfl)).notify _ |>.sweepTrigger
      · exact ((h.updVeh _ _).updRamp_active r _ (by intro q; cases k <;> rfl)).notify _

/-- The default pair keeps R77. -/
theorem default_lawful : RunPair.lawful ⟨Config.defaultLight, Config.defaultHeavy⟩ = true := by decide

theorem adoptPair_within (h : Within s t) (r : Ramp) : Within s (adoptPair r t) := by
  unfold adoptPair
  dsimp only
  split
  · rename_i hp
    exact h.updRamp r fun _ _ => hp
  · exact (h.updRamp r fun _ _ => default_lawful).notify _

theorem seqNext_within (h : Within s t) (r : Ramp) (a : SeqAct) : Within s (seqNext r a t).1 := by
  unfold seqNext
  cases a with
  | cycleStart =>
    dsimp only
    split <;> dsimp only
    · exact (adoptPair_within h r).updRamp_active r _ (by intro q; rfl)
    · exact adoptPair_within h r
  | begin k =>
    dsimp only
    split <;> dsimp only <;> exact h.updRamp_active r _ (by intro q; rfl)
  | examine =>
    dsimp only
    split
    · exact h
    · split
      · exact h
      · split
        · split <;> exact releaseHead_within h r _ _
        · exact h
  | endRun k =>
    dsimp only
    have h1 : Within s (t.updRamp r fun q => { q with stall := .stopped, runCount := 0 }) :=
      h.updRamp_active r _ (by intro q; rfl)
    cases k with
    | heavy => exact h1
    | light =>
      dsimp only
      split
      · exact h1
      · split
        · exact h1
        · exact (h1.updRamp_active r _ (by intro q; rfl)).notify _

theorem seqGo_within (n : Nat) (r : Ramp) : ∀ {t : State} (_ : Within s t) (a : SeqAct), Within s (seqGo n r a t) := by
  induction n with
  | zero => exact fun h _ => h
  | succ n ih =>
    intro t h a
    have h1 := seqNext_within h r a
    unfold seqGo
    revert h1
    cases seqNext r a t with
    | mk u b =>
      cases b with
      | none => exact id
      | some b => exact fun h1 => ih h1 b

theorem seqAct_within (h : Within s t) (r : Ramp) (a : SeqAct) : Within s (seqAct r a t) := seqGo_within _ r h a

theorem cycleStart_within (h : Within s t) (r : Ramp) : Within s (cycleStart r t) := seqAct_within h r _

theorem examineRamp_within (h : Within s t) (r : Ramp) : Within s (examineRamp r t) := seqAct_within h r _

theorem examineBoth_within (h : Within s t) : Within s (examineBoth t) :=
  examineRamp_within (examineRamp_within h .lower) .upper

theorem claimReaches_within (h : Within s t) (r : Ramp) : Within s (claimReaches r t) := by
  unfold claimReaches
  split <;> first | exact h | exact cycleStart_within h r | exact examineRamp_within h r

theorem triggerRamp_within (h : Within s t) (r : Ramp) : Within s (triggerRamp r t) := by
  unfold triggerRamp
  split <;> first | exact h | exact seqAct_within h r _

theorem recallReaches_within (h : Within s t) (r : Ramp) (k : Kind) : Within s (recallReaches r k t) := by
  unfold recallReaches
  split <;> (try split) <;>
    first | exact h | exact cycleStart_within h r | exact examineRamp_within h r | exact seqAct_within h r _

theorem stallExpires_within (h : Within s t) (r : Ramp) : Within s (stallExpires r t) := by
  unfold stallExpires
  split
  · exact h
  · exact seqAct_within (h.notify _) r _

theorem silenceStops_within (h : Within s t) : Within s (silenceStops t) := by
  unfold silenceStops
  dsimp only
  have h1 : Within s (if (t.lower.seq != .stopped) = true then stopRamp .lower t else t) := by
    split
    · exact stopRamp_within h _
    · exact h
  have h2 : Within s (if (t.upper.seq != .stopped) = true then
      stopRamp .upper (if (t.lower.seq != .stopped) = true then stopRamp .lower t else t) else
      (if (t.lower.seq != .stopped) = true then stopRamp .lower t else t)) := by
    split
    · exact stopRamp_within h1 _
    · exact h1
  split
  · exact h2.notify _
  · exact h2

theorem setBand_within (h : Within s t) (r : Ramp) (n : Nat) : Within s (setBand r n t) := by
  unfold setBand
  split
  · exact h
  · exact examineRamp_within (h.updRamp_active r _ (by intro q; rfl)) r

/-! ### Allocation -/

theorem bindClaim_within (h : Within s t) (v : Vehicle) (l : Nat) : Within s (bindClaim v l t) :=
  addShare_within (((h.setStage _ _).updLane _ _).updRamp_active _ _ fun q => setQueue_active q _ _) v l

theorem claimLane_within (h : Within s t) (v : Vehicle) (l : Nat) (a : Bool) : Within s (claimLane v l a t) := by
  unfold claimLane
  dsimp only
  refine claimReaches_within (judgeClaim_within ?_ l) _
  split
  · exact (bindClaim_within h v l).notify _
  · exact bindClaim_within h v l

theorem sweepOne_within (h : Within s t) (tag : Nat) : Within s (sweepOne t tag) := by
  unfold sweepOne
  split
  · exact h
  · split
    · exact h
    · exact claimLane_within (h.of_eq rfl) _ _ _

theorem sweep_within (h : Within s t) : Within s (sweep t) :=
  Within.foldl (fun _ _ k => sweepOne_within k _) _ h

theorem sweepIfDue_within (h : Within s t) : Within s (sweepIfDue t) := by
  unfold sweepIfDue
  dsimp only
  refine Within.of_eq (t := if t.ev.sweepDue = true then
    (match t.voyage with
      | .load _ _ => sweep t
      | .noVoyage | .atSea _ _ | .discharge _ _ => t) else t) ?_ rfl
  split
  · split <;> first | exact sweep_within h | exact h
  · exact h

/-! ### Outputs -/

theorem refresh_within (h : Within s t) : Within s (refresh t) := by
  refine h.trans ?_
  unfold refresh
  split <;> constructor <;>
    first | rfl | exact id | exact List.prefix_refl _ | exact List.length_map _

/-! ### Sensors -/

theorem remodeLane_within (h : Within s t) (l : Nat) : Within s (remodeLane l t) := by
  unfold remodeLane
  repeat' split
  all_goals first | exact h | exact h.updLane _ _

theorem remodeSect_within (h : Within s t) (i : Nat) : Within s (remodeSect i t) := by
  unfold remodeSect
  split
  · exact h
  · dsimp only
    split
    · exact h
    · exact Within.foldl (fun _ _ k => remodeLane_within k _) _ ((h.updSect _ _).notify _)

theorem remodeSects_within (h : Within s t) (is : List Nat) : Within s (remodeSects is t) :=
  Within.foldl (fun _ _ k => remodeSect_within k _) _ h

theorem makeSuspect_within (h : Within s t) (l : Nat) : Within s (makeSuspect l t) := by
  unfold makeSuspect
  split
  · exact h
  · exact ((h.updLane _ _).notify _).updLane _ _

theorem judgeLoop_within (h : Within s t) (l : Nat) : Within s (judgeLoop l t) := by
  unfold judgeLoop
  repeat' split
  all_goals first | exact h | exact remodeSect_within (makeSuspect_within h l) _

theorem changeScore_within (h : Within s t) (l : Nat) (f : Nat → Nat) : Within s (changeScore l f t) := by
  unfold changeScore
  repeat' split
  all_goals first | exact h | exact judgeLoop_within (h.updLane _ _) l

theorem scorePhantom_within (h : Within s t) (l : Nat) : Within s (scorePhantom l t) := changeScore_within h l _
theorem scoreMatched_within (h : Within s t) (l : Nat) : Within s (scoreMatched l t) := changeScore_within h l _
theorem scoreSilent_within (h : Within s t) (l n : Nat) : Within s (scoreSilent l n t) := changeScore_within h l _

theorem judgeLoops_within (h : Within s t) (ls is : List Nat) : Within s (judgeLoops ls is t) := by
  refine remodeSects_within (Within.foldl (fun u l k => ?_) _ h) is
  repeat' split
  all_goals first | exact k | exact makeSuspect_within k l

/-! ### Tracking -/

theorem gainCrest_within (h : Within s t) (r : Ramp) : Within s (gainCrest r t) :=
  h.updRamp_active r _ fun _ => by split <;> rfl

theorem gainEntry_within (h : Within s t) (l : Nat) : Within s (gainEntry l t) := by
  unfold gainEntry
  repeat' split
  all_goals first | exact h | exact h.updLane _ _ | exact scoreSilent_within h _ _

theorem leaveRamp_within (h : Within s t) (r : Ramp) (v : Vehicle) : Within s (leaveRamp r v t) :=
  h.updRamp_active r _ (by intro q; rfl)

theorem leaveCrest_within (h : Within s t) (l tag : Nat) : Within s (leaveCrest l tag t) := h.updLane _ _

theorem crestEvent_within (h : Within s t) (r : Ramp) : Within s (crestEvent r t) := by
  unfold crestEvent
  repeat' split
  all_goals first
    | exact h
    | exact h.updRamp_active r _ (by intro q; rfl)
    | exact h.notify _
    | exact examineRamp_within (((leaveRamp_within h r _).setStage _ _).updLane _ _) r

theorem placeBind_within (h : Within s t) (v : Vehicle) (l : Nat) : Within s (placeBind v l t) := by
  unfold placeBind
  split
  · exact h
  · exact ((h.updLane _ _).updSect _ _).updVeh _ _

theorem place_within (h : Within s t) (v : Vehicle) (l : Nat) (m : PlaceMeans) : Within s (place v l m t) :=
  examineRamp_within ((placeBind_within h v l).notify _) _

theorem entryEvent_within (h : Within s t) (l : Nat) : Within s (entryEvent l t).1 := by
  unfold entryEvent
  repeat' split
  all_goals first
    | exact h
    | exact h.updLane _ _
    | exact place_within (leaveCrest_within h _ _) _ _ _
    | exact place_within (gainCrest_within (leaveRamp_within h _ _) _) _ _ _

theorem confirmPlace_within (h : Within s t) (v : Vehicle) (l : Nat) : Within s (confirmPlace v l t) := by
  unfold confirmPlace
  split
  · exact h
  · dsimp only
    have key : ∀ u, Within s u → ∀ m : PlacementMode, Within s (match m with
        | .sensed => gainEntry l (place v l .confirm u)
        | .confirm => place v l .confirm u) := by
      intro u hu m
      cases m
      · exact gainEntry_within (place_within hu v l .confirm) l
      · exact place_within hu v l .confirm
    refine key _ ?_ _
    split <;> first
      | exact gainCrest_within (leaveRamp_within h _ _) _
      | exact leaveCrest_within h _ _
      | exact h

theorem transitExpires_within (h : Within s t) (tag : Nat) : Within s (transitExpires tag t) := by
  unfold transitExpires
  split
  · exact h
  · split
    · dsimp only
      split
      · exact h.updVeh _ _
      · exact ((h.updVeh _ _).updLane _ _).notify _
    · exact h

theorem entryWindowExpires_within (h : Within s t) (l : Nat) : Within s (entryWindowExpires l t) := by
  unfold entryWindowExpires
  split
  · exact h
  · exact scoreSilent_within (h.updLane _ _) _ _

theorem crestWindowExpires_within (h : Within s t) (r : Ramp) : Within s (crestWindowExpires r t) :=
  h.updRamp_active r _ (by intro q; rfl)

/-! ### Discharge -/

theorem gainExit_within (h : Within s t) (l : Nat) : Within s (gainExit l t) := h.updLane _ _

theorem judgeUnloading_within (h : Within s t) (l : Nat) : Within s (judgeUnloading l t) := by
  unfold judgeUnloading
  repeat' split
  all_goals first | exact h | exact (h.updLane _ _).notify _

theorem dropPlaced_within (h : Within s t) (v : Vehicle) (l : Nat) : Within s (dropPlaced v l t) :=
  (dropShare_within (h.updLane _ _) v l true).freeVeh _

theorem departTail_within (h : Within s t) (v : Vehicle) (l : Nat) (m : DepartMeans) :
    Within s (departTail v l m t) :=
  judgeRemoval_within ((dropPlaced_within h v l).notify _) l

theorem dischargeRemoval_within (h : Within s t) (v : Vehicle) (l : Nat) (m : DepartMeans) (c : Bool) :
    Within s (dischargeRemoval v l m c t) := by
  unfold dischargeRemoval
  dsimp only
  refine (judgeUnloading_within ?_ l).sweepTrigger
  split
  · exact gainExit_within (departTail_within h v l m) l
  · exact departTail_within h v l m

theorem exitEvent_within (h : Within s t) (l : Nat) : Within s (exitEvent l t).1 := by
  unfold exitEvent
  repeat' split
  all_goals first | exact h | exact h.updLane _ _ | exact dischargeRemoval_within h _ _ _ _

theorem exitWindowExpires_within (h : Within s t) (l : Nat) : Within s (exitWindowExpires l t) := by
  unfold exitWindowExpires
  split
  · exact h
  · exact scoreSilent_within (h.updLane _ _) _ _

/-! ### Hoist -/

theorem beginBorrow_within (h : Within s t) (p : Nat) : Within s (beginBorrow p t) :=
  Within.foldl (fun _ _ k => k.updLane _ _) _ h

theorem endBorrow_within (h : Within s t) (p : Nat) : Within s (endBorrow p t) :=
  Within.foldl (fun _ _ k => remodeLane_within k _) _
    (judgeLoops_within (Within.foldl (fun _ _ k => k.updLane _ _) _ h) _ _)

theorem endBorrowIf_within (h : Within s t) (w : PanelPos) (p : Nat) : Within s (endBorrowIf w p t) := by
  unfold endBorrowIf
  split
  · exact endBorrow_within h p
  · exact h

theorem setPanel_within (h : Within s t) (p : Nat) (st : PanelPos) : Within s (setPanel p st t) := h.updPanel _ _

theorem tellNeighbours_within (h : Within s t) (a : Bool) : Within s (tellNeighbours a t) := by
  unfold tellNeighbours
  dsimp only
  split
  · exact (examineBoth_within h).sweepTrigger
  · exact examineBoth_within h

theorem enterFault_within (h : Within s t) (p : Nat) (f : LastFault) : Within s (enterFault p f t) := by
  unfold enterFault
  split
  · exact h
  · exact tellNeighbours_within (endBorrowIf_within (((setPanel_within h _ _).updPanel _ _).notify _) _ _) _

theorem arrive_within (h : Within s t) (p : Nat) (st : PanelPos) (m : DoneMeans) : Within s (arrive p st m t) := by
  unfold arrive
  split
  · exact h
  · exact tellNeighbours_within (endBorrowIf_within ((setPanel_within h _ _).notify _) _ _) _

theorem losePosition_within (h : Within s t) (p : Nat) (w : PanelPos) : Within s (losePosition p w t) :=
  tellNeighbours_within ((setPanel_within h _ _).notify _) _

theorem regain_within (h : Within s t) (p : Nat) : Within s (regain p t) := by
  unfold regain
  split <;> first
    | with_reducible exact h
    | with_reducible exact arrive_within h _ _ _
    | with_reducible exact enterFault_within h _ _

theorem limitEvent_within (h : Within s t) (p : Nat) (l : LimitLine) (a : Bool) :
    Within s (limitEvent p l a t) := by
  unfold limitEvent
  split
  · exact h
  · split <;> (try split) <;> first
      | with_reducible exact h
      | with_reducible exact arrive_within h _ _ _
      | with_reducible exact enterFault_within h _ _
      | with_reducible exact losePosition_within h _ _
      | with_reducible exact regain_within h _

theorem moveExpires_within (h : Within s t) (p : Nat) : Within s (moveExpires p t) := by
  unfold moveExpires
  repeat' split
  all_goals first | with_reducible exact h | with_reducible exact enterFault_within h _ _

theorem obstruct_within (h : Within s t) (p l : Nat) : Within s (obstruct p l t) := enterFault_within h _ _

theorem beginMove_within (h : Within s t) (p : Nat) (st : PanelPos) : Within s (beginMove p st t) := by
  unfold beginMove
  split
  · exact h
  · dsimp only
    split
    · exact obstruct_within (beginBorrow_within (h.updPanel _ _) _) _ _
    · exact tellNeighbours_within (beginBorrow_within (h.updPanel _ _) _) _

theorem stopPanel_within (h : Within s t) (p : Nat) : Within s (stopPanel p t) := by
  unfold stopPanel
  split
  · exact h
  · split <;> (repeat' split) <;> first
      | with_reducible exact h
      | with_reducible exact arrive_within h _ _ _
      | with_reducible exact enterFault_within h _ _
      | with_reducible exact (h.updPanel _ _).notify _
      | with_reducible exact tellNeighbours_within (endBorrowIf_within (setPanel_within h _ _) _ _) _

/-! ### Loops -/

theorem watchEdge_within (h : Within s t) (l : Nat) (x : Lane) (o : Bool) : Within s (watchEdge l x o t) := by
  unfold watchEdge
  split
  · split
    · dsimp only
      split
      · exact (h.updDeck _ _).notify _
      · exact h.updDeck _ _
    · exact h
  · exact h

theorem countedEdge_within (h : Within s t) (l : Nat) (x : Lane) (o : Bool) :
    Within s (countedEdge l x o t) := by
  have h1 := watchEdge_within h l x o
  have key : ∀ a : State × Bool, Within s a.1 →
      Within s (if a.2 = true then scoreMatched l a.1 else scorePhantom l a.1) := by
    intro a ha
    split
    · exact scoreMatched_within ha l
    · exact scorePhantom_within ha l
  unfold countedEdge
  dsimp only
  split
  · exact h1
  · split <;> first | exact key _ (exitEvent_within h1 l) | exact key _ (entryEvent_within h1 l)

theorem laneEdge_within (h : Within s t) (l : Nat) (o : Bool) : Within s (laneEdge l o t) := by
  unfold laneEdge
  split
  · exact h
  · dsimp only
    split <;> split <;> first
      | exact h.updLane _ _
      | exact obstruct_within (h.updLane _ _) _ _
      | exact countedEdge_within (h.updLane _ _) _ _ _

theorem laneLine_within (h : Within s t) (l : Nat) (b : Bool) : Within s (laneLine l b t) := by
  unfold laneLine
  repeat' split
  all_goals first | exact h | exact laneEdge_within h _ _

theorem crestLine_within (h : Within s t) (r : Ramp) (b : Bool) : Within s (crestLine r b t) := by
  unfold crestLine
  split
  · dsimp only
    split
    · exact crestEvent_within (h.updRamp_active r _ (by intro q; rfl)) r
    · exact h.updRamp_active r _ (by intro q; rfl)
  · exact h

theorem pressRamp_within (h : Within s t) (l : TriggerLine) (r : Ramp) : Within s (pressRamp l r t) := by
  unfold pressRamp; split
  · exact triggerRamp_within h r
  · exact h

theorem pressLine_within (h : Within s t) (l : TriggerLine) : Within s (pressLine l t) :=
  pressRamp_within (pressRamp_within h l _) l _

end Sys2Proof.Machine
end

