-- ==== Sys2Proof/Laws/Requests.lean ====
section
/-! SUPPORT. Every request's own changes stay within its event (`Handled`: RESET alone marks a reset as due). -/

namespace Sys2Proof.Machine

/-- `t` follows from `s` within one event, up to the mark of a due reset. -/
def Handled (s t : State) : Prop := ∃ b, Within (s.updLink fun k => { k with resetDue := b }) t

theorem Within.handled {s t : State} (h : Within s t) : Handled s t := ⟨s.link.resetDue, h⟩

variable {s : State}

/-! ### Vehicle requests -/

theorem enrol_within (v : Vehicle) : Within s (enrol v s).1 := by
  unfold enrol
  split
  · exact claimLane_within ((Within.refl s).of_eq rfl) _ _ _
  · split
    · exact (Within.refl s).of_eq rfl
    · exact Within.refl s

theorem reqArrive_within (a : Arrival) : Within s (reqArrive a s).1 := by
  unfold reqArrive
  repeat' split
  all_goals first | with_reducible exact Within.refl s | with_reducible exact enrol_within _

theorem reqArriveShort_within : Within s (reqArriveShort s).1 := by
  unfold reqArriveShort
  split <;> exact Within.refl s

theorem dropClaim_within {t : State} (h : Within s t) (v : Vehicle) (l : Nat) : Within s (dropClaim v l t) :=
  judgeRemoval_within ((dropShare_within (h.updLane _ _) v l false).freeVeh _) l

theorem recallRemoval_within (v : Vehicle) (u : State) (e : recallRemoval v s = some u) : Within s u := by
  unfold recallRemoval at e
  split at e
  · cases e
    exact Within.freeVeh ((Within.refl s).of_eq rfl) _
  · cases e
    exact recallReaches_within (dropClaim_within ((Within.refl s).updRamp_active _ _
      (by intro q; exact setQueue_active q _ _)) _ _) _ _
  · cases e
    exact examineRamp_within (dropClaim_within (leaveRamp_within (Within.refl s) _ _) _ _) _
  · cases e
    exact examineRamp_within (dropClaim_within (leaveCrest_within (Within.refl s) _ _) _ _) _
  · split at e
    · cases e
    · split at e
      · cases e
        exact judgeRemoval_within (dropPlaced_within (Within.refl s) _ _) _
      · cases e

theorem reqRecall_within (tag : Nat) : Within s (reqRecall tag s).1 := by
  unfold reqRecall
  split
  · exact Within.refl s
  · split
    · rename_i e
      exact (recallRemoval_within _ _ e).sweepTrigger
    · exact Within.refl s

theorem reqVehicleGet_within (tag : Nat) : Within s (reqVehicleGet tag s).1 := by
  unfold reqVehicleGet
  split <;> exact Within.refl s

theorem reqConfirm_within (tag lane : Nat) : Within s (reqConfirm tag lane s).1 := by
  unfold reqConfirm
  repeat' split
  all_goals first | with_reducible exact Within.refl s | exact confirmPlace_within (Within.refl s) _ _

theorem reqDepart_within (tag : Nat) : Within s (reqDepart tag s).1 := by
  unfold reqDepart
  split
  · exact Within.refl s
  · split
    · exact Within.refl s
    · split
      · exact Within.refl s
      · dsimp only
        split
        · exact scoreSilent_within (dischargeRemoval_within (Within.refl s) _ _ _ _) _ _
        · exact dischargeRemoval_within (Within.refl s) _ _ _ _

/-! ### Deck requests -/

theorem freeByte_within : Within s s.freeByte.1 := (Within.refl s).of_eq rfl

theorem reqLaneGet_within (lane start : Nat) : Within s (reqLaneGet lane start s).1 := by
  unfold reqLaneGet
  repeat' split
  all_goals first | with_reducible exact Within.refl s | exact freeByte_within

theorem reqSectionGet_within (i : Nat) : Within s (reqSectionGet i s).1 := by
  unfold reqSectionGet
  repeat' split
  all_goals first | with_reducible exact Within.refl s | exact freeByte_within

theorem reqThresholdSet_within (target n : Nat) : Within s (reqThresholdSet target n s).1 := by
  unfold reqThresholdSet
  split
  · exact Within.refl s
  · split
    · exact Within.refl s
    · split
      · exact judgeList_within ((Within.refl s).of_eq rfl)
      · split
        · exact Within.refl s
        · exact Within.foldl (fun _ _ k => judgeSect_within k _) _ ((Within.refl s).updDeck _ _)

theorem reqLaneShut_within (lane : Nat) : Within s (reqLaneShut lane s).1 := by
  unfold reqLaneShut
  repeat' split
  all_goals first | with_reducible exact Within.refl s | exact (Within.refl s).updLane _ _

theorem reqLaneOpen_within (lane : Nat) : Within s (reqLaneOpen lane s).1 := by
  unfold reqLaneOpen
  repeat' split
  all_goals first | with_reducible exact Within.refl s | exact ((Within.refl s).updLane _ _).sweepTrigger

/-! ### Ramp requests -/

theorem rampParts_within {part : Ramp → State → State × Result}
    (hp : ∀ r {t : State}, Within s t → Within s (part r t).1) (rs : List Ramp) :
    ∀ {t : State}, Within s t → Within s (rampParts part rs t).1 := by
  induction rs with
  | nil => exact id
  | cons r rs ih => exact fun h => ih (hp r h)

theorem onRamps_within (code : Nat) {part : Ramp → State → State × Result}
    (hp : ∀ r {t : State}, Within s t → Within s (part r t).1) : Within s (onRamps code part s).1 := by
  unfold onRamps
  split
  · exact Within.refl s
  · exact rampParts_within hp _ (Within.refl s)

theorem startPart_within (r : Ramp) {t : State} (h : Within s t) : Within s (startPart r t).1 := by
  unfold startPart
  repeat' split
  all_goals first | with_reducible exact h | exact cycleStart_within h r

theorem stopPart_within (r : Ramp) {t : State} (h : Within s t) : Within s (stopPart r t).1 := by
  unfold stopPart
  split <;> first | with_reducible exact h | exact stopRamp_within h r

theorem directionPart_within (d : Direction) (r : Ramp) {t : State} (h : Within s t) :
    Within s (directionPart d r t).1 := by
  unfold directionPart
  split
  · exact h
  · split
    · exact h
    · split
      · exact h
      · split
        · exact h
        · dsimp only
          exact Within.updRamp_active h r _ (by intro q; rfl)

theorem runPairPart_within (l hv : Nat) (st : Option Nat) (r : Ramp) {t : State} (h : Within s t) :
    Within s (runPairPart l hv st r t).1 := by
  unfold runPairPart
  split <;> dsimp only
  · exact Within.updRamp_active h r _ (by intro q; rfl)
  · exact h

theorem triggerModePart_within (m src : Nat) (r : Ramp) {t : State} (h : Within s t) :
    Within s (triggerModePart m src r t).1 := by
  unfold triggerModePart
  split
  · dsimp only
    split <;> dsimp only
    · exact triggerRamp_within (Within.updRamp_active h r _ (by intro q; rfl)) r
    all_goals exact Within.updRamp_active h r _ (by intro q; rfl)
  · exact h

theorem triggerPart_within (r : Ramp) {t : State} (h : Within s t) : Within s (triggerPart r t).1 := by
  unfold triggerPart
  repeat' split
  all_goals first | with_reducible exact h | exact triggerRamp_within h r

theorem bandPart_within (n : Nat) (r : Ramp) {t : State} (h : Within s t) : Within s (bandPart n r t).1 := by
  unfold bandPart
  repeat' split
  all_goals first | with_reducible exact h | exact setBand_within h r n

theorem reqRampDirection_within (ramp dir : Nat) : Within s (reqRampDirection ramp dir s).1 := by
  unfold reqRampDirection
  split
  · exact onRamps_within _ fun r _ h => directionPart_within _ r h
  · exact onRamps_within _ fun _ _ h => h

theorem reqLinkSilence_within (n : Nat) : Within s (reqLinkSilence n s).1 := by
  unfold reqLinkSilence
  split
  · constructor <;> first | rfl | exact id | exact List.prefix_refl _
  · exact Within.refl s

/-! ### Sensor requests -/

theorem updLanes_within {t : State} (h : Within s t) (ls : List Nat) (f : Lane → Lane) :
    Within s (updLanes ls f t) := Within.foldl (fun _ _ k => k.updLane _ _) _ h

theorem reqSensorWatch_within (sc i w n : Nat) : Within s (reqSensorWatch sc i w n s).1 := by
  unfold reqSensorWatch
  split
  · exact Within.refl s
  · split
    · dsimp only
      split
      · exact (updLanes_within (Within.refl s) _ _).updDeck _ _
      · exact updLanes_within (Within.refl s) _ _
    · exact Within.refl s

theorem reqSensorLevel_within (d n : Nat) : Within s (reqSensorLevel d n s).1 := by
  unfold reqSensorLevel
  repeat' split
  all_goals first | with_reducible exact Within.refl s | exact judgeLoops_within ((Within.refl s).updDeck _ _) _ _

theorem reqSensorLatches_within (c : Nat) : Within s (reqSensorLatches c s).1 := by
  unfold reqSensorLatches
  repeat' split
  all_goals first
    | with_reducible exact Within.refl s
    | exact Within.foldl (fun _ _ k => k.updDeck _ _) _ (Within.refl s)

theorem clearSuspect_within {t : State} (h : Within s t) (l i : Nat) : Within s (clearSuspect l i t) := by
  unfold clearSuspect
  dsimp only
  have h1 : Within s (remodeSect i (remodeLane l (t.updLane l fun x => x.clear (t.borrowed x)))) :=
    remodeSect_within (remodeLane_within (h.updLane _ _) l) i
  split
  · exact h1.sweepTrigger
  · exact h1

theorem reqSensorClear_within (lane : Nat) : Within s (reqSensorClear lane s).1 := by
  unfold reqSensorClear
  split
  · exact Within.refl s
  · split
    · exact Within.refl s
    · dsimp only
      split
      · exact clearSuspect_within (Within.refl s) _ _
      · exact (Within.refl s).updLane _ _

/-! ### Hoist requests -/

theorem reqHoistMove_within (p g : Nat) : Within s (reqHoistMove p g s).1 := by
  unfold reqHoistMove
  repeat' split
  all_goals first
    | with_reducible exact Within.refl s
    | with_reducible exact arrive_within (Within.refl s) _ _ _
    | with_reducible exact beginMove_within (Within.refl s) _ _

theorem reqHoistStop_within (p : Nat) : Within s (reqHoistStop p s).1 := by
  unfold reqHoistStop
  repeat' split
  all_goals first | with_reducible exact Within.refl s | exact stopPanel_within (Within.refl s) p

/-! ### Voyage requests -/

theorem reqVoyageSet_within (n : Nat) : Within s (reqVoyageSet n s).1 := by
  unfold reqVoyageSet
  repeat' split
  all_goals first | with_reducible exact Within.refl s | exact (Within.refl s).of_eq rfl

theorem reqCallOpen_within : Within s (reqCallOpen s).1 := by
  unfold reqCallOpen
  split <;> first | with_reducible exact Within.refl s | exact (Within.refl s).of_eq rfl

theorem reqPhaseLoad_within : Within s (reqPhaseLoad s).1 := by
  unfold reqPhaseLoad
  repeat' split
  all_goals first | with_reducible exact Within.refl s | exact (Within.refl s).of_eq rfl

theorem shutOut_within {t : State} (h : Within s t) : Within s (shutOut t) := by
  refine Within.foldl (fun u tag k => ?_) _ h
  unfold shutOutOne
  split
  · exact (Within.freeVeh (k.of_eq (u := { u with standby := without tag u.standby }) rfl) _).notify _
  · exact k.of_eq rfl

theorem closeCall_within (c n : Nat) {t : State} (h : Within s t) : Within s (closeCall c n t) :=
  (shutOut_within h).of_eq rfl

theorem reqCallClose_within (o : Nat) : Within s (reqCallClose o s).1 := by
  unfold reqCallClose closeOpen
  repeat' split
  all_goals first | with_reducible exact Within.refl s | exact closeCall_within _ _ (Within.refl s)

theorem reqDischargeLane_within (lane : Nat) : Within s (reqDischargeLane lane s).1 := by
  unfold reqDischargeLane dischargeOpen
  repeat' split
  all_goals first | with_reducible exact Within.refl s | exact (Within.refl s).updLane _ _

/-! ### Signal and profile requests -/

theorem reqSignalSet_within (sc i m : Nat) : Within s (reqSignalSet sc i m s).1 := by
  unfold reqSignalSet
  repeat' split
  all_goals first | with_reducible exact Within.refl s | exact updLanes_within (Within.refl s) _ _

theorem reqClosureSet_within (c a b sel en g : Nat) : Within s (reqClosureSet c a b sel en g s).1 := by
  unfold reqClosureSet
  split
  · exact Within.refl s
  · split
    · exact Within.refl s
    · dsimp only
      split
      · exact (Within.refl s).of_eq rfl
      · exact Within.sweepTrigger ((Within.refl s).of_eq rfl)

theorem reqDraftPut_within (ty i : Nat) (fs : List Byte) : Within s (reqDraftPut ty i fs s).1 := by
  unfold reqDraftPut
  repeat' split
  all_goals first | with_reducible exact Within.refl s | exact (Within.refl s).of_eq rfl

theorem reqDraftClear_within : Within s (reqDraftClear s).1 := by
  unfold reqDraftClear
  split <;> first | with_reducible exact Within.refl s | exact (Within.refl s).of_eq rfl

theorem reqDraftGet_within (ty i : Nat) : Within s (reqDraftGet ty i s).1 := by
  unfold reqDraftGet
  repeat' split
  all_goals exact Within.refl s

theorem reqProfileCommit_within (n m : Nat) : Within s (reqProfileCommit n m s).1 := by
  unfold reqProfileCommit
  repeat' split
  all_goals first | with_reducible exact Within.refl s | exact (Within.refl s).of_eq rfl

theorem reqProfileLock_within : Within s (reqProfileLock s).1 := by
  unfold reqProfileLock
  split <;> first | with_reducible exact Within.refl s | exact (Within.refl s).of_eq rfl

theorem reqProfileGet_within (ty i : Nat) : Within s (reqProfileGet ty i s).1 := by
  unfold reqProfileGet
  repeat' split
  all_goals exact Within.refl s

theorem reqStatus_within (c : Nat) : Within s (reqStatus c s).1 := by
  unfold reqStatus
  split
  · exact Within.refl s
  · dsimp only
    split
    · exact (Within.refl s).of_eq rfl
    · exact Within.refl s

theorem reqReset_handled : Handled s (reqReset s).1 := ⟨true, Within.refl _⟩

/-! ### The request of any frame -/

/-- A body of any coding: the request where the length is allowed, else nothing but a refusal. -/
theorem body0_handled {h : Handler} (hh : Handled s (h s).1) (b : List Byte) : Handled s (body0 h b s).1 := by
  unfold body0
  split <;> first | exact hh | exact (Within.refl s).handled

theorem body1_handled {h : Nat → Handler} (hh : ∀ a, Within s (h a s).1) (b : List Byte) :
    Handled s (body1 h b s).1 := by
  unfold body1
  split <;> first | exact (hh _).handled | exact (Within.refl s).handled

theorem body2_handled {h : Nat → Nat → Handler} (hh : ∀ x y, Within s (h x y s).1) (b : List Byte) :
    Handled s (body2 h b s).1 := by
  unfold body2
  split <;> first | exact (hh _ _).handled | exact (Within.refl s).handled

theorem body3_handled {h : Nat → Nat → Nat → Handler} (hh : ∀ x y z, Within s (h x y z s).1) (b : List Byte) :
    Handled s (body3 h b s).1 := by
  unfold body3
  split <;> first | exact (hh _ _ _).handled | exact (Within.refl s).handled

theorem body4_handled {h : Nat → Nat → Nat → Nat → Handler} (hh : ∀ x y z w, Within s (h x y z w s).1)
    (b : List Byte) : Handled s (body4 h b s).1 := by
  unfold body4
  split <;> first | exact (hh _ _ _ _).handled | exact (Within.refl s).handled

theorem bodyTag_handled {h : Nat → Handler} (hh : ∀ a, Within s (h a s).1) (b : List Byte) :
    Handled s (bodyTag h b s).1 := by
  unfold bodyTag
  split <;> first | exact (hh _).handled | exact (Within.refl s).handled

theorem serveArrive_handled (b : List Byte) : Handled s (serveArrive b s).1 := by
  unfold serveArrive
  split <;> first | exact (reqArrive_within _).handled | exact reqArriveShort_within.handled

theorem serveConfirm_handled (b : List Byte) : Handled s (serveConfirm b s).1 := by
  unfold serveConfirm
  split <;> first | exact (reqConfirm_within _ _).handled | exact (Within.refl s).handled

theorem reqRunPair_within (r l h : Nat) (st : Option Nat) : Within s (reqRunPair r l h st s).1 :=
  onRamps_within _ fun q _ k => runPairPart_within _ _ _ q k

theorem serveRunPair_handled (b : List Byte) : Handled s (serveRunPair b s).1 := by
  unfold serveRunPair
  split <;> first | exact (reqRunPair_within _ _ _ _).handled | exact (Within.refl s).handled

theorem serveClosureSet_handled (b : List Byte) : Handled s (serveClosureSet b s).1 := by
  unfold serveClosureSet
  split <;> first | exact (reqClosureSet_within _ _ _ _ _ _).handled | exact (Within.refl s).handled

theorem serveDraftPut_handled (b : List Byte) : Handled s (serveDraftPut b s).1 := by
  unfold serveDraftPut
  split
  · split <;> first | exact (reqDraftPut_within _ _ _).handled | exact (Within.refl s).handled
  · exact (Within.refl s).handled

theorem serveCommit_handled (b : List Byte) : Handled s (serveCommit b s).1 := by
  unfold serveCommit
  split <;> first | exact (reqProfileCommit_within _ _).handled | exact (Within.refl s).handled

/-- A row of the kind code table whose request stays within its event. -/
def RowHandled (s : State) (e : KindRow) : Prop := ∀ b, Handled s (e.2 b s).1

/-- Every row of the kind code table. -/
theorem requestTable_handled (s : State) : ∀ e ∈ requestTable, RowHandled s e := by
  unfold requestTable linkAndVehicleKinds rampKinds sensorAndHoistKinds voyageAndProfileKinds
  simp only [List.cons_append, List.nil_append, List.forall_mem_cons]
  refine ⟨body1_handled reqStatus_within, body0_handled reqReset_handled, body1_handled reqLinkSilence_within,
    serveArrive_handled, bodyTag_handled reqRecall_within, bodyTag_handled reqVehicleGet_within,
    serveConfirm_handled, bodyTag_handled reqDepart_within, body2_handled reqLaneGet_within,
    body1_handled reqSectionGet_within, body2_handled reqThresholdSet_within, body1_handled reqLaneShut_within,
    body1_handled reqLaneOpen_within,
    body1_handled fun a => onRamps_within a fun r _ h => startPart_within r h,
    body1_handled fun a => onRamps_within a fun r _ h => stopPart_within r h,
    body2_handled reqRampDirection_within, serveRunPair_handled,
    body3_handled fun a _ _ => onRamps_within a fun r _ h => triggerModePart_within _ _ r h,
    body1_handled fun a => onRamps_within a fun r _ h => triggerPart_within r h,
    body2_handled fun a b => onRamps_within a fun r _ h => bandPart_within b r h,
    body4_handled reqSensorWatch_within, body2_handled reqSensorLevel_within, body1_handled reqSensorLatches_within,
    body1_handled reqSensorClear_within, body2_handled reqHoistMove_within, body1_handled reqHoistStop_within,
    body1_handled reqVoyageSet_within, body0_handled reqCallOpen_within.handled,
    body0_handled reqPhaseLoad_within.handled, body1_handled reqCallClose_within,
    body1_handled reqDischargeLane_within, body3_handled reqSignalSet_within, serveClosureSet_handled,
    serveDraftPut_handled, body0_handled reqDraftClear_within.handled, body2_handled reqDraftGet_within,
    serveCommit_handled, body0_handled reqProfileLock_within.handled, body2_handled reqProfileGet_within, ?_⟩
  intro e he
  cases he

/-- A kind found in a table stands in it. -/
theorem mem_of_lookup {α : Type} {k : Nat} {v : α} :
    ∀ {xs : List (Nat × α)}, xs.lookup k = some v → (k, v) ∈ xs
  | [], h => by cases h
  | (a, b) :: xs, h => by
    unfold List.lookup at h
    split at h
    · rename_i e
      cases h
      rw [eq_of_beq e]
      exact List.mem_cons_self
    · exact List.mem_cons_of_mem _ (mem_of_lookup h)

/-- Every request, whatever its kind and body, stays within its event. -/
theorem serve_handled (f : Frame) : Handled s (serve f s).1 := by
  unfold serve serveBody
  cases h : requestTable.lookup f.kind.toNat with
  | none => exact (Within.refl s).handled
  | some g => exact requestTable_handled s _ (mem_of_lookup h) _

end Sys2Proof.Machine
end

