-- ==== Sys2Proof/Laws/Link.lean ====
section
/-! SUPPORT. What the link port does around a request and an event: the moment a request is taken, the transmitter's
start, and what neither changes. The provers cite these instead of unfolding `requestArrives`, `answer` and `kick`. -/

namespace Sys2Proof.Machine

/-! ### A request that is taken at once -/

@[simp] theorem heard_power (s : State) : (heard s).power = s.power := rfl
@[simp] theorem heard_pins (s : State) : (heard s).pins = s.pins := rfl
@[simp] theorem heard_causes (s : State) : (heard s).causes = s.causes := rfl
@[simp] theorem heard_vehicles (s : State) : (heard s).vehicles = s.vehicles := rfl
@[simp] theorem heard_standby (s : State) : (heard s).standby = s.standby := rfl
@[simp] theorem heard_voyage (s : State) : (heard s).voyage = s.voyage := rfl
@[simp] theorem heard_store (s : State) : (heard s).store = s.store := rfl
@[simp] theorem heard_profile (s : State) : (heard s).profile = s.profile := rfl
@[simp] theorem heard_draft (s : State) : (heard s).draft = s.draft := rfl
@[simp] theorem heard_limits (s : State) : (heard s).limits = s.limits := rfl
@[simp] theorem heard_decks (s : State) : (heard s).decks = s.decks := rfl
@[simp] theorem heard_sections (s : State) : (heard s).sections = s.sections := rfl
@[simp] theorem heard_lanes (s : State) : (heard s).lanes = s.lanes := rfl
@[simp] theorem heard_panels (s : State) : (heard s).panels = s.panels := rfl
@[simp] theorem heard_listMoment (s : State) : (heard s).listMoment = s.listMoment := rfl
@[simp] theorem heard_listThreshold (s : State) : (heard s).listThreshold = s.listThreshold := rfl
@[simp] theorem heard_listArm (s : State) : (heard s).listArm = s.listArm := rfl
@[simp] theorem heard_listOver (s : State) : (heard s).listOver = s.listOver := rfl
@[simp] theorem heard_lower (s : State) : (heard s).lower = s.lower := rfl
@[simp] theorem heard_upper (s : State) : (heard s).upper = s.upper := rfl
@[simp] theorem heard_closure (s : State) : (heard s).closure = s.closure := rfl
@[simp] theorem heard_stowIntact (s : State) : (heard s).stowIntact = s.stowIntact := rfl
@[simp] theorem heard_stowGen (s : State) : (heard s).stowGen = s.stowGen := rfl
@[simp] theorem heard_stowKept (s : State) : (heard s).stowKept = s.stowKept := rfl
@[simp] theorem heard_freeCtr (s : State) : (heard s).freeCtr = s.freeCtr := rfl
@[simp] theorem heard_pending (s : State) : (heard s).pending = s.pending := rfl
@[simp] theorem heard_ev (s : State) : (heard s).ev = EventMarks.none := rfl
@[simp] theorem heard_link (s : State) :
    (heard s).link = { s.link with quiet := false, silence := silenceAt s.link.silenceLimit } := rfl
@[simp] theorem heard_ramp (s : State) (r : Ramp) : (heard s).ramp r = s.ramp r := by cases r <;> rfl
@[simp] theorem heard_lane? (s : State) (l : Nat) : (heard s).lane? l = s.lane? l := rfl
@[simp] theorem heard_sect? (s : State) (i : Nat) : (heard s).sect? i = s.sect? i := rfl
@[simp] theorem heard_deck? (s : State) (d : Nat) : (heard s).deck? d = s.deck? d := rfl
@[simp] theorem heard_panel? (s : State) (p : Nat) : (heard s).panel? p = s.panel? p := rfl
@[simp] theorem heard_veh? (s : State) (tag : Nat) : (heard s).veh? tag = s.veh? tag := rfl

/-! ### Readings of the state when a request is taken -/

@[simp] theorem heard_rampOf (s : State) (x : Lane) : (heard s).rampOf x = s.rampOf x := rfl
@[simp] theorem heard_rampOfNo (s : State) (l : Nat) : (heard s).rampOfNo l = s.rampOfNo l := rfl
@[simp] theorem heard_deckOf (s : State) (x : Lane) : (heard s).deckOf x = s.deckOf x := rfl
@[simp] theorem heard_deckNo (s : State) (x : Lane) : (heard s).deckNo x = s.deckNo x := rfl
@[simp] theorem heard_barringPanel (s : State) (x : Lane) : (heard s).barringPanel x = s.barringPanel x := rfl
@[simp] theorem heard_tailCall? (s : State) (x : Lane) : (heard s).tailCall? x = s.tailCall? x := rfl
@[simp] theorem heard_lastCall? (s : State) (x : Lane) : (heard s).lastCall? x = s.lastCall? x := rfl
@[simp] theorem heard_firstClaimCall? (s : State) (x : Lane) : (heard s).firstClaimCall? x = s.firstClaimCall? x := rfl
@[simp] theorem heard_hasReleased (s : State) (x : Lane) : (heard s).hasReleased x = s.hasReleased x := rfl
@[simp] theorem heard_firstUnloading (s : State) : (heard s).firstUnloading = s.firstUnloading := rfl
@[simp] theorem heard_assignedCount (s : State) : (heard s).assignedCount = s.assignedCount := rfl
@[simp] theorem heard_releasedCount (s : State) : (heard s).releasedCount = s.releasedCount := rfl
@[simp] theorem heard_dueCount (s : State) (c : Nat) : (heard s).dueCount c = s.dueCount c := rfl
@[simp] theorem heard_linePos (s : State) (p : Nat) : (heard s).linePos p = s.linePos p := rfl
@[simp] theorem heard_firstLoadedOn (s : State) (p : Nat) : (heard s).firstLoadedOn p = s.firstLoadedOn p := rfl
@[simp] theorem heard_firstTallUnder (s : State) (p : Nat) : (heard s).firstTallUnder p = s.firstTallUnder p := rfl
@[simp] theorem heard_firstTraffic (s : State) (p : Nat) : (heard s).firstTraffic p = s.firstTraffic p := rfl
@[simp] theorem heard_carrier? (s : State) (i : Nat) : (heard s).carrier? i = s.carrier? i := rfl
@[simp] theorem heard_closed (s : State) (i : Nat) : (heard s).closed i = s.closed i := rfl
@[simp] theorem heard_closedSet (s : State) : (heard s).closedSet = s.closedSet := rfl
@[simp] theorem heard_lanesOn (s : State) (p : Nat) : (heard s).lanesOn p = s.lanesOn p := rfl
@[simp] theorem heard_bandOf (s : State) (r : Ramp) : (heard s).bandOf r = s.bandOf r := rfl
@[simp] theorem heard_rampRec (s : State) (r : Ramp) : (heard s).rampRec r = s.rampRec r := rfl
@[simp] theorem heard_borrowed (s : State) (x : Lane) : (heard s).borrowed x = s.borrowed x := rfl
@[simp] theorem heard_suspicionAt (s : State) (x : Lane) : (heard s).suspicionAt x = s.suspicionAt x := rfl
@[simp] theorem heard_notAtRest (s : State) : (heard s).notAtRest = s.notAtRest := rfl
@[simp] theorem heard_latchSet (s : State) : (heard s).latchSet = s.latchSet := rfl
@[simp] theorem heard_sectsOf (s : State) (d : Nat) : (heard s).sectsOf d = s.sectsOf d := rfl
@[simp] theorem heard_judgedLoops (s : State) (d : Nat) : (heard s).judgedLoops d = s.judgedLoops d := rfl
@[simp] theorem heard_thresholdOf (s : State) (c : Sect) : (heard s).thresholdOf c = s.thresholdOf c := rfl
@[simp] theorem heard_records (s : State) (tags : List Nat) : (heard s).records tags = s.records tags := rfl
@[simp] theorem heard_massOf (s : State) (tags : List Nat) : (heard s).massOf tags = s.massOf tags := rfl
@[simp] theorem heard_nextOffset (s : State) (l : Nat) : (heard s).nextOffset l = s.nextOffset l := rfl
@[simp] theorem heard_positionOf (s : State) (v : Vehicle) : (heard s).positionOf v = s.positionOf v := rfl
@[simp] theorem heard_statusFields (s : State) : (heard s).statusFields = s.statusFields := rfl
@[simp] theorem heard_clearance (s : State) (x : Lane) : (heard s).clearance x = s.clearance x := rfl
@[simp] theorem heard_listFigures (s : State) : (heard s).listFigures = s.listFigures := rfl
@[simp] theorem heard_laneTotals (s : State) (x : Lane) : (heard s).laneTotals x = s.laneTotals x := rfl
@[simp] theorem heard_dueRun (s : State) (x : Lane) (c : Nat) :
    (heard s).dueRun x c = s.dueRun x c := rfl
@[simp] theorem heard_gateOpen (s : State) (v : Vehicle) (x : Lane) :
    (heard s).gateOpen v x = s.gateOpen v x := rfl
@[simp] theorem heard_barsTurn (s : State) (r : Ramp) (d : Direction) :
    (heard s).barsTurn r d = s.barsTurn r d := rfl
@[simp] theorem heard_lengthOf (s : State) (g : Nat) (ts : List Nat) :
    (heard s).lengthOf g ts = s.lengthOf g ts := rfl
@[simp] theorem heard_scopeLanes (s : State) (a : Nat) (b : Nat) :
    (heard s).scopeLanes a b = s.scopeLanes a b := rfl
@[simp] theorem heard_mayPullBack (s : State) (v : Vehicle) (x : Lane) :
    (heard s).mayPullBack v x = s.mayPullBack v x := rfl
@[simp] theorem heard_sectionHead (s : State) (i : Nat) (c : Sect) :
    (heard s).sectionHead i c = s.sectionHead i c := rfl
@[simp] theorem heard_laneEntries (s : State) (x : Lane) (n : Nat) :
    (heard s).laneEntries x n = s.laneEntries x n := rfl
@[simp] theorem heard_reports (s : State) (t : RecType) (i : Nat) :
    (heard s).reports t i = s.reports t i := rfl
@[simp] theorem heard_candidates (s : State) (v : Vehicle) : candidates (heard s) v = candidates s v := rfl
@[simp] theorem heard_allocate (s : State) (v : Vehicle) : allocate (heard s) v = allocate s v := rfl
@[simp] theorem heard_positionCheck (s : State) (p : Nat) : positionCheck (heard s) p = positionCheck s p := rfl
@[simp] theorem heard_canRelease (s : State) (r : Ramp) (tag : Nat) :
    canRelease r tag (heard s) = canRelease r tag s := by cases r <;> rfl
@[simp] theorem heard_unstowableAt (s : State) (v : Vehicle) : unstowableAt (heard s) v = unstowableAt s v := rfl

/-! ### The frame of a request and of an event -/

/-- A request taken at once is one event with its reply (R186). -/
theorem requestArrives_taking (f : Frame) (h : Handler) (s : State) (t : Taking s) :
    requestArrives f h s = taken f (h (heard s)).2 (fun _ => (h (heard s)).1) s := by
  obtain ⟨hp, hb, hc⟩ := t
  unfold requestArrives
  rw [hp]
  have e : ((hearFrame s).link.rxBuf.isEmpty && (hearFrame s).link.canTake) = true := by
    show (s.link.rxBuf.isEmpty && s.link.canTake) = true
    rw [hb, hc]; rfl
  simp only [e, if_true]
  rfl

/-- What `taken` depends on: the state that the request leaves. -/
theorem taken_congr (f : Frame) (r : Reply) {g h : State → State} {s : State} (e : g (heard s) = h (heard s)) :
    taken f r g s = taken f r h s := by
  unfold taken
  rw [e]

/-- A request's meaning from what its handler answers. -/
theorem requestArrives_eq (f : Frame) (h : Handler) (r : Reply) (g : State → State) (s : State) (t : Taking s)
    (e : h (heard s) = (g (heard s), r)) : requestArrives f h s = taken f r g s := by
  rw [requestArrives_taking f h s t, e]
  rfl

/-- A module that does not run takes no request. -/
theorem requestArrives_down (f : Frame) (h : Handler) (s : State) (t : s.power ≠ .up) :
    requestArrives f h s = s := by
  unfold requestArrives
  split <;> simp_all

/-- An event of the running module. -/
theorem runEvent_up (g : State → State) (s : State) (t : s.power = .up) : runEvent g s = happened g s := by
  unfold runEvent
  split <;> first | rfl | simp_all

/-- A module that does not run takes no event. -/
theorem runEvent_down (g : State → State) (s : State) (t : s.power ≠ .up) : runEvent g s = s := by
  unfold runEvent
  split <;> simp_all

/-! ### Ramp codes (R68) -/

/-- A request on one ramp: its part, with one result. -/
theorem onRamps_one (r : Ramp) (part : Ramp → State → State × Result) (s : State) :
    onRamps (rampCode r) part s = ((part r s).1, ⟨(part r s).2, [BitVec.ofNat 8 (part r s).2.code]⟩) := by
  have h : ∀ x : Result, leadResult [x] = x := by intro x; cases x <;> rfl
  cases r <;> simp [onRamps, rampCode, rampsNamed, rampParts, h, u8]

/-- A request on BOTH: LOWER's part, then UPPER's on what it left. -/
theorem onRamps_both (part : Ramp → State → State × Result) (s : State) :
    onRamps 2 part s = ((part .upper (part .lower s).1).1,
      ⟨if (part .lower s).2 = .ok then (part .upper (part .lower s).1).2 else (part .lower s).2,
        [BitVec.ofNat 8 (part .lower s).2.code, BitVec.ofNat 8 (part .upper (part .lower s).1).2.code]⟩) := by
  have h : ∀ x y : Result, leadResult [x, y] = if x = .ok then y else x := by
    intro x y; cases x <;> cases y <;> rfl
  simp [onRamps, rampsNamed, rampParts, h, u8]

/-- A ramp code beyond BOTH. -/
theorem onRamps_range (code : Nat) (part : Ramp → State → State × Result) (s : State) (h : 2 < code) :
    onRamps code part s = (s, plain .range) := by
  unfold onRamps rampsNamed
  split <;> simp_all
  split at * <;> simp_all

/-! ### The transmitter -/

/-- The start of a frame changes the link port only. -/
theorem kick_eq (s : State) : kick s = { s with link := (kick s).link } := by
  unfold kick
  split <;> rfl

/-- A reply made ready changes the link port only. -/
theorem readyReply_eq (f : Frame) (r : Reply) (s : State) :
    readyReply f r s = { s with link := (readyReply f r s).link } := rfl

/-- A line that is sending starts nothing. -/
theorem kick_busy (s : State) (h : s.link.inProgress ≠ none) : kick s = s := by
  unfold kick
  cases e : s.link.inProgress with
  | none => exact absurd e h
  | some _ => simp

/-- What a taken request leaves outside the link port. -/
theorem taken_eq (f : Frame) (r : Reply) (g : State → State) (s : State) :
    taken f r g s = { refresh (sweepIfDue (g (heard s))) with link := (taken f r g s).link } := by
  unfold taken
  rw [kick_eq]
  rfl

/-- What an event leaves outside the link port. -/
theorem happened_eq (g : State → State) (s : State) :
    happened g s =
      { refresh (sweepIfDue (g { s with ev := EventMarks.none })) with link := (happened g s).link } := by
  unfold happened endEvent
  rw [kick_eq]

/-- The notice queue only loses its head to the line. -/
theorem kick_notices (s : State) : (kick s).link.notices <:+ s.link.notices := by
  unfold kick
  split
  · unfold State.updLink Link.startNext
    dsimp only
    split <;> try split
    all_goals first | exact List.suffix_refl _ | skip
    · rename_i e
      rw [e]
      exact List.suffix_cons _ _
  · exact List.suffix_refl _

end Sys2Proof.Machine
end

