-- ==== Sys2Proof/Laws/PerInstr.lean ====
section
/-! SUPPORT. The family `Encoding`: every command on its own. A well-formed request command stands for a frame whose
body fits the 240 bytes of 11.6; no other command stands for a frame. -/

namespace Sys2Proof

/-- Bytes of a big-endian number. -/
@[simp] theorem Machine.be_length (n v : Nat) : (Machine.be n v).length = n := by
  induction n generalizing v with
  | zero => rfl
  | succ n ih => simp [Machine.be, ih]

namespace Laws.Encoding

/-- The body of a well-formed request command fits a frame. -/
def Statement (i : Instr) : Prop :=
  i.wellFormed = true → ∀ f, i.request? = some f → f.body.length ≤ 240

theorem status (lt : Byte) (clear : Byte) : Statement (.status lt clear) := by
  intro _ f h
  cases h
  simp

theorem reset (lt : Byte) : Statement (.reset lt) := by
  intro _ f h
  cases h
  simp

theorem linkSilence (lt : Byte) (limit : Byte) : Statement (.linkSilence lt limit) := by
  intro _ f h
  cases h
  simp

theorem arrive (lt : Byte) (tag : BitVec 32) (cls : Byte) (len : Byte) (height : Byte)
    (mass : BitVec 16) (axle : Byte) (call : Byte) (flags : Byte) (rest : List Byte) :
    Statement (.arrive lt tag cls len height mass axle call flags rest) := by
  intro w f h
  cases h
  simp_all [Instr.wellFormed, bodyFits]
  try omega

theorem recallVehicle (lt : Byte) (tag : BitVec 32) : Statement (.recallVehicle lt tag) := by
  intro _ f h
  cases h
  simp

theorem vehicleGet (lt : Byte) (tag : BitVec 32) : Statement (.vehicleGet lt tag) := by
  intro _ f h
  cases h
  simp

theorem confirm (lt : Byte) (tag : BitVec 32) (lane : Byte) : Statement (.confirm lt tag lane) := by
  intro _ f h
  cases h
  simp

theorem depart (lt : Byte) (tag : BitVec 32) : Statement (.depart lt tag) := by
  intro _ f h
  cases h
  simp

theorem laneGet (lt : Byte) (lane : Byte) (start : Byte) : Statement (.laneGet lt lane start) := by
  intro _ f h
  cases h
  simp

theorem sectionGet (lt : Byte) (sect : Byte) : Statement (.sectionGet lt sect) := by
  intro _ f h
  cases h
  simp

theorem thresholdSet (lt : Byte) (target : Byte) (t : Byte) : Statement (.thresholdSet lt target t) := by
  intro _ f h
  cases h
  simp

theorem laneShut (lt : Byte) (lane : Byte) : Statement (.laneShut lt lane) := by
  intro _ f h
  cases h
  simp

theorem laneOpen (lt : Byte) (lane : Byte) : Statement (.laneOpen lt lane) := by
  intro _ f h
  cases h
  simp

theorem rampStart (lt : Byte) (ramp : Byte) : Statement (.rampStart lt ramp) := by
  intro _ f h
  cases h
  simp

theorem rampStop (lt : Byte) (ramp : Byte) : Statement (.rampStop lt ramp) := by
  intro _ f h
  cases h
  simp

theorem rampDirection (lt : Byte) (ramp : Byte) (dir : Byte) : Statement (.rampDirection lt ramp dir) := by
  intro _ f h
  cases h
  simp

theorem runPair (lt : Byte) (ramp : Byte) (light : Byte) (heavy : Byte) (stall : Option Byte) :
    Statement (.runPair lt ramp light heavy stall) := by
  intro _ f h
  cases h
  cases stall <;> simp

theorem triggerMode (lt : Byte) (ramp : Byte) (mode : Byte) (source : Byte) :
    Statement (.triggerMode lt ramp mode source) := by
  intro _ f h
  cases h
  simp

theorem trigger (lt : Byte) (ramp : Byte) : Statement (.trigger lt ramp) := by
  intro _ f h
  cases h
  simp

theorem rampBand (lt : Byte) (ramp : Byte) (band : Byte) : Statement (.rampBand lt ramp band) := by
  intro _ f h
  cases h
  simp

theorem sensorWatch (lt : Byte) (scope : Byte) (ident : Byte) (watch : Byte) (notice : Byte) :
    Statement (.sensorWatch lt scope ident watch notice) := by
  intro _ f h
  cases h
  simp

theorem sensorLevel (lt : Byte) (deck : Byte) (level : Byte) : Statement (.sensorLevel lt deck level) := by
  intro _ f h
  cases h
  simp

theorem sensorLatches (lt : Byte) (decks : Byte) : Statement (.sensorLatches lt decks) := by
  intro _ f h
  cases h
  simp

theorem sensorClear (lt : Byte) (lane : Byte) : Statement (.sensorClear lt lane) := by
  intro _ f h
  cases h
  simp

theorem hoistMove (lt : Byte) (panel : Byte) (target : Byte) : Statement (.hoistMove lt panel target) := by
  intro _ f h
  cases h
  simp

theorem hoistStop (lt : Byte) (panel : Byte) : Statement (.hoistStop lt panel) := by
  intro _ f h
  cases h
  simp

theorem voyageSet (lt : Byte) (last : Byte) : Statement (.voyageSet lt last) := by
  intro _ f h
  cases h
  simp

theorem callOpen (lt : Byte) : Statement (.callOpen lt) := by
  intro _ f h
  cases h
  simp

theorem phaseLoad (lt : Byte) : Statement (.phaseLoad lt) := by
  intro _ f h
  cases h
  simp

theorem callClose (lt : Byte) (overcarry : Byte) : Statement (.callClose lt overcarry) := by
  intro _ f h
  cases h
  simp

theorem dischargeLane (lt : Byte) (lane : Byte) : Statement (.dischargeLane lt lane) := by
  intro _ f h
  cases h
  simp

theorem signalSet (lt : Byte) (scope : Byte) (ident : Byte) (mode : Byte) :
    Statement (.signalSet lt scope ident mode) := by
  intro _ f h
  cases h
  simp

theorem closureSet (lt : Byte) (carried : Byte) (maskA : BitVec 24)
    (maskB : BitVec 24) (select : Byte) (enable : Byte) (glob : Byte) :
    Statement (.closureSet lt carried maskA maskB select enable glob) := by
  intro _ f h
  cases h
  simp

theorem draftPut (lt : Byte) (type : Byte) (index : Byte) (fields : List Byte) :
    Statement (.draftPut lt type index fields) := by
  intro w f h
  cases h
  simp_all [Instr.wellFormed]
  try omega

theorem draftClear (lt : Byte) : Statement (.draftClear lt) := by
  intro _ f h
  cases h
  simp

theorem draftGet (lt : Byte) (type : Byte) (index : Byte) : Statement (.draftGet lt type index) := by
  intro _ f h
  cases h
  simp

theorem profileCommit (lt : Byte) (count : Byte) (sum : BitVec 16) : Statement (.profileCommit lt count sum) := by
  intro _ f h
  cases h
  simp

theorem profileLock (lt : Byte) : Statement (.profileLock lt) := by
  intro _ f h
  cases h
  simp

theorem profileGet (lt : Byte) (type : Byte) (index : Byte) : Statement (.profileGet lt type index) := by
  intro _ f h
  cases h
  simp

theorem unknownKind (lt : Byte) (kind : Byte) (body : List Byte) : Statement (.unknownKind lt kind body) := by
  intro w f h
  cases h
  simp_all [Instr.wellFormed, bodyFits]
  try omega

theorem frameReceive (bytes : List Byte) : Statement (.frameReceive bytes) := by
  intro _ f h
  cases h

theorem interByteGap : Statement (.interByteGap) := by
  intro _ f h
  cases h

theorem transmitFrameEnd : Statement (.transmitFrameEnd) := by
  intro _ f h
  cases h

theorem powerOnReset : Statement (.powerOnReset) := by
  intro _ f h
  cases h

theorem lineResetAssert : Statement (.lineResetAssert) := by
  intro _ f h
  cases h

theorem lineResetRelease : Statement (.lineResetRelease) := by
  intro _ f h
  cases h

theorem requestReset : Statement (.requestReset) := by
  intro _ f h
  cases h

theorem stowMarkBroken : Statement (.stowMarkBroken) := by
  intro _ f h
  cases h

theorem stallTimerExpiry (ramp : Ramp) : Statement (.stallTimerExpiry ramp) := by
  intro _ f h
  cases h

theorem triggerLinePress (line : TriggerLine) : Statement (.triggerLinePress line) := by
  intro _ f h
  cases h

theorem linkSilenceExpiry : Statement (.linkSilenceExpiry) := by
  intro _ f h
  cases h

theorem crestLoopEdge (ramp : Ramp) (high : Bool) : Statement (.crestLoopEdge ramp high) := by
  intro _ f h
  cases h

theorem laneLoopEdge (lane : Nat) (high : Bool) : Statement (.laneLoopEdge lane high) := by
  intro _ f h
  cases h

theorem entryCreditWindowExpiry (lane : Nat) : Statement (.entryCreditWindowExpiry lane) := by
  intro _ f h
  cases h

theorem crestCreditWindowExpiry (ramp : Ramp) : Statement (.crestCreditWindowExpiry ramp) := by
  intro _ f h
  cases h

theorem exitCreditWindowExpiry (lane : Nat) : Statement (.exitCreditWindowExpiry lane) := by
  intro _ f h
  cases h

theorem transitExpiry (tag : Nat) : Statement (.transitExpiry tag) := by
  intro _ f h
  cases h

theorem limitLineEvent (panel : Nat) (line : LimitLine) (active : Bool) :
    Statement (.limitLineEvent panel line active) := by
  intro _ f h
  cases h

theorem moveTimeout (panel : Nat) : Statement (.moveTimeout panel) := by
  intro _ f h
  cases h

theorem profileWriteComplete : Statement (.profileWriteComplete) := by
  intro _ f h
  cases h

theorem profileWriteFailure (type : Byte) (index : Byte) : Statement (.profileWriteFailure type index) := by
  intro _ f h
  cases h

theorem badStopBitByte : Statement (.badStopBitByte) := by
  intro _ f h
  cases h

theorem mainSupplyLoss : Statement (.mainSupplyLoss) := by
  intro _ f h
  cases h

theorem triggerLineRelease (line : TriggerLine) : Statement (.triggerLineRelease line) := by
  intro _ f h
  cases h

end Laws.Encoding

end Sys2Proof
end

