-- ==== Sys2Proof/Laws/Runs.lean ====
section
/-! SUPPORT. What the acts of a sequencer leave of the ramp's queues and counts, and that they leave the other ramp. -/

namespace Sys2Proof.Machine

variable {r : Ramp} {s : State}

/-- A head that may be released has a record, which names a lane of the deck model (R85). -/
theorem canRelease_some {tag : Nat} (h : canRelease r tag s = true) :
    ∃ v l x, s.veh? tag = some v ∧ v.stage.lane? = some l ∧ s.lane? l = some x := by
  unfold canRelease at h
  split at h
  · rename_i v b hv hb
    split at h
    · rename_i x hx
      cases hl : v.stage.lane? with
      | none => rw [hl] at hx; cases hx
      | some l => rw [hl] at hx; exact ⟨v, l, x, hv, hl, hx⟩
    · cases h
  · cases h

/-- A release takes the head off its queue and counts it; the other queue, the pair and the state stay (R87). -/
theorem releaseHead_ramp {k : Kind} {tag : Nat} {rest : List Nat} (hq : (s.ramp r).queue k = tag :: rest)
    (h : canRelease r tag s = true) :
    ((releaseHead r k tag s).ramp r).queue k = rest ∧
    (∀ j, j ≠ k → ((releaseHead r k tag s).ramp r).queue j = (s.ramp r).queue j) ∧
    ((releaseHead r k tag s).ramp r).runCount = (s.ramp r).runCount + 1 ∧
    ((releaseHead r k tag s).ramp r).active = (s.ramp r).active ∧
    ((releaseHead r k tag s).ramp r).seq = (s.ramp r).seq := by
  obtain ⟨v, l, x, hv, hl, _⟩ := canRelease_some h
  unfold releaseHead
  simp only [hv, hl]
  cases r <;> cases k <;> simp only [RampState.queue, State.ramp] at hq <;>
  · refine ⟨?_, ?_, ?_, ?_, ?_⟩ <;> (try intro j hj; cases j) <;> (split <;> first
      | exact absurd rfl hj
      | simp [State.sweepTrigger, State.notify, State.updLink, State.updRamp, State.updVeh, State.ramp,
          RampState.queue, RampState.setQueue, hq])

/-- A cycle start's first steps leave the queues (R75). -/
theorem adoptPair_queue (k : Kind) : ((adoptPair r s).ramp r).queue k = (s.ramp r).queue k := by
  cases r <;> cases k <;> simp only [adoptPair] <;> split <;> rfl

/-- An act of a sequencer leaves the other ramp as it is. -/
theorem seqNext_other {q : Ramp} (h : q ≠ r) (a : SeqAct) (s : State) : (seqNext r a s).1.ramp q = s.ramp q := by
  unfold seqNext adoptPair releaseHead
  cases r <;> cases q <;> first | exact absurd rfl h | skip
  all_goals
    cases a <;> dsimp only <;> (repeat' split) <;>
      simp [State.ramp, State.notify, State.updLink, State.updRamp, State.sweepTrigger, State.updVeh]

/-- So do all acts of an event. -/
theorem seqGo_other {q : Ramp} (h : q ≠ r) : ∀ (n : Nat) (a : SeqAct) (s : State), (seqGo n r a s).ramp q = s.ramp q
  | 0, _, _ => rfl
  | n + 1, a, s => by
    have e := seqNext_other h a s
    simp only [seqGo]
    split <;> rename_i e' <;> rw [e'] at e
    · rw [seqGo_other h n, e]
    · exact e

/-- A trigger acts on its ramp alone (R81). -/
theorem triggerRamp_other {q : Ramp} (h : q ≠ r) (s : State) : (triggerRamp r s).ramp q = s.ramp q := by
  unfold triggerRamp
  split
  · exact seqGo_other h _ _ _
  all_goals rfl

/-- A press does to a ramp what its trigger does, when the source names the line (R81). -/
theorem pressRamp_eq (line : TriggerLine) (r : Ramp) (s : State) :
    pressRamp line r s = if (s.ramp r).source.names line = true ∧ (s.ramp r).seq = .waitTrigger
      then seqAct r (.begin .heavy) s else s := by
  unfold pressRamp triggerRamp
  cases (s.ramp r).source.names line <;> cases (s.ramp r).seq <;> simp

end Sys2Proof.Machine
end

