-- ==== Sys2Proof/Laws/Served.lean ====
section
/-! SUPPORT. The link port, the clock and the events keep the laws of the books. -/

namespace Sys2Proof.Machine

variable {s t : State}

/-! ### The request that a frame carries -/

theorem keeps_badLength : Keeps badLength := fun _ h => h

theorem keeps_body0 {f : Handler} (hf : Keeps f) : ∀ b, Keeps (body0 f b)
  | [] => hf
  | _ :: _ => keeps_badLength

theorem keeps_body1 {f : Nat → Handler} (hf : ∀ a, Keeps (f a)) (b : List Byte) : Keeps (body1 f b) := by
  unfold body1
  split
  · exact hf _
  · exact keeps_badLength

theorem keeps_body2 {f : Nat → Nat → Handler} (hf : ∀ a b, Keeps (f a b)) (b : List Byte) : Keeps (body2 f b) := by
  unfold body2
  split
  · exact hf _ _
  · exact keeps_badLength

theorem keeps_body3 {f : Nat → Nat → Nat → Handler} (hf : ∀ a b c, Keeps (f a b c)) (b : List Byte) :
    Keeps (body3 f b) := by
  unfold body3
  split
  · exact hf _ _ _
  · exact keeps_badLength

theorem keeps_body4 {f : Nat → Nat → Nat → Nat → Handler} (hf : ∀ a b c d, Keeps (f a b c d)) (b : List Byte) :
    Keeps (body4 f b) := by
  unfold body4
  split
  · exact hf _ _ _ _
  · exact keeps_badLength

theorem keeps_bodyTag {f : Nat → Handler} (hf : ∀ a, Keeps (f a)) (b : List Byte) : Keeps (bodyTag f b) := by
  unfold bodyTag
  split
  · exact hf _
  · exact keeps_badLength

theorem keeps_serveArrive (b : List Byte) : Keeps (serveArrive b) := by
  unfold serveArrive
  split
  · exact keeps_arrive _
  · exact keeps_arriveShort

theorem keeps_serveConfirm (b : List Byte) : Keeps (serveConfirm b) := by
  unfold serveConfirm
  split
  · exact keeps_confirm _ _
  · exact keeps_badLength

theorem keeps_serveRunPair (b : List Byte) : Keeps (serveRunPair b) := by
  unfold serveRunPair
  split
  · exact keeps_onRamps _ (partKeeps_runPair _ _ _)
  · exact keeps_onRamps _ (partKeeps_runPair _ _ _)
  · exact keeps_badLength

theorem keeps_serveClosureSet (b : List Byte) : Keeps (serveClosureSet b) := by
  unfold serveClosureSet
  split
  · exact keeps_closureSet _ _ _ _ _ _
  · exact keeps_badLength

theorem keeps_serveDraftPut (b : List Byte) : Keeps (serveDraftPut b) := by
  unfold serveDraftPut
  split
  · split
    · exact keeps_draftPut _ _ _
    · exact keeps_badLength
  · exact keeps_badLength

theorem keeps_serveCommit (b : List Byte) : Keeps (serveCommit b) := by
  unfold serveCommit
  split
  · exact keeps_profileCommit _ _
  · exact keeps_badLength

/-- Rows whose requests keep the laws. -/
def RowsKeep (rows : List KindRow) : Prop := ∀ p ∈ rows, ∀ b, Keeps (p.2 b)

theorem RowsKeep.nil : RowsKeep [] := fun _ h => nomatch h

theorem RowsKeep.cons {p : KindRow} {ps : List KindRow} (h : ∀ b, Keeps (p.2 b)) (k : RowsKeep ps) : RowsKeep (p :: ps) := by
  intro q hq
  rcases List.mem_cons.1 hq with rfl | hq
  · exact h
  · exact k q hq

theorem RowsKeep.append {ps qs : List KindRow} (h : RowsKeep ps) (k : RowsKeep qs) : RowsKeep (ps ++ qs) := by
  intro q hq
  rcases List.mem_append.1 hq with hq | hq
  · exact h q hq
  · exact k q hq

theorem rowsKeep_linkAndVehicle : RowsKeep linkAndVehicleKinds :=
  .cons (keeps_body1 keeps_status) <| .cons (keeps_body0 keeps_reset) <| .cons (keeps_body1 keeps_linkSilence) <|
  .cons keeps_serveArrive <| .cons (keeps_bodyTag keeps_recall) <| .cons (keeps_bodyTag keeps_vehicleGet) <|
  .cons keeps_serveConfirm <| .cons (keeps_bodyTag keeps_depart) <| .cons (keeps_body2 keeps_laneGet) <|
  .cons (keeps_body1 keeps_sectionGet) <| .cons (keeps_body2 keeps_thresholdSet) <|
  .cons (keeps_body1 keeps_laneShut) <| .cons (keeps_body1 keeps_laneOpen) .nil

theorem rowsKeep_ramp : RowsKeep rampKinds :=
  .cons (keeps_body1 fun r => keeps_onRamps r partKeeps_start) <|
  .cons (keeps_body1 fun r => keeps_onRamps r partKeeps_stop) <| .cons (keeps_body2 keeps_rampDirection) <|
  .cons keeps_serveRunPair <| .cons (keeps_body3 fun r m k => keeps_onRamps r (partKeeps_triggerMode m k)) <|
  .cons (keeps_body1 fun r => keeps_onRamps r partKeeps_trigger) <|
  .cons (keeps_body2 fun r n => keeps_onRamps r (partKeeps_band n)) .nil

theorem rowsKeep_sensorAndHoist : RowsKeep sensorAndHoistKinds :=
  .cons (keeps_body4 keeps_sensorWatch) <| .cons (keeps_body2 keeps_sensorLevel) <|
  .cons (keeps_body1 keeps_sensorLatches) <| .cons (keeps_body1 keeps_sensorClear) <|
  .cons (keeps_body2 keeps_hoistMove) <| .cons (keeps_body1 keeps_hoistStop) .nil

theorem rowsKeep_voyageAndProfile : RowsKeep voyageAndProfileKinds :=
  .cons (keeps_body1 keeps_voyageSet) <| .cons (keeps_body0 keeps_callOpen) <| .cons (keeps_body0 keeps_phaseLoad) <|
  .cons (keeps_body1 keeps_callClose) <| .cons (keeps_body1 keeps_dischargeLane) <|
  .cons (keeps_body3 keeps_signalSet) <| .cons keeps_serveClosureSet <| .cons keeps_serveDraftPut <|
  .cons (keeps_body0 keeps_draftClear) <| .cons (keeps_body2 keeps_draftGet) <| .cons keeps_serveCommit <|
  .cons (keeps_body0 keeps_profileLock) <| .cons (keeps_body2 keeps_profileGet) .nil

theorem keeps_serve (f : Frame) : Keeps (serve f) := by
  unfold serve serveBody
  split
  · rename_i g hg
    exact (((rowsKeep_linkAndVehicle.append rowsKeep_ramp).append rowsKeep_sensorAndHoist).append
      rowsKeep_voyageAndProfile) _ (mem_of_lookup hg) _
  · exact fun _ h => h

/-! ### The link port -/

theorem BookLaw.kick (h : BookLaw s) : BookLaw (kick s) := h.of_books kick_books
theorem BookLaw.refresh (h : BookLaw s) : BookLaw (refresh s) := h.of_books refresh_books

theorem BookLaw.answer (h : BookLaw s) {g : Handler} (hg : Keeps g) (f : Frame) : BookLaw (answer f g s) := by
  unfold Machine.answer
  exact ((hg _ (h.of_books (t := { s with ev := EventMarks.none }) rfl)).sweepIfDue.refresh).of_books (readyReply_books _ _)

theorem BookLaw.takeHead (h : BookLaw s) : BookLaw (takeHead s) := by
  unfold Machine.takeHead
  split
  · exact h
  · rename_i f fs _
    split
    · exact ((h.of_books (updLink_books fun k => { k with rxBuf := fs })).answer (keeps_serve f) f).kick
    · exact h

theorem BookLaw.requestArrives (h : BookLaw s) {g : Handler} (hg : Keeps g) (f : Frame) : BookLaw (requestArrives f g s) := by
  have h1 : BookLaw (hearFrame s) := h.of_books rfl
  unfold Machine.requestArrives
  split
  · dsimp only
    split
    · exact (h1.answer hg f).kick
    · exact BookLaw.takeHead (h1.of_books (bufferFrame_books f))
  all_goals exact h

theorem BookLaw.setRx (h : BookLaw s) (r : Rx) : BookLaw (setRx r s) := h.of_books rfl

theorem BookLaw.frameComplete (h : BookLaw s) (len : Nat) (got : List Byte) : BookLaw (frameComplete len got s) := by
  unfold Machine.frameComplete
  dsimp only
  split
  · split
    · exact h.requestArrives (keeps_serve _) _
    · exact h
  · exact BookLaw.kick (h.of_books rfl)

theorem BookLaw.rxByte (h : BookLaw s) (b : Byte) : BookLaw (rxByte s b) := by
  unfold Machine.rxByte
  split
  · split
    · exact h.setRx _
    · exact h
  · split
    · exact h.setRx _
    · exact BookLaw.kick (BookLaw.of_books (h.setRx .hunt) (reject_books _))
  · dsimp only
    split
    · exact (h.setRx _).frameComplete _ _
    · exact h.setRx _

theorem BookLaw.rxBytes (h : BookLaw s) (bs : List Byte) : BookLaw (rxBytes bs s) := by
  unfold Machine.rxBytes
  split
  · exact BookLaw.foldl (fun _ b k => k.rxByte b) bs h
  all_goals exact h

theorem BookLaw.dropPartial (h : BookLaw s) : BookLaw (dropPartial s) := by
  unfold Machine.dropPartial
  split
  · exact h.setRx _
  all_goals exact h

theorem BookLaw.resetNow (h : BookLaw s) (k : ResetCause) : BookLaw (resetNow k s) :=
  (BookLaw.reset (h.of_books (t := { s with power := .up }) rfl) k).refresh

theorem BookLaw.frameEnds (h : BookLaw s) : BookLaw (frameEnds s) := by
  unfold Machine.frameEnds
  split
  · split
    · exact h.resetNow _
    · exact BookLaw.takeHead (BookLaw.kick (h.of_books rfl))
  all_goals exact h

/-! ### Events and the clock -/

theorem BookLaw.endEvent (h : BookLaw s) : BookLaw (endEvent s) := h.sweepIfDue.refresh.kick

theorem BookLaw.runEvent {f : State → State} (hf : BookLaw { s with ev := EventMarks.none } →
    BookLaw (f { s with ev := EventMarks.none })) (h : BookLaw s) : BookLaw (runEvent f s) := by
  unfold Machine.runEvent
  split
  · exact (hf (h.of_books rfl)).endEvent
  all_goals exact h

theorem BookLaw.fire {due : State → Bool} {f : State → State} (hf : ∀ u, BookLaw u → BookLaw (f u)) (h : BookLaw s) :
    BookLaw (fire due f s) := by
  unfold Machine.fire
  split
  · exact BookLaw.runEvent (hf _) h
  · exact h

theorem BookLaw.fires {α : Type} (due : α → State → Bool) (f : α → State → State)
    (hf : ∀ a u, BookLaw u → BookLaw (f a u)) (xs : List α) (h : BookLaw s) :
    BookLaw (xs.foldl (fun s a => Machine.fire (due a) (f a) s) s) :=
  BookLaw.foldl (fun _ a k => BookLaw.fire (hf a) k) xs h

theorem BookLaw.silenceExpires (h : BookLaw s) : BookLaw (silenceExpires s) :=
  BookLaw.silenceStops (h.of_books rfl)

theorem BookLaw.fireAll (h : BookLaw s) : BookLaw (fireAll s) := by
  have h1 := BookLaw.fire (due := fun s => s.link.silence.due) (fun _ k => k.silenceExpires) h
  have h2 := BookLaw.fires (fun r s => (s.ramp r).stall.due) Machine.stallExpires (fun r _ k => k.stallExpires r)
    [Ramp.lower, Ramp.upper] h1
  have h3 := BookLaw.fires (fun r s => (s.ramp r).crestWindow.due) crestWindowExpires
    (fun r _ k => k.of_books (crestWindowExpires_books r)) [Ramp.lower, Ramp.upper] h2
  have h4 := fun ls => BookLaw.fires (fun l s => s.laneDue Lane.entryWindow l) entryWindowExpires
    (fun l _ k => k.of_books (entryWindowExpires_books l)) ls h3
  have h5 := fun ls ms => BookLaw.fires (fun l s => s.laneDue Lane.exitWindow l) exitWindowExpires
    (fun l _ k => k.of_books (exitWindowExpires_books l)) ms (h4 ls)
  have h6 := fun ls ms ts => BookLaw.fires (fun t s => (s.veh? t).any fun v => v.transit.due) Machine.transitExpires
    (fun t _ k => k.transitExpires t) ts (h5 ls ms)
  exact BookLaw.fires (fun p s => (s.panel? p).any fun x => x.timer.due) Machine.moveExpires (fun p _ k => k.moveExpires p)
    _ (h6 _ _ _)

theorem BookLaw.tick (h : BookLaw s) : BookLaw (tick s) := by
  unfold Machine.tick
  split
  · exact BookLaw.fireAll (h.of_books countDown_books)
  all_goals exact h

/-- An event that an outside cause brings about keeps the laws if what it does keeps them. -/
theorem BookLaw.eventIf (h : BookLaw s) {c : Bool} {f : State → State}
    (hf : c = true → ∀ e, BookLaw { s with ev := e } → BookLaw (f { s with ev := e })) (e : eventIf c f s = .next t) :
    BookLaw t := by
  unfold Machine.eventIf at e
  injection e with e
  subst e
  split
  · rename_i hc; exact BookLaw.runEvent (hf hc _) h
  · exact h

end Sys2Proof.Machine
end

