-- ==== Sys2Proof/Laws/Started.lean ====
section
/-! SUPPORT. The values from which the blocks start at a reset with an ACTIVE profile and at the end of a commit (R35,
R38, R109, R111, R128, R142, R172): every build of the deck model gives them, and the outputs leave them. -/

namespace Sys2Proof.Machine

variable {s t : State}

/-! ### The position check -/

/-- What the position check of a panel reads from a lane. -/
def Lane.checked (x : Lane) : Nat × List Nat × List Nat × Option Cover := (x.sect, x.stow, x.claims, x.cover)

/-- What it reads from a record. -/
def Vehicle.checked (v : Vehicle) : Nat × Nat := (v.tag, v.height)

theorem positionCheck_congr (pins : t.pins = s.pins) (panels : t.panels.map Panel.carried = s.panels.map Panel.carried)
    (lanes : t.lanes.map Lane.checked = s.lanes.map Lane.checked)
    (vehicles : ∀ tag, (t.veh? tag).map Vehicle.checked = (s.veh? tag).map Vehicle.checked) (p : Nat) :
    positionCheck t p = positionCheck s p := by
  have lane : ∀ l, (t.lane? l).map Lane.checked = (s.lane? l).map Lane.checked := by
    intro l; unfold State.lane?; rw [← List.getElem?_map, ← List.getElem?_map, lanes]
  have len : t.lanes.length = s.lanes.length := by simpa using congrArg List.length lanes
  have pan : (t.panel? p).map Panel.carried = (s.panel? p).map Panel.carried := by
    unfold State.panel?; rw [← List.getElem?_map, ← List.getElem?_map, panels]
  have whr : ∀ f g : Lane → Bool, (∀ x y, x.checked = y.checked → f x = g y) → t.lanesWhere f = s.lanesWhere g := by
    intro f g hf; unfold State.lanesWhere; rw [len]; congr 1; funext l
    have := lane l
    cases h1 : t.lane? l <;> cases h2 : s.lane? l <;> rw [h1, h2] at this <;> simp at this ⊢
    exact hf _ _ this
  have recs : ∀ tags, (t.records tags).map Vehicle.checked = (s.records tags).map Vehicle.checked := by
    intro tags; unfold State.records; rw [List.map_filterMap, List.map_filterMap]; congr 1; funext u; exact vehicles u
  have on : t.lanesOn p = s.lanesOn p := by
    unfold State.lanesOn
    cases h1 : t.panel? p <;> cases h2 : s.panel? p <;> rw [h1, h2] at pan <;> simp at pan ⊢
    apply whr; intro x y e; have : x.sect = y.sect := congrArg Prod.fst e
    rw [this, pan]
  have un : t.lanesUnder p = s.lanesUnder p := by
    unfold State.lanesUnder; apply whr; intro x y e
    have : x.cover = y.cover := congrArg (fun q => q.2.2.2) e
    unfold Lane.under; rw [this]
  have loaded : t.firstLoadedOn p = s.firstLoadedOn p := by
    unfold State.firstLoadedOn; rw [on]; congr 1; funext l
    have := lane l
    cases h1 : t.lane? l <;> cases h2 : s.lane? l <;> rw [h1, h2] at this <;> simp at this ⊢
    have a : _ = _ := congrArg (fun q => q.2.1) this
    have b : _ = _ := congrArg (fun q => q.2.2.1) this
    simp only [Lane.checked] at a b
    rw [a, b]
  have tall : ∀ l, t.tallIn l = s.tallIn l := by
    intro l; unfold State.tallIn
    have := lane l
    cases h1 : t.lane? l <;> cases h2 : s.lane? l <;> rw [h1, h2] at this <;> simp at this ⊢
    rename_i x y
    have a : _ = _ := congrArg (fun q => q.2.1) this
    have b : _ = _ := congrArg (fun q => q.2.2.1) this
    have c : _ = _ := congrArg (fun q => q.2.2.2) this
    simp only [Lane.checked] at a b c
    rw [a, b, c]
    cases y.cover with
    | none => rfl
    | some c =>
      have hh : ∀ vs : List Vehicle, ((vs.filter fun v => decide (c.reduced < v.height)).map fun v => (v.tag, l)) =
          ((vs.map Vehicle.checked).filter fun q => decide (c.reduced < q.2)).map fun q => (q.1, l) := by
        intro vs; rw [List.filter_map, List.map_map]; rfl
      simp only
      rw [hh, hh, recs]
  have under : t.firstTallUnder p = s.firstTallUnder p := by
    unfold State.firstTallUnder; rw [un]; congr 2; funext l; exact tall l
  have line : t.linePos p = s.linePos p := by unfold State.linePos State.upActive State.downActive; rw [pins]
  unfold positionCheck; rw [loaded, under, line]

/-! ### The values of a start -/

/-- Readings, scores, modes, credits, thresholds, arms, panels and closures as a build of the deck model leaves them. -/
structure Fresh (s : State) : Prop where
  lane : ∀ l x, s.lane? l = some x → x.occupied = s.reads x ((s.pins.loops[l]?).getD false) ∧ x.score = 0 ∧
    x.suspect = false ∧ x.clearing = false ∧ x.mode = .sensed ∧ x.watch = false ∧ x.signal = .auto ∧
    x.entryCredits = 0 ∧ x.entryWindow = .stopped ∧ x.exitCredits = 0 ∧ x.exitWindow = .stopped
  deck : ∀ d ∈ s.decks, d.threshold = 230 ∧ d.level = 1 ∧ d.noticeOn = false ∧ d.latch = false
  sect : ∀ c ∈ s.sections, c.mode = .sensed ∧
    c.arm = (if 230 * (c.massLimit * 1000) < 256 * c.projected then .spent else .armed)
  list : s.listThreshold = 217 ∧ s.listOver = decide (s.limits.listLimit * 10000 < s.listMoment.natAbs) ∧
    s.listArm = (if 217 * (s.limits.listLimit * 10000) < 256 * s.listMoment.natAbs then .spent else .armed)
  panel : ∀ p y, s.panel? p = some y → (y.state, y.fault) = positionCheck s p ∧ y.timer = .stopped ∧
    y.state.moving = false
  crest : s.lower.crestOccupied = s.pins.crestLower ∧ s.upper.crestOccupied = s.pins.crestUpper
  closure : s.closure = Closure.cleared

theorem mapNumbered_get_inv {α : Type} {f : Nat → α → α} {xs : List α} {i : Nat} {y : α}
    (h : (mapNumbered f 0 xs)[i]? = some y) : ∃ x, xs[i]? = some x ∧ y = f i x := by
  rw [mapNumbered_get, Nat.zero_add] at h
  obtain ⟨x, a, b⟩ := Option.map_eq_some_iff.mp h
  exact ⟨x, a, b.symm⟩

/-- A lane as it stands on the deck before its sums and its reading: everything outside stow memory at its start. -/
theorem raw_lane {rs : List ProfRec} {old : List Lane} {x : Lane} (h : x ∈ (rawModel rs old s).lanes) :
    x.score = 0 ∧ x.suspect = false ∧ x.clearing = false ∧ x.mode = .sensed ∧ x.watch = false ∧ x.signal = .auto ∧
    x.entryCredits = 0 ∧ x.entryWindow = .stopped ∧ x.exitCredits = 0 ∧ x.exitWindow = .stopped := by
  obtain ⟨l, -, rfl⟩ := List.mem_map.mp (show x ∈ List.map _ _ from h)
  split <;> exact ⟨rfl, rfl, rfl, rfl, rfl, rfl, rfl, rfl, rfl, rfl⟩

theorem built_deck {rs : List ProfRec} {old : List Lane} {d : Deck} (h : d ∈ (buildModel rs old s).decks) :
    d.threshold = 230 ∧ d.level = 1 ∧ d.noticeOn = false ∧ d.latch = false := by
  obtain ⟨i, -, rfl⟩ := List.mem_map.mp (show d ∈ List.map _ _ from h)
  exact ⟨rfl, rfl, rfl, rfl⟩

theorem built_threshold {rs : List ProfRec} {old : List Lane} (c : Sect) : (buildModel rs old s).thresholdOf c = 230 := by
  unfold State.thresholdOf
  split
  · rename_i d e; exact (built_deck (List.mem_of_getElem? e)).1
  · rfl

theorem built_panel {rs : List ProfRec} {old : List Lane} {p : Nat} {y : Panel}
    (h : (buildModel rs old s).panel? p = some y) :
    (y.state, y.fault) = positionCheck (buildModel rs old s) p ∧ y.timer = .stopped ∧ y.state.moving = false := by
  have e0 : positionCheck (buildModel rs old s) p = positionCheck (readModel rs old s) p := by
    rw [buildModel_eq]
    refine positionCheck_congr (s := readModel rs old s) (t := settlePanels (readModel rs old s)) rfl ?_ rfl
      (fun _ => rfl) p
    exact map_mapNumbered (f := (readModel rs old s).settledPanel) (g := Panel.carried) (fun _ _ => rfl) 0 _
  obtain ⟨x, -, rfl⟩ := mapNumbered_get_inv (show (mapNumbered _ 0 _)[p]? = some y from h)
  refine ⟨e0.symm, rfl, ?_⟩
  show (positionCheck (readModel rs old s) p).1.moving = false
  rcases positionCheck_rests (readModel rs old s) p with e | e | e | ⟨e, -⟩ <;> rw [e] <;> rfl

theorem fresh_build (rs : List ProfRec) (old : List Lane) (s : State) : Fresh (buildModel rs old s) where
  lane := by
    intro l x h
    obtain ⟨y, hy, rfl⟩ := mapNumbered_get_inv (show (mapNumbered _ 0 _)[l]? = some x from h)
    obtain ⟨z, hz, rfl⟩ : ∃ z, _ ∧ _ := List.mem_map.mp (List.mem_of_getElem? (show (List.map _ _)[l]? = some y from hy))
    have raw := raw_lane (s := s) (rs := rs) (old := old) (x := z) hz
    exact ⟨rfl, raw⟩
  deck := fun _ h => built_deck h
  sect := by
    intro c h
    obtain ⟨d, hd, rfl⟩ := List.mem_map.mp (show c ∈ List.map _ _ from h)
    refine ⟨?_, ?_⟩
    · obtain ⟨i, hi⟩ := List.getElem?_of_mem hd
      obtain ⟨e, he, rfl⟩ := mapNumbered_get_inv (show (mapNumbered _ 0 _)[i]? = some d from hi)
      obtain ⟨j, -, rfl⟩ := List.mem_map.mp (List.mem_of_getElem? he)
      rfl
    · show armOf (sectAbove ((buildModel rs old s).thresholdOf d) d.massLimit d.projected) = _
      rw [built_threshold]
      unfold armOf sectAbove
      simp
  list := by
    refine ⟨rfl, rfl, ?_⟩
    show armOf (listAbove 217 _ _) = _
    unfold armOf listAbove
    simp only [decide_eq_true_eq]
    rfl
  panel := fun _ _ h => built_panel h
  crest := ⟨rfl, rfl⟩
  closure := rfl

/-! ### What keeps them -/

theorem Fresh.vehicles (h : Fresh s) {f : Vehicle → Vehicle} (hf : ∀ u, (f u).checked = u.checked) :
    Fresh { s with vehicles := s.vehicles.map f } where
  lane := h.lane
  deck := h.deck
  sect := h.sect
  list := h.list
  panel := by
    intro p y hy
    have e : positionCheck { s with vehicles := s.vehicles.map f } p = positionCheck s p := by
      refine positionCheck_congr (s := s) (t := { s with vehicles := s.vehicles.map f }) rfl rfl rfl (fun tag => ?_) p
      show ((s.vehicles.map f).find? _).map _ = (s.vehicles.find? _).map _
      rw [List.find?_map, Option.map_map]
      have e1 : ((fun w : Vehicle => w.tag == tag) ∘ f) = fun w => w.tag == tag := by
        funext w
        have : (f w).tag = w.tag := congrArg Prod.fst (hf w)
        simp [this]
      rw [e1]; congr 1; funext w; exact hf w
    rw [e]; exact h.panel p y hy
  crest := h.crest
  closure := h.closure

theorem aspectOf_outputsOn (s : State) (x : Lane) (a : Aspect) :
    (outputsOn s).aspectOf { x with aspect := a } = s.aspectOf x := by
  have pan : ∀ n : Nat, (outputsOn s).panel? n = (s.panel? n).map Panel.driven := by
    intro n; unfold State.panel? outputsOn; simp
  have car : ∀ i, (outputsOn s).carrier? i = (s.carrier? i).map fun q => (q.1, q.2.driven) := by
    intro i; unfold State.carrier?
    have e : (List.range (outputsOn s).panels.length).filterMap
          (fun p => ((outputsOn s).panel? p).map fun x => (p, x)) =
        ((List.range s.panels.length).filterMap fun p => (s.panel? p).map fun x => (p, x)).map
          fun q => (q.1, q.2.driven) := by
      have l : (outputsOn s).panels.length = s.panels.length := by unfold outputsOn; simp
      rw [List.map_filterMap, l]; congr 1; funext n; rw [pan]; cases s.panel? n <;> rfl
    rw [e, List.find?_map]; rfl
  have cov : (outputsOn s).coverMoving { x with aspect := a } = s.coverMoving x := by
    unfold State.coverMoving State.coverState?
    simp only
    cases x.cover with
    | none => rfl
    | some c => simp only [Option.bind_some]; rw [pan]; cases s.panel? c.panel <;> rfl
  have work : (outputsOn s).carrierWorking { x with aspect := a } = s.carrierWorking x := by
    unfold State.carrierWorking; simp only; rw [car]; cases s.carrier? x.sect <;> rfl
  have avail : (outputsOn s).available { x with aspect := a } = s.available x := by
    unfold State.available; rw [work]; rfl
  have path : (outputsOn s).signalPath { x with aspect := a } = s.signalPath x := by
    unfold State.signalPath; rw [cov]
    have : (outputsOn s).rampOf { x with aspect := a } = s.rampOf x := rfl
    rw [this]; cases s.rampOf x <;> rfl
  unfold State.aspectOf; rw [avail, path]; rfl

/-- The outputs of a fresh machine: the aspects are those of the state, and no panel is driven. -/
theorem Fresh.on (h : Fresh s) : Fresh (outputsOn s) ∧
    (∀ x ∈ (outputsOn s).lanes, x.aspect = (outputsOn s).aspectOf x) ∧
    ∀ y ∈ (outputsOn s).panels, y.raise = false ∧ y.lower = false := by
  refine ⟨⟨?_, h.deck, h.sect, h.list, ?_, h.crest, h.closure⟩, ?_, ?_⟩
  · intro l x hx
    obtain ⟨y, hy, rfl⟩ := Option.map_eq_some_iff.mp
      (show (s.lanes[l]?).map _ = some x from by rw [← List.getElem?_map]; exact hx)
    exact h.lane l y hy
  · intro p y hy
    obtain ⟨z, hz, rfl⟩ := Option.map_eq_some_iff.mp
      (show (s.panels[p]?).map _ = some y from by rw [← List.getElem?_map]; exact hy)
    have e : positionCheck (outputsOn s) p = positionCheck s p := by
      refine positionCheck_congr (s := s) (t := outputsOn s) rfl ?_ ?_ (fun _ => rfl) p <;>
        · unfold outputsOn; simp; intros; rfl
    rw [e]; exact h.panel p z hz
  · intro x hx
    obtain ⟨y, hy, rfl⟩ := List.mem_map.mp hx
    exact (aspectOf_outputsOn s y _).symm
  · intro x hx
    obtain ⟨y, hy, rfl⟩ := List.mem_map.mp hx
    obtain ⟨p, hp⟩ := List.getElem?_of_mem hy
    have c := (h.panel p y hp).2.2
    refine ⟨?_, ?_⟩
    · show decide (y.state = .raising) = false; revert c; cases y.state <;> simp [PanelPos.moving]
    · show decide (y.state = .lowering) = false; revert c; cases y.state <;> simp [PanelPos.moving]

theorem Fresh.opens (h : Fresh s) {i : Nat} {c : Sect} (hc : s.sect? i = some c) : s.closed i = false := by
  unfold State.closed State.sensorClosed
  rw [hc, h.closure]; simp [Closure.cleared, Closure.masks, (h.sect c (List.mem_of_getElem? hc)).1]

/-! ### Where they come from -/

theorem doReset_power (k : ResetCause) (s : State) : (doReset k s).power = s.power := by
  rw [doReset_eq]
  have h : ∀ v, (remodel v).power = v.power := by intro v; unfold remodel; split <;> rfl
  rw [h]; dsimp only; split <;> rfl

theorem resetNow_eq (k : ResetCause) (s : State) : resetNow k s = outputsOn (doReset k { s with power := .up }) := by
  unfold resetNow refresh; rw [doReset_power]

/-- A reset with an ACTIVE profile leaves a fresh machine (R128, R142, R172). -/
theorem resetNow_fresh (k : ResetCause) (mark : s.store.mark = .active) :
    ∃ u, Fresh u ∧ resetNow k s = outputsOn u := by
  rw [resetNow_eq, doReset_eq]
  generalize hw : ({ (if (atReset k { s with power := .up }).keepsStow then atReset k { s with power := .up }
    else clearStow (atReset k { s with power := .up })) with
      stowKept := (atReset k { s with power := .up }).keepsStow } : State) = w
  have hp : w.profile = .active := by
    rw [← hw]; dsimp only; split <;> (show ProfileState.ofMark s.store.mark = _; rw [mark]; rfl)
  unfold remodel; rw [hp]
  refine ⟨_, (fresh_build w.store.records w.lanes w).vehicles
    (f := (buildModel w.store.records w.lanes w).restartTransit) ?_, rfl⟩
  intro u; unfold State.restartTransit; split <;> rfl

/-- The end of a commit leaves a fresh machine, but for the link (R180). -/
theorem commitCompletes_fresh (power : s.power = .up) : ∃ u link, Fresh u ∧
    happened commitCompletes s = { outputsOn u with link := link } ∧
    ∀ r, (u.ramp r).crestCredits = 0 ∧ (u.ramp r).crestWindow = .stopped := by
  unfold happened endEvent commitCompletes
  dsimp only
  generalize hv : clearStow _ = v
  have powerV : v.power = .up := by rw [← hv]; exact power
  have evV : v.ev = EventMarks.none := by rw [← hv]; rfl
  have crestV : ∀ r, (v.ramp r).crestCredits = 0 ∧ (v.ramp r).crestWindow = .stopped := by
    intro r; rw [← hv]; cases r <;> exact ⟨rfl, rfl⟩
  have fresh := fresh_build (candidate s.store s.draft) [] v
  generalize hb : buildModel (candidate s.store s.draft) [] v = u at fresh ⊢
  have powerU : u.power = .up := by rw [← hb]; exact powerV
  have evU : u.ev = EventMarks.none := by rw [← hb]; exact evV
  have crestU : ∀ r, (u.ramp r).crestCredits = 0 ∧ (u.ramp r).crestWindow = .stopped := by
    intro r; rw [← hb]; have := crestV r; cases r <;> exact this
  have noSweep : ∀ n, sweepIfDue (u.notify n) = u.notify n := by
    intro n
    unfold sweepIfDue
    have e : (u.notify n).ev = EventMarks.none := evU
    rw [e, show EventMarks.none.sweepDue = false from rfl]
    simp only [Bool.false_eq_true, if_false]
    rw [← e]
  have outputs : ∀ n, refresh (u.notify n) = outputsOn (u.notify n) := by
    intro n; unfold refresh
    rw [show (u.notify n).power = .up from powerU]
  rw [noSweep, outputs, kick_eq]
  exact ⟨u, _, fresh, rfl, crestU⟩

end Sys2Proof.Machine
end

