-- ==== Sys2Proof/Tests/Slice0.lean ====
section
/-! SUPPORT. Tests: the well-formedness smoke, small figures from the spec, and for each statement that has hypotheses
states and operands that meet them (`witness_…`, one conjunct for each clause, at the boundary values). -/

namespace Sys2Proof.Tests

open Sys2Proof.Machine

-- One proof at a time: as one text with Mathlib the tests otherwise wait on more threads than the check allows.
set_option Elab.async false

/-! ### Ill-formed commands, which the check refuses -/

theorem test_wf_arrive : (Instr.arrive 0 1 1 45 1 1500 10 1 0 (List.replicate 229 0)).wellFormed = false := by decide +kernel
theorem test_wf_draftPut_short : (Instr.draftPut 0 2 0 [0]).wellFormed = false := by decide +kernel
theorem test_wf_draftPut_long : (Instr.draftPut 0 4 0 (List.replicate 13 0)).wellFormed = false := by decide +kernel
theorem test_wf_unknown_known : (Instr.unknownKind 0 0x45 []).wellFormed = false := by decide +kernel
theorem test_wf_unknown_long : (Instr.unknownKind 0 0x46 (List.replicate 241 0)).wellFormed = false := by decide +kernel
theorem test_wf_loop : (Instr.laneLoopEdge 96 true).wellFormed = false := by decide +kernel
theorem test_wf_entryWindow : (Instr.entryCreditWindowExpiry 96).wellFormed = false := by decide +kernel
theorem test_wf_exitWindow : (Instr.exitCreditWindowExpiry 96).wellFormed = false := by decide +kernel
theorem test_wf_transit_zero : (Instr.transitExpiry 0).wellFormed = false := by decide +kernel
theorem test_wf_transit_high : (Instr.transitExpiry 4294967296).wellFormed = false := by decide +kernel
theorem test_wf_limit : (Instr.limitLineEvent 4 .up true).wellFormed = false := by decide +kernel
theorem test_wf_timeout : (Instr.moveTimeout 4).wellFormed = false := by decide +kernel
theorem test_wf_writeFailure : (Instr.profileWriteFailure 7 0).wellFormed = false := by decide +kernel
theorem test_wf_accepts : (Instr.arrive 0 1 1 45 1 1500 10 1 6 [3, 0]).wellFormed = true ∧
    (Instr.laneLoopEdge 95 true).wellFormed = true ∧ (Instr.unknownKind 0 0xFF []).wellFormed = true ∧
    (Instr.profileWriteFailure 7 6).wellFormed = true := by decide +kernel

/-! ### Figures of the spec -/

/-- The check value of R184's CRC over the digits 1 to 9. -/
theorem test_crc_check : crc [0x31, 0x32, 0x33, 0x34, 0x35, 0x36, 0x37, 0x38, 0x39] = 0x29B1#16 := by decide +kernel

/-- Tally codes at the ends of the segments (R3, R4). -/
theorem test_tally : encodeMass 1 = 1 ∧ encodeMass 1500 = 188 ∧ encodeMass 2040 = 255 ∧ encodeMass 2041 = 256 ∧
    encodeMass 8176 = 639 ∧ encodeMass 8177 = 640 ∧ encodeMass 32736 = 1407 ∧ encodeMass 32737 = 1408 ∧
    encodeMass 65535 = 1920 ∧ decodeMass 188 = 1504 ∧ decodeMass 1920 = 65536 := by decide

theorem test_kinds_once : (requestTable.map Prod.fst) = requestKinds := by decide

/-! ### A small ship: a MAIN deck with lanes 0 and 1, lane 1 under the panel; a HOIST deck with lane 2 on it -/

def lane (sect athwart : Nat) : Lane :=
  { sect := sect, athwart := athwart, offset := -50, usable := 600, gap := 4, baseClass := 4, axleLimit := 120
    sockets := 1, cover := none, stow := [], claims := [], state := .opened, overdue := 0, used := 0, reefers := 0
    mass := 0, placedMass := 0, pastCrest := [], entryCredits := 0, entryWindow := .stopped, exitCredits := 0
    exitWindow := .stopped, occupied := false, score := 0, suspect := false, clearing := false, mode := .sensed
    watch := false, signal := .auto, aspect := .green }

def sect (deck : Nat) : Sect :=
  { deck := deck, massLimit := 100, projected := 0, placed := 0, arm := .armed, mode := .sensed }

def deck (k : DeckKind) : Deck :=
  { kind := k, occupiedHigh := true, threshold := 230, level := 1, noticeOn := true, latch := false }

def panel (st : PanelPos) : Panel :=
  { carried := 1, moveLimit := 60, state := st, timer := .stopped, fault := LastFault.none, raise := false
    lower := false }

def rampRec : RampRec := ⟨120, [⟨12, 400⟩, ⟨3, 60⟩, ⟨1, 30⟩]⟩

/-- Loading at call 0 of a voyage of two, the panel WORKING. -/
def ship : State :=
  { State.reset with
    link := { Link.cleared with quiet := false }
    voyage := .load 0 2, profile := .active
    store := { records := [], generation := 1, locked := false, mark := .active }, stowGen := 1
    limits := { listLimit := 100, lower := rampRec, upper := rampRec, dg := []
                sensor := { thresholds := [10, 7, 5, 3], phantom := 2, silent := 1, window := 20 } }
    decks := [deck .main, deck .hoist], sections := [sect 0, sect 1]
    lanes := [lane 0 0, { lane 0 1 with cover := some ⟨0, 2⟩ }, lane 1 0]
    panels := [panel .working]
    pins := { State.reset.pins with downLimit := #v[true, false, false, false] } }

/-- A CAR of tag `t` and 1,504 kg for call 1. -/
def car (t : Nat) (st : Stage) : Vehicle :=
  { tag := t, cls := .car, length := 45, height := 1, massCode := 188, axle := 10, call := 1, reefer := false
    dg := none, reqLane := none, stage := st, overdue := false, transit := .stopped }

def ashore : State := { ship with voyage := .noVoyage }

def onLanes (f : Lane → Lane) (s : State) : State := s.updLane 0 f

/-- Vehicle 7 ASSIGNED to lane 0, in LOWER's light queue. -/
def assigned : State :=
  { ship.updLane 0 fun x => { x with claims := [7], used := 49, mass := 1504 } with
    vehicles := [car 7 (.assigned 0)], lower := { ship.lower with light := [7] } }

/-- Vehicle 7 RELEASED to lane 0, on the ramp. -/
def released : State :=
  { assigned with
    vehicles := [{ car 7 (.onRamp 0) with transit := .running 120 }]
    lower := { ship.lower with onRamp := [7], mass := 1504 } }

/-- Vehicle 7 RELEASED to lane 0, past the crest. -/
def past : State :=
  { (ship.updLane 0 fun x => { x with claims := [7], pastCrest := [7], used := 49, mass := 1504 }) with
    vehicles := [{ car 7 (.pastCrest 0) with transit := .running 9 }] }

/-- Vehicle 7 PLACED in lane 0. -/
def placed : State :=
  { (ship.updLane 0 fun x => { x with stow := [7], used := 49, mass := 1504, placedMass := 1504 }) with
    vehicles := [car 7 (.placed 0 0)] }

/-- Lane 0 UNLOADING at call 1, with vehicle 7 at its tail, and the ramps OUTBOUND. -/
def unloading : State :=
  { (placed.updLane 0 fun x => { x with state := .unloading }) with
    voyage := .discharge 1 2, lower := { ship.lower with direction := .outbound }
    upper := { ship.upper with direction := .outbound } }

def withSeq (q : SeqState) (s : State) : State := s.updRamp .lower fun r => { r with seq := q }

def withPanel (p : Panel) (s : State) : State := { s with panels := [p] }

def withLink (f : Link → Link) (s : State) : State := s.updLink f

/-- A frame for the transmitter. -/
def frame : Frame := ⟨0x81, 5, [0, 0]⟩

/-! ### Witnesses: the machine as a whole -/

theorem witness_StepRunsFront : { ship with pending := [.interByteGap, .reset 0] }.pending = .interByteGap :: [.reset 0] :=
  rfl

theorem witness_EmptyQueueIsOneSecond :
    (released.pending = [] ∧ released.power = .up ∧ NothingDue released) ∧
    ({ ship with power := .held }.pending = [] ∧ { ship with power := .held }.power ≠ .up) ∧
    { ship with power := .down }.power ≠ .up := by decide +kernel

theorem witness_ExecKeepsQueue : ∃ t, exec .interByteGap ship = .next t := ⟨_, rfl⟩

/-- The small ship in port, no voyage begun and no record in the store. -/
def berthed : State :=
  { ashore with store := { records := [], generation := 0, locked := false, mark := .none } }

theorem berthed_books : BookLaw berthed := by
  refine Bare.bookLaw ⟨rfl, rfl, rfl, by decide, by decide, rfl, fun r => ?_⟩
    ⟨fun e => (nomatch e), fun _ _ => rfl, by decide, by decide, fun e => (nomatch e)⟩
  cases r <;> exact ⟨rfl, rfl, rfl, rfl, rfl⟩

/-- A car that asks for lane 0. -/
def arriving : Arrival := ⟨7, 1, 45, 1, 1500, 10, 1, 4, [0]⟩

/-- The ship loads, and the car has a claim on lane 0. -/
def booked : State := (reqArrive arriving (reqPhaseLoad (reqCallOpen (reqVoyageSet 2 berthed).1).1).1).1

theorem witness_LawsHoldAtReset : BookLaw booked ∧ (booked.lane? 0).map Lane.claims = some [7] ∧
    ∃ t, step booked = .next t :=
  ⟨keeps_arrive _ _ (keeps_phaseLoad _ (keeps_callOpen _ (keeps_voyageSet 2 _ berthed_books))), by decide +kernel, _, rfl⟩

theorem witness_RunPairLawKept : RunPairLaw ship ∧ ∃ t, step ship = .next t := ⟨by decide +kernel, _, rfl⟩

theorem witness_OutputsLawKept :
    OutputsLaw (refresh ship) ∧ (∃ t, step (refresh ship) = .next t) ∧
      OutputsLaw (refresh { ship with power := .held }) := by
  refine ⟨⟨fun _ => by decide +kernel, fun h => absurd rfl h⟩, ⟨_, rfl⟩, ⟨fun h => absurd h (by decide), fun _ => ?_⟩⟩
  decide +kernel

theorem witness_LinkLawKept :
    LinkLaw (withLink (fun k => { k with inProgress := some ⟨.reply, frame⟩, rxBuf := [frame] }) ship) ∧
      LinkLaw (withLink (fun k => { k with rx := .data 2 [1, 2, 3] }) ship) ∧ ∃ t, step ship = .next t :=
  ⟨by decide +kernel, by decide +kernel, _, rfl⟩

theorem witness_FrameIsCommand :
    (Instr.status 5 0).wellFormed = true ∧ (Instr.status 5 0).request? = some ⟨0x01, 5, [0]⟩ ∧ ship.link.rx = .hunt ∧
    (Instr.unknownKind 5 0x46 (List.replicate 240 0)).wellFormed = true ∧
    (Instr.unknownKind 5 0x46 (List.replicate 240 0)).request? = some ⟨0x46, 5, List.replicate 240 0⟩ := by
  decide +kernel

theorem witness_RequestAnswered :
    (Instr.status 5 0).wellFormed = true ∧ (Instr.status 5 0).request? = some ⟨0x01, 5, [0]⟩ ∧ Taking ship ∧
    ship.link.inProgress = none ∧ ship.link.waitingRejection = none ∧ Taking State.reset := by decide +kernel

theorem witness_SequencerSettles : seqFuel .lower assigned ≤ 14 := by decide +kernel

theorem witness_TallyCodes : (1 ≤ 65535 ∧ 65535 ≤ 65535) ∧ 1919 < 1920 ∧ 1919 < encodeMass 65535 ∧
    (2041 ≤ 8176 ∧ 8177 ≤ 32736 ∧ 32737 ≤ 65535) ∧ (⟨8, 1, 45, 1, 0, 10, 1, 0, []⟩ : Arrival).mass = 0 := by decide +kernel

/-! ### Witnesses: the link port, resets and supply -/

theorem witness_StatusReports : Taking ship ∧ 1 < (2#8).toNat ∧ 1 < (0xFF#8).toNat := by decide +kernel

def resetting : State := withLink (fun k => { k with inProgress := some ⟨.reply, frame⟩, resetDue := true }) ship

theorem witness_RequestResetFollowsReply :
    Taking ship ∧ resetting.power = .up ∧ resetting.link.resetDue = true ∧ resetting.link.sendingReply = true := by
  decide +kernel

theorem witness_LinkSilenceSets :
    Taking ship ∧ (∀ n ∈ [0, 5, 120], n = 0 ∨ 5 ≤ n ∧ n ≤ 120) ∧ ∀ n ∈ [1, 4, 121, 255], ¬ (n = 0 ∨ 5 ≤ n ∧ n ≤ 120) := by
  decide +kernel

theorem witness_UnknownKindRefused :
    Taking ship ∧ (Instr.unknownKind 5 0 []).wellFormed = true ∧ (Instr.unknownKind 5 0x46 []).wellFormed = true ∧
    (Instr.unknownKind 5 0x80 []).wellFormed = true := by decide +kernel

def ending (f : Link → Link) : State := withLink (fun k => f { k with inProgress := some ⟨.notice, frame⟩ }) ship

theorem witness_FrameEndStartsNext :
    ∀ s ∈ [ending id, ending fun k => { k with waitingReply := some frame, waitingRejection := some frame },
        ending fun k => { k with waitingReply := some frame, waitingRejection := some frame, rejectionFirst := true },
        ending fun k => { k with waitingReply := some frame }, ending fun k => { k with waitingRejection := some frame },
        ending fun k => { k with notices := [.crestUnexpected .lower] }],
      s.power = .up ∧ s.link.inProgress ≠ none ∧ s.link.resetDue = false ∧ s.link.quiet = false ∧
        s.link.rxBuf = [] := by decide +kernel

theorem witness_FrameEndStartsNext_takes :
    (∀ s ∈ [ending fun k => { k with rxBuf := [frame, frame] },
        ending fun k => { k with rxBuf := [frame], waitingRejection := some frame }],
      s.power = .up ∧ s.link.inProgress ≠ none ∧ s.link.resetDue = false ∧ s.link.quiet = false ∧
        s.link.rxBuf ≠ [] ∧ s.link.waitingReply = none) ∧
    ((ending fun k => { k with rxBuf := [frame], waitingReply := some frame }).link.rxBuf = [frame] ∧
      (ending fun k => { k with rxBuf := [frame], resetDue := true }).link.sendingReply = false) := by decide +kernel

theorem witness_ReceiverBytes :
    ship.power = .up ∧ ship.link.rx = .hunt ∧ 0xC2#8 ≠ 0xC3#8 ∧ (setRx .length ship).link.rx = .length ∧
    (∀ n ∈ [2, 242], 2 ≤ n ∧ n ≤ 242) ∧ (∀ n ∈ [0, 1, 243, 255], n < 2 ∨ 242 < n) ∧
    ((setRx (.data 2 [1, 2]) ship).link.rx = .data 2 [1, 2] ∧ [1, 2].length + 1 ≠ 2 + 2) ∧
    (setRx (.data 2 (1 :: 2 :: [] ++ [3])) ship).link.rx = .data 2 (1 :: 2 :: [] ++ [3]) := by decide +kernel

def full (n : Nat) : State :=
  withLink (fun k => { k with inProgress := some ⟨.reply, frame⟩, rxBuf := List.replicate n frame }) ship

theorem witness_FullBufferDiscards :
    (Instr.status 5 0).request? = some ⟨0x01, 5, [0]⟩ ∧ (full 3).power = .up ∧ (full 3).link.canTake = false ∧
    (full 3).link.rxBuf.length < 4 ∧ (full 4).power = .up ∧ (full 4).link.canTake = false ∧
    ¬ (full 4).link.rxBuf.length < 4 := by decide +kernel

theorem witness_PartialFrameDropped :
    ∀ r ∈ [Rx.hunt, .length, .data 2 [1]], (setRx r ship).power = .up ∧ (setRx r ship).link.rx = r := by decide +kernel

theorem witness_PowerAndLineResets :
    ship.pins.resetIn = false ∧ { ship.pins with resetIn := true }.resetIn = true ∧ ship.power = .up ∧
    { ship with power := .held }.power = .held := by decide +kernel

/-- The store's vessel record counts the three lanes. -/
def stored (s : State) : State :=
  { s with store := { s.store with records := [⟨.vessel, 0, [2, 2, 3, 1, 0x4E, 0x20]⟩] } }

theorem witness_ResetStowMemory :
    (∀ s ∈ [stored placed, stored released, stored past], s.stowIntact = true ∧ s.stowGen = s.store.generation ∧
      s.store.mark = .active ∧ s.lanes.length = laneCount s.store.records) ∧
    ¬ (State.reset.stowIntact = true ∧ State.reset.stowGen = State.reset.store.generation ∧
      State.reset.store.mark = .active) ∧
    ¬ ({ placed with stowGen := 2 }.stowGen = placed.store.generation) := by decide +kernel

/-! ### Witnesses: vehicles and allocation -/

/-- The ARRIVE of a CAR for call 1 with tag 8. -/
def arrival : Arrival := ⟨8, 1, 45, 1, 1500, 10, 1, 0, []⟩

theorem witness_ArriveAssigned :
    Taking ship ∧ ship.voyage = .load 0 2 ∧ arriveRange ship.lanes.length arrival = none ∧ 0 < arrival.call ∧
    arrival.call ≤ 2 ∧ ship.veh? arrival.tag = none ∧ ship.vehicles.length < 2048 ∧
    unstowableAt ship arrival.vehicle = none ∧ allocate ship arrival.vehicle = .claim 0 ∧
    allocate assigned arrival.vehicle = .claim 0 := by decide +kernel

/-- Every lane SHUT, and `n` tags on standby. -/
def crowded (n : Nat) : State :=
  { ship with lanes := ship.lanes.map fun x => { x with state := .shut }, standby := List.replicate n 9 }

theorem witness_ArriveStandby :
    (Instr.arrive 5 8 1 45 1 1500 10 1 0 []).request? ≠ none ∧
    ∀ n ∈ [127, 128], Taking (crowded n) ∧ (crowded n).voyage = .load 0 2 ∧
      arriveRange (crowded n).lanes.length arrival = none ∧ (crowded n).veh? arrival.tag = none ∧
      (crowded n).vehicles.length < 2048 ∧ unstowableAt (crowded n) arrival.vehicle = none ∧
      allocate (crowded n) arrival.vehicle = .noCandidate 2 ∧
      (n = 127 → (crowded n).standby.length < 128) ∧ (n = 128 → 128 ≤ (crowded n).standby.length) := by decide +kernel

theorem witness_ArriveStandby_refusals :
    (Taking ashore ∧ ashore.voyage = .noVoyage) ∧
    (ship.voyage = .load 0 2 ∧ arriveRange ship.lanes.length { arrival with tag := 0 } = some 1 ∧
      arriveRange ship.lanes.length { arrival with length := 61 } = some 3 ∧
      arriveRange ship.lanes.length { arrival with flags := 4, rest := [3] } = some 10 ∧
      arriveRange ship.lanes.length { arrival with flags := 4, rest := [2] } = none) ∧
    (∀ c ∈ [0, 3], ¬ (0 < c ∧ c ≤ 2)) ∧ (assigned.veh? { arrival with tag := 7 }.tag).isSome = true ∧
    ({ ship with vehicles := List.replicate 2048 (car 9 .standby) }.veh? 8 = none ∧
      2048 ≤ { ship with vehicles := List.replicate 2048 (car 9 .standby) }.vehicles.length) ∧
    unstowableAt ship { arrival with axle := 121 }.vehicle = some 2 ∧
    unstowableAt ship { arrival with axle := 120 }.vehicle = none := by decide +kernel

theorem witness_AllocationFirstRanked :
    allocate ship arrival.vehicle = .claim 0 ∧ allocate (crowded 0) arrival.vehicle = .noCandidate 2 ∧
    (ship.lane? 0).isSome = true := by decide +kernel

/-- Lane 1's covering panel, and a claim of vehicle 7 and a stow entry in lane 0: what the clearance class, the last
call and the keys of a lane are read from. -/
theorem witness_AllocationFirstRanked_keys :
    ((ship.lane? 0).any (fun x => x.cover = none ∧ x.claims = [] ∧ x.stow = []) ∧
      (ship.lane? 1).bind Lane.cover = some ⟨0, 2⟩ ∧ (ship.panel? 0).isSome = true) ∧
    ((assigned.lane? 0).bind fun x => x.claims.getLast?) = some 7 ∧ (assigned.veh? 7).isSome = true ∧
    (placed.lane? 0).any (fun x => x.claims = [] ∧ x.stow.getLast? = some 7) ∧ (placed.veh? 7).isSome = true ∧
    (ship.lane? 0).any fun x => (ship.sect? x.sect).isSome := by decide +kernel

theorem witness_ClaimBinds : (ship.lane? 0).isSome = true ∧ (ship.sect? 0).isSome = true ∧ 1 ≠ 0 := by decide +kernel

/-- Vehicle 8 STANDBY. -/
def waiting : State := { ship with vehicles := [car 8 .standby], standby := [8] }

/-- Vehicle 7 PLACED in lane 0, with vehicle 6 RELEASED to it. -/
def blocked : State :=
  { placed.updLane 0 (fun x => { x with claims := [6], pastCrest := [6] }) with
    vehicles := placed.vehicles ++ [car 6 (.pastCrest 0)] }

theorem witness_RecallWithdraws :
    (∀ s ∈ [waiting, assigned, released, past, placed, unloading, blocked], Taking s) ∧
    waiting.veh? 8 = some (car 8 .standby) ∧ assigned.veh? 7 = some (car 7 (.assigned 0)) ∧
    (released.veh? 7).map Vehicle.stage = some (.onRamp 0) ∧ (past.veh? 7).map Vehicle.stage = some (.pastCrest 0) ∧
    (∀ s ∈ [placed, unloading, blocked], s.veh? 7 = some (car 7 (.placed 0 0))) ∧
    ((placed.lane? 0).any fun x => x.stow.getLast? = some 7 ∧ placed.hasReleased x = false ∧ x.state ≠ .unloading) ∧
    ((unloading.lane? 0).any fun x => x.state = .unloading) ∧
    ((blocked.lane? 0).any fun x => blocked.hasReleased x = true) ∧
    ((({ placed with lanes := placed.lanes.modify 0 fun x => { x with stow := [7, 5] } } : State).lane? 0).any
      fun x => x.stow.getLast? ≠ some 7) ∧
    ship.veh? 7 = none ∧ (assigned.sect? 0).isSome = true := by decide +kernel

theorem witness_ClaimBinds_sweep :
    ((withSeq .idle ship).ramp .lower).seq = .idle ∧ (ship.ramp .lower).seq ≠ .idle ∧
    (waiting.sweepTrigger.ev.sweepDue = true ∧ waiting.sweepTrigger.voyage = .load 0 2) ∧
    (waiting.ev.sweepDue = false ∧ waiting.veh? 8 = some (car 8 .standby) ∧ allocate waiting (car 8 .standby) = .claim 0) ∧
    { crowded 0 with vehicles := [car 8 .standby] }.veh? 8 = some (car 8 .standby) ∧
    allocate { crowded 0 with vehicles := [car 8 .standby] } (car 8 .standby) = .noCandidate 2 := by decide +kernel

theorem witness_ClaimBinds_ashore : ∀ c n, ashore.sweepTrigger.voyage ≠ .load c n := by
  intro c n h
  cases h

theorem witness_VehicleGetReports : Taking placed ∧ placed.veh? (7#32).toNat = some (car 7 (.placed 0 0)) := by
  decide +kernel

/-- Vehicle 7 on the ramp for lane 0, whose first claim carries call 2. -/
def gated : State :=
  { released with
    vehicles := released.vehicles ++ [{ car 6 (.assigned 0) with call := 2 }]
    lanes := released.lanes.modify 0 fun x => { x with claims := [6, 7] } }

theorem witness_ConfirmPlaces :
    (∀ s ∈ [released, past, gated, placed, assigned], Taking s ∧ Modelled s ∧ (s.lane? 0).isSome = true ∧
      (s.lane? 1).isSome = true ∧ (s.veh? 7).isSome = true) ∧
    ((released.veh? 7).map Vehicle.stage = some (.onRamp 0) ∧
      (released.lane? 0).bind released.firstClaimCall? = some 1) ∧
    ((past.veh? 7).map Vehicle.stage = some (.pastCrest 0) ∧ (past.lane? 0).bind past.firstClaimCall? = some 1) ∧
    ((gated.veh? 7).map Vehicle.stage = some (.onRamp 0) ∧ (gated.lane? 0).bind gated.firstClaimCall? = some 2) ∧
    (placed.veh? 7).map Vehicle.stage = some (.placed 0 0) ∧
    assigned.veh? 7 = some (car 7 (.assigned 0)) ∧ (Taking State.reset ∧ State.reset.profile.inForce = false) ∧
    (Taking ship ∧ Modelled ship ∧ ship.lane? 3 = none ∧ (ship.lane? 0).isSome = true ∧ ship.veh? 7 = none) := by
  decide +kernel

theorem witness_PlacementEffects :
    (released.lane? 0).isSome = true ∧ (released.sect? 0).isSome = true ∧ (released.veh? 7).isSome = true := by
  decide +kernel

theorem witness_DepartRemoves :
    (∀ s ∈ [unloading, unloading.updLane 0 fun x => { x with exitCredits := 4 },
        unloading.updLane 0 fun x => { x with mode := .confirm }],
      Taking s ∧ Modelled s ∧ s.veh? 7 = some (car 7 (.placed 0 0)) ∧ (s.sect? 0).isSome = true ∧
      (s.lane? 0).map Lane.state = some .unloading ∧ (s.lane? 0).bind (fun x => x.stow.getLast?) = some 7) ∧
    (unloading.voyage.call? = some 1 ∧ (unloading.veh? 7).map Vehicle.call = some 1 ∧
      (unloading.lane? 0).map Lane.exitCredits = some 0) ∧
    (placed.voyage.call? = some 0 ∧ (placed.lane? 0).bind (fun x => x.stow.getLast?) = some 7 ∧
      (placed.veh? 7).map Vehicle.call = some 1) ∧
    (ship.lane? 0).map Lane.stow = some [] ∧
    ∀ n ∈ [1, 4], ((unloading.updLane 0 fun x => { x with exitCredits := n }).lane? 0).any
      fun x => 0 < x.exitCredits := by decide +kernel

/-! ### Witnesses: the deck model and the ramps -/

theorem witness_LaneAndSectionReports :
    Taking ship ∧ Modelled ship ∧
    ((ship.lane? 1).isSome = true ∧ (47#8).toNat ≤ 47 ∧ ((ship.lane? 1).map Lane.cover).isSome = true) ∧
    (ship.lane? 0).map Lane.cover = some none ∧ ship.lane? 3 = none ∧ 47 < (48#8).toNat ∧
    ((ship.sect? 1).isSome = true ∧ (ship.carrier? 1).isSome = true) ∧
    ((ship.sect? 0).isSome = true ∧ ship.carrier? 0 = none) ∧ ship.sect? 2 = none := by decide +kernel

theorem witness_LaneAndSectionReports_fields :
    (∀ l ∈ [0, 1, 2], (ship.lane? l).any fun x => (ship.sect? x.sect).any fun c => (ship.deck? c.deck).isSome) ∧
    ∀ i ∈ [0, 1], (ship.sect? i).any fun c => (ship.deck? c.deck).isSome := by decide +kernel

/-- Section 0 with an arm and a projected mass: 90,000 kg is above 230/256 of 100 t, 89,843 kg is not. -/
def armedAt (a : Arm) (m : Nat) : State := ship.updSect 0 fun c => { c with arm := a, projected := m }

theorem witness_ThresholdSets :
    (Taking ship ∧ Modelled ship ∧ 128 ≤ (128#8).toNat ∧ (127#8).toNat < 128) ∧
    ((0#8 ≠ 0xFF#8) ∧ (ship.deck? (0#8).toNat).isSome = true ∧ (2#8 ≠ 0xFF#8) ∧ ship.deck? (2#8).toNat = none) ∧
    (∀ a ∈ [Arm.armed, .spent], ((armedAt a 89844).sect? 0).any fun c =>
      c.arm = a ∧ (armedAt a 89844).thresholdOf c * (c.massLimit * 1000) < 256 * c.projected) ∧
    ∀ a ∈ [Arm.armed, .spent], ((armedAt a 89843).sect? 0).any fun c =>
      c.arm = a ∧ ¬ (armedAt a 89843).thresholdOf c * (c.massLimit * 1000) < 256 * c.projected := by decide +kernel

/-- The list's arm `a` at the list moment `m`. -/
def heeled (a : Arm) (m : Int) : State := { ship with listArm := a, listMoment := m }

theorem witness_ThresholdSets_list :
    (ship.listThreshold = 217 ∧ ship.limits.listLimit = 100) ∧
    (∀ a ∈ [Arm.armed, .spent], (heeled a (-847657)).listArm = a ∧ 217 * (100 * 10000) < 256 * (-847657 : Int).natAbs ∧
      ¬ 217 * (100 * 10000) < 256 * (847656 : Int).natAbs) ∧
    100 * 10000 < (-1000001 : Int).natAbs ∧ (1000000 : Int).natAbs ≤ 100 * 10000 := by decide +kernel

theorem witness_LaneShutOpen :
    Taking ship ∧ Modelled ship ∧ ∀ st ∈ [LaneState.opened, .shut, .unloading],
      ((ship.updLane 2 fun x => { x with state := st }).lane? 2).map Lane.state = some st := by decide +kernel

theorem witness_RampStarts :
    Taking assigned ∧ Modelled assigned ∧ (assigned.ramp .lower).seq = .stopped ∧
    (assigned.ramp .lower).direction = .inbound ∧ (ship.ramp .lower).light = [] ∧ (ship.ramp .lower).heavy = [] ∧
    (ship.ramp .lower).waiting.heavy ≤ 2 * (ship.ramp .lower).waiting.light := by decide +kernel

/-- LOWER in sequencer state `q` with `n` releases made, vehicles 7 and 8 in its light and 9 in its heavy queue. -/
def running (q : SeqState) (n : Nat) : State :=
  assigned.updRamp .lower fun r => { r with seq := q, runCount := n, light := [7, 8], heavy := [9] }

theorem witness_RampStarts_refusals :
    (Taking State.reset ∧ State.reset.profile.inForce = false) ∧
    (Taking (withSeq .idle ship) ∧ Modelled (withSeq .idle ship) ∧ ((withSeq .idle ship).ramp .lower).seq ≠ .stopped) ∧
    (Taking unloading ∧ Modelled unloading ∧ (unloading.ramp .lower).seq = .stopped ∧
      (unloading.ramp .lower).direction = .outbound) := by decide +kernel

/-- A pending pair at the law's limit and one beyond it; a run that goes on, one at its last release, one whose queue
the release empties, one whose head may not go; the ends of a run. -/
theorem witness_RampStarts_runs :
    (16 ≤ 2 * 8 ∧ ¬ 16 ≤ 2 * 7) ∧ (assigned.ramp .lower).light ≠ [] ∧ (ship.ramp .lower).queue .light = [] ∧
    (((running .lightRun 0).ramp .lower).queue .light = [7, 8] ∧ canRelease .lower 7 (running .lightRun 0) = true ∧
      ((running .lightRun 0).ramp .lower).runCount + 1 < 4) ∧
    (canRelease .lower 7 (running .lightRun 3) = true ∧ 4 ≤ ((running .lightRun 3).ramp .lower).runCount + 1) ∧
    (((withSeq .lightRun assigned).ramp .lower).queue .light = [7] ∧ canRelease .lower 7 (withSeq .lightRun assigned) = true) ∧
    (((running .heavyRun 0).ramp .lower).queue .heavy = [9] ∧ canRelease .lower 9 (running .heavyRun 0) = false) ∧
    (((running .lightRun 4).ramp .lower).heavy ≠ [] ∧ ((running .lightRun 4).ramp .lower).mode = .auto) ∧
    (((running .lightRun 4).updRamp .lower fun q => { q with mode := .manual }).ramp .lower).mode = .manual ∧
    (assigned.ramp .lower).heavy = [] ∧ (ship.ramp .lower).seq ≠ .lightRun ∧ (ship.ramp .lower).seq ≠ .heavyRun := by
  decide +kernel

theorem witness_RampStops :
    (Taking (withSeq .lightRun assigned) ∧ ((withSeq .lightRun assigned).ramp .lower).seq ≠ .stopped) ∧
    (Taking assigned ∧ (assigned.ramp .lower).seq = .stopped) ∧
    ∃ t, exec (.rampStop 5 0) assigned = .next t := ⟨by decide +kernel, by decide +kernel, _, rfl⟩

theorem witness_RampTurns :
    (Taking ship ∧ Modelled ship ∧ (ship.ramp .lower).seq = .stopped ∧ (ship.ramp .lower).direction ≠ .outbound ∧
      ship.barsTurn .lower .outbound = false) ∧
    (ship.ramp .lower).direction = .inbound ∧ ((withSeq .idle ship).ramp .lower).seq ≠ .stopped ∧
    ((released.ramp .lower).direction ≠ .outbound ∧ released.barsTurn .lower .outbound = true) ∧
    (unloading.ramp .lower).direction ≠ .inbound ∧ unloading.barsTurn .lower .inbound = true := by decide +kernel

theorem witness_RampSettings :
    Taking ship ∧
    (∀ l ∈ [1#8, 32#8], ∀ h ∈ [1#8, 16#8],
      1 ≤ l.toNat ∧ l.toNat ≤ 32 ∧ 1 ≤ h.toNat ∧ h.toNat ≤ 16 ∧ 10 ≤ (10#8).toNat) ∧
    ((0#8).toNat < 1 ∧ 32 < (33#8).toNat ∧ 16 < (17#8).toNat ∧ (9#8).toNat < 10) ∧
    (TriggerMode.ofCode (1#8).toNat = some .manual ∧ TriggerSource.ofCode (2#8).toNat = some .requestOnly) ∧
    1 < (2#8).toNat ∧ 2 < (3#8).toNat := by decide +kernel

def lineRamp (q : SeqState) : State := { ship with lower := { ship.lower with source := .line1, seq := q } }

theorem witness_TriggerStartsHeavyRun :
    (Taking ship ∧ (ship.ramp .lower).source = .requestOnly ∧ (ship.ramp .lower).seq ≠ .waitTrigger) ∧
    (((withSeq .waitTrigger ship).ramp .lower).source = .requestOnly ∧
      ((withSeq .waitTrigger ship).ramp .lower).seq = .waitTrigger) ∧
    (Taking (lineRamp .idle) ∧ ((lineRamp .idle).ramp .lower).source ≠ .requestOnly) ∧
    ((lineRamp .waitTrigger).power = .up ∧ (lineRamp .waitTrigger).pins.pressed .line1 = false ∧
      (lineRamp .waitTrigger).upper.source ≠ .line1 ∧ (lineRamp .waitTrigger).lower.source = .line1 ∧
      (lineRamp .waitTrigger).lower.seq = .waitTrigger) ∧
    (ship.pins.setPressed .line1 true).pressed .line1 = true := by decide +kernel

theorem witness_TriggerStartsHeavyRun_upper :
    ∀ q ∈ [SeqState.waitTrigger, .idle],
      { lineRamp q with upper := (lineRamp .waitTrigger).lower }.lower.source = .line1 ∧
      { lineRamp q with upper := (lineRamp .waitTrigger).lower }.upper.source = .line1 ∧
      { lineRamp q with upper := (lineRamp .waitTrigger).lower }.upper.seq = .waitTrigger := by decide +kernel

theorem witness_RampBandSets :
    Taking ship ∧ Modelled ship ∧ (3#8).toNat ≤ 3 ∧ 3 < (4#8).toNat ∧ (ship.ramp .lower).band = 0 ∧
    (∀ n ∈ [1, 2], (ship.ramp .lower).band ≠ n ∧ n < 3) ∧ (ship.ramp .lower).band ≠ 3 ∧ 3 ≤ 3 := by decide +kernel

theorem witness_BothRamps : Taking ship ∧ 2 < (3#8).toNat ∧ Direction.code .outbound = 1 := by decide +kernel

theorem witness_ReleaseRule :
    (∃ v b l x, assigned.veh? 7 = some v ∧ assigned.bandOf .lower = some b ∧ v.stage.lane? = some l ∧
      assigned.lane? l = some x) ∧
    canRelease .lower 7 assigned = true ∧ (assigned.ramp .lower).queue .light = 7 :: [] ∧
    (ship.updRamp .lower fun q => { q with band := 3 }).bandOf .lower = none :=
  ⟨⟨car 7 (.assigned 0), _, 0, _, rfl, rfl, rfl, rfl⟩, by decide +kernel, by decide +kernel, by decide +kernel⟩

/-- LOWER in a light run whose head cannot be released, the timer running. -/
def stalling : State :=
  { assigned with lower := { assigned.lower with seq := .lightRun, stall := .running 1, mass := 400000 } }

theorem witness_StallAndSilence :
    stalling.power = .up ∧ (stalling.ramp .lower).stall = .running 1 ∧
    (stalling.ramp .lower).seq.run? = some .light ∧ (stalling.ramp .lower).queue .light = 7 :: [] ∧
    stalling.link.silence = .running 15 := by decide +kernel

/-! ### Witnesses: sensors, tracking and panels -/

theorem witness_WatchAndLatches :
    Taking ship ∧ Modelled ship ∧ ship.scopeLanes 0 2 = some ([2], 1) ∧ ship.scopeLanes 1 0 = some ([0, 1], 0) ∧
    (2#8).toNat ≤ 2 ∧ (3#8).toNat < 2 ^ ship.decks.length ∧ 2 ^ ship.decks.length ≤ (4#8).toNat := by decide +kernel

theorem witness_LevelAndClear :
    Taking ship ∧ Modelled ship ∧ (ship.deck? 1).isSome = true ∧ (3#8).toNat ≤ 3 ∧ ship.deck? 2 = none ∧
    3 < (4#8).toNat ∧ (ship.lane? 2).isSome = true ∧ ship.lane? 3 = none := by decide +kernel

/-- Lane 0's loop at score `n`, SUSPECT or not. -/
def scored (n : Nat) (b : Bool) : State := ship.updLane 0 fun x => { x with score := n, suspect := b }

/-- The loops of lanes 0 and 1 SUSPECT. -/
def twoSuspect : State := (scored 7 true).updLane 1 fun x => { x with suspect := true }

theorem witness_LevelAndClear_loops :
    ((ship.lane? 0).any fun x => x.mode = .sensed ∧ x.score - 1 = x.score ∧ min 15 (x.score + 2) ≠ x.score) ∧
    (((scored 15 false).lane? 0).any fun x => min 15 (x.score + 2) = x.score ∧ x.score - 1 ≠ x.score) ∧
    (((ship.updLane 0 fun x => { x with mode := .confirm }).lane? 0).any fun x => x.mode = .confirm) ∧
    (∀ s ∈ [scored 6 false, scored 7 false, scored 7 true], ((s.lane? 0).bind s.deckOf).map Deck.level = some 1 ∧
      s.limits.sensor.thresholds[1]? = some 7) ∧
    ((ship.sect? 0).any fun c => ship.sensorModeOf 0 = c.mode) ∧
    ((twoSuspect.sect? 0).any fun c => twoSuspect.sensorModeOf 0 ≠ c.mode) ∧
    twoSuspect.sensorModeOf 0 = .confirmOnly := by decide +kernel

theorem witness_CrestEvents :
    (released.power = .up ∧ Modelled released ∧ (released.ramp .lower).crestOccupied = false) ∧
    ((released.updRamp .lower fun q => { q with crestOccupied := true }).ramp .lower).crestOccupied = true ∧
    (unloading.ramp .lower).direction = .outbound ∧
    (∀ n ∈ [1, 4], ((ship.updRamp .lower fun q => { q with crestCredits := n }).ramp .lower).direction = .inbound ∧
      0 < ((ship.updRamp .lower fun q => { q with crestCredits := n }).ramp .lower).crestCredits) ∧
    ((ship.ramp .lower).direction = .inbound ∧ (ship.ramp .lower).crestCredits = 0 ∧ (ship.ramp .lower).onRamp = []) ∧
    (released.ramp .lower).onRamp = 7 :: [] ∧ (released.veh? 7).bind (fun v => v.stage.lane?) = some 0 := by
  decide +kernel

theorem witness_CrestEvents_noProfile : State.reset.power = .up ∧ State.reset.profile.inForce = false := by decide +kernel

/-- The panel moving. -/
def moving : State := withPanel { panel .raising with timer := .running 1 } ship

theorem witness_LaneEdges :
    (ship.power = .up ∧ (ship.lane? 0).any fun x => ship.reads x true ≠ x.occupied) ∧
    ((moving.lane? 2).bind fun x => (moving.carrier? x.sect).map fun q => q.2.state.moving) = some true ∧
    ((ship.lane? 0).any fun x => ship.borrowed x = false ∧ x.state.counts false = false ∧ x.state.counts true = true ∧
      x.mode = .sensed) ∧
    (((ship.updLane 0 fun x => { x with mode := .confirm }).lane? 0).any fun x => x.mode = .confirm) ∧
    ((unloading.lane? 0).any fun x => unloading.borrowed x = false ∧ x.state.counts false = true ∧
      x.state = .unloading) ∧
    (((ship.updLane 0 fun x => { x with entryCredits := 1 }).lane? 0).any fun x => 0 < x.entryCredits) ∧
    ((past.lane? 0).any fun x => x.entryCredits = 0 ∧ x.pastCrest = 7 :: [] ∧ (past.veh? 7).isSome = true) ∧
    ((released.lane? 0).any fun x => x.entryCredits = 0 ∧ x.pastCrest = [] ∧
      (released.firstOnRampFor (released.rampOf x) 0).isSome = true) ∧
    (ship.lane? 0).any fun x => x.entryCredits = 0 ∧ x.pastCrest = [] ∧
      ship.firstOnRampFor (ship.rampOf x) 0 = none := by decide +kernel

/-- A watched lane with its deck's notice enable on, and a deck's notice enable off. -/
theorem witness_LaneEdges_watch :
    (ship.lane? 0).map Lane.watch = some false ∧
    ((onLanes (fun x => { x with watch := true }) ship).lane? 0).any (fun x => x.watch = true ∧
      (ship.sect? x.sect).any fun c => (ship.deck? c.deck).any fun d => d.noticeOn = true) ∧
    ((ship.updDeck 0 fun d => { d with noticeOn := false }).deck? 0).any fun d => d.noticeOn = false := by decide +kernel

theorem witness_CreditWindowsRunOut :
    (((ship.updLane 0 fun x => { x with entryCredits := 1, entryWindow := .running 20 }).lane? 0).any
      fun x => x.entryWindow = .running 20) ∧
    (((ship.updLane 0 fun x => { x with exitCredits := 4, exitWindow := .running 0 }).lane? 0).any
      fun x => x.exitWindow = .running 0) ∧
    ((ship.updRamp .lower fun q => { q with crestCredits := 1, crestWindow := .running 1 }).ramp .lower).crestWindow =
      .running 1 := by decide +kernel

theorem witness_CreditWindowsRunOut_gains :
    (∀ n ∈ [3, 4], ((ship.updLane 0 fun x => { x with entryCredits := n, exitCredits := n }).lane? 0).any
      fun x => x.entryCredits = n ∧ x.exitCredits = n) ∧
    (∀ n ∈ [3, 4], ((ship.updRamp .lower fun q => { q with crestCredits := n }).ramp .lower).crestCredits = n) ∧
    3 < 4 ∧ 4 ≤ 4 := by decide +kernel

theorem witness_TransitExpires :
    (released.power = .up ∧ ((released.veh? 7).map fun v => (v.transit, v.stage)) = some (.running 120, .onRamp 0)) ∧
    ((past.veh? 7).map fun v => (v.transit, v.stage)) = some (.running 9, .pastCrest 0) := by decide +kernel

/-- The panel in FAULT with its up-limit line alone active. -/
def regained : State :=
  { withPanel (panel .fault) ship with
    pins := { State.reset.pins with upLimit := #v[true, false, false, false] } }

def bothLimits : State :=
  { ship with pins := { ship.pins with upLimit := #v[true, false, false, false] } }

theorem witness_PanelMoves :
    (∀ s ∈ [ship, regained, moving, bothLimits], Taking s ∧ Modelled s ∧ (s.panel? 0).isSome = true) ∧
    hoistTarget (0#8).toNat = some (.stowed, .stowed, .raising) ∧
    (PanelPos.moving .working = false ∧ ship.linePos 0 ≠ .both ∧ PanelPos.working ≠ .stowed ∧
      ship.firstLoadedOn 0 = none ∧ ship.firstTallUnder 0 = none ∧ ship.firstTraffic 0 = none) ∧
    ((regained.panel? 0).map Panel.state = some .fault ∧ regained.linePos 0 = .stowed ∧
      regained.firstLoadedOn 0 = none ∧ regained.firstTallUnder 0 = none ∧ regained.firstTraffic 0 = none) ∧
    (moving.panel? 0).map Panel.state = some .raising ∧ bothLimits.linePos 0 = .both ∧
    ∀ l ∈ ship.lanesOn 0, (ship.lane? l).any fun y => y.occupied = false := by decide +kernel

/-- Lane 2, on the panel, with a claim. -/
def loadedPanel : State := ship.updLane 2 fun x => { x with claims := [7] }

/-- A vehicle of height class 3, in stage `st`, claiming lane 1 under the panel in state `p`. -/
def tallUnder (p : PanelPos) (st : Stage) (h : Nat) : State :=
  { withPanel (panel p) (ship.updLane 1 fun x => { x with claims := [7] }) with
    vehicles := [{ car 7 st with height := h }] }

theorem witness_PanelMoves_refusals :
    (hoistTarget (1#8).toNat = some (.working, .working, .lowering) ∧
      (ship.panel? 0).map Panel.state = some .working) ∧
    loadedPanel.firstLoadedOn 0 = some 2 ∧
    ((tallUnder .stowed (.assigned 1) 3).firstTallUnder 0 = some (7, 1) ∧
      (tallUnder .stowed (.assigned 1) 3).linePos 0 ≠ .both) ∧
    ((tallUnder .working (.onRamp 1) 1).firstLoadedOn 0 = none ∧
      (tallUnder .working (.onRamp 1) 1).firstTraffic 0 = some (some 7, 1)) ∧
    (ship.updLane 1 fun x => { x with state := .unloading }).firstTraffic 0 = some (none, 1) ∧
    ship.panel? (1#8).toNat = none ∧ 1 < (2#8).toNat := by decide +kernel

theorem witness_PanelMoves_obstructed :
    (ship.panel? 0).isSome = true ∧ ship.lanesOn 0 = [] ++ 2 :: [] ∧
    ((ship.updLane 2 fun x => { x with occupied := true }).lane? 2).any fun y => y.occupied = true := by decide +kernel

theorem witness_PanelLines :
    (ship.power = .up ∧ ship.pins.limit 0 .down ≠ false ∧ ship.pins.limit 3 .up ≠ true) ∧
    (∀ st ∈ [PanelPos.raising, .stowed, .unknown, .fault],
      ((withPanel (panel st) regained).panel? 0).map Panel.state = some st ∧
      (withPanel (panel st) regained).downActive 0 = false) ∧
    (∀ st ∈ [PanelPos.lowering, .working],
      ((withPanel (panel st) ship).panel? 0).map Panel.state = some st ∧
      (withPanel (panel st) ship).upActive 0 = false) ∧
    moving.power = .up ∧ (moving.panel? 0).map (fun x => (x.state.moving, x.timer)) = some (true, .running 1) := by
  decide +kernel

/-- The four line positions, with and without a load or a tall vehicle; UNKNOWN among the states. -/
theorem witness_PanelLines_positions :
    (regained.upActive 0 = true ∧ regained.downActive 0 = false ∧ regained.firstLoadedOn 0 = none ∧
      { loadedPanel with pins := regained.pins }.firstLoadedOn 0 = some 2) ∧
    (ship.upActive 0 = false ∧ ship.downActive 0 = true ∧ ship.firstTallUnder 0 = none ∧
      (tallUnder .working (.assigned 1) 3).firstTallUnder 0 = some (7, 1)) ∧
    ({ ship with pins := State.reset.pins }.upActive 0 = false ∧ { ship with pins := State.reset.pins }.downActive 0 = false) ∧
    (bothLimits.upActive 0 = true ∧ bothLimits.downActive 0 = true) ∧
    (∀ st ∈ [PanelPos.raising, .lowering],
      ((withPanel (panel st) bothLimits).panel? 0).any fun x => x.state = st ∧ x.state.moving = true) ∧
    (positionCheck regained 0).1 = .stowed ∧ (positionCheck ship 0).1 = .working ∧ (positionCheck bothLimits 0).1 = .fault := by
  decide +kernel

/-! ### Witnesses: the voyage, signals and the profile -/

theorem witness_VoyageSetAndLoad :
    Taking ashore ∧ Taking State.reset ∧ State.reset.profile = .none ∧
    { ashore with profile := .committing true }.profile.isCommitting = true ∧
    (ship.profile = .active ∧ ship.voyage ≠ .noVoyage) ∧ (ashore.profile = .active ∧ ashore.voyage = .noVoyage) ∧
    (0 < 1 ∧ 4 < 5) ∧ (∀ n ∈ [1, 4], 1 ≤ n ∧ n ≤ 4) ∧ unloading.voyage = .discharge 1 2 ∧ 1 ≠ 2 ∧
    { unloading with voyage := .discharge 2 2 }.voyage = .discharge 2 2 := by decide +kernel

theorem witness_VoyageSetAndLoad_phase : ∀ c n, ashore.voyage ≠ .discharge c n := by
  intro c n h
  cases h

theorem witness_CallOpens :
    Taking { ship with voyage := .atSea 1 2 } ∧ { ship with voyage := .atSea 1 2 }.voyage = .atSea 1 2 ∧
    (∀ c n, ship.voyage ≠ .atSea c n) ∧ ∀ c n, unloading.voyage ≠ .atSea c n :=
  ⟨by decide +kernel, rfl, fun _ _ => (by intro h; cases h), fun _ _ => (by intro h; cases h)⟩

/-- Vehicle 7 PLACED and due at the open call 1. -/
def due : State := { placed with voyage := .discharge 1 2 }

theorem witness_CallCloses :
    (Taking assigned ∧ assigned.voyage = .load 0 2 ∧ 0 < assigned.assignedCount + assigned.releasedCount) ∧
    (∀ s ∈ [due, ship], Taking s ∧ s.assignedCount = 0 ∧ s.releasedCount = 0 ∧ s.firstUnloading = none ∧
      s.lower.seq = .stopped ∧ s.upper.seq = .stopped) ∧
    (due.voyage = .discharge 1 2 ∧ 0 < due.dueCount 1 ∧ 1 ≠ 2) ∧ ship.voyage = .load 0 2 ∧ ship.dueCount 0 = 0 := by
  decide +kernel

theorem witness_CallCloses_refusals :
    (unloading.assignedCount = 0 ∧ unloading.releasedCount = 0 ∧ unloading.firstUnloading = some 0) ∧
    ((withSeq .idle due).assignedCount = 0 ∧ (withSeq .idle due).releasedCount = 0 ∧
      (withSeq .idle due).firstUnloading = none ∧ (withSeq .idle due).lower.seq ≠ .stopped) ∧
    Taking ashore ∧ ∀ c n, ashore.voyage ≠ .discharge c n ∧ ashore.voyage ≠ .load c n :=
  ⟨by decide +kernel, by decide +kernel, by decide +kernel,
    fun _ _ => ⟨fun h => (nomatch h), fun h => (nomatch h)⟩⟩

theorem witness_CallCloses_standby : waiting.standby.Nodup ∧ waiting.records waiting.standby = [car 8 .standby] := by
  decide +kernel

/-- Vehicle 7 PLACED and due at the open call `c`, with LOWER OUTBOUND. -/
def outward (c : Nat) : State :=
  { placed with voyage := .discharge c 2, lower := { ship.lower with direction := .outbound } }

theorem witness_LaneDischarge :
    (∀ s ∈ [unloading, assigned, due, outward 1, outward 2], Taking s ∧ (s.lane? 0).isSome = true) ∧
    (unloading.lane? 0).map Lane.state = some .unloading ∧
    (assigned.lane? 0).map (fun x => (x.state, x.claims)) = some (.opened, [7]) ∧
    ((due.lane? 0).any fun x => (due.ramp (due.rampOf x)).direction = .inbound ∧ x.claims = []) ∧
    ((outward 1).lane? 0).any (fun x => x.claims = [] ∧ ((outward 1).ramp ((outward 1).rampOf x)).direction = .outbound ∧
      (outward 1).barringPanel x = none ∧ (outward 1).tailCall? x = some 1) ∧
    ((outward 2).lane? 0).any (fun x => (outward 2).barringPanel x = none ∧ (outward 2).tailCall? x ≠ some 2) := by
  decide +kernel

theorem witness_LaneDischarge_refusals :
    (Taking ashore ∧ ashore.voyage = .noVoyage ∧ due.lane? 3 = none) ∧
    (((withPanel (panel .stowed) (outward 1)).lane? 2).any fun x =>
      (withPanel (panel .stowed) (outward 1)).barringPanel x = some (0, .stowed) ∧ x.claims = []) ∧
    (((withPanel (panel .raising) (outward 1)).lane? 1).any fun x => x.cover = some ⟨0, 2⟩ ∧
      (withPanel (panel .raising) (outward 1)).carrier? x.sect = none ∧
      (withPanel (panel .raising) (outward 1)).barringPanel x = some (0, .raising)) ∧
    ((outward 1).lane? 1).any fun x => (outward 1).carrier? x.sect = none ∧ (outward 1).barringPanel x = none := by
  decide +kernel

theorem witness_SignalsAndClosures :
    Taking ship ∧ Modelled ship ∧ ship.scopeLanes 1 0 = some ([0, 1], 0) ∧ SignalMode.ofCode 2 = some .dark ∧
    (Instr.closureSet 5 3 3 0 1 2 0).request? ≠ none ∧
    (closureItems ship.sections.length 3 3 0 1 2 0).isSome = true ∧
    (closureItems ship.sections.length 0 0xFFFFFF 0xFFFFFF 2 2 2).isSome = true := by decide +kernel

theorem witness_SignalsAndClosures_refusals :
    (Taking State.reset ∧ State.reset.profile.inForce = false) ∧
    (1 < (2#8).toNat ∧ 2 < (3#8).toNat ∧ ship.lane? (3#8).toNat = none ∧ ship.deck? (2#8).toNat = none) ∧
    (∀ c ∈ [4, 0x80, 0xFF], closureItems 2 c 0 0 2 2 2 = none) ∧
    (closureItems 2 1 3 0 2 2 2 ≠ none ∧ closureItems 2 1 4 0 2 2 2 = none ∧ closureItems 2 2 0 4 2 2 2 = none) ∧
    closureItems 2 0 0 0 3 2 2 = none ∧ closureItems 2 0 0 0 2 3 2 = none ∧ closureItems 2 0 0 0 2 2 3 = none := by
  decide +kernel

theorem witness_SignalsAndClosures_aspects :
    (∀ m ∈ [SignalMode.dark, .forceRed, .auto],
      ((ship.updLane 0 fun x => { x with signal := m }).lane? 0).any fun x => x.signal = m) ∧
    ((unloading.lane? 0).any fun x => x.signal = .auto ∧ x.state = .unloading) ∧
    ((released.lane? 0).any fun x => (released.records x.claims).any fun v => v.stage.released ∧ v.overdue = false) ∧
    ((assigned.lane? 0).any fun x => (assigned.records x.claims).all fun v => v.stage.released = false) := by
  decide +kernel

/-- A draft of `n` records. -/
def drafted (n : Nat) : State := { ship with draft := (List.range n).map fun i => ⟨.lane, i, []⟩ }

def vesselRec : ProfRec := ⟨.vessel, 0, [1, 1, 1, 0, 0x4E, 0x20]⟩

theorem witness_DraftAndProfileReads :
    Taking ship ∧ { ship with profile := .committing true }.profile.isCommitting = true ∧
    ship.profile.isCommitting = false ∧
    (RecType.ofCode 4 = some .lane ∧ RecType.lane.indexOk 95 = true ∧ RecType.lane.lengthOk 10 = true ∧
      RecType.lane.lengthOk 12 = true) ∧
    ((drafted 159).draft.length < 160 ∧ findRec (drafted 159).draft .vessel 0 = none) ∧
    (findRec (drafted 160).draft .vessel 0 = none ∧ 160 ≤ (drafted 160).draft.length) ∧
    (findRec (drafted 1).draft .lane 0).isSome = true ∧
    (ship.profile = .active ∧ required [vesselRec] .vessel 0 = true ∧
      findRec [vesselRec] .vessel 0 = some vesselRec) ∧
    { ship.store with locked := true }.locked = true ∧ RecType.vessel.certified = true := by decide +kernel

theorem witness_DraftAndProfileReads_refusals :
    (2 ≤ [0#8, 0#8].length ∧ [0#8, 0#8].length ≤ 12) ∧ State.reset.profile = .none ∧
    (∀ t, RecType.ofCode 4 = some t → t.indexOk 96 = false) ∧ (∀ t, RecType.ofCode 9 = some t → t.indexOk 0 = false) ∧
    RecType.lane.lengthOk 11 = false ∧ findRec ship.draft .lane 0 = none ∧
    findRec ship.store.records .lane 0 = none ∧ required [vesselRec] .lane 1 = false ∧
    State.reset.store.locked = false ∧ RecType.deck.certified = false := by
  refine ⟨by decide +kernel, by decide +kernel, ?_, ?_, by decide +kernel⟩ <;> intro t h <;> cases h <;> rfl

/-- A profile of one MAIN deck, one section and one lane. -/
def profile : List ProfRec :=
  let ramp : List Byte := [0, 120, 12, 3, 1, 1, 0x90, 0, 60, 0, 30]
  [vesselRec, ⟨.deck, 0, [0, 0]⟩, ⟨.sect, 0, [0, 1, 0]⟩, ⟨.lane, 0, [0, 0, 0, 0, 2, 0x58, 4, 4, 120, 1]⟩,
    ⟨.ramp, 0, ramp⟩, ⟨.ramp, 1, ramp⟩]
  ++ (List.range 6).map (fun i => ⟨.dg, i + 1, [0, 0, 0, 0, 0, 0, 0]⟩) ++ [⟨.sensor, 0, [10, 7, 5, 3, 2, 1, 20]⟩]

def ready : State := { State.reset with draft := profile }

theorem witness_CommitBeginsAndEnds :
    (Taking ready ∧ ready.profile.isCommitting = false ∧ (12#8).toNat ≠ ready.draft.length) ∧
    ((13#8).toNat = ready.draft.length ∧ (BitVec.ofNat 16 (draftSum ready.draft)).toNat = draftSum ready.draft ∧
      ready.store.locked = false ∧ ready.notAtRest = none ∧ validate (candidate ready.store ready.draft) = none) ∧
    { ready with profile := .committing false }.power = .up ∧
    { ready with profile := .committing false }.profile.isCommitting = true := by decide +kernel

/-- The lock set over a draft with a certified record, a vehicle in the table, a draft that fails, a key that a record
fails, and the list of a draft in its order. -/
theorem witness_CommitBeginsAndEnds_refusals :
    (certifiedOnly profile = vesselRec :: (certifiedOnly profile).tail ∧ certifiedOnly (profile.take 0) = []) ∧
    ({ ready with vehicles := [car 7 .standby] }.notAtRest = some 1 ∧ { ready with voyage := .atSea 0 1 }.notAtRest = some 2 ∧
      (withSeq .idle ready).notAtRest = some 3 ∧ (withPanel (panel .raising) ready).notAtRest = some 4) ∧
    validate (candidate ready.store (profile.drop 1)) = some (.vessel, 0, .missing) ∧
    profile.Pairwise (fun a b => a.before b = true) ∧
    (findRec profile .lane 1 = none ∧ required profile .lane 1 = false ∧ findRec profile .lane 0 ≠ none ∧
      required profile .lane 0 = true ∧ required profile .panel 0 = false) ∧
    (findRec (profile ++ [⟨.panel, 0, [0, 0, 60]⟩]) .panel 0 ≠ none ∧
      required (profile ++ [⟨.panel, 0, [0, 0, 60]⟩]) .panel 0 = false) := by decide +kernel

theorem witness_SettingsFrame :
    (Instr.laneShut 5 0).isSetting = true ∧ Taking ship ∧ ∃ t, exec (.laneShut 5 0) ship = .next t :=
  ⟨by decide +kernel, by decide +kernel, _, rfl⟩

/-! ### Witnesses: the first refusals, and what the shared functions are said to do -/

/-- No profile in force: met by every clause that answers NO_PROFILE. -/
theorem witness_noProfile : Taking State.reset ∧ State.reset.profile.inForce = false := by decide +kernel

/-- A queue of `n` notices. -/
def notified (n : Nat) : State :=
  withLink (fun k => { k with notices := List.replicate n (.crestUnexpected .lower) }) ship

theorem witness_FrameEndStartsNext_notices :
    (notified 63).link.notices.length < 64 ∧ 64 ≤ (notified 64).link.notices.length ∧ rampCode .upper = 1 ∧
    (ending fun k => { k with rxBuf := [frame], waitingReply := some frame }).link.rxBuf = frame :: [] := by decide +kernel

theorem witness_ReceiverBytes_rejections :
    (ending fun k => { k with waitingRejection := some frame }).link.waitingRejection = some frame ∧
    ship.link.waitingRejection = none := by decide +kernel

theorem witness_ResetStowMemory_profile :
    (stored ship).store.mark = .active ∧ State.reset.store.mark ≠ .active ∧
    (let t := resetNow .line { ship with store := { ship.store with records := profile } }
     (t.lane? 0).isSome = true ∧ (t.sect? 0).isSome = true ∧ t.decks.length = 1) ∧
    (let t := resetNow .line (stored ship)
     t.lanes.length = 3 ∧ t.sections.length = 2 ∧ t.decks.length = 2 ∧ (t.panel? 0).isSome = true) := by decide +kernel

/-- Lanes 0 and 1 lie on one deck, side by side; the DG table has one group. -/
theorem witness_AllocationFirstRanked_model :
    (∀ l ∈ [0, 1, 2], (ship.lane? l).any fun x => (ship.sect? x.sect).any fun c => (ship.deck? c.deck).isSome) ∧
    ({ ship with limits := { ship.limits with dg := [⟨[0, 1, 2, 3, 4, 0], true⟩] } }.limits.dg[1 - 1]?).any
      fun q => q.openDeckOnly = true ∧ q.levels[2 - 1]? = some 1 := by decide +kernel

/-- A sequencer in each state, with queues that the RECALL has left empty and queues that it has not. -/
theorem witness_RecallWithdraws_sequencer :
    (∀ q ∈ [SeqState.stopped, .idle, .waitTrigger, .lightRun, .heavyRun], ((withSeq q ship).ramp .lower).seq = q) ∧
    (∀ k ∈ [Kind.light, .heavy], ((withSeq .waitTrigger ship).ramp .lower).queue k = []) ∧
    (∀ k ∈ [Kind.light, .heavy], ((running .lightRun 0).ramp .lower).queue k ≠ []) ∧
    (assigned.veh? 7 = some (car 7 (.assigned 0)) ∧ (assigned.lane? 0).isSome = true) := by decide +kernel

theorem witness_VehicleGetReports_stages :
    (Taking ship ∧ ship.veh? (7#32).toNat = none) ∧ (8 ∈ waiting.standby ∧ 7 ∉ waiting.standby) ∧
    7 ∈ (assigned.ramp (assigned.rampOfNo 0)).queue .light ∧
    7 ∉ (released.ramp (released.rampOfNo 0)).queue .light := by decide +kernel

theorem witness_PlacementEffects_whole :
    (past.lane? 0).isSome = true ∧ placed.lengthOf 4 [7] = 49 ∧ placed.lengthOf 4 [] = 0 := by decide +kernel

theorem witness_DepartRemoves_refusals :
    (∀ s ∈ [waiting, assigned, placed, unloading], Taking s ∧ Modelled s) ∧ ship.veh? (7#32).toNat = none ∧
    waiting.veh? 8 = some (car 8 .standby) ∧
    (assigned.veh? 7 = some (car 7 (.assigned 0)) ∧ (assigned.lane? 0).isSome = true ∧
      (Stage.assigned 0).lane? = some 0 ∧ (Stage.assigned 0).isPlaced = false) ∧
    ((placed.lane? 0).any fun x => x.state ≠ .unloading ∧ (Stage.placed 0 0).lane? = some 0) ∧
    ((unloading.updLane 0 fun x => { x with stow := [7, 5] }).lane? 0).any fun x =>
      x.state = .unloading ∧ x.stow.getLast? ≠ some 7 := by decide +kernel

theorem witness_LaneAndSectionReports_range : Taking ship ∧ Modelled ship ∧ ship.lane? (3#8).toNat = none := by
  decide +kernel

theorem witness_ThresholdSets_model :
    (ship.lane? 0).isSome = true ∧ ((ship.sect? 1).any fun c => (ship.deck? c.deck).isSome) ∧
    ship.sectsOf 1 = [1] := by decide +kernel

theorem witness_RampTurns_codes : Taking ship ∧ 1 < (2#8).toNat ∧ 1 < (0xFF#8).toNat := by decide +kernel

theorem witness_BothRamps_single : BitVec.ofNat 8 (rampCode .upper) = 1#8 ∧ 2 < (3#8).toNat := by decide +kernel

/-- Both sequencers STOPPED, and LOWER alone running. -/
theorem witness_StallAndSilence_halts :
    (ship.power = .up ∧ ship.link.silence = .running 15 ∧ ship.lower.seq = .stopped ∧ ship.upper.seq = .stopped) ∧
    (stalling.power = .up ∧ stalling.lower.seq ≠ .stopped ∧ stalling.upper.seq = .stopped) := by decide +kernel

theorem witness_WatchAndLatches_refusals :
    Taking ship ∧ Modelled ship ∧ 1 < (2#8).toNat ∧ 2 < (3#8).toNat ∧ ship.lane? (3#8).toNat = none ∧
    ship.deck? (2#8).toNat = none := by decide +kernel

/-- Clearing the one SUSPECT loop of a CONFIRM_ONLY pair lowers the section's mode; clearing a lone one does not. -/
theorem witness_LevelAndClear_clears :
    (let s := twoSuspect.updSect 0 fun c => { c with mode := .confirmOnly }
     let t := remodeSect 0 (remodeLane 0 (s.updLane 0 fun x => { x with score := 0, suspect := false }))
     (s.lane? 0).isSome = true ∧ (s.sect? 0).any fun c => (t.sect? 0).any fun d => d.mode.code < c.mode.code) ∧
    (let s := scored 7 true
     let t := remodeSect 0 (remodeLane 0 (s.updLane 0 fun x => { x with score := 0, suspect := false }))
     (s.lane? 0).isSome = true ∧ (s.sect? 0).any fun c => (t.sect? 0).any fun d => c.mode.code ≤ d.mode.code) := by
  decide +kernel

/-- The panel moving, and the borrowed loop of lane 2 on it SUSPECT. -/
def borrowedSuspect : State := moving.updLane 2 fun x => { x with score := 9, suspect := true, mode := .confirm }

theorem witness_LevelAndClear_borrowed :
    (borrowedSuspect.lane? 2).any (fun x => borrowedSuspect.borrowed x = true ∧ x.suspect = true ∧ x.mode = .confirm) ∧
    (borrowedSuspect.lane? 0).any (fun x => borrowedSuspect.borrowed x = false) ∧ (borrowedSuspect.sect? 1).isSome := by
  decide +kernel

theorem witness_LevelAndClear_modes :
    (lane 0 0).mode = .sensed ∧ { lane 0 0 with mode := PlacementMode.confirm }.mode = .confirm ∧
    ((scored 7 true).lane? 0).any (fun x => x.suspect = true ∧ (ship.sect? x.sect).isSome) ∧
    ((ship.lane? 0).bind ship.deckOf).any (fun d => ship.limits.sensor.thresholds[d.level]? = some 7) := by decide +kernel

theorem witness_LaneEdges_none :
    (ship.power = .up ∧ ship.lane? 3 = none) ∧ ((ship.lane? 0).any fun x => ship.reads x false = x.occupied) ∧
    ((ship.lane? 0).any fun x => (ship.sect? x.sect).any fun c => (ship.deck? c.deck).any fun d => d.occupiedHigh) ∧
    (LaneState.opened.counts true = true ∧ LaneState.unloading.counts false = true) ∧
    (moving.carrier? 1).isSome = true ∧ (ship.lane? 2).any (fun x => moving.borrowed x = true) := by decide +kernel

/-- The panel in state `st`, its last fault `f`, with the lines of `s`. -/
def faulted (f : LastFault) (s : State) : State := withPanel { panel .fault with fault := f } s

/-- The outcomes of a stop: at a limit line in the same and in another state, both lines in FAULT with the same and
with another reason, no line. -/
theorem witness_PanelMoves_stops :
    ((positionCheck ship 0).1 = .working ∧ (ship.panel? 0).map Panel.state = some .working) ∧
    ((positionCheck (withPanel (panel .lowering) ship) 0).1 = .working ∧
      ((withPanel (panel .lowering) ship).panel? 0).map Panel.state = some .lowering) ∧
    (positionCheck regained 0).1 = .stowed ∧
    (positionCheck bothLimits 0 = (.fault, ⟨.doubleLimit, none, none⟩) ∧
      (bothLimits.panel? 0).map Panel.state = some .working) ∧
    (∀ f ∈ [(⟨.doubleLimit, none, none⟩ : LastFault), ⟨.timeout, none, none⟩],
      positionCheck (faulted f bothLimits) 0 = (.fault, ⟨.doubleLimit, none, none⟩) ∧
      ((faulted f bothLimits).panel? 0).map (fun x => (x.state, x.fault)) = some (.fault, f)) ∧
    ∀ st ∈ [PanelPos.unknown, .raising, .fault],
      (positionCheck (withPanel (panel st) { ship with pins := State.reset.pins }) 0).1 = .unknown ∧
      ((withPanel (panel st) { ship with pins := State.reset.pins }).panel? 0).map Panel.state = some st := by
  decide +kernel

theorem witness_CallCloses_codes : Taking ship ∧ 1 < (2#8).toNat ∧ unloading.firstUnloading = some 0 := by decide +kernel

theorem witness_DraftAndProfileReads_keys :
    RecType.ofCode 8 = some .sensor ∧ RecType.ofCode 0 = none ∧ RecType.dg.indexOk 0 = false ∧
    RecType.dg.indexOk 6 = true := by decide +kernel

/-- The state that a command leaves. -/
def after (i : Instr) (s : State) : State :=
  match exec i s with
  | .next t => t
  | .fault _ | .refused _ => s

/-- A commit in progress whose completion builds one lane, deck and section; and records at the bounds of VALUE and
REFERENCE: a section on deck 1 of one deck is in range and names none (log 37). -/
theorem witness_CommitBeginsAndEnds_builds :
    { ready with profile := .committing false }.profile.isCommitting = true ∧
    (let t := after .profileWriteComplete { ready with profile := .committing false }
     t.lanes.length = 1 ∧ t.decks.length = 1 ∧ t.sections.length = 1) ∧
    ((⟨.sect, 0, [1, 1, 0]⟩ : ProfRec).valuesOk = true ∧ (⟨.sect, 0, [1, 1, 0]⟩ : ProfRec).refsOk profile = false) ∧
    (⟨.sect, 0, [0, 0x0F, 0xA0]⟩ : ProfRec).valuesOk = true ∧ (⟨.sect, 0, [0, 0x0F, 0xA1]⟩ : ProfRec).valuesOk = false := by
  decide +kernel

/-! ### One step each -/

/-- The body of the frame on the line. -/
def sent (s : State) : List Byte := (s.link.inProgress.map fun x => x.frame.body).getD []

/-- The reset-cause set is POWER; the lock is off; no profile, no voyage (R189). -/
theorem test_status : sent (after (.status 9 0) State.reset) =
    [0, 0, 1, 0, 0, 0, 0, 0, 0, 0xFF, 0xFF, 0, 0, 0, 0, 0, 0, 0, 0, 0, 0] := by decide +kernel

theorem test_arrive : sent (after (.arrive 5 8 1 45 1 1500 10 1 0 []) ship) = [0x02, 0, 0, 0, 1] ∧
    ((after (.arrive 5 8 1 45 1 1500 10 1 0 []) ship).lane? 0).map (fun x => (x.claims, x.used, x.mass)) =
      some ([8], 49, 1504) := by decide +kernel

theorem test_start_releases : (after (.rampStart 5 0) assigned).lower.onRamp = [7] ∧
    (after (.rampStart 5 0) assigned).lower.mass = 1504 ∧ (after (.rampStart 5 0) assigned).lower.seq = .idle ∧
    (after (.rampStart 5 0) assigned).link.notices = [.released 7 0 .lower] := by decide +kernel

theorem test_crest : ((after (.crestLoopEdge .lower true) released).lane? 0).map Lane.pastCrest = some [7] ∧
    (after (.crestLoopEdge .lower true) released).lower.mass = 0 := by decide +kernel

theorem test_entry : ((after (.laneLoopEdge 0 true) past).lane? 0).map (fun x => (x.stow, x.claims, x.placedMass)) =
    some ([7], [], 1504) := by decide +kernel

theorem test_phantom : ((after (.laneLoopEdge 0 true) ship).lane? 0).map Lane.score = some 2 := by decide +kernel

theorem test_depart : (after (.depart 5 7) unloading).vehicles = [] ∧
    ((after (.depart 5 7) unloading).lane? 0).map (fun x => (x.state, x.stow)) = some (.opened, []) := by decide +kernel

theorem test_hoist : ((after (.hoistMove 5 0 0) ship).panel? 0).map (fun x => (x.state, x.timer, x.raise)) =
    some (.raising, .running 60, true) := by decide +kernel

/-- A clear of a borrowed loop: the score and the reply at once, state and mode at the end of the move (R121, R127). -/
theorem test_clear_borrowed :
    let t := after (.sensorClear 5 2) borrowedSuspect
    let u := after (.moveTimeout 0) t
    sent t = [0, 0, 9, 1] ∧ (t.lane? 2).map (fun x => (x.score, x.suspect, x.mode)) = some (0, true, .confirm) ∧
    (u.lane? 2).map (fun x => (x.score, x.suspect, x.clearing, x.mode)) = some (0, false, false, .sensed) := by
  decide +kernel

theorem test_wait_release : sent (after (.transmitFrameEnd) (after (.rampStart 5 0) assigned)) =
    [1, 0, 0, 0, 7, 0, 0] := by decide +kernel

theorem test_frame_bytes : (Frame.bytes ⟨0x35, 5, []⟩).length = 6 ∧
    after (.frameReceive (Frame.bytes ⟨0x35, 5, []⟩)) ship = after (.callOpen 5) ship := by decide +kernel

/-- A RAMP record's fields in the order of R174's rows (log 32). -/
theorem test_ramp_record : buildRampRec profile 0 = ⟨120, [⟨12, 400⟩, ⟨3, 60⟩, ⟨1, 30⟩]⟩ := by decide +kernel

end Sys2Proof.Tests
end

section
/-! O6: the laws of the books through every command and through the second of an empty queue. -/

namespace Sys2Proof.Machine

variable {s t : State}

/-! ### Commands and the laws of the books -/

/-- A request whose handler keeps the laws of the books keeps them, taken at once or buffered. -/
theorem BookLaw.requested (h : BookLaw s) {g : Handler} (hg : Keeps g) {f : Frame}
    (e : (.next (Machine.requestArrives f g s) : Next) = .next t) : BookLaw t := by
  cases e
  exact h.requestArrives hg f

/-- The level of a line is none of the books. -/
theorem BookLaw.pinned (h : BookLaw s) (f : Pins → Pins) : BookLaw (setPins f s) := h.of_books rfl

theorem BookLaw.powerOnReset (h : BookLaw s) (e : execPowerOnReset s = .next t) : BookLaw t := by
  cases e
  exact BookLaw.ite (BookLaw.refresh ((h.resetNow .power).of_books rfl)) (h.resetNow .power)

theorem BookLaw.lineResetAssert (h : BookLaw s) (e : execLineResetAssert s = .next t) : BookLaw t := by
  have line := h.pinned fun p => { p with resetIn := true }
  unfold execLineResetAssert at e
  cases power : s.power <;> rw [power] at e <;> cases e
  · exact BookLaw.refresh (line.of_books rfl)
  · exact line
  · exact line

theorem BookLaw.lineResetRelease (h : BookLaw s) (e : execLineResetRelease s = .next t) : BookLaw t := by
  have line := h.pinned fun p => { p with resetIn := false }
  unfold execLineResetRelease at e
  cases power : s.power <;> rw [power] at e <;> cases e
  · exact line
  · exact line.resetNow .line
  · exact line

theorem BookLaw.requestReset (h : BookLaw s) (e : execRequestReset s = .next t) : BookLaw t := by
  unfold execRequestReset at e
  cases power : s.power <;> rw [power] at e <;> cases e
  · exact BookLaw.ite (h.resetNow .request) h
  · exact h
  · exact h

/-- Every command keeps the laws of the books. -/
theorem BookLaw.exec_next (h : BookLaw s) (i : Instr) (e : exec i s = .next t) : BookLaw t := by
  cases i with
  | status lt c => exact h.requested (keeps_status _) e
  | reset lt => exact h.requested keeps_reset e
  | linkSilence lt n => exact h.requested (keeps_linkSilence _) e
  | arrive => exact h.requested (keeps_arrive _) e
  | recallVehicle lt tag => exact h.requested (keeps_recall _) e
  | vehicleGet lt tag => exact h.requested (keeps_vehicleGet _) e
  | confirm lt tag lane => exact h.requested (keeps_confirm _ _) e
  | depart lt tag => exact h.requested (keeps_depart _) e
  | laneGet lt lane start => exact h.requested (keeps_laneGet _ _) e
  | sectionGet lt i => exact h.requested (keeps_sectionGet _) e
  | thresholdSet lt target n => exact h.requested (keeps_thresholdSet _ _) e
  | laneShut lt lane => exact h.requested (keeps_laneShut _) e
  | laneOpen lt lane => exact h.requested (keeps_laneOpen _) e
  | rampStart lt r => exact h.requested (keeps_onRamps _ partKeeps_start) e
  | rampStop lt r => exact h.requested (keeps_onRamps _ partKeeps_stop) e
  | rampDirection lt r d => exact h.requested (keeps_rampDirection _ _) e
  | runPair lt r l hv stall => exact h.requested (keeps_onRamps _ (partKeeps_runPair _ _ _)) e
  | triggerMode lt r m src => exact h.requested (keeps_onRamps _ (partKeeps_triggerMode _ _)) e
  | trigger lt r => exact h.requested (keeps_onRamps _ partKeeps_trigger) e
  | rampBand lt r n => exact h.requested (keeps_onRamps _ (partKeeps_band _)) e
  | sensorWatch => exact h.requested (keeps_sensorWatch _ _ _ _) e
  | sensorLevel => exact h.requested (keeps_sensorLevel _ _) e
  | sensorLatches => exact h.requested (keeps_sensorLatches _) e
  | sensorClear => exact h.requested (keeps_sensorClear _) e
  | hoistMove => exact h.requested (keeps_hoistMove _ _) e
  | hoistStop => exact h.requested (keeps_hoistStop _) e
  | voyageSet => exact h.requested (keeps_voyageSet _) e
  | callOpen => exact h.requested keeps_callOpen e
  | phaseLoad => exact h.requested keeps_phaseLoad e
  | callClose => exact h.requested (keeps_callClose _) e
  | dischargeLane => exact h.requested (keeps_dischargeLane _) e
  | signalSet => exact h.requested (keeps_signalSet _ _ _) e
  | closureSet => exact h.requested (keeps_closureSet _ _ _ _ _ _) e
  | draftPut => exact h.requested (keeps_serveDraftPut _) e
  | draftClear => exact h.requested keeps_draftClear e
  | draftGet => exact h.requested (keeps_draftGet _ _) e
  | profileCommit => exact h.requested (keeps_profileCommit _ _) e
  | profileLock => exact h.requested keeps_profileLock e
  | profileGet => exact h.requested (keeps_profileGet _ _) e
  | unknownKind => exact h.requested (keeps_serve _) e
  | frameReceive bytes => cases e; exact h.rxBytes bytes
  | interByteGap => cases e; exact h.dropPartial
  | badStopBitByte => cases e; exact h.dropPartial
  | transmitFrameEnd => cases e; exact h.frameEnds
  | powerOnReset => exact h.powerOnReset e
  | lineResetAssert => exact h.lineResetAssert e
  | lineResetRelease => exact h.lineResetRelease e
  | requestReset => exact h.requestReset e
  | stowMarkBroken => cases e; exact h.of_books rfl
  | mainSupplyLoss => cases e; exact BookLaw.refresh (h.of_books rfl)
  | triggerLinePress line => exact (h.pinned _).eventIf (fun _ _ k => k.pressLine line) e
  | triggerLineRelease line => cases e; exact h.pinned _
  | crestLoopEdge r high => exact (h.pinned _).eventIf (fun _ _ k => k.crestLine r high) e
  | laneLoopEdge l high => exact (h.pinned _).eventIf (fun _ _ k => k.laneLine l high) e
  | limitLineEvent p line a => exact (h.pinned _).eventIf (fun _ _ k => k.limitEvent p line a) e
  | stallTimerExpiry r => exact h.eventIf (fun _ _ k => k.stallExpires r) e
  | linkSilenceExpiry => exact h.eventIf (fun _ _ k => k.silenceExpires) e
  | entryCreditWindowExpiry l => exact h.eventIf (fun _ _ k => k.of_books (entryWindowExpires_books l)) e
  | crestCreditWindowExpiry r => exact h.eventIf (fun _ _ k => k.of_books (crestWindowExpires_books r)) e
  | exitCreditWindowExpiry l => exact h.eventIf (fun _ _ k => k.of_books (exitWindowExpires_books l)) e
  | transitExpiry tag => exact h.eventIf (fun _ _ k => k.transitExpires tag) e
  | moveTimeout p => exact h.eventIf (fun _ _ k => k.moveExpires p) e
  | profileWriteComplete => exact h.eventIf (fun commits _ k => k.writeCompletes commits) e
  | profileWriteFailure ty i => exact h.eventIf (fun _ _ _ => BookLaw.writeFails ty i _) e

/-- Every step keeps the laws of the books. -/
theorem BookLaw.step_next (h : BookLaw s) (e : step s = .next t) : BookLaw t := by
  unfold step at e
  split at e
  · rename_i c cs _
    exact (h.of_books (t := { s with pending := cs }) rfl).exec_next c e
  · cases e
    exact h.tick

/-- The module of a store never written keeps no vehicle and has no deck model. -/
theorem bookLaw_reset : BookLaw State.reset := by
  refine Bare.bookLaw ⟨rfl, rfl, rfl, fun _ h => (nomatch h), fun _ h => (nomatch h), rfl, fun r => ?_⟩
    ⟨fun e => (nomatch e), fun _ _ => rfl, fun _ h => (nomatch h), fun _ h => (nomatch h), fun e => (nomatch e)⟩
  cases r <;> exact ⟨rfl, rfl, rfl, rfl, rfl⟩

/-- No lamp is lit after a reset, and no head or drive is there to be on. -/
theorem outputsLaw_reset : OutputsLaw State.reset :=
  ⟨fun _ => ⟨rfl, rfl, fun _ h => (nomatch h), fun _ h => (nomatch h)⟩, fun down => absurd rfl down⟩

/-- The link port of a reset has nothing waiting and nothing in progress. -/
theorem linkLaw_reset : LinkLaw State.reset := by decide

end Sys2Proof.Machine

open Sys2Proof Sys2Proof.Machine

/-- Settles O6: the values of a reset, and the laws of the books through each command and each second. -/
theorem lawsHoldAtReset : Obligations.LawsHoldAtReset :=
  ⟨⟨⟨rfl, rfl⟩, outputsLaw_reset, linkLaw_reset⟩, bookLaw_reset, fun _ _ h e => h.step_next e⟩

end

section
/-! O13: the tally code, segment by segment (R3, R4). -/

namespace Sys2Proof.Machine

/-! ### Rounding up -/

/-- A quotient rounded up is the least whose multiple reaches the dividend. -/
theorem ceilDiv_spec {d : Nat} (hd : 0 < d) (x : Nat) : x ≤ d * ceilDiv x d ∧ d * ceilDiv x d ≤ x + (d - 1) := by
  have split := Nat.div_add_mod (x + (d - 1)) d
  have rest := Nat.mod_lt (x + (d - 1)) hd
  unfold ceilDiv
  omega

/-! ### Decoding rises strictly -/

/-- The four segments of the decoded mass (R3). -/
theorem decodeMass_segments (c : Nat) :
    (c ≤ 255 → decodeMass c = 8 * c) ∧
    (256 ≤ c → c ≤ 639 → decodeMass c = 2048 + 16 * (c - 256)) ∧
    (640 ≤ c → c ≤ 1407 → decodeMass c = 8192 + 32 * (c - 640)) ∧
    (1408 ≤ c → decodeMass c = 32768 + 64 * (c - 1408)) := by
  unfold decodeMass
  refine ⟨fun _ => ?_, fun _ _ => ?_, fun _ _ => ?_, fun _ => ?_⟩
  · rw [if_pos (by omega)]
  · rw [if_neg (by omega), if_pos (by omega)]
  · rw [if_neg (by omega), if_neg (by omega), if_pos (by omega)]
  · rw [if_neg (by omega), if_neg (by omega), if_neg (by omega)]

theorem decodeMass_lt_succ (c : Nat) : decodeMass c < decodeMass (c + 1) := by
  have here := decodeMass_segments c
  have next := decodeMass_segments (c + 1)
  omega

theorem decodeMass_mono {b c : Nat} (h : b ≤ c) : decodeMass b ≤ decodeMass c := by
  induction h with
  | refl => exact Nat.le_refl _
  | step _ ih => exact Nat.le_trans ih (Nat.le_of_lt (decodeMass_lt_succ _))

/-! ### Encoding rounds up -/

/-- What R4 asks of the code `c` of a mass `m` in a segment of step `d`: between the ends of the code, D(c) at least m and
less than a step above it, and no smaller code as good. -/
structure CodeOf (m d c : Nat) : Prop where
  low : 1 ≤ c
  high : c ≤ 1920
  reaches : m ≤ decodeMass c
  near : decodeMass c ≤ m + (d - 1)
  least : ∀ b, b < c → decodeMass b < m

/-- The least code is the one whose predecessor decodes to less. -/
theorem CodeOf.of_pred {m d c : Nat} (low : 1 ≤ c) (high : c ≤ 1920) (reaches : m ≤ decodeMass c)
    (near : decodeMass c ≤ m + (d - 1)) (pred : decodeMass (c - 1) < m) : CodeOf m d c where
  low := low
  high := high
  reaches := reaches
  near := near
  least b hb := Nat.lt_of_le_of_lt (decodeMass_mono (by omega)) pred

/-- A segment of step `d` from code `k` and mass `b` on encodes the masses that the code before it does not reach. -/
theorem codeOf_segment {m d k b n : Nat} (hd : 0 < d) (codes : ∀ j ≤ n, decodeMass (k + j) = b + d * j)
    (before : decodeMass (k - 1) < m) (within : m ≤ b + d * n) (first : b ≤ m + (d - 1))
    (low : 1 ≤ k + ceilDiv (m - b) d) (high : k + n ≤ 1920) : CodeOf m d (k + ceilDiv (m - b) d) := by
  obtain ⟨reaches, near⟩ := ceilDiv_spec hd (m - b)
  have inside : ceilDiv (m - b) d ≤ n := by
    refine Nat.le_of_not_lt fun beyond => ?_
    have := Nat.mul_le_mul_left d (Nat.succ_le_of_lt beyond)
    rw [Nat.mul_succ] at this
    omega
  cases step : ceilDiv (m - b) d with
  | zero =>
    have here := codes 0 (Nat.zero_le n)
    rw [step, Nat.mul_zero] at reaches
    rw [step] at low
    exact .of_pred low (by omega) (by omega) (by omega) before
  | succ j =>
    have here := codes (j + 1) (step ▸ inside)
    have pred := codes j (by omega)
    rw [step, Nat.mul_succ] at reaches near
    rw [Nat.mul_succ] at here
    refine .of_pred (by omega) (by omega) (by omega) (by omega) ?_
    rw [Nat.add_succ_sub_one, pred]
    omega

theorem encodeMass_step8 {m : Nat} (hm : 1 ≤ m) (h : m ≤ 2040) :
    encodeMass m = ceilDiv m 8 ∧ CodeOf m 8 (encodeMass m) := by
  have e : encodeMass m = 0 + ceilDiv (m - 0) 8 := by
    rw [Nat.zero_add]; exact if_pos h
  have reaches := (ceilDiv_spec (d := 8) (by decide) (m - 0)).1
  refine ⟨e.trans (Nat.zero_add _), e ▸ codeOf_segment (n := 255) (by decide) (fun j hj => ?_) hm ?_ ?_ ?_ ?_⟩
  · exact ((decodeMass_segments (0 + j)).1 (by omega)).trans (by omega)
  all_goals omega

theorem encodeMass_step16 {m : Nat} (hm : 2041 ≤ m) (h : m ≤ 8176) :
    encodeMass m = 256 + ceilDiv (m - 2048) 16 ∧ CodeOf m 16 (encodeMass m) := by
  have e : encodeMass m = 256 + ceilDiv (m - 2048) 16 := by
    unfold encodeMass; rw [if_neg (by omega), if_pos h]
  refine ⟨e, e ▸ codeOf_segment (n := 383) (by decide) (fun j hj => ?_) hm ?_ ?_ ?_ ?_⟩
  · exact ((decodeMass_segments (256 + j)).2.1 (by omega) (by omega)).trans (by omega)
  all_goals omega

theorem encodeMass_step32 {m : Nat} (hm : 8177 ≤ m) (h : m ≤ 32736) :
    encodeMass m = 640 + ceilDiv (m - 8192) 32 ∧ CodeOf m 32 (encodeMass m) := by
  have e : encodeMass m = 640 + ceilDiv (m - 8192) 32 := by
    unfold encodeMass; rw [if_neg (by omega), if_neg (by omega), if_pos h]
  refine ⟨e, e ▸ codeOf_segment (n := 767) (by decide) (fun j hj => ?_) hm ?_ ?_ ?_ ?_⟩
  · exact ((decodeMass_segments (640 + j)).2.2.1 (by omega) (by omega)).trans (by omega)
  all_goals omega

theorem encodeMass_step64 {m : Nat} (hm : 32737 ≤ m) (h : m ≤ 65535) :
    encodeMass m = 1408 + ceilDiv (m - 32768) 64 ∧ CodeOf m 64 (encodeMass m) := by
  have e : encodeMass m = 1408 + ceilDiv (m - 32768) 64 := by
    unfold encodeMass; rw [if_neg (by omega), if_neg (by omega), if_neg (by omega)]
  refine ⟨e, e ▸ codeOf_segment (n := 512) (by decide) (fun j hj => ?_) hm ?_ ?_ ?_ ?_⟩
  · exact ((decodeMass_segments (1408 + j)).2.2.2 (by omega)).trans (by omega)
  all_goals omega

/-- Every mass of R4 has its code, in one of the four segments. -/
theorem encodeMass_codeOf {m : Nat} (hm : 1 ≤ m) (h : m ≤ 65535) : ∃ d, CodeOf m d (encodeMass m) := by
  by_cases h8 : m ≤ 2040
  · exact ⟨8, (encodeMass_step8 hm h8).2⟩
  by_cases h16 : m ≤ 8176
  · exact ⟨16, (encodeMass_step16 (by omega) h16).2⟩
  by_cases h32 : m ≤ 32736
  · exact ⟨32, (encodeMass_step32 (by omega) h32).2⟩
  · exact ⟨64, (encodeMass_step64 (by omega) h).2⟩

/-- A mass outside 1 to 65,535 kg never passes the range check (R4, R6). -/
theorem arriveRange_mass {n : Nat} {a : Arrival} (h : a.mass = 0 ∨ 65535 < a.mass) : arriveRange n a ≠ none := by
  have bad : (decide (a.mass < 1) || decide (65535 < a.mass)) = true := by
    rcases h with h | h <;> simp [h]
  unfold arriveRange
  simp only [bad, if_true]
  repeat' split
  all_goals exact fun e => nomatch e

end Sys2Proof.Machine

open Sys2Proof Sys2Proof.Machine

/-- Settles O13, segment by segment. -/
theorem tallyCodes : Obligations.TallyCodes := by
  refine ⟨fun m hm h => ?_, fun n a => ⟨rfl, arriveRange_mass⟩, fun c _ => decodeMass_lt_succ c, rfl, rfl⟩
  obtain ⟨d, code⟩ := encodeMass_codeOf hm h
  refine ⟨code.low, code.high, code.reaches, code.least, fun h8 => ?_, fun low h16 => ?_, fun low h32 => ?_, fun low => ?_⟩
  · obtain ⟨e, c⟩ := encodeMass_step8 hm h8
    exact ⟨e, c.near⟩
  · obtain ⟨e, c⟩ := encodeMass_step16 low h16
    exact ⟨e, c.near⟩
  · obtain ⟨e, c⟩ := encodeMass_step32 low h32
    exact ⟨e, c.near⟩
  · obtain ⟨e, c⟩ := encodeMass_step64 low h
    exact ⟨e, c.near⟩

end

section
/-! O22: power-on, the reset line, the loss of supply and the broken mark. -/

namespace Sys2Proof.Machine

variable {s : State}

theorem outputsOff_dark (s : State) : DarkLaw (outputsOff s) := by
  refine ⟨rfl, rfl, fun x hx => ?_, fun p hp => ?_⟩
  · obtain ⟨y, -, rfl⟩ := List.mem_map.1 hx
    rfl
  · obtain ⟨y, -, rfl⟩ := List.mem_map.1 hp
    exact ⟨rfl, rfl⟩

/-- A running module whose reset line goes active is held, its outputs off. -/
theorem execLineResetAssert_up (up : s.power = .up) : execLineResetAssert s =
    .next (outputsOff { s with pins := { s.pins with resetIn := true }, power := .held }) := by
  unfold execLineResetAssert
  rw [up]
  rfl

/-- A held module is reset as the line goes inactive. -/
theorem execLineResetRelease_held (held : s.power = .held) : execLineResetRelease s =
    .next (resetNow .line { s with pins := { s.pins with resetIn := false } }) := by
  unfold execLineResetRelease
  rw [held]
  rfl

/-- Power-on resets the module; with the reset line active it is held from then on. -/
theorem execPowerOnReset_eq (s : State) : execPowerOnReset s = .next
    (if s.pins.resetIn then refresh { resetNow .power s with power := .held } else resetNow .power s) := rfl

end Sys2Proof.Machine

open Sys2Proof Sys2Proof.Machine

/-- Settles O22, command by command. -/
theorem powerAndLineResets : Obligations.PowerAndLineResets := by
  intro s
  refine ⟨fun free => ?_, fun active => ?_, fun up => ?_, execLineResetRelease_held, ?_, rfl⟩
  · exact (execPowerOnReset_eq s).trans (by rw [free]; rfl)
  · exact (execPowerOnReset_eq s).trans (by rw [active]; rfl)
  · exact ⟨_, execLineResetAssert_up up, rfl, rfl, outputsOff_dark _, rfl, rfl, rfl, rfl⟩
  · exact ⟨_, rfl, rfl, outputsOff_dark _, rfl, rfl, rfl, rfl, rfl⟩

end

section
/-! O24 and O25: an ARRIVE, its checks in their order and its end in a claim, on the standby list or in a refusal. -/

namespace Sys2Proof.Machine

variable {s : State}

/-! ### The checks of an ARRIVE (R5 to R9) -/

/-- Outside LOAD an ARRIVE is refused. -/
theorem reqArrive_phase (a : Arrival) (h : ∀ c n, s.voyage ≠ .load c n) : reqArrive a s = (s, plain .phase) := by
  unfold reqArrive
  split
  case h_4 c n e => exact absurd e (h c n)
  all_goals rfl

section Loading

variable {a : Arrival} {c n : Nat} (load : s.voyage = .load c n)
include load

theorem reqArrive_range {k : Nat} (range : arriveRange s.lanes.length a = some k) :
    reqArrive a s = (s, ⟨.range, u8 k⟩) := by
  unfold reqArrive
  simp only [load, range]

variable (range : arriveRange s.lanes.length a = none)
include range

theorem reqArrive_call (call : ¬ (c < a.call ∧ a.call ≤ n)) : reqArrive a s = (s, plain .call) := by
  have refused : (!(decide (c < a.call) && decide (a.call ≤ n))) = true := by
    rw [← Bool.decide_and, decide_eq_false call]; rfl
  unfold reqArrive
  simp only [load, range, refused, if_true]

variable (above : c < a.call) (below : a.call ≤ n)
include above below

theorem reqArrive_duplicate (known : (s.veh? a.tag).isSome = true) : reqArrive a s = (s, plain .duplicate) := by
  unfold reqArrive
  simp [load, range, above, below, known]

variable (new : s.veh? a.tag = none)
include new

theorem reqArrive_full (full : 2048 ≤ s.vehicles.length) : reqArrive a s = (s, plain .full) := by
  unfold reqArrive
  simp [load, range, above, below, new, Config.vehicleCapacity, full]

variable (room : s.vehicles.length < 2048)
include room

theorem reqArrive_unstowable {k : Nat} (stow : unstowableAt s a.vehicle = some k) :
    reqArrive a s = (s, ⟨.unstowable, u8 k⟩) := by
  unfold reqArrive
  simp [load, range, above, below, new, Config.vehicleCapacity, Nat.not_le.2 room, stow]

/-- An ARRIVE that passes every check is enrolled (R10). -/
theorem reqArrive_enrol (stow : unstowableAt s a.vehicle = none) : reqArrive a s = enrol a.vehicle s := by
  unfold reqArrive
  simp [load, range, above, below, new, Config.vehicleCapacity, Nat.not_le.2 room, stow]

end Loading

/-! ### The end of an admission (R10, R58, R60, R61) -/

theorem enrol_claim {v : Vehicle} {l : Nat} (claim : allocate s v = .claim l) : enrol v s =
    (claimLane v l false { s with vehicles := s.vehicles ++ [v] },
      ⟨.assigned, u8 l ++ u8 (rampCode (s.rampOfNo l))
        ++ u8 (((s.ramp (s.rampOfNo l)).queue v.cls.kind).length + 1)⟩) := by
  unfold enrol
  rw [claim]

theorem enrol_standby {v : Vehicle} {k : Nat} (noLane : allocate s v = .noCandidate k) (room : s.standby.length < 128) :
    enrol v s = ({ s with vehicles := s.vehicles ++ [v], standby := s.standby ++ [v.tag] },
      ⟨.standby, u8 (s.standby.length + 1) ++ u8 k⟩) := by
  unfold enrol
  rw [noLane]
  exact if_pos room

theorem enrol_full {v : Vehicle} {k : Nat} (noLane : allocate s v = .noCandidate k) (full : 128 ≤ s.standby.length) :
    enrol v s = (s, plain .standbyFull) := by
  unfold enrol
  rw [noLane]
  exact if_neg (Nat.not_lt.2 full)

/-! ### The field-range check (R6) -/

/-- One line of a chain of refusals, as a search for the first line that applies. -/
theorem ite_eq_find? {c : Prop} [Decidable c] {b : Bool} (n : Nat) {r : Option Nat} {lines : List (Nat × Bool)}
    (line : c ↔ b = true) (rest : r = (lines.find? fun q => q.2).map Prod.fst) :
    (if c then some n else r) = (((n, b) :: lines).find? fun q => q.2).map Prod.fst := by
  by_cases h : c
  · rw [if_pos h, List.find?_cons_of_pos (line.1 h)]
    rfl
  · rw [if_neg h, List.find?_cons_of_neg (fun e => h (line.2 e)), rest]

theorem arriveRange_eq_find? (lanes : Nat) (a : Arrival) : arriveRange lanes a = (List.find? (fun q => q.2)
    [ (0, decide (a.rest.length ≠ (if a.hasDg then 1 else 0) + (if a.hasLane then 1 else 0)))
    , (1, decide (a.tag < 1 ∨ 4294967295 < a.tag)), (2, decide (VClass.ofCode a.cls = none))
    , (3, decide (a.length < 20 ∨ 250 < a.length ∨ (a.cls = 1 ∧ 60 < a.length)))
    , (4, decide (a.height < 1 ∨ 4 < a.height ∨ (a.cls = 1 ∧ 2 < a.height)))
    , (5, decide (a.mass < 1 ∨ 65535 < a.mass)), (6, decide (a.axle < 1 ∨ 160 < a.axle)), (8, decide (8 ≤ a.flags))
    , (9, decide (∃ g, a.dg? = some g ∧ (g < 1 ∨ 6 < g))), (10, decide (∃ l, a.lane? = some l ∧ lanes ≤ l)) ]).map
      Prod.fst := by
  unfold arriveRange
  refine ite_eq_find? 0 ?_ <| ite_eq_find? 1 ?_ <| ite_eq_find? 2 ?_ <| ite_eq_find? 3 ?_ <| ite_eq_find? 4 ?_ <|
    ite_eq_find? 5 ?_ <| ite_eq_find? 6 ?_ <| ite_eq_find? 8 ?_ <| ite_eq_find? 9 ?_ <| ite_eq_find? 10 ?_ rfl
  case refine_9 => cases a.dg? <;> simp
  case refine_10 => cases a.lane? <;> simp
  all_goals simp [or_assoc]

/-! ### Static stowability (R9) -/

theorem mem_keepLanes {v : Vehicle} {test : State → Vehicle → Nat → Lane → Bool} {ls : List Nat} {l : Nat} :
    l ∈ keepLanes s v test ls ↔ l ∈ ls ∧ ∃ x, s.lane? l = some x ∧ test s v l x = true := by
  unfold keepLanes
  rw [List.mem_filter]
  cases s.lane? l <;> simp

/-- Every lane of the list fails one of the tests. -/
def AllFail (s : State) (v : Vehicle) (tests : List (State → Vehicle → Nat → Lane → Bool)) (ls : List Nat) : Prop :=
  ∀ l ∈ ls, ∀ x, s.lane? l = some x → ∃ test ∈ tests, test s v l x = false

/-- A lane of the list passes all the tests. -/
def SomePasses (s : State) (v : Vehicle) (tests : List (State → Vehicle → Nat → Lane → Bool)) (ls : List Nat) : Prop :=
  ∃ l ∈ ls, ∃ x, s.lane? l = some x ∧ ∀ test ∈ tests, test s v l x = true

theorem allFail_iff_not_somePasses {v : Vehicle} {tests : List (State → Vehicle → Nat → Lane → Bool)} {ls : List Nat} :
    AllFail s v tests ls ↔ ¬ SomePasses s v tests ls := by
  simp [AllFail, SomePasses]

/-- A lane of the list passes a test and those after it when a lane that the test keeps passes those. -/
theorem somePasses_cons {v : Vehicle} {test : State → Vehicle → Nat → Lane → Bool}
    {tests : List (State → Vehicle → Nat → Lane → Bool)} {ls : List Nat} :
    SomePasses s v (test :: tests) ls ↔ SomePasses s v tests (keepLanes s v test ls) := by
  constructor
  · rintro ⟨l, hl, x, hx, pass⟩
    exact ⟨l, mem_keepLanes.2 ⟨hl, x, hx, pass _ List.mem_cons_self⟩, x, hx, fun u hu => pass u (List.mem_cons_of_mem _ hu)⟩
  · rintro ⟨l, hl, x, hx, pass⟩
    obtain ⟨hl, y, hy, first⟩ := mem_keepLanes.1 hl
    cases hx.symm.trans hy
    exact ⟨l, hl, x, hx, List.forall_mem_cons.2 ⟨first, pass⟩⟩

/-- What no test has filtered is a lane that passes none. -/
theorem somePasses_nil {v : Vehicle} {test : State → Vehicle → Nat → Lane → Bool} {ls : List Nat} :
    SomePasses s v [] (keepLanes s v test ls) ↔ keepLanes s v test ls ≠ [] := by
  constructor
  · rintro ⟨l, hl, -⟩
    exact List.ne_nil_of_mem hl
  · intro some
    obtain ⟨l, hl⟩ := List.exists_mem_of_ne_nil _ some
    obtain ⟨-, x, hx, -⟩ := mem_keepLanes.1 hl
    exact ⟨l, hl, x, hx, fun _ h => (nomatch h)⟩

/-- Filters leave no lane at the first test that leaves none of those that passed the tests before it. -/
theorem runFilters_emptyAt {v : Vehicle} {k : Nat} : ∀ {tests : List (State → Vehicle → Nat → Lane → Bool)} {n : Nat}
    {ls : List Nat}, runFilters s v tests n ls = .emptyAt k ↔ ∃ j < tests.length, k = n + j ∧
      AllFail s v (tests.take (j + 1)) ls ∧ (0 < j → SomePasses s v (tests.take j) ls)
  | [], n, ls => by simp [runFilters]
  | test :: tests, n, ls => by
    unfold runFilters
    by_cases none : keepLanes s v test ls = []
    · have out : ∀ ts, ¬ SomePasses s v (test :: ts) ls := fun ts h => by
        obtain ⟨l, hl, -⟩ := somePasses_cons.1 h
        rw [none] at hl
        cases hl
      simp only [none, List.isEmpty_nil, if_true, Filtered.emptyAt.injEq]
      constructor
      · rintro rfl
        exact ⟨0, by simp, rfl, allFail_iff_not_somePasses.2 (out _), fun h => absurd h (Nat.lt_irrefl 0)⟩
      · rintro ⟨j, -, rfl, -, before⟩
        cases j with
        | zero => rfl
        | succ j => exact absurd (before j.succ_pos) (out _)
    · have kept : (keepLanes s v test ls).isEmpty = false := by simpa using none
      simp only [kept, Bool.false_eq_true, if_false]
      rw [runFilters_emptyAt]
      constructor
      · rintro ⟨j, hj, rfl, fail, before⟩
        refine ⟨j + 1, Nat.succ_lt_succ hj, by omega, ?_, fun _ => ?_⟩
        · rw [allFail_iff_not_somePasses] at fail ⊢
          exact fun h => fail (somePasses_cons.1 h)
        · refine somePasses_cons.2 ?_
          cases j with
          | zero => exact somePasses_nil.2 none
          | succ j => exact before j.succ_pos
      · rintro ⟨j, hj, rfl, fail, before⟩
        cases j with
        | zero =>
          rw [allFail_iff_not_somePasses] at fail
          exact absurd (somePasses_cons.2 (somePasses_nil.2 none)) fail
        | succ j =>
          refine ⟨j, Nat.lt_of_succ_lt_succ hj, by omega, ?_, fun _ => somePasses_cons.1 (before j.succ_pos)⟩
          rw [allFail_iff_not_somePasses] at fail ⊢
          exact fun h => fail (somePasses_cons.2 h)

/-- The lanes that the static tests start from: the requested lane, else every lane of the profile (R9). -/
def State.offered (s : State) (v : Vehicle) : List Nat :=
  match v.reqLane with
  | some l => [l]
  | none => List.range s.lanes.length

theorem mem_offered {v : Vehicle} {l : Nat} {x : Lane} (hx : s.lane? l = some x) :
    l ∈ s.offered v ↔ ∀ q, v.reqLane = some q → l = q := by
  have lane : l < s.lanes.length := (List.getElem?_eq_some_iff.1 hx).1
  unfold State.offered
  cases v.reqLane <;> simp [lane]

theorem unstowableAt_eq_some {v : Vehicle} {k : Nat} :
    unstowableAt s v = some k ↔ runFilters s v staticTests 1 (s.offered v) = .emptyAt k := by
  have e : unstowableAt s v = match runFilters s v staticTests 1 (s.offered v) with
    | .lanes _ => none
    | .emptyAt n => some n := rfl
  rw [e]
  cases runFilters s v staticTests 1 (s.offered v) <;> simp

/-- The static test at which the last lanes were eliminated (R9). -/
theorem unstowableAt_iff {v : Vehicle} {k : Nat} : unstowableAt s v = some k ↔ 1 ≤ k ∧ k ≤ 5 ∧
    AllFail s v (staticTests.take k) (s.offered v) ∧ (1 < k → SomePasses s v (staticTests.take (k - 1)) (s.offered v)) := by
  rw [unstowableAt_eq_some, runFilters_emptyAt]
  constructor
  · rintro ⟨j, hj, rfl, fail, before⟩
    have five : j < 5 := hj
    refine ⟨by omega, by omega, ?_, fun _ => ?_⟩
    · rwa [Nat.add_comm 1 j]
    · rw [Nat.add_sub_cancel_left]
      exact before (by omega)
  · rintro ⟨low, high, fail, before⟩
    refine ⟨k - 1, show k - 1 < 5 by omega, by omega, ?_, fun _ => before (by omega)⟩
    rwa [Nat.sub_add_cancel low]

theorem allFail_offered {v : Vehicle} {tests : List (State → Vehicle → Nat → Lane → Bool)} :
    AllFail s v tests (s.offered v) ↔ ∀ l x, s.lane? l = some x → (∀ q, v.reqLane = some q → l = q) →
      ∃ test ∈ tests, test s v l x = false :=
  ⟨fun fail l x hx h => fail l ((mem_offered hx).2 h) x hx, fun fail l hl x hx => fail l x hx ((mem_offered hx).1 hl)⟩

theorem somePasses_offered {v : Vehicle} {tests : List (State → Vehicle → Nat → Lane → Bool)} :
    SomePasses s v tests (s.offered v) ↔ ∃ l x, s.lane? l = some x ∧ (∀ q, v.reqLane = some q → l = q) ∧
      ∀ test ∈ tests, test s v l x = true := by
  constructor
  · rintro ⟨l, hl, x, hx, pass⟩
    exact ⟨l, x, hx, (mem_offered hx).1 hl, pass⟩
  · rintro ⟨l, x, hx, h, pass⟩
    exact ⟨l, (mem_offered hx).2 h, x, hx, pass⟩

/-- What the static tests S1 to S5 ask (R9). -/
theorem staticTests_ask (s : State) (v : Vehicle) (l : Nat) (x : Lane) : staticTests.map (fun test => test s v l x) =
    [ decide (v.height ≤ x.baseClass), decide (v.axle ≤ x.axleLimit), decide (v.length + x.gap ≤ x.usable)
    , decide (v.reefer = true → 1 ≤ x.sockets)
    , decide (∀ g, v.dg = some g → s.openDeckOnly g = true → s.onWeather x = true) ] := by
  have reefer : (!v.reefer || decide (1 ≤ x.sockets)) = decide (v.reefer = true → 1 ≤ x.sockets) := by
    cases v.reefer <;> simp
  have dg : (match v.dg with | some g => !s.openDeckOnly g || s.onWeather x | none => true) =
      decide (∀ g, v.dg = some g → s.openDeckOnly g = true → s.onWeather x = true) := by
    cases v.dg with
    | none => simp
    | some g => cases e : s.openDeckOnly g <;> simp [e]
  rw [← reefer, ← dg]
  rfl

end Sys2Proof.Machine

open Sys2Proof Sys2Proof.Machine

/-- Settles O24: the request is enrolled, and its claim answered. -/
theorem arriveAssigned : Obligations.ArriveAssigned := by
  rintro lt tag cls len h mass axle call flags rest s c n l a rfl taking load range above below new room stow claim
  refine congrArg _ (requestArrives_eq _ _ _ _ s taking ?_)
  exact (reqArrive_enrol (s := heard s) load range above below new room stow).trans (enrol_claim (s := heard s) claim)

/-- Settles O25: the standby list, the refusals, the fields of R6 and the static tests of R9, one by one. -/
theorem arriveStandby : Obligations.ArriveStandby := by
  refine ⟨?_, ?_, arriveRange_eq_find?, fun s v k => ?_, staticTests_ask⟩
  · rintro lt tag cls len h mass axle call flags rest s c n k a f rfl ⟨⟩ taking load range above below new room stow noLane
    have enrolled := reqArrive_enrol (s := heard s) load range above below new room stow
    exact ⟨fun space => congrArg _ (requestArrives_eq _ _ _ _ s taking (enrolled.trans (enrol_standby (s := heard s) noLane space))),
      fun full => congrArg _ (requestArrives_eq _ _ _ id s taking (enrolled.trans (enrol_full (s := heard s) noLane full)))⟩
  · rintro lt tag cls len h mass axle call flags rest s a f i rfl rfl ⟨⟩ taking
    have refused : ∀ {r : Reply}, reqArrive ⟨tag.toNat, cls.toNat, len.toNat, h.toNat, mass.toNat, axle.toNat, call.toNat,
        flags.toNat, rest⟩ (heard s) = (heard s, r) → exec (.arrive lt tag cls len h mass axle call flags rest) s =
        .next (taken ⟨0x10#8, lt, be 4 tag.toNat ++ [cls, len, h] ++ be 2 mass.toNat ++ [axle, call, flags] ++ rest⟩ r id s) :=
      fun e => congrArg _ (requestArrives_eq _ _ _ id s taking e)
    refine ⟨fun phase => refused (reqArrive_phase _ phase), fun c n load => ⟨fun k range => ?_, fun range =>
      ⟨fun outside => ?_, fun above below => ⟨fun known => ?_, fun new full => ?_, fun k new room stow => ?_⟩⟩⟩⟩
    · exact refused (reqArrive_range (s := heard s) load range)
    · exact refused (reqArrive_call (s := heard s) load range outside)
    · exact refused (reqArrive_duplicate (s := heard s) load range above below known)
    · exact refused (reqArrive_full (s := heard s) load range above below new full)
    · exact refused (reqArrive_unstowable (s := heard s) load range above below new room stow)
  · rw [unstowableAt_iff, allFail_offered, somePasses_offered]

end

section
/-! O29: VEHICLE_GET, the position it reports and the codes of its fields. -/

namespace Sys2Proof.Machine

variable {s : State}

theorem reqVehicleGet_unknown {tag : Nat} (unknown : s.veh? tag = none) : reqVehicleGet tag s = (s, plain .notFound) := by
  unfold reqVehicleGet
  rw [unknown]

theorem reqVehicleGet_known {tag : Nat} {v : Vehicle} (known : s.veh? tag = some v) : reqVehicleGet tag s =
    (s, ⟨.ok, be 4 v.tag ++ u8 v.cls.code ++ u8 v.length ++ u8 v.height ++ be 2 v.massCode ++ u8 v.axle
      ++ u8 v.call ++ u8 v.flags ++ optU8 v.dg ++ optU8 v.reqLane ++ u8 v.stage.code ++ optU8 v.stage.sub?
      ++ flag v.overdue ++ optU8 v.stage.lane? ++ v.stage.offsetBytes ++ be 3 v.mass ++ optU8 (s.positionOf v)⟩) := by
  unfold reqVehicleGet
  rw [known]

theorem positionIn_eq (tag : Nat) (xs : List Nat) :
    positionIn tag xs = if tag ∈ xs then some (xs.idxOf tag + 1) else none := by
  simp [positionIn]

/-- A vehicle has a position on the standby list and in its queue (R15). -/
theorem positionOf_eq (s : State) (v : Vehicle) : s.positionOf v = match v.stage with
    | .standby => if v.tag ∈ s.standby then some (s.standby.idxOf v.tag + 1) else none
    | .assigned l => if v.tag ∈ (s.ramp (s.rampOfNo l)).queue v.cls.kind
        then some (((s.ramp (s.rampOfNo l)).queue v.cls.kind).idxOf v.tag + 1) else none
    | .onRamp _ | .pastCrest _ | .placed _ _ => none := by
  unfold State.positionOf
  cases v.stage with
  | standby => exact positionIn_eq _ _
  | assigned l => exact positionIn_eq _ _
  | onRamp l => rfl
  | pastCrest l => rfl
  | placed l o => rfl

/-- The flags byte has a bit for each of REEFER, DG group and requested lane. -/
theorem flags_eq (v : Vehicle) : v.flags =
    (if v.reefer then 1 else 0) + (if v.dg = none then 0 else 2) + (if v.reqLane = none then 0 else 4) := by
  have present : ∀ (o : Option Nat) (n : Nat), (if o.isSome then n else 0) = if o = none then 0 else n := by
    intro o n; cases o <;> rfl
  unfold Vehicle.flags
  rw [present, present]

end Sys2Proof.Machine

open Sys2Proof Sys2Proof.Machine

/-- Settles O29: the request leaves the state as it is, and answers the record's fields. -/
theorem vehicleGetReports : Obligations.VehicleGetReports := by
  refine ⟨fun lt tag s taking unknown => ?_, positionOf_eq, ⟨rfl, flags_eq, fun l o => ⟨rfl, rfl, rfl, rfl, rfl⟩⟩,
    fun lt tag s v taking known => ?_⟩
  · exact congrArg _ (requestArrives_eq _ _ _ id s taking (reqVehicleGet_unknown (s := heard s) unknown))
  · exact congrArg _ (requestArrives_eq _ _ _ id s taking (reqVehicleGet_known (s := heard s) known))

end

section
/-! O28: a RECALL, in each state of the vehicle and of the sequencer, and what it leaves of lane, section and list. -/

namespace Sys2Proof.Machine

variable {s : State}

/-! ### What the sequencer does (R78, R81, R83, R86) -/

theorem recallReaches_resting {r : Ramp} (k : Kind) (rest : (s.ramp r).seq = .stopped ∨ (s.ramp r).seq = .idle) :
    recallReaches r k s = s := by
  unfold recallReaches
  rcases rest with e | e <;> rw [e]

/-- In WAIT_TRIGGER the heavy queue decides: left empty by the RECALL, a cycle starts. -/
theorem recallReaches_waiting {r : Ramp} (k : Kind) (wait : (s.ramp r).seq = .waitTrigger) : recallReaches r k s =
    if k = .heavy ∧ (s.ramp r).heavy = [] then cycleStart r s else s := by
  unfold recallReaches
  rw [wait]
  cases k with
  | light => simp
  | heavy => simp

/-- In a run its own queue decides: left empty by the RECALL, the run ends; else the head is examined. -/
theorem recallReaches_running {r : Ramp} (k : Kind) {j : Kind} (run : (s.ramp r).seq = .ofRun j) : recallReaches r k s =
    if k = j ∧ (s.ramp r).queue j = [] then seqAct r (.endRun j) s else examineRamp r s := by
  unfold recallReaches
  rw [run]
  cases j <;> cases k <;> simp [SeqState.ofRun, RampState.queue]

/-! ### The judgements after a removal leave lists, sums and ramps (R35, R37, R38) -/

/-- Vehicles, lists, ramps and the list moment of a state; and its sections without their arms. -/
structure SameLoad (s t : State) : Prop where
  vehicles : t.vehicles = s.vehicles
  standby : t.standby = s.standby
  lanes : t.lanes = s.lanes
  lower : t.lower = s.lower
  upper : t.upper = s.upper
  voyage : t.voyage = s.voyage
  moment : t.listMoment = s.listMoment

theorem SameLoad.refl (s : State) : SameLoad s s := ⟨rfl, rfl, rfl, rfl, rfl, rfl, rfl⟩

theorem SameLoad.trans {t u : State} (h : SameLoad s t) (k : SameLoad t u) : SameLoad s u where
  vehicles := k.vehicles.trans h.vehicles
  standby := k.standby.trans h.standby
  lanes := k.lanes.trans h.lanes
  lower := k.lower.trans h.lower
  upper := k.upper.trans h.upper
  voyage := k.voyage.trans h.voyage
  moment := k.moment.trans h.moment

/-- A section's arm is judged; the other sections, and this one's masses, stay. -/
theorem judgeSect_sect? (i : Nat) (s : State) : (∀ j, j ≠ i → (judgeSect i s).sect? j = s.sect? j) ∧
    ((judgeSect i s).sect? i).map Sect.books = (s.sect? i).map Sect.books := by
  unfold judgeSect
  split
  · exact ⟨fun _ _ => rfl, rfl⟩
  · rename_i c hc
    dsimp only
    split
    · refine ⟨fun j hj => (updSect_sect? s i j _).trans (if_neg hj.symm), ?_⟩
      exact (congrArg _ ((updSect_sect? s i i _).trans (if_pos rfl))).trans (by rw [hc]; rfl)
    · refine ⟨fun j hj => (updSect_sect? s i j _).trans (if_neg hj.symm), ?_⟩
      exact (congrArg _ ((updSect_sect? s i i _).trans (if_pos rfl))).trans (by rw [hc]; rfl)
    · exact ⟨fun _ _ => rfl, rfl⟩
    · exact ⟨fun _ _ => rfl, rfl⟩

theorem judgeSect_load (i : Nat) (s : State) : SameLoad s (judgeSect i s) := by
  unfold judgeSect
  split
  · exact .refl s
  · dsimp only
    split <;> exact ⟨rfl, rfl, rfl, rfl, rfl, rfl, rfl⟩

theorem judgeList_load (s : State) : SameLoad s (judgeList s) ∧ (judgeList s).sections = s.sections := by
  unfold judgeList
  dsimp only
  split
  · split <;> exact ⟨⟨rfl, rfl, rfl, rfl, rfl, rfl, rfl⟩, rfl⟩
  all_goals exact ⟨⟨rfl, rfl, rfl, rfl, rfl, rfl, rfl⟩, rfl⟩

theorem judgeListOver_load (s : State) : SameLoad s (judgeListOver s) ∧ (judgeListOver s).sections = s.sections := by
  unfold judgeListOver
  split
  · split <;> exact ⟨⟨rfl, rfl, rfl, rfl, rfl, rfl, rfl⟩, rfl⟩
  · exact ⟨⟨rfl, rfl, rfl, rfl, rfl, rfl, rfl⟩, rfl⟩

/-- The judgements of a removal from a lane: its section's arm, the list's arm, the list-over condition. -/
theorem judgeRemoval_of {l : Nat} {x : Lane} (hx : s.lane? l = some x) :
    judgeRemoval l s = judgeListOver (judgeList (judgeSect x.sect s)) := by
  unfold judgeRemoval
  rw [hx]

theorem judgeRemoval_load {l : Nat} {x : Lane} (hx : s.lane? l = some x) : SameLoad s (judgeRemoval l s) ∧
    (∀ j, j ≠ x.sect → (judgeRemoval l s).sect? j = s.sect? j) ∧
    ((judgeRemoval l s).sect? x.sect).map Sect.books = (s.sect? x.sect).map Sect.books := by
  rw [judgeRemoval_of hx]
  obtain ⟨listLoad, listSections⟩ := judgeList_load (judgeSect x.sect s)
  obtain ⟨overLoad, overSections⟩ := judgeListOver_load (judgeList (judgeSect x.sect s))
  obtain ⟨others, own⟩ := judgeSect_sect? x.sect s
  have sect : ∀ j, (judgeListOver (judgeList (judgeSect x.sect s))).sect? j = (judgeSect x.sect s).sect? j := fun j => by
    unfold State.sect?
    rw [overSections, listSections]
  refine ⟨((judgeSect_load x.sect s).trans listLoad).trans overLoad, fun j hj => ?_, ?_⟩
  · rw [sect, others j hj]
  · rw [sect, own]

/-! ### The share that a claim returns (R25, R33, R36) -/

/-- A lane of a recalled claim: without the claim, its overdue mark and its share. -/
def Lane.unclaimed (x : Lane) (v : Vehicle) : Lane :=
  { x with
    claims := without v.tag x.claims, overdue := x.overdue - (if v.overdue then 1 else 0)
    used := x.used - (v.length + x.gap), reefers := x.reefers - (if v.reefer then 1 else 0), mass := x.mass - v.mass }

/-- The claim's lane and section, and the list moment, once the claim is dropped and before its judgements. -/
def unclaim (v : Vehicle) (l : Nat) (s : State) : State :=
  (dropShare v l false (s.updLane l fun x => { x with
    claims := without v.tag x.claims, overdue := x.overdue - (if v.overdue then 1 else 0) })).freeVeh v.tag

theorem dropClaim_eq (v : Vehicle) (l : Nat) (s : State) : dropClaim v l s = judgeRemoval l (unclaim v l s) := rfl

/-- A returned share reaches lanes, sections and the list moment alone. -/
theorem dropShare_eq (v : Vehicle) (l : Nat) (p : Bool) (s : State) : dropShare v l p s =
    { s with lanes := (dropShare v l p s).lanes, sections := (dropShare v l p s).sections
             listMoment := (dropShare v l p s).listMoment } := by
  unfold dropShare
  split <;> rfl

theorem unclaim_link (v : Vehicle) (l : Nat) (s : State) :
    (unclaim v l s).link = s.link ∧ (unclaim v l s).listArm = s.listArm := by
  unfold unclaim
  rw [dropShare_eq]
  exact ⟨rfl, rfl⟩

/-- What a dropped claim leaves, lane by lane and section by section. -/
theorem unclaim_of {l : Nat} {x : Lane} (hx : s.lane? l = some x) (v : Vehicle) : unclaim v l s =
    { s with
      vehicles := s.vehicles.filter fun u => u.tag != v.tag
      lanes := s.lanes.modify l fun x => x.unclaimed v
      sections := s.sections.modify x.sect fun c => { c with projected := c.projected - v.mass, placed := c.placed - 0 }
      listMoment := s.listMoment - v.mass * x.offset } := by
  unfold unclaim
  rw [dropShare_updLane hx v false ⟨rfl, rfl⟩]
  rfl

theorem unclaim_lane? {l : Nat} {x : Lane} (hx : s.lane? l = some x) (v : Vehicle) (k : Nat) :
    (unclaim v l s).lane? k = if k = l then some (x.unclaimed v) else s.lane? k := by
  rw [unclaim_of hx]
  refine (updLane_lane? s l k _).trans ?_
  by_cases e : k = l
  · rw [if_pos e.symm, if_pos e, e, hx]
    rfl
  · rw [if_neg fun h => e h.symm, if_neg e]

theorem unclaim_sect? {l : Nat} {x : Lane} (hx : s.lane? l = some x) (v : Vehicle) (i : Nat) :
    (unclaim v l s).sect? i = if i = x.sect then (s.sect? i).map fun c => { c with projected := c.projected - v.mass }
      else s.sect? i := by
  rw [unclaim_of hx]
  refine (updSect_sect? s x.sect i _).trans ?_
  by_cases e : i = x.sect
  · rw [if_pos e.symm, if_pos e]
    rfl
  · rw [if_neg fun h => e h.symm, if_neg e]

/-! ### The request (R11 to R14) -/

theorem reqRecall_unknown {tag : Nat} (unknown : s.veh? tag = none) : reqRecall tag s = (s, plain .notFound) := by
  unfold reqRecall
  rw [unknown]

theorem reqRecall_removed {tag : Nat} {v : Vehicle} {u : State} (known : s.veh? tag = some v)
    (removal : recallRemoval v s = some u) : reqRecall tag s = (u.sweepTrigger, ⟨.ok, u8 v.stage.code⟩) := by
  unfold reqRecall
  simp only [known, removal]

theorem reqRecall_order {tag : Nat} {v : Vehicle} (known : s.veh? tag = some v) (kept : recallRemoval v s = none) :
    reqRecall tag s = (s, plain .order) := by
  unfold reqRecall
  simp only [known, kept]

theorem recallRemoval_standby {v : Vehicle} (stage : v.stage = .standby) :
    recallRemoval v s = some ({ s with standby := without v.tag s.standby }.freeVeh v.tag) := by
  unfold recallRemoval
  rw [stage]

theorem recallRemoval_assigned {v : Vehicle} {l : Nat} (stage : v.stage = .assigned l) : recallRemoval v s =
    some (recallReaches (s.rampOfNo l) v.cls.kind (dropClaim v l (s.updRamp (s.rampOfNo l) fun q =>
      q.setQueue v.cls.kind (without v.tag (q.queue v.cls.kind))))) := by
  unfold recallRemoval
  rw [stage]

theorem recallRemoval_onRamp {v : Vehicle} {l : Nat} (stage : v.stage = .onRamp l) :
    recallRemoval v s = some (examineRamp (s.rampOfNo l) (dropClaim v l (leaveRamp (s.rampOfNo l) v s))) := by
  unfold recallRemoval
  rw [stage]

theorem recallRemoval_pastCrest {v : Vehicle} {l : Nat} (stage : v.stage = .pastCrest l) :
    recallRemoval v s = some (examineRamp (s.rampOfNo l) (dropClaim v l (leaveCrest l v.tag s))) := by
  unfold recallRemoval
  rw [stage]

/-- A PLACED vehicle leaves only under R14. -/
theorem recallRemoval_placed {v : Vehicle} {l o : Nat} {x : Lane} (stage : v.stage = .placed l o) (hx : s.lane? l = some x) :
    recallRemoval v s = if s.mayPullBack v x then some (judgeRemoval l (dropPlaced v l s)) else none := by
  unfold recallRemoval
  simp only [stage, hx]

/-- R14: the tail of its stow list, no RELEASED claim in the lane, the lane not UNLOADING. -/
theorem mayPullBack_iff {v : Vehicle} {x : Lane} : s.mayPullBack v x = true ↔
    x.stow.getLast? = some v.tag ∧ s.hasReleased x = false ∧ x.state ≠ .unloading := by
  simp [State.mayPullBack, and_assoc]

/-- The command RECALL of a vehicle that is removed. -/
theorem exec_recall_removed {lt : Byte} {tag : BitVec 32} {v : Vehicle} (g : State → State)
    (taking : Taking s) (known : s.veh? tag.toNat = some v) (removal : recallRemoval v (heard s) = some (g (heard s))) :
    exec (.recallVehicle lt tag) s = .next (taken ⟨0x11#8, lt, be 4 tag.toNat⟩ ⟨.ok, u8 v.stage.code⟩
      (fun s => (g s).sweepTrigger) s) :=
  congrArg _ (requestArrives_eq _ _ _ (fun s => (g s).sweepTrigger) s taking
    (reqRecall_removed (s := heard s) known removal))

/-- A PLACED vehicle is recalled under R14, else the answer is ORDER. -/
theorem exec_recall_placed {lt : Byte} {tag : BitVec 32} {v : Vehicle} {l o : Nat} {x : Lane} (taking : Taking s)
    (known : s.veh? tag.toNat = some v) (stage : v.stage = .placed l o) (hx : s.lane? l = some x) :
    (x.stow.getLast? = some v.tag → s.hasReleased x = false → x.state ≠ .unloading →
      exec (.recallVehicle lt tag) s = .next (taken ⟨0x11#8, lt, be 4 tag.toNat⟩ ⟨.ok, u8 v.stage.code⟩
        (fun s => (judgeRemoval l (dropPlaced v l s)).sweepTrigger) s)) ∧
    (x.stow.getLast? ≠ some v.tag ∨ s.hasReleased x = true ∨ x.state = .unloading →
      exec (.recallVehicle lt tag) s = .next (taken ⟨0x11#8, lt, be 4 tag.toNat⟩ (plain .order) id s)) := by
  have removal := recallRemoval_placed stage (s := heard s) hx
  constructor
  · intro tail quiet loading
    exact exec_recall_removed (fun s => judgeRemoval l (dropPlaced v l s)) taking known
      (removal.trans (if_pos (mayPullBack_iff.2 ⟨tail, quiet, loading⟩)))
  · intro barred
    have stays : ¬ (heard s).mayPullBack v x = true := fun may => by
      obtain ⟨tail, quiet, loading⟩ := mayPullBack_iff.1 may
      rcases barred with h | h | h
      · exact h tail
      · exact Bool.false_ne_true (quiet.symm.trans h)
      · exact loading h
    exact congrArg _ (requestArrives_eq _ _ _ id s taking
      (reqRecall_order (s := heard s) known (removal.trans (if_neg stays))))

/-! ### What a recalled claim leaves -/

/-- The record is freed, the share returned, the lane without the claim; every other lane, section, list and ramp stays. -/
theorem dropClaim_leaves {v : Vehicle} {l : Nat} {x : Lane} {c : Sect} (hx : s.lane? l = some x)
    (hc : s.sect? x.sect = some c) :
    (dropClaim v l s).veh? v.tag = none ∧ (∀ u ∈ s.vehicles, u.tag ≠ v.tag → u ∈ (dropClaim v l s).vehicles) ∧
    (dropClaim v l s).lane? l = some (x.unclaimed v) ∧
    ((dropClaim v l s).sect? x.sect).map Sect.projected = some (c.projected - v.mass) ∧
    ((dropClaim v l s).sect? x.sect).map Sect.placed = some c.placed ∧
    (dropClaim v l s).listMoment = s.listMoment - v.mass * x.offset ∧
    (∀ k, k ≠ l → (dropClaim v l s).lane? k = s.lane? k) ∧
    (∀ i, i ≠ x.sect → (dropClaim v l s).sect? i = s.sect? i) ∧
    (dropClaim v l s).standby = s.standby ∧ (dropClaim v l s).lower = s.lower ∧ (dropClaim v l s).upper = s.upper ∧
    (dropClaim v l s).voyage = s.voyage := by
  have lane := unclaim_lane? hx v
  have sect := unclaim_sect? hx v
  have leaves := unclaim_of hx v
  obtain ⟨load, others, masses⟩ := judgeRemoval_load ((lane l).trans (if_pos rfl))
  rw [dropClaim_eq]
  have lanes : ∀ k, (judgeRemoval l (unclaim v l s)).lane? k = (unclaim v l s).lane? k := fun k => by
    unfold State.lane?
    rw [load.lanes]
  have vehicles : (judgeRemoval l (unclaim v l s)).vehicles = (s.freeVeh v.tag).vehicles := by
    rw [load.vehicles, leaves]
    rfl
  have own : ((judgeRemoval l (unclaim v l s)).sect? x.sect).map Sect.books =
      some { c with projected := c.projected - v.mass }.books := by
    refine masses.trans ?_
    show ((unclaim v l s).sect? x.sect).map Sect.books = _
    rw [sect, if_pos rfl, hc]
    rfl
  obtain ⟨d, hd, books⟩ := Option.map_eq_some_iff.1 own
  refine ⟨?_, fun u hu other => ?_, ?_, ?_, ?_, ?_, fun k hk => ?_, fun i hi => ?_, ?_, ?_, ?_, ?_⟩
  · rw [veh?_same vehicles, freeVeh_veh?]
  · rw [vehicles]
    exact List.mem_filter.2 ⟨hu, by simpa using other⟩
  · rw [lanes, lane, if_pos rfl]
  · have projected := congrArg Sect.projected books
    rw [hd]
    exact congrArg some projected
  · have placed := congrArg Sect.placed books
    rw [hd]
    exact congrArg some placed
  · rw [load.moment, leaves]
  · rw [lanes, lane, if_neg hk]
  · exact (others i hi).trans ((sect i).trans (if_neg hi))
  · rw [load.standby, leaves]
  · rw [load.lower, leaves]
  · rw [load.upper, leaves]
  · rw [load.voyage, leaves]

theorem leaveRamp_leaves (s : State) (v : Vehicle) (r : Ramp) :
    ((leaveRamp r v s).ramp r).onRamp = without v.tag (s.ramp r).onRamp ∧
    ((leaveRamp r v s).ramp r).mass = (s.ramp r).mass - v.mass ∧
    ((leaveRamp r v s).ramp r).light = (s.ramp r).light ∧ ((leaveRamp r v s).ramp r).heavy = (s.ramp r).heavy := by
  unfold leaveRamp
  rw [updRamp_same]
  exact ⟨rfl, rfl, rfl, rfl⟩

theorem leaveCrest_lane {l tag : Nat} {x : Lane} (hx : s.lane? l = some x) :
    (leaveCrest l tag s).lane? l = some { x with pastCrest := without tag x.pastCrest } := by
  unfold leaveCrest
  rw [updLane_same, hx]
  rfl

end Sys2Proof.Machine

open Sys2Proof Sys2Proof.Machine

/-- Settles O28: sequencer, share, judgements, request and lists, each by its lemma. -/
theorem recallWithdraws : Obligations.RecallWithdraws := by
  refine ⟨fun r k s => ⟨recallReaches_resting k, fun wait => ?_, fun j run => ?_⟩, ?_, fun l s x hx => judgeRemoval_of hx,
    ?_, ?_, leaveRamp_leaves, fun s l tag x hx => leaveCrest_lane hx, freeVeh_veh?, fun tag xs => ?_⟩
  · rw [recallReaches_waiting k wait]
    refine ⟨fun hk empty => if_pos ⟨hk, empty⟩, fun other => if_neg ?_⟩
    rintro ⟨rfl, empty⟩
    exact other.elim (fun e => nomatch e) fun h => h empty
  · have inRun : (s.ramp r).seq = .ofRun j := by rcases run with ⟨e, rfl⟩ | ⟨e, rfl⟩ <;> exact e
    rw [recallReaches_running k inRun]
    exact ⟨fun hk empty => if_pos ⟨hk, empty⟩,
      fun other => if_neg fun h => other.elim (fun n => n h.1) fun n => n h.2⟩
  · rintro v l s u rfl
    exact ⟨dropClaim_eq v l s, unclaim_link v l s⟩
  · rintro lt tag s f taking rfl
    refine ⟨fun v known => ⟨fun stage => ?_, fun l stage => ?_, fun l stage => ?_, fun l stage => ?_,
      fun l o x stage hx => exec_recall_placed taking known stage hx⟩, fun unknown => ?_⟩
    · exact (exec_recall_removed (fun s => { s with standby := without v.tag s.standby }.freeVeh v.tag) taking known
        (recallRemoval_standby (s := heard s) stage) :)
    · exact exec_recall_removed (fun s => recallReaches (s.rampOfNo l) v.cls.kind (dropClaim v l
        (s.updRamp (s.rampOfNo l) fun q => q.setQueue v.cls.kind (without v.tag (q.queue v.cls.kind))))) taking known
        (recallRemoval_assigned (s := heard s) stage)
    · exact exec_recall_removed (fun s => examineRamp (s.rampOfNo l) (dropClaim v l (leaveRamp (s.rampOfNo l) v s))) taking
        known (recallRemoval_onRamp (s := heard s) stage)
    · exact exec_recall_removed (fun s => examineRamp (s.rampOfNo l) (dropClaim v l (leaveCrest l v.tag s))) taking known
        (recallRemoval_pastCrest (s := heard s) stage)
    · exact congrArg _ (requestArrives_eq _ _ _ id s taking (reqRecall_unknown (s := heard s) unknown))
  · rintro s t v l x c hx hc rfl
    exact dropClaim_leaves hx hc
  · exact ⟨fun h => (mem_without.1 h).2 rfl, List.filter_sublist, fun y hy other => mem_without.2 ⟨hy, other⟩⟩

end

section
/-! O60: what the reads and the settings leave unchanged, as the part of the state they do not reach. -/

namespace Sys2Proof.Machine

variable {s t : State}

/-! ### The part of the state that no read and no setting reaches -/

/-- A lane without its state, its watch flag, its signal mode and its head. -/
def Lane.steady (x : Lane) : Lane := { x with state := .opened, watch := false, signal := .auto, aspect := .dark }

/-- A panel without its drives. -/
def Panel.steady (p : Panel) : Panel := { p with raise := false, lower := false }

/-- A ramp without its direction, its sequencer's state and settings, and its lamp. -/
def RampState.steady (q : RampState) : RampState :=
  { q with
    direction := .inbound, seq := .stopped, waiting := ⟨0, 0⟩, mode := .auto, source := .requestOnly, stallLimit := 0
    runCount := 0, stall := .stopped, go := false }

/-- A state without the link port, the causes, the voyage, the profile's state and draft, the store's mark and lock, the
decks, and what `steady` leaves out of lanes, panels and ramps. -/
def State.steady (s : State) : State :=
  { s with
    link := Link.cleared, causes := ⟨false, false, false⟩, voyage := .noVoyage
    store := { s.store with mark := .none, locked := false }, profile := .none, draft := [], decks := []
    lanes := s.lanes.map Lane.steady, panels := s.panels.map Panel.steady
    lower := s.lower.steady, upper := s.upper.steady, freeCtr := 0 }

/-! ### What an update of a part leaves of it -/

theorem updLane_steady (l : Nat) {f : Lane → Lane} (hf : ∀ x, (f x).steady = x.steady) :
    (s.updLane l f).steady = s.steady := by
  have lanes := map_modify_same hf l s.lanes
  unfold State.steady State.updLane
  simp only [lanes]

theorem updRamp_steady (r : Ramp) {f : RampState → RampState} (hf : ∀ q, (f q).steady = q.steady) :
    (s.updRamp r f).steady = s.steady := by
  cases r
  · have ramp := hf s.lower
    unfold State.steady State.updRamp
    simp only [ramp]
  · have ramp := hf s.upper
    unfold State.steady State.updRamp
    simp only [ramp]

theorem updDeck_steady (d : Nat) (f : Deck → Deck) : (s.updDeck d f).steady = s.steady := rfl

theorem foldl_steady {α : Type} {f : State → α → State} (hf : ∀ t a, (f t a).steady = t.steady) :
    ∀ (xs : List α) (s : State), (xs.foldl f s).steady = s.steady
  | [], _ => rfl
  | a :: as, s => by rw [List.foldl_cons, foldl_steady hf as, hf]

theorem updLanes_steady (ls : List Nat) {f : Lane → Lane} (hf : ∀ x, (f x).steady = x.steady) :
    (updLanes ls f s).steady = s.steady :=
  foldl_steady (fun _ l => updLane_steady l hf) ls s

/-- A map that an earlier one does not disturb. -/
theorem map_map_same {α β : Type} {f : α → α} {g : α → β} (h : ∀ a, g (f a) = g a) (xs : List α) :
    (xs.map f).map g = xs.map g := by
  rw [List.map_map]
  exact List.map_congr_left fun a _ => h a

theorem outputsOn_steady (s : State) : (outputsOn s).steady = s.steady := by
  have lanes := map_map_same (f := fun x : Lane => { x with aspect := s.aspectOf x }) (g := Lane.steady) (fun _ => rfl) s.lanes
  have panels := map_map_same (f := Panel.driven) (g := Panel.steady) (fun _ => rfl) s.panels
  unfold State.steady outputsOn
  rw [lanes, panels]
  rfl

theorem outputsOff_steady (s : State) : (outputsOff s).steady = s.steady := by
  have lanes := map_map_same (f := fun x : Lane => { x with aspect := .dark }) (g := Lane.steady) (fun _ => rfl) s.lanes
  have panels := map_map_same (f := fun p : Panel => { p with raise := false, lower := false }) (g := Panel.steady)
    (fun _ => rfl) s.panels
  unfold State.steady outputsOff
  rw [lanes, panels]
  rfl

/-- The outputs are none of it. -/
theorem refresh_steady (s : State) : (refresh s).steady = s.steady := by
  unfold refresh
  split
  · exact outputsOn_steady s
  · exact outputsOff_steady s
  · exact outputsOff_steady s

/-! ### The requests -/

/-- A request that leaves the steady part of every state. -/
def Settles (h : Handler) : Prop := ∀ s, (h s).1.steady = s.steady

theorem settles_status (clear : Nat) : Settles (reqStatus clear) := by
  intro s
  unfold reqStatus
  split
  · rfl
  · rename_i c _
    cases c <;> rfl

theorem settles_linkSilence (limit : Nat) : Settles (reqLinkSilence limit) := by
  intro s
  unfold reqLinkSilence
  split <;> rfl

theorem settles_vehicleGet (tag : Nat) : Settles (reqVehicleGet tag) := by
  intro s
  unfold reqVehicleGet
  split <;> rfl

theorem settles_laneGet (lane start : Nat) : Settles (reqLaneGet lane start) := by
  intro s
  unfold reqLaneGet
  repeat' split
  all_goals rfl

theorem settles_sectionGet (i : Nat) : Settles (reqSectionGet i) := by
  intro s
  unfold reqSectionGet
  repeat' split
  all_goals rfl

theorem settles_laneShut (lane : Nat) : Settles (reqLaneShut lane) := by
  intro s
  unfold reqLaneShut
  split
  · rfl
  split
  · rfl
  split
  · rfl
  · rfl
  · exact updLane_steady lane fun _ => rfl

theorem settles_onRamps (code : Nat) {part : Ramp → State → State × Result}
    (hp : ∀ r s, (part r s).1.steady = s.steady) : Settles (onRamps code part) := by
  have parts : ∀ (rs : List Ramp) (s : State), (rampParts part rs s).1.steady = s.steady := by
    intro rs
    induction rs with
    | nil => exact fun _ => rfl
    | cons r rs ih => exact fun s => (ih _).trans (hp r s)
  intro s
  unfold onRamps
  split
  · rfl
  · exact parts _ s

theorem stopPart_steady (r : Ramp) (s : State) : (stopPart r s).1.steady = s.steady := by
  unfold stopPart
  split
  · rfl
  all_goals exact updRamp_steady r fun _ => rfl

theorem directionPart_steady (d : Direction) (r : Ramp) (s : State) : (directionPart d r s).1.steady = s.steady := by
  unfold directionPart
  repeat' split
  all_goals first | rfl | exact updRamp_steady r fun _ => rfl

theorem runPairPart_steady (light heavy : Nat) (stall : Option Nat) (r : Ramp) (s : State) :
    (runPairPart light heavy stall r s).1.steady = s.steady := by
  unfold runPairPart
  split
  · exact updRamp_steady r fun _ => rfl
  · rfl

theorem settles_rampDirection (ramp dir : Nat) : Settles (reqRampDirection ramp dir) := by
  intro s
  unfold reqRampDirection
  split
  · exact settles_onRamps ramp (directionPart_steady _) s
  · exact settles_onRamps ramp (fun _ _ => rfl) s

theorem settles_sensorWatch (scope ident watch notice : Nat) : Settles (reqSensorWatch scope ident watch notice) := by
  intro s
  unfold reqSensorWatch
  split
  · rfl
  split
  · rename_i ls d w n _ _ _
    have lanes : (updLanes ls (fun x => { x with watch := w }) s).steady = s.steady := updLanes_steady ls fun _ => rfl
    cases n with
    | none => exact lanes
    | some b => exact (updDeck_steady d _).trans lanes
  · rfl

theorem settles_sensorLatches (clear : Nat) : Settles (reqSensorLatches clear) := by
  intro s
  unfold reqSensorLatches
  split
  · rfl
  split
  · rfl
  · exact foldl_steady (fun _ d => updDeck_steady d _) _ s

theorem settles_voyageSet (n : Nat) : Settles (reqVoyageSet n) := by
  intro s
  unfold reqVoyageSet
  repeat' split
  all_goals rfl

theorem settles_callOpen : Settles reqCallOpen := by
  intro s
  unfold reqCallOpen
  split <;> rfl

theorem settles_signalSet (scope ident mode : Nat) : Settles (reqSignalSet scope ident mode) := by
  intro s
  unfold reqSignalSet
  split
  · rfl
  split
  · exact updLanes_steady _ fun _ => rfl
  · rfl

theorem settles_draftPut (type index : Nat) (fields : List Byte) : Settles (reqDraftPut type index fields) := by
  intro s
  unfold reqDraftPut
  repeat' split
  all_goals rfl

/-- A body that DRAFT_PUT does not allow is refused by the link port. -/
theorem settles_serveDraftPut (body : List Byte) : Settles (serveDraftPut body) := by
  unfold serveDraftPut
  repeat' split
  · exact settles_draftPut _ _ _
  all_goals exact fun _ => rfl

theorem settles_draftClear : Settles reqDraftClear := by
  intro s
  unfold reqDraftClear
  split <;> rfl

theorem settles_draftGet (type index : Nat) : Settles (reqDraftGet type index) := by
  intro s
  unfold reqDraftGet
  repeat' split
  all_goals rfl

theorem settles_profileCommit (count sum : Nat) : Settles (reqProfileCommit count sum) := by
  intro s
  unfold reqProfileCommit
  repeat' split
  all_goals rfl

theorem settles_profileLock : Settles reqProfileLock := by
  intro s
  unfold reqProfileLock
  split <;> rfl

theorem settles_profileGet (type index : Nat) : Settles (reqProfileGet type index) := by
  intro s
  unfold reqProfileGet
  repeat' split
  all_goals rfl

/-! ### A setting taken at once -/

/-- No setting triggers a sweep, so its event ends with the outputs alone. -/
theorem requestArrives_steady {f : Frame} {h : Handler} (hh : Settles h) (taking : Taking s) :
    (requestArrives f h s).steady = { s.steady with ev := EventMarks.none } := by
  have part := hh (heard s)
  have quiet : (h (heard s)).1.ev = EventMarks.none := congrArg State.ev part
  have noSweep : sweepIfDue (h (heard s)).1 = (h (heard s)).1 := by
    unfold sweepIfDue
    rw [quiet]
    show { (h (heard s)).1 with ev := EventMarks.none } = _
    rw [← quiet]
  rw [requestArrives_taking f h s taking, taken_eq]
  show (refresh (sweepIfDue (h (heard s)).1)).steady = _
  rw [refresh_steady, noSweep, part]
  rfl

/-- Every read and every setting leaves the steady part of the state. -/
theorem exec_steady {i : Instr} (setting : i.isSetting = true) (taking : Taking s) (e : exec i s = .next t) :
    t.steady = { s.steady with ev := EventMarks.none } := by
  have settled : ∀ {f : Frame} {h : Handler}, Settles h → (.next (requestArrives f h s) : Next) = .next t →
      t.steady = { s.steady with ev := EventMarks.none } := fun hh e => by
    cases e
    exact requestArrives_steady hh taking
  cases i with
  | status lt c => exact settled (settles_status _) e
  | linkSilence lt n => exact settled (settles_linkSilence _) e
  | vehicleGet lt tag => exact settled (settles_vehicleGet _) e
  | laneGet lt lane start => exact settled (settles_laneGet _ _) e
  | sectionGet lt i => exact settled (settles_sectionGet _) e
  | laneShut lt lane => exact settled (settles_laneShut _) e
  | rampStop lt r => exact settled (settles_onRamps _ stopPart_steady) e
  | rampDirection lt r d => exact settled (settles_rampDirection _ _) e
  | runPair lt r l h stall => exact settled (settles_onRamps _ (runPairPart_steady _ _ _)) e
  | sensorWatch lt sc i w n => exact settled (settles_sensorWatch _ _ _ _) e
  | sensorLatches lt ds => exact settled (settles_sensorLatches _) e
  | voyageSet lt n => exact settled (settles_voyageSet _) e
  | callOpen lt => exact settled settles_callOpen e
  | signalSet lt sc i m => exact settled (settles_signalSet _ _ _) e
  | draftPut lt ty i fields => exact settled (settles_serveDraftPut _) e
  | draftClear lt => exact settled settles_draftClear e
  | draftGet lt ty i => exact settled (settles_draftGet _ _) e
  | profileCommit lt n sum => exact settled (settles_profileCommit _ _) e
  | profileLock lt => exact settled settles_profileLock e
  | profileGet lt ty i => exact settled (settles_profileGet _ _) e
  | _ => cases setting

end Sys2Proof.Machine

open Sys2Proof Sys2Proof.Machine

/-- Settles O60: each item is read off the steady part. -/
theorem settingsFrame : Obligations.SettingsFrame := by
  intro i s t setting taking e
  have part := exec_steady setting taking e
  have item : ∀ {β : Type} (g : State → β), g t.steady = g { s.steady with ev := EventMarks.none } := fun g => congrArg g part
  have lanes : ∀ {β : Type} (g : Lane → β), (∀ x, g x.steady = g x) → t.lanes.map g = s.lanes.map g := fun g hg => by
    have steady : t.lanes.map Lane.steady = s.lanes.map Lane.steady := item State.lanes
    rw [← map_map_same hg t.lanes, steady, map_map_same hg]
  have panels : ∀ {β : Type} (g : Panel → β), (∀ p, g p.steady = g p) → t.panels.map g = s.panels.map g := fun g hg => by
    have steady : t.panels.map Panel.steady = s.panels.map Panel.steady := item State.panels
    rw [← map_map_same hg t.panels, steady, map_map_same hg]
  have ramps : ∀ {β : Type} (r : Ramp) (g : RampState → β), g (t.ramp r).steady = g (s.ramp r).steady := fun r g => by
    cases r
    · exact item fun u => g u.lower
    · exact item fun u => g u.upper
  exact ⟨item State.vehicles, item State.standby, item State.sections, item State.listMoment, item State.listArm,
    item State.listOver, item State.listThreshold, item State.closure, item State.pins, item State.limits,
    item State.stowIntact, item State.stowGen, item State.stowKept, item State.power, lanes Lane.load fun _ => rfl,
    lanes Lane.score fun _ => rfl, lanes Lane.occupied fun _ => rfl, lanes Lane.entryCredits fun _ => rfl,
    panels Panel.state fun _ => rfl, panels Panel.fault fun _ => rfl,
    fun r => ⟨ramps r RampState.load, ramps r RampState.active, ramps r RampState.band, ramps r RampState.crestCredits⟩,
    item fun u => u.store.records, item fun u => u.store.generation⟩

end

section
/-! O23: what a reset keeps, clears and sets, in three parts: stow memory, the deck model, the outputs. -/

namespace Sys2Proof.Machine

variable {s : State}

/-! ### Stow memory at a reset (R16, R17) -/

/-- Stow memory kept as it stands, or cleared. -/
def stowed (kept : Bool) (s : State) : State := { (if kept then s else clearStow s) with stowKept := kept }

/-- A reset: the blocks' values, stow memory, the deck model, the outputs. -/
theorem resetNow_stowed (k : ResetCause) (s : State) : resetNow k s = outputsOn (remodel
    (stowed (atReset k { s with power := .up }).keepsStow (atReset k { s with power := .up }))) := by
  rw [resetNow_eq, doReset_eq]
  rfl

/-- A reset leaves what is stored, but for a mark of COMMITTING (R173). -/
theorem atReset_store (st : Store) : st.atReset.records = st.records ∧ st.atReset.generation = st.generation ∧
    st.atReset.locked = st.locked ∧ (st.atReset.mark = .active ↔ st.mark = .active) := by
  unfold Store.atReset
  cases e : st.mark <;> simp [e]

theorem keepsStow_atReset (k : ResetCause) (s : State) : (atReset k { s with power := .up }).keepsStow = true ↔
    s.stowIntact = true ∧ s.stowGen = s.store.generation ∧ s.store.mark = .active := by
  obtain ⟨-, generation, -, mark⟩ := atReset_store s.store
  show (s.stowIntact && s.stowGen == s.store.atReset.generation && s.store.atReset.mark == .active) = true ↔ _
  simp [generation, mark, and_assoc]

/-- A reset that keeps stow memory. -/
theorem resetNow_kept (k : ResetCause) (stands : s.stowIntact = true ∧ s.stowGen = s.store.generation ∧
    s.store.mark = .active) : resetNow k s = outputsOn (remodel (stowed true (atReset k { s with power := .up }))) := by
  rw [resetNow_stowed, (keepsStow_atReset k s).2 stands]

/-- A reset that clears it. -/
theorem resetNow_cleared (k : ResetCause) (falls : ¬ (s.stowIntact = true ∧ s.stowGen = s.store.generation ∧
    s.store.mark = .active)) : resetNow k s = outputsOn (remodel (stowed false (atReset k { s with power := .up }))) := by
  have out : (atReset k { s with power := .up }).keepsStow = false :=
    Bool.eq_false_iff.2 fun h => falls ((keepsStow_atReset k s).1 h)
  rw [resetNow_stowed, out]

/-! ### The deck model and the outputs leave the rest -/

/-- Two states with the same registers outside the deck model, the records and the ramps. -/
structure SameRegisters (u t : State) : Prop where
  power : t.power = u.power
  pins : t.pins = u.pins
  link : t.link = u.link
  causes : t.causes = u.causes
  draft : t.draft = u.draft
  store : t.store = u.store
  profile : t.profile = u.profile
  standby : t.standby = u.standby
  voyage : t.voyage = u.voyage
  stowKept : t.stowKept = u.stowKept
  stowIntact : t.stowIntact = u.stowIntact
  stowGen : t.stowGen = u.stowGen

theorem SameRegisters.trans {u v w : State} (h : SameRegisters u v) (k : SameRegisters v w) : SameRegisters u w where
  power := k.power.trans h.power
  pins := k.pins.trans h.pins
  link := k.link.trans h.link
  causes := k.causes.trans h.causes
  draft := k.draft.trans h.draft
  store := k.store.trans h.store
  profile := k.profile.trans h.profile
  standby := k.standby.trans h.standby
  voyage := k.voyage.trans h.voyage
  stowKept := k.stowKept.trans h.stowKept
  stowIntact := k.stowIntact.trans h.stowIntact
  stowGen := k.stowGen.trans h.stowGen

theorem outputsOn_registers (s : State) : SameRegisters s (outputsOn s) :=
  ⟨rfl, rfl, rfl, rfl, rfl, rfl, rfl, rfl, rfl, rfl, rfl, rfl⟩

theorem buildModel_registers (rs : List ProfRec) (old : List Lane) (s : State) : SameRegisters s (buildModel rs old s) :=
  ⟨rfl, rfl, rfl, rfl, rfl, rfl, rfl, rfl, rfl, rfl, rfl, rfl⟩

theorem withVehicles_registers (s : State) (vs : List Vehicle) : SameRegisters s { s with vehicles := vs } :=
  ⟨rfl, rfl, rfl, rfl, rfl, rfl, rfl, rfl, rfl, rfl, rfl, rfl⟩

theorem dropModel_registers (s : State) : SameRegisters s (dropModel s) :=
  ⟨rfl, rfl, rfl, rfl, rfl, rfl, rfl, rfl, rfl, rfl, rfl, rfl⟩

/-- What the build or the end of the deck model, and the outputs after it, leave of a state. -/
structure Remodels (u t : State) : Prop extends SameRegisters u t where
  closure : t.closure = Closure.cleared
  ramp : ∀ r, ∃ mass occupied, t.ramp r =
    { u.ramp r with mass := mass, crestOccupied := occupied, go := (u.ramp r).goLit }

/-- A build changes a ramp's mass and the reading of its crest loop. -/
theorem buildModel_ramp (rs : List ProfRec) (old : List Lane) (s : State) (r : Ramp) : (buildModel rs old s).ramp r =
    { s.ramp r with
      mass := ((buildModel rs old s).ramp r).mass, crestOccupied := ((buildModel rs old s).ramp r).crestOccupied } := by
  cases r <;> rfl

theorem outputsOn_ramp (s : State) (r : Ramp) : (outputsOn s).ramp r = { s.ramp r with go := (s.ramp r).goLit } := by
  cases r <;> rfl

theorem remodel_active {u : State} (profile : u.profile = .active) : remodel u =
    { buildModel u.store.records u.lanes u with
      vehicles := u.vehicles.map (buildModel u.store.records u.lanes u).restartTransit } := by
  unfold remodel
  rw [profile]
  rfl

theorem remodel_inactive {u : State} (profile : u.profile ≠ .active) : remodel u = dropModel u := by
  unfold remodel
  split
  · exact absurd ‹_› profile
  all_goals rfl

theorem withVehicles_ramp (s : State) (vs : List Vehicle) (r : Ramp) : { s with vehicles := vs }.ramp r = s.ramp r := by
  cases r <;> rfl

theorem dropModel_ramp (s : State) (r : Ramp) : (dropModel s).ramp r = s.ramp r := by cases r <;> rfl

theorem remodel_ramp (u : State) (r : Ramp) : ∃ mass occupied,
    (remodel u).ramp r = { u.ramp r with mass := mass, crestOccupied := occupied } := by
  by_cases profile : u.profile = .active
  · rw [remodel_active profile, withVehicles_ramp]
    exact ⟨_, _, buildModel_ramp _ _ u r⟩
  · rw [remodel_inactive profile, dropModel_ramp]
    exact ⟨(u.ramp r).mass, (u.ramp r).crestOccupied, rfl⟩

theorem remodel_registers (u : State) : SameRegisters u (remodel u) ∧ (remodel u).closure = Closure.cleared := by
  by_cases profile : u.profile = .active
  · rw [remodel_active profile]
    exact ⟨(buildModel_registers _ _ u).trans (withVehicles_registers _ _), rfl⟩
  · rw [remodel_inactive profile]
    exact ⟨dropModel_registers u, rfl⟩

theorem remodel_remodels (u : State) : Remodels u (outputsOn (remodel u)) where
  toSameRegisters := (remodel_registers u).1.trans (outputsOn_registers _)
  closure := (remodel_registers u).2
  ramp r := by
    obtain ⟨mass, occupied, e⟩ := remodel_ramp u r
    exact ⟨mass, occupied, by rw [outputsOn_ramp, e]; rfl⟩

/-- What every reset leaves, with `kept` whether stow memory is kept. -/
theorem resetNow_remodels (k : ResetCause) (s : State) : ∃ kept : Bool,
    Remodels (stowed kept (atReset k { s with power := .up })) (resetNow k s) :=
  ⟨_, by rw [resetNow_stowed]; exact remodel_remodels _⟩

/-- A ramp before the deck model is built: the values of R67, R74, R91 and R161, with the lists that stow memory keeps. -/
theorem stowed_ramp (kept : Bool) (k : ResetCause) (s : State) (r : Ramp) :
    (stowed kept (atReset k { s with power := .up })).ramp r =
      if kept then (s.ramp r).keep else { (s.ramp r).keep with light := [], heavy := [], onRamp := [], direction := .inbound } := by
  cases kept <;> cases r <;> rfl

/-- The values that both ramps take at a reset. -/
theorem resetNow_ramp (k : ResetCause) (s : State) (r : Ramp) :
    ((resetNow k s).ramp r).band = 0 ∧ ((resetNow k s).ramp r).seq = .stopped ∧
    ((resetNow k s).ramp r).active = ⟨4, 2⟩ ∧ ((resetNow k s).ramp r).waiting = ⟨4, 2⟩ ∧
    ((resetNow k s).ramp r).mode = .auto ∧ ((resetNow k s).ramp r).source = .requestOnly ∧
    ((resetNow k s).ramp r).stallLimit = 45 ∧ ((resetNow k s).ramp r).runCount = 0 ∧
    ((resetNow k s).ramp r).stall = .stopped ∧ ((resetNow k s).ramp r).go = false ∧
    ((resetNow k s).ramp r).crestCredits = 0 ∧ ((resetNow k s).ramp r).crestWindow = .stopped := by
  obtain ⟨kept, leaves⟩ := resetNow_remodels k s
  obtain ⟨mass, occupied, ramp⟩ := leaves.ramp r
  rw [ramp, stowed_ramp]
  cases kept <;> exact ⟨rfl, rfl, rfl, rfl, rfl, rfl, rfl, rfl, rfl, rfl, rfl, rfl⟩

/-- The link port, the draft, the store, the causes and the profile at a reset (R173, R190, R191). -/
theorem resetNow_registers (k : ResetCause) (s : State) :
    (resetNow k s).power = .up ∧ (resetNow k s).link = Link.cleared ∧ (resetNow k s).draft = [] ∧
    (resetNow k s).store = s.store.atReset ∧ (resetNow k s).causes = s.causes.add k ∧
    (resetNow k s).profile = .ofMark s.store.mark ∧ (resetNow k s).pins = s.pins ∧
    (resetNow k s).closure = Closure.cleared := by
  obtain ⟨kept, leaves⟩ := resetNow_remodels k s
  rw [leaves.power, leaves.link, leaves.draft, leaves.store, leaves.causes, leaves.profile, leaves.pins, leaves.closure]
  cases kept <;> exact ⟨rfl, rfl, rfl, rfl, rfl, rfl, rfl, rfl⟩

theorem ofMark_active (m : CommitMark) : ProfileState.ofMark m = .active ↔ m = .active := by
  cases m <;> simp [ProfileState.ofMark]

/-! ### The deck model at a reset (R19, R173) -/

/-- Without an ACTIVE profile there is no deck model. -/
theorem resetNow_bare (k : ResetCause) (mark : s.store.mark ≠ .active) : (resetNow k s).lanes = [] ∧
    (resetNow k s).sections = [] ∧ (resetNow k s).decks = [] ∧ (resetNow k s).panels = [] := by
  have none : ProfileState.ofMark s.store.mark = .none := by
    cases e : s.store.mark with
    | active => exact absurd e mark
    | committing => rfl
    | none => rfl
  rw [resetNow_cleared k fun h => mark h.2.2]
  unfold remodel
  rw [show (stowed false (atReset k { s with power := .up })).profile = .none from none]
  exact ⟨rfl, rfl, rfl, rfl⟩

/-! ### The lanes that a build takes from stow memory -/

/-- Sums, readings and panels leave what stow memory holds of a lane. -/
theorem buildModel_kept (rs : List ProfRec) (old : List Lane) (s : State) :
    (buildModel rs old s).lanes.map Lane.kept = (rawModel rs old s).lanes.map Lane.kept := by
  refine (map_mapNumbered (f := fun (l : Nat) (x : Lane) => { x with
      occupied := (rebuildSums (rawModel rs old s)).reads x (((rebuildSums (rawModel rs old s)).pins.loops[l]?).getD false) })
    (g := Lane.kept) (fun _ _ => rfl) 0 (rebuildSums (rawModel rs old s)).lanes).trans ?_
  exact map_map_same (f := (rawModel rs old s).figured) (fun _ => rfl) _

theorem outputsOn_kept (s : State) : (outputsOn s).lanes.map Lane.kept = s.lanes.map Lane.kept :=
  map_map_same (f := fun x : Lane => { x with aspect := s.aspectOf x }) (fun _ => rfl) s.lanes

/-- As many lanes as the records count keep what stow memory holds of them (R16). -/
theorem rawModel_kept {rs : List ProfRec} {old : List Lane} (count : old.length = laneCount rs) (s : State) :
    (rawModel rs old s).lanes.map Lane.kept = old.map Lane.kept := by
  refine List.ext_getElem? fun l => ?_
  unfold rawModel
  by_cases h : l < laneCount rs
  · have lane : l < old.length := count.symm ▸ h
    simp only [List.getElem?_map, List.getElem?_range h, List.getElem?_eq_getElem lane, Option.map_some]
    rfl
  · have beyond : (List.range (laneCount rs))[l]? = none := List.getElem?_eq_none (by rw [List.length_range]; omega)
    have gone : old[l]? = none := List.getElem?_eq_none (by omega)
    simp only [List.getElem?_map, beyond, gone, Option.map_none]

/-- A lane that holds nothing in stow memory. -/
def Lane.vacant (x : Lane) : Prop := x.kept = ([], [], [], .opened, 0)

theorem vacant_iff {x : Lane} : x.vacant ↔
    x.stow = [] ∧ x.claims = [] ∧ x.pastCrest = [] ∧ x.overdue = 0 ∧ x.state = .opened := by
  simp [Lane.vacant, Lane.kept, and_comm]

theorem rawModel_vacant {rs : List ProfRec} {old : List Lane} (h : ∀ x ∈ old, x.vacant) (s : State) :
    ∀ x ∈ (rawModel rs old s).lanes, x.vacant := by
  intro x hx
  obtain ⟨l, -, rfl⟩ := List.mem_map.1 (show x ∈ List.map _ _ from hx)
  split
  · rename_i y hy
    exact h y (List.mem_of_getElem? hy)
  · rfl

/-- The outputs, and a map of the records, leave what stow memory holds of the lanes. -/
theorem remodelled_kept {u : State} (profile : u.profile = .active) : (outputsOn (remodel u)).lanes.map Lane.kept =
    (rawModel u.store.records u.lanes u).lanes.map Lane.kept := by
  rw [remodel_active profile, ← buildModel_kept]
  exact outputsOn_kept _

/-- With cleared stow memory no lane holds anything. -/
theorem resetNow_vacant (k : ResetCause) (falls : ¬ (s.stowIntact = true ∧ s.stowGen = s.store.generation ∧
    s.store.mark = .active)) : ∀ x ∈ (resetNow k s).lanes, x.vacant := by
  by_cases mark : s.store.mark = .active
  · intro x hx
    rw [resetNow_cleared k falls] at hx
    have kept := remodelled_kept (u := stowed false (atReset k { s with power := .up })) ((ofMark_active _).2 mark)
    obtain ⟨y, hy, e⟩ := List.mem_map.1 (kept ▸ List.mem_map_of_mem (f := Lane.kept) hx)
    refine e.symm.trans (rawModel_vacant (fun z hz => ?_) _ y hy)
    obtain ⟨w, -, rfl⟩ := List.mem_map.1 (show z ∈ s.lanes.map _ from hz)
    rfl
  · rw [(resetNow_bare k mark).1]
    exact fun _ h => nomatch h

/-! ### Kept records (R109) -/

/-- A restart of the transit timer changes nothing else of a record. -/
theorem restartTransit_eq (s : State) (v : Vehicle) :
    s.restartTransit v = { v with transit := (s.restartTransit v).transit } := by
  unfold State.restartTransit
  split <;> rfl

/-- A RELEASED vehicle's transit timer restarts at its ramp's limit. -/
theorem restartTransit_released {v : Vehicle} {l : Nat} (stage : v.stage = .onRamp l ∨ v.stage = .pastCrest l) :
    (s.restartTransit v).transit = .running (s.rampRec (s.rampOfNo l)).transit := by
  have released : v.stage.released = true := by rcases stage with e | e <;> rw [e] <;> rfl
  have lane : v.stage.lane? = some l := by rcases stage with e | e <;> rw [e] <;> rfl
  unfold State.restartTransit
  rw [if_pos released, lane, Option.map_some]
  cases s.rampOfNo l <;> rfl

theorem restartTransit_other {v : Vehicle} (stage : v.stage.released = false) : (s.restartTransit v).transit = .stopped := by
  unfold State.restartTransit
  rw [if_neg (by rw [stage]; exact Bool.false_ne_true)]

theorem outputsOn_rampOfNo (s : State) (l : Nat) : (outputsOn s).rampOfNo l = s.rampOfNo l := by
  have lane : (outputsOn s).lane? l = (s.lane? l).map fun x => { x with aspect := s.aspectOf x } := List.getElem?_map
  unfold State.rampOfNo
  rw [lane]
  cases s.lane? l <;> rfl

/-- The records of a state whose deck model is built again. -/
theorem remodelled_vehicles {u : State} (profile : u.profile = .active) :
    (outputsOn (remodel u)).vehicles.map (fun v => { v with transit := .stopped }) =
      u.vehicles.map (fun v => { v with transit := .stopped }) ∧
    ∀ v ∈ (outputsOn (remodel u)).vehicles, v.transit = match v.stage with
      | .onRamp l | .pastCrest l =>
        .running ((outputsOn (remodel u)).rampRec ((outputsOn (remodel u)).rampOfNo l)).transit
      | .standby | .assigned _ | .placed _ _ => .stopped := by
  rw [remodel_active profile]
  generalize model : buildModel u.store.records u.lanes u = w
  have restart : ∀ l, (outputsOn { w with vehicles := u.vehicles.map w.restartTransit }).rampRec
      ((outputsOn { w with vehicles := u.vehicles.map w.restartTransit }).rampOfNo l) = w.rampRec (w.rampOfNo l) := fun l => by
    rw [outputsOn_rampOfNo]
    rfl
  constructor
  · exact map_map_same (fun v => by rw [restartTransit_eq]) u.vehicles
  · intro v hv
    obtain ⟨v, -, rfl⟩ := List.mem_map.1 (show v ∈ u.vehicles.map w.restartTransit from hv)
    have stage : (w.restartTransit v).stage = v.stage := by rw [restartTransit_eq]
    rw [stage]
    cases e : v.stage with
    | standby => exact restartTransit_other (by rw [e]; rfl)
    | assigned l => exact restartTransit_other (by rw [e]; rfl)
    | onRamp l => exact (restartTransit_released (.inl e)).trans (by rw [← restart])
    | pastCrest l => exact (restartTransit_released (.inr e)).trans (by rw [← restart])
    | placed l o => exact restartTransit_other (by rw [e]; rfl)

end Sys2Proof.Machine

open Sys2Proof Sys2Proof.Machine

/-- Settles O23: registers and ramps, a fresh deck model or none, stow memory kept or cleared. -/
theorem resetStowMemory : Obligations.ResetStowMemory := by
  refine ⟨?_, ?_, fun k s mark => resetNow_bare k mark, fun k s => ?_⟩
  · rintro k s t rfl
    obtain ⟨-, -, -, -, -, -, pins, closure⟩ := resetNow_registers k s
    exact ⟨resetNow_ramp k s, closure, pins⟩
  · rintro k s t rfl mark
    obtain ⟨u, fresh, e⟩ := resetNow_fresh k mark
    obtain ⟨on, aspects, drives⟩ := fresh.on
    rw [← e] at on aspects drives
    obtain ⟨threshold, beyond, arm⟩ := on.list
    refine ⟨fun l x hx => ?_, on.deck, fun i c hc => ?_, threshold, beyond, arm, fun p y hy => ?_, on.crest⟩
    · obtain ⟨occupied, score, suspect, clearing, mode, watch, signal, entry, entryWindow, exit, exitWindow⟩ := on.lane l x hx
      exact ⟨occupied, score, suspect, clearing, mode, watch, signal, entry, entryWindow, exit, exitWindow,
        aspects x (List.mem_of_getElem? hx)⟩
    · obtain ⟨mode, arm⟩ := on.sect c (List.mem_of_getElem? hc)
      exact ⟨mode, on.opens hc, arm⟩
    · obtain ⟨check, timer, -⟩ := on.panel p y hy
      exact ⟨check, timer, drives y (List.mem_of_getElem? hy)⟩
  · obtain ⟨power, link, draft, store, causes, profile, -, -⟩ := resetNow_registers k s
    obtain ⟨records, generation, locked, -⟩ := atReset_store s.store
    refine ⟨power, link, draft, by rw [store, records], by rw [store, generation], by rw [store, locked],
      by rw [causes]; cases k <;> rfl, by rw [profile, ofMark_active], fun intact gen mark => ?_, fun falls => ?_⟩
    · have active : (stowed true (atReset k { s with power := .up })).profile = .active := (ofMark_active _).2 mark
      have leaves := remodel_remodels (stowed true (atReset k { s with power := .up }))
      obtain ⟨same, transit⟩ := remodelled_vehicles active
      rw [resetNow_kept k ⟨intact, gen, mark⟩]
      refine ⟨leaves.stowKept, leaves.voyage, leaves.standby, same, transit, fun count => ?_, fun r => ?_⟩
      · exact (remodelled_kept active).trans (rawModel_kept (count.trans (congrArg laneCount records.symm)) _)
      · obtain ⟨mass, occupied, ramp⟩ := leaves.ramp r
        rw [ramp, stowed_ramp]
        exact ⟨rfl, rfl, rfl, rfl⟩
    · have vacant := resetNow_vacant k falls
      have leaves := remodel_remodels (stowed false (atReset k { s with power := .up }))
      rw [← resetNow_cleared k falls] at leaves
      refine ⟨leaves.stowKept, leaves.voyage, leaves.standby, ?_, leaves.stowIntact, leaves.stowGen.trans generation,
        fun x hx => vacant_iff.1 (vacant x hx), fun r => ?_⟩
      · rw [resetNow_cleared k falls]
        unfold remodel
        split <;> rfl
      · obtain ⟨mass, occupied, ramp⟩ := leaves.ramp r
        rw [ramp, stowed_ramp]
        exact ⟨rfl, rfl, rfl, rfl⟩

end

section
/-! O35: LANE_SHUT and LANE_OPEN, and their refusals. -/

namespace Sys2Proof.Machine

variable {s : State}

theorem reqLaneShut_noProfile (lane : Nat) (bare : s.profile.inForce = false) :
    reqLaneShut lane s = (s, plain .noProfile) := by
  unfold reqLaneShut
  simp [bare]

theorem reqLaneOpen_noProfile (lane : Nat) (bare : s.profile.inForce = false) :
    reqLaneOpen lane s = (s, plain .noProfile) := by
  unfold reqLaneOpen
  simp [bare]

theorem reqLaneShut_beyond {lane : Nat} (model : Modelled s) (beyond : s.lane? lane = none) :
    reqLaneShut lane s = (s, plain .range) := by
  unfold reqLaneShut
  simp [show s.profile.inForce = true from model, beyond]

theorem reqLaneOpen_beyond {lane : Nat} (model : Modelled s) (beyond : s.lane? lane = none) :
    reqLaneOpen lane s = (s, plain .range) := by
  unfold reqLaneOpen
  simp [show s.profile.inForce = true from model, beyond]

section
variable {lane : Nat} {x : Lane} (model : Modelled s) (hx : s.lane? lane = some x)
include model hx

/-- An UNLOADING lane is neither shut nor opened (R30, R31). -/
theorem laneRequests_unloading (state : x.state = .unloading) :
    reqLaneShut lane s = (s, plain .state) ∧ reqLaneOpen lane s = (s, plain .state) := by
  unfold reqLaneShut reqLaneOpen
  simp [show s.profile.inForce = true from model, hx, state]

/-- An OPEN lane is shut, and stays open. -/
theorem laneRequests_opened (state : x.state = .opened) :
    reqLaneShut lane s = (s.updLane lane fun x => { x with state := .shut }, plain .ok) ∧
    reqLaneOpen lane s = (s, plain .ok) := by
  unfold reqLaneShut reqLaneOpen
  simp [show s.profile.inForce = true from model, hx, state]

/-- A SHUT lane stays shut, and is opened with a trigger of the standby sweep. -/
theorem laneRequests_shut (state : x.state = .shut) : reqLaneShut lane s = (s, plain .ok) ∧
    reqLaneOpen lane s = ((s.updLane lane fun x => { x with state := .opened }).sweepTrigger, plain .ok) := by
  unfold reqLaneShut reqLaneOpen
  simp [show s.profile.inForce = true from model, hx, state]

end

end Sys2Proof.Machine

open Sys2Proof Sys2Proof.Machine

/-- Settles O35, state by state. -/
theorem laneShutOpen : Obligations.LaneShutOpen := by
  intro lt lane s x taking model hx
  cases state : x.state with
  | opened =>
    obtain ⟨shut, opens⟩ := laneRequests_opened (s := heard s) model hx state
    exact ⟨congrArg _ (requestArrives_eq _ _ _ (fun s => s.updLane lane.toNat fun x => { x with state := .shut }) s
      taking shut), congrArg _ (requestArrives_eq _ _ _ id s taking opens)⟩
  | shut =>
    obtain ⟨shut, opens⟩ := laneRequests_shut (s := heard s) model hx state
    exact ⟨congrArg _ (requestArrives_eq _ _ _ id s taking shut), congrArg _ (requestArrives_eq _ _ _
      (fun s => (s.updLane lane.toNat fun x => { x with state := .opened }).sweepTrigger) s taking opens)⟩
  | unloading =>
    obtain ⟨shut, opens⟩ := laneRequests_unloading (s := heard s) model hx state
    exact ⟨congrArg _ (requestArrives_eq _ _ _ id s taking shut), congrArg _ (requestArrives_eq _ _ _ id s taking opens)⟩

end

section
/-! O34: THRESHOLD_SET, and how the arms and the list-over condition are judged. -/

namespace Sys2Proof.Machine

variable {s : State}

/-! ### The arms (R35, R37) -/

section
variable {i : Nat} {c : Sect} (hc : s.sect? i = some c)
include hc

/-- An ARMED arm is spent above the threshold. -/
theorem judgeSect_armed (arm : c.arm = .armed) : judgeSect i s =
    if s.thresholdOf c * (c.massLimit * 1000) < 256 * c.projected then
      (s.updSect i fun c => { c with arm := .spent }).notify (.nearLimit (some i) c.projected (s.thresholdOf c))
    else s := by
  unfold judgeSect sectAbove
  by_cases above : s.thresholdOf c * (c.massLimit * 1000) < 256 * c.projected
  · simp only [hc, arm, above, decide_true, if_true]
  · simp only [hc, arm, above, decide_false, if_false]

/-- A SPENT arm is armed again at or below it. -/
theorem judgeSect_spent (arm : c.arm = .spent) : judgeSect i s =
    if s.thresholdOf c * (c.massLimit * 1000) < 256 * c.projected then s
    else s.updSect i fun c => { c with arm := .armed } := by
  unfold judgeSect sectAbove
  by_cases above : s.thresholdOf c * (c.massLimit * 1000) < 256 * c.projected
  · simp only [hc, arm, above, decide_true, if_true]
  · simp only [hc, arm, above, decide_false, if_false]

end

theorem judgeList_armed (arm : s.listArm = .armed) : judgeList s =
    if s.listThreshold * (s.limits.listLimit * 10000) < 256 * s.listMoment.natAbs then
      if s.ev.listRearmed then { s with listArm := .spent }
      else { s with listArm := .spent }.notify (.nearLimit none s.listMoment s.listThreshold)
    else s := by
  unfold judgeList listAbove
  by_cases above : s.listThreshold * (s.limits.listLimit * 10000) < 256 * s.listMoment.natAbs
  · simp only [arm, above, decide_true, if_true]
  · simp only [arm, above, decide_false, if_false]

theorem judgeList_spent (arm : s.listArm = .spent) : judgeList s =
    if s.listThreshold * (s.limits.listLimit * 10000) < 256 * s.listMoment.natAbs then s
    else { s with listArm := .armed, ev := { s.ev with listRearmed := true } } := by
  unfold judgeList listAbove
  by_cases above : s.listThreshold * (s.limits.listLimit * 10000) < 256 * s.listMoment.natAbs
  · simp only [arm, above, decide_true, if_true]
  · simp only [arm, above, decide_false, if_false]

/-! ### The list-over condition (R38) -/

theorem beyondList_iff {limit : Nat} {m : Int} : beyondList limit m = true ↔ limit * 10000 < m.natAbs := decide_eq_true_iff

theorem judgeListOver_beyond (beyond : s.limits.listLimit * 10000 < s.listMoment.natAbs) : judgeListOver s =
    if s.listOver then s else { s with listOver := true }.notify (.listOver s.listMoment s.limits.listLimit) :=
  if_pos (beyondList_iff.2 beyond)

theorem judgeListOver_inside (h : s.listMoment.natAbs ≤ s.limits.listLimit * 10000) :
    judgeListOver s = { s with listOver := false } :=
  if_neg fun beyond => Nat.not_lt.2 h (beyondList_iff.1 beyond)

theorem clearListOver_beyond (beyond : s.limits.listLimit * 10000 < s.listMoment.natAbs) : clearListOver s = s :=
  if_pos (beyondList_iff.2 beyond)

theorem clearListOver_inside (h : s.listMoment.natAbs ≤ s.limits.listLimit * 10000) :
    clearListOver s = { s with listOver := false } :=
  if_neg fun beyond => Nat.not_lt.2 h (beyondList_iff.1 beyond)

/-! ### The sections of a deck -/

theorem thresholdOf_deck {c : Sect} {d : Deck} (hd : s.deck? c.deck = some d) : s.thresholdOf c = d.threshold := by
  unfold State.thresholdOf
  rw [hd]

theorem sectsOf_rising (s : State) (d : Nat) : (s.sectsOf d).Pairwise (· < ·) := List.pairwise_lt_range.filter _

theorem mem_sectsOf {d i : Nat} : i ∈ s.sectsOf d ↔ ∃ c, s.sect? i = some c ∧ c.deck = d := by
  unfold State.sectsOf
  rw [List.mem_filter, List.mem_range]
  constructor
  · rintro ⟨-, own⟩
    cases hc : s.sect? i with
    | none => simp [hc] at own
    | some c => exact ⟨c, rfl, by simpa [hc] using own⟩
  · rintro ⟨c, hc, rfl⟩
    exact ⟨(List.getElem?_eq_some_iff.1 hc).1, by simp [hc]⟩

/-! ### The request (R39) -/

theorem reqThresholdSet_noProfile (target t : Nat) (bare : s.profile.inForce = false) :
    reqThresholdSet target t s = (s, plain .noProfile) := by
  unfold reqThresholdSet
  simp [bare]

theorem reqThresholdSet_low {target t : Nat} (model : Modelled s) (low : t < 128) :
    reqThresholdSet target t s = (s, plain .range) := by
  unfold reqThresholdSet
  simp [show s.profile.inForce = true from model, low]

theorem reqThresholdSet_absent {target : Nat} (t : Nat) (model : Modelled s) (deck : target ≠ 0xFF)
    (hd : s.deck? target = none) : reqThresholdSet target t s = (s, plain .range) := by
  unfold reqThresholdSet
  simp [show s.profile.inForce = true from model, hd, deck]

section
variable {t : Nat} (model : Modelled s) (low : 128 ≤ t) (high : t ≤ 255)
include model low high

theorem reqThresholdSet_list : reqThresholdSet 0xFF t s = (judgeList { s with listThreshold := t }, plain .ok) := by
  unfold reqThresholdSet
  simp [show s.profile.inForce = true from model, Nat.not_lt.2 low, Nat.not_lt.2 high]

theorem reqThresholdSet_deck {target : Nat} {d : Deck} (deck : target ≠ 0xFF) (hd : s.deck? target = some d) :
    reqThresholdSet target t s =
    (((s.updDeck target fun d => { d with threshold := t }).sectsOf target).foldl (fun s i => judgeSect i s)
      (s.updDeck target fun d => { d with threshold := t }), plain .ok) := by
  unfold reqThresholdSet
  simp [show s.profile.inForce = true from model, hd, deck, Nat.not_lt.2 low, Nat.not_lt.2 high]

end

end Sys2Proof.Machine

open Sys2Proof Sys2Proof.Machine

/-- Settles O34: the request, the two arms and the list-over condition, each by its lemma. -/
theorem thresholdSets : Obligations.ThresholdSets := by
  refine ⟨fun l s x hx => judgeRemoval_of hx, fun s c d hd => thresholdOf_deck hd,
    fun s d => ⟨sectsOf_rising s d, fun i => mem_sectsOf⟩, fun lt target t s taking bare => ?_,
    fun lt target t s taking model => ⟨?_, fun d deck hd low => ?_, ?_⟩, fun s i c hc => ?_, fun s => ?_, fun s => ?_⟩
  · exact congrArg _ (requestArrives_eq _ _ _ id s taking (reqThresholdSet_noProfile (s := heard s) _ _ bare))
  · rintro rfl low
    exact congrArg _ (requestArrives_eq _ _ _ (fun s => judgeList { s with listThreshold := t.toNat }) s taking
      (reqThresholdSet_list (s := heard s) model low (by omega)))
  · have target : target.toNat ≠ 0xFF := fun e => deck (BitVec.eq_of_toNat_eq e)
    exact congrArg _ (requestArrives_eq _ _ _ _ s taking
      (reqThresholdSet_deck (s := heard s) model low (by omega) target hd))
  · intro refused
    refine congrArg _ (requestArrives_eq _ _ _ id s taking ?_)
    by_cases low : t.toNat < 128
    · exact reqThresholdSet_low (s := heard s) model low
    · obtain ⟨deck, absent⟩ := refused.resolve_left low
      exact reqThresholdSet_absent (s := heard s) _ model (fun e => deck (BitVec.eq_of_toNat_eq e)) absent
  · exact ⟨fun arm above => (judgeSect_armed hc arm).trans (if_pos above),
      fun arm below => (judgeSect_spent hc arm).trans (if_neg below),
      fun arm below => (judgeSect_armed hc arm).trans (if_neg below),
      fun arm above => (judgeSect_spent hc arm).trans (if_pos above)⟩
  · exact ⟨fun arm above => (judgeList_armed arm).trans (if_pos above),
      fun arm below => (judgeList_spent arm).trans (if_neg below),
      fun arm below => (judgeList_armed arm).trans (if_neg below),
      fun arm above => (judgeList_spent arm).trans (if_pos above)⟩
  · refine ⟨fun beyond stands => ?_, fun beyond stands => ?_, judgeListOver_inside, clearListOver_beyond, clearListOver_inside⟩
    · rw [judgeListOver_beyond beyond, stands]
      rfl
    · rw [judgeListOver_beyond beyond, stands]
      rfl

end

section
/-! O33: LANE_GET and SECTION_GET, their fields and their refusals. -/

namespace Sys2Proof.Machine

variable {s : State}

/-! ### A lane's deck, and what follows from its kind (R20, R21) -/

/-- A choice by one condition, and by another that holds just when it does. -/
theorem ite_of_iff {α : Type} {p q : Prop} [Decidable p] [Decidable q] (h : p ↔ q) (a : α) {b c : α} (other : b = c) :
    (if p then a else b) = if q then a else c :=
  ite_congr (propext h) (fun _ => rfl) fun _ => other

theorem flag_decide (p : Prop) [Decidable p] : flag (decide p) = u8 (if p then 1 else 0) :=
  congrArg u8 (ite_of_iff decide_eq_true_iff 1 rfl)

section
variable {x : Lane} {c : Sect} (hc : s.sect? x.sect = some c)
include hc

theorem deckNo_sect : s.deckNo x = some c.deck := by
  unfold State.deckNo
  rw [hc]
  rfl

variable {d : Deck} (hd : s.deck? c.deck = some d)
include hd

theorem deckOf_sect : s.deckOf x = some d := by
  unfold State.deckOf
  rw [hc]
  exact hd

theorem rampOf_deck : s.rampOf x = d.kind.ramp := by
  unfold State.rampOf
  rw [deckOf_sect hc hd]

end

/-! ### The fields of LANE_GET (R40) -/

theorem laneHeader_of {x : Lane} {c : Sect} {d : Deck} (hc : s.sect? x.sect = some c) (hd : s.deck? c.deck = some d)
    (l : Nat) (reduced : List Byte) : s.laneHeader l x reduced =
      u8 l ++ u8 x.sect ++ u8 c.deck ++ u8 d.kind.code ++ u8 x.athwart ++ beInt 2 x.offset
        ++ be 2 x.usable ++ u8 x.gap ++ u8 x.baseClass ++ u8 x.axleLimit ++ u8 x.sockets
        ++ optU8 (x.cover.map Cover.panel) ++ reduced ++ u8 (rampCode d.kind.ramp) ++ u8 (s.clearance x)
        ++ u8 x.state.code ++ u8 (if 0 < x.overdue then 1 else 0) ++ u8 x.overdue ++ u8 x.mode.code := by
  unfold State.laneHeader Lane.held
  rw [deckNo_sect hc, deckOf_sect hc hd, rampOf_deck hc hd, flag_decide]
  rfl

theorem laneTotals_eq (s : State) (x : Lane) : s.laneTotals x = u8 x.stow.length ++ u8 x.claims.length ++ be 2 x.used
    ++ be 2 (x.usable - x.used) ++ u8 x.reefers ++ be 3 x.mass ++ be 3 x.placedMass ++ optU8 (s.lastCall? x) := by
  unfold State.laneTotals Lane.remaining
  rfl

theorem laneEntries_eq (s : State) (x : Lane) (start : Nat) : s.laneEntries x start =
    u8 ((s.records (x.stow ++ x.claims)).length - start - 20)
      ++ (((s.records (x.stow ++ x.claims)).drop start).take 20).flatMap Vehicle.entry := by
  unfold State.laneEntries
  dsimp only
  rw [List.length_drop]

/-! ### The fields of SECTION_GET (R41) -/

/-- The numbers below a list's length whose entry passes are as many as the entries that pass. -/
theorem length_filter_range {α : Type} (p : α → Bool) (xs : List α) :
    ((List.range xs.length).filter fun i => (xs[i]?).any p).length = (xs.filter p).length := by
  induction xs with
  | nil => rfl
  | cons x xs ih =>
    have later : ((List.range xs.length).map Nat.succ).filter (fun i => ((x :: xs)[i]?).any p) =
        ((List.range xs.length).filter fun i => (xs[i]?).any p).map Nat.succ := by
      rw [List.filter_map]
      rfl
    have first : ((x :: xs)[0]?).any p = p x := rfl
    rw [List.length_cons, List.range_succ_eq_map, List.filter_cons, List.filter_cons, later, first]
    split
    · rw [List.length_cons, List.length_cons, List.length_map, ih]
    · rw [List.length_map, ih]

theorem lanesWhere_length (s : State) (p : Lane → Bool) : (s.lanesWhere p).length = (s.lanes.filter p).length := by
  rw [← length_filter_range]
  unfold State.lanesWhere State.lane?
  congr 2
  funext l
  cases s.lanes[l]? <;> rfl

theorem masks_iff (k : Closure) (i : Nat) :
    k.masks i = true ↔ k.enable = true ∧ i ∈ (if k.selectB then k.maskB else k.maskA) := by
  simp [Closure.masks, Closure.selected]

section
variable {i : Nat} {c : Sect} (hc : s.sect? i = some c)
include hc

theorem sensorClosed_iff : s.sensorClosed i = true ↔ c.mode = .sensorClosed := by
  unfold State.sensorClosed
  simp [hc]

/-- The closure causes of a section are those of R168. -/
theorem closureCauses_of : s.closureCauses i = (if s.closure.glob then 1 else 0)
    + (if s.closure.enable ∧ i ∈ (if s.closure.selectB then s.closure.maskB else s.closure.maskA) then 2 else 0)
    + (if c.mode = .sensorClosed then 4 else 0) := by
  unfold State.closureCauses
  rw [ite_of_iff (masks_iff _ i) 2 rfl, ite_of_iff (sensorClosed_iff hc) 4 rfl]

theorem sectionHead_of {d : Deck} (hd : s.deck? c.deck = some d) : s.sectionHead i c =
    u8 c.deck ++ u8 d.kind.code ++ be 2 c.massLimit ++ be 4 c.projected ++ be 4 c.placed ++ u8 d.threshold
      ++ u8 c.arm.code ++ u8 (s.lanes.filter fun x => x.sect == i).length ++ u8 (if s.closed i then 1 else 0)
      ++ u8 ((if s.closure.glob then 1 else 0)
        + (if s.closure.enable ∧ i ∈ (if s.closure.selectB then s.closure.maskB else s.closure.maskA) then 2 else 0)
        + (if c.mode = .sensorClosed then 4 else 0)) ++ u8 c.mode.code := by
  unfold State.sectionHead
  rw [hd, thresholdOf_deck hd, lanesWhere_length, closureCauses_of hc]
  rfl

end

/-! ### The requests -/

theorem reqLaneGet_noProfile (lane start : Nat) (bare : s.profile.inForce = false) :
    reqLaneGet lane start s = (s, plain .noProfile) := by
  unfold reqLaneGet
  simp [bare]

theorem reqSectionGet_noProfile (i : Nat) (bare : s.profile.inForce = false) :
    reqSectionGet i s = (s, plain .noProfile) := by
  unfold reqSectionGet
  simp [bare]

section
variable (model : Modelled s)
include model

theorem reqLaneGet_range {lane start : Nat} (beyond : s.lane? lane = none ∨ 47 < start) :
    reqLaneGet lane start s = (s, plain .range) := by
  have inForce : s.profile.inForce = true := model
  unfold reqLaneGet
  cases hx : s.lane? lane with
  | none => simp [inForce]
  | some x =>
    have far : 47 < start := beyond.resolve_left (by simp [hx])
    simp [inForce, far]

section
variable {lane start : Nat} {x : Lane} (hx : s.lane? lane = some x) (near : start ≤ 47)
include hx near

theorem reqLaneGet_covered {k : Cover} (cover : x.cover = some k) : reqLaneGet lane start s =
    (s, ⟨.ok, s.laneHeader lane x (u8 k.reduced) ++ s.laneTotals x ++ s.laneEntries x start⟩) := by
  unfold reqLaneGet
  simp [show s.profile.inForce = true from model, hx, Nat.not_lt.2 near, cover]

/-- The reduced class of an uncovered lane is a free byte (log 12). -/
theorem reqLaneGet_uncovered (cover : x.cover = none) : reqLaneGet lane start s =
    ({ s with freeCtr := s.freeCtr + 1 }, ⟨.ok, s.laneHeader lane x [Config.unstatedByte s.freeCtr] ++ s.laneTotals x
      ++ s.laneEntries x start⟩) := by
  unfold reqLaneGet
  simp [show s.profile.inForce = true from model, hx, Nat.not_lt.2 near, cover, State.freeByte]

end

theorem reqSectionGet_range {i : Nat} (beyond : s.sect? i = none) : reqSectionGet i s = (s, plain .range) := by
  unfold reqSectionGet
  simp [show s.profile.inForce = true from model, beyond]

section
variable {i : Nat} {c : Sect} (hc : s.sect? i = some c)
include hc

theorem reqSectionGet_panel {p : Nat} {y : Panel} (carried : s.carrier? i = some (p, y)) : reqSectionGet i s =
    (s, ⟨.ok, s.sectionHead i c ++ panelFields p y ++ s.listFigures⟩) := by
  unfold reqSectionGet
  simp [show s.profile.inForce = true from model, hc, carried]

/-- The state of an absent panel is a free byte (log 12). -/
theorem reqSectionGet_noPanel (uncarried : s.carrier? i = none) : reqSectionGet i s =
    ({ s with freeCtr := s.freeCtr + 1 },
      ⟨.ok, s.sectionHead i c ++ noPanelFields (Config.unstatedByte s.freeCtr) ++ s.listFigures⟩) := by
  unfold reqSectionGet
  simp [show s.profile.inForce = true from model, hc, uncarried, State.freeByte]

end

end

end Sys2Proof.Machine

open Sys2Proof Sys2Proof.Machine

/-- Settles O33: the refusals, the fields of both replies, and the replies themselves. -/
theorem laneAndSectionReports : Obligations.LaneAndSectionReports := by
  refine ⟨fun lt a b s taking => ⟨fun bare => ?_, fun model beyond => ?_⟩, fun s l x reduced c d hc hd => ?_,
    fun s x start => ⟨laneTotals_eq s x, ?_⟩, fun s i c d hc hd => sectionHead_of hc hd, fun p y b => ⟨rfl, rfl⟩,
    fun s => rfl, fun lt n start s taking model => ⟨fun x c hx near cover => ?_, fun x hx near cover => ?_, fun beyond => ?_,
      fun c p y hc carried => ?_, fun c hc uncarried => ?_, fun beyond => ?_⟩⟩
  · exact ⟨congrArg _ (requestArrives_eq _ _ _ id s taking (reqLaneGet_noProfile (s := heard s) _ _ bare)),
      congrArg _ (requestArrives_eq _ _ _ id s taking (reqSectionGet_noProfile (s := heard s) _ bare)),
      congrArg _ (requestArrives_eq _ _ _ id s taking (reqThresholdSet_noProfile (s := heard s) _ _ bare)),
      congrArg _ (requestArrives_eq _ _ _ id s taking (reqLaneShut_noProfile (s := heard s) _ bare)),
      congrArg _ (requestArrives_eq _ _ _ id s taking (reqLaneOpen_noProfile (s := heard s) _ bare))⟩
  · exact ⟨congrArg _ (requestArrives_eq _ _ _ id s taking (reqLaneShut_beyond (s := heard s) model beyond)),
      congrArg _ (requestArrives_eq _ _ _ id s taking (reqLaneOpen_beyond (s := heard s) model beyond))⟩
  · rw [laneHeader_of hc hd]
    cases x.cover <;> cases d.kind <;> rfl
  · refine (laneEntries_eq s x start).trans (congrArg (_ ++ ·) (congrArg (List.flatMap · _) (funext fun v => ?_)))
    unfold Vehicle.entry
    cases v.stage <;> rfl
  · exact congrArg _ (requestArrives_eq _ _ _ id s taking (reqLaneGet_covered (s := heard s) model hx near cover))
  · exact congrArg _ (requestArrives_eq _ _ _ (fun s => { s with freeCtr := s.freeCtr + 1 }) s taking
      (reqLaneGet_uncovered (s := heard s) model hx near cover))
  · exact congrArg _ (requestArrives_eq _ _ _ id s taking (reqLaneGet_range (s := heard s) model beyond))
  · exact congrArg _ (requestArrives_eq _ _ _ id s taking (reqSectionGet_panel (s := heard s) model hc carried))
  · exact congrArg _ (requestArrives_eq _ _ _ (fun s => { s with freeCtr := s.freeCtr + 1 }) s taking
      (reqSectionGet_noPanel (s := heard s) model hc uncarried))
  · exact congrArg _ (requestArrives_eq _ _ _ id s taking (reqSectionGet_range (s := heard s) model beyond))

end

section
/-! O32: DEPART, the discharge removal, the end of unloading and exit events. -/

namespace Sys2Proof.Machine

variable {s : State}

/-! ### Who may depart (R156) -/

theorem mayDepart_eq_some {v : Vehicle} {l o : Nat} {x : Lane} (stage : v.stage = .placed l o) (hx : s.lane? l = some x)
    (loading : x.state = .unloading) (tail : x.stow.getLast? = some v.tag) : s.mayDepart v = some (l, x) := by
  unfold State.mayDepart
  simp [stage, hx, loading, tail]

theorem mayDepart_standby {v : Vehicle} (stage : v.stage = .standby) : s.mayDepart v = none := by
  unfold State.mayDepart
  rw [stage]

/-- A vehicle that is not PLACED, whose lane is not UNLOADING, or that is not the tail stays. -/
theorem mayDepart_eq_none {v : Vehicle} {l : Nat} {x : Lane} (lane : v.stage.lane? = some l) (hx : s.lane? l = some x)
    (barred : v.stage.isPlaced = false ∨ x.state ≠ .unloading ∨ x.stow.getLast? ≠ some v.tag) : s.mayDepart v = none := by
  unfold State.mayDepart
  cases stage : v.stage with
  | placed k o =>
    rw [stage] at lane barred
    cases lane
    have stays : ¬ (x.state = .unloading ∧ x.stow.getLast? = some v.tag) := fun ⟨loading, tail⟩ =>
      barred.elim (fun e => nomatch e) fun h => h.elim (fun e => e loading) fun e => e tail
    simp [hx, stays]
  | standby => rfl
  | assigned k => rfl
  | onRamp k => rfl
  | pastCrest k => rfl

/-! ### The request (R156) -/

theorem reqDepart_noProfile (tag : Nat) (bare : s.profile.inForce = false) : reqDepart tag s = (s, plain .noProfile) := by
  unfold reqDepart
  simp [bare]

section
variable {tag : Nat} (model : Modelled s)
include model

theorem reqDepart_unknown (unknown : s.veh? tag = none) : reqDepart tag s = (s, plain .notFound) := by
  unfold reqDepart
  simp [show s.profile.inForce = true from model, unknown]

variable {v : Vehicle} (known : s.veh? tag = some v)
include known

theorem reqDepart_refused (stays : s.mayDepart v = none) : reqDepart tag s =
    (s, ⟨.sequence, u8 v.stage.code ++ optU8 v.stage.lane? ++ optTag (s.tailTag? v)⟩) := by
  unfold reqDepart
  simp [show s.profile.inForce = true from model, known, stays]

/-- The vehicle leaves; in a SENSED lane with 4 exit credits a silent disagreement follows. -/
theorem reqDepart_leaves {l : Nat} {x : Lane} (may : s.mayDepart v = some (l, x)) : reqDepart tag s =
    (if x.mode = .sensed ∧ 4 ≤ x.exitCredits then scoreSilent l 1 (dischargeRemoval v l .depart true s)
      else dischargeRemoval v l .depart (decide (x.mode = .sensed)) s, plain .ok) := by
  unfold reqDepart
  by_cases full : x.mode = .sensed ∧ 4 ≤ x.exitCredits
  · simp [show s.profile.inForce = true from model, known, may, Config.creditCapacity, full]
  · have credit : ¬ ((decide (x.mode = .sensed) && decide (Config.creditCapacity ≤ x.exitCredits)) = true) := by
      rw [Bool.and_eq_true, decide_eq_true_iff, decide_eq_true_iff]
      exact full
    simp only [show s.profile.inForce = true from model, known, may, credit, full, if_false, Bool.not_true,
      Bool.false_eq_true]

end

/-- The tail's tag, 0 where the list is empty. -/
theorem optTag_eq (o : Option Nat) : optTag o = be 4 (o.getD 0) := by cases o <;> rfl

theorem tailTag?_of {v : Vehicle} {l : Nat} {x : Lane} (lane : v.stage.lane? = some l) (hx : s.lane? l = some x) :
    s.tailTag? v = x.stow.getLast? := by
  unfold State.tailTag?
  rw [lane, Option.bind_some, hx, Option.bind_some]

/-! ### The discharge removal (R154) -/

/-- A lane that a stowed vehicle has left. -/
def Lane.unstowed (x : Lane) (v : Vehicle) : Lane :=
  { x with
    stow := without v.tag x.stow, used := x.used - (v.length + x.gap), reefers := x.reefers - (if v.reefer then 1 else 0)
    mass := x.mass - v.mass, placedMass := x.placedMass - v.mass }

/-- What the removal of a stowed vehicle leaves, lane by lane and section by section. -/
theorem dropPlaced_of {l : Nat} {x : Lane} (hx : s.lane? l = some x) (v : Vehicle) : dropPlaced v l s =
    { s with
      vehicles := s.vehicles.filter fun u => u.tag != v.tag
      lanes := s.lanes.modify l fun x => x.unstowed v
      sections := s.sections.modify x.sect fun c =>
        { c with projected := c.projected - v.mass, placed := c.placed - v.mass }
      listMoment := s.listMoment - v.mass * x.offset } := by
  unfold dropPlaced
  rw [dropShare_updLane hx v true ⟨rfl, rfl⟩]
  rfl

theorem dropPlaced_lane? {l : Nat} {x : Lane} (hx : s.lane? l = some x) (v : Vehicle) :
    (dropPlaced v l s).lane? l = some (x.unstowed v) := by
  rw [dropPlaced_of hx]
  exact (updLane_same s l _).trans (by rw [hx]; rfl)

theorem dropPlaced_sect? {l : Nat} {x : Lane} {c : Sect} (hx : s.lane? l = some x) (hc : s.sect? x.sect = some c)
    (v : Vehicle) : (dropPlaced v l s).sect? x.sect =
      some { c with projected := c.projected - v.mass, placed := c.placed - v.mass } := by
  rw [dropPlaced_of hx]
  exact (updSect_sect? s x.sect x.sect _).trans (by rw [if_pos rfl, hc]; rfl)

/-! ### The tail of a stow list, and the call (R155, R158) -/

theorem tailDue_of {x : Lane} {tag : Nat} {v : Vehicle} (tail : x.stow.getLast? = some tag) (known : s.veh? tag = some v)
    (due : s.voyage.call? = some v.call) : s.tailDue x = true := by
  unfold State.tailDue State.tailCall?
  simp [tail, known, due]

/-- No vehicle stands at the tail, or the one there is for another call. -/
theorem tailDue_not {x : Lane} (none : x.stow = [] ∨
    ∃ tag v, x.stow.getLast? = some tag ∧ s.veh? tag = some v ∧ s.voyage.call? ≠ some v.call) : s.tailDue x = false := by
  unfold State.tailDue State.tailCall?
  rcases none with empty | ⟨tag, v, tail, known, other⟩
  · simp [empty]
  · cases call : s.voyage.call? with
    | none => simp [tail, known]
    | some c =>
      have differs : v.call ≠ c := fun e => other (by rw [call, e])
      simp [tail, known, differs]

section
variable {l : Nat} {x : Lane} (hx : s.lane? l = some x)
include hx

theorem judgeUnloading_due (due : s.tailDue x = true) : judgeUnloading l s = s := by
  unfold judgeUnloading
  simp [hx, due]

/-- With no vehicle due at its tail the lane becomes OPEN. -/
theorem judgeUnloading_done (done : s.tailDue x = false) : judgeUnloading l s =
    (s.updLane l fun x => { x with state := .opened, exitCredits := 0, exitWindow := .stopped }).notify
      (.laneDischarged l x.stow.length (s.lastCall? x)) := by
  unfold judgeUnloading
  simp only [hx, done]
  rfl

theorem exitEvent_credit (credit : 0 < x.exitCredits) : exitEvent l s = (s.updLane l Lane.useExitCredit, true) := by
  unfold exitEvent
  simp [hx, credit]

variable (noCredit : x.exitCredits = 0)
include noCredit

theorem exitEvent_removal {tag : Nat} {v : Vehicle} (due : s.tailDue x = true) (tail : x.stow.getLast? = some tag)
    (known : s.veh? tag = some v) : exitEvent l s = (dischargeRemoval v l .exit false s, true) := by
  unfold exitEvent
  simp [hx, noCredit, due, tail, known]

theorem exitEvent_unmatched (done : s.tailDue x = false) : exitEvent l s = (s, false) := by
  unfold exitEvent
  simp [hx, noCredit, done]

end

end Sys2Proof.Machine

open Sys2Proof Sys2Proof.Machine

/-- Settles O32: the request, the removal, the end of unloading and the exit event, each by its lemmas. -/
theorem departRemoves : Obligations.DepartRemoves := by
  refine ⟨fun l s x hx => judgeRemoval_of hx, fun lt tag s taking => ⟨fun bare => ?_, fun model unknown => ?_,
    fun v model known => ⟨fun stage => ?_, fun l x lane hx barred => ?_⟩⟩,
    fun lt tag s v l o x taking model known stage hx loading tail => ?_, ?_, ?_,
    fun l s x hx => ⟨fun tag v tail known due => judgeUnloading_due hx (tailDue_of tail known due),
      fun done => judgeUnloading_done hx (tailDue_not done)⟩,
    fun l s x hx => ⟨exitEvent_credit hx,
      fun tag v empty tail known due => exitEvent_removal hx empty (tailDue_of tail known due) tail known,
      fun empty done => exitEvent_unmatched hx empty (tailDue_not done)⟩⟩
  · exact congrArg _ (requestArrives_eq _ _ _ id s taking (reqDepart_noProfile (s := heard s) _ bare))
  · exact congrArg _ (requestArrives_eq _ _ _ id s taking (reqDepart_unknown (s := heard s) model unknown))
  · refine congrArg _ (requestArrives_eq _ _ _ id s taking
      ((reqDepart_refused (s := heard s) model known (mayDepart_standby stage)).trans ?_))
    unfold State.tailTag?
    rw [stage]
    rfl
  · refine congrArg _ (requestArrives_eq _ _ _ id s taking
      ((reqDepart_refused (s := heard s) model known (mayDepart_eq_none lane hx barred)).trans ?_))
    rw [tailTag?_of (s := heard s) lane hx, optTag_eq, lane]
    rfl
  · exact congrArg _ (requestArrives_eq _ _ _ (fun s => if x.mode = .sensed ∧ 4 ≤ x.exitCredits
        then scoreSilent l 1 (dischargeRemoval v l .depart true s)
        else dischargeRemoval v l .depart (decide (x.mode = .sensed)) s) s taking
      (reqDepart_leaves (s := heard s) model known (mayDepart_eq_some stage hx loading tail)))
  · rintro s t v l x c hx hc rfl
    refine ⟨freeVeh_veh? _ v.tag, dropPlaced_lane? hx v, dropPlaced_sect? hx hc v, ?_⟩
    rw [dropPlaced_of hx]
    exact ⟨rfl, rfl, rfl⟩
  · rintro v l m credit s u rfl
    rfl

end

section
/-! O27: what a claim binds, what follows it, and the standby sweep. -/

namespace Sys2Proof.Machine

variable {s : State}

/-! ### What a claim binds (R58) -/

/-- A lane with one claim more. -/
def Lane.claimed (x : Lane) (v : Vehicle) : Lane :=
  { x with
    claims := x.claims ++ [v.tag], used := x.used + (v.length + x.gap), reefers := x.reefers + (if v.reefer then 1 else 0)
    mass := x.mass + v.mass }

section
variable {l : Nat} {x : Lane} (hx : s.lane? l = some x) (v : Vehicle)
include hx

theorem addShare_of : addShare v l s =
    { s with
      lanes := s.lanes.modify l fun x => { x with
        used := x.used + (v.length + x.gap), reefers := x.reefers + (if v.reefer then 1 else 0), mass := x.mass + v.mass }
      sections := s.sections.modify x.sect fun c => { c with projected := c.projected + v.mass }
      listMoment := s.listMoment + v.mass * x.offset } := by
  unfold addShare
  simp only [hx]
  rfl

/-- A claim reaches the record, the queue, its lane, its section and the list moment. -/
theorem bindClaim_of : bindClaim v l s =
    { s.updRamp (s.rampOfNo l) (fun q => q.setQueue v.cls.kind (q.queue v.cls.kind ++ [v.tag])) with
      vehicles := (s.setStage v.tag (.assigned l)).vehicles
      lanes := s.lanes.modify l fun x => x.claimed v
      sections := s.sections.modify x.sect fun c => { c with projected := c.projected + v.mass }
      listMoment := s.listMoment + v.mass * x.offset } := by
  have lane : (((s.setStage v.tag (.assigned l)).updLane l fun x => { x with claims := x.claims ++ [v.tag] }).updRamp
      (s.rampOfNo l) fun q => q.setQueue v.cls.kind (q.queue v.cls.kind ++ [v.tag])).lane? l =
      some { x with claims := x.claims ++ [v.tag] } := by
    cases s.rampOfNo l <;> exact (updLane_same _ l _).trans (by rw [show (s.setStage v.tag _).lane? l = _ from hx]; rfl)
  refine (addShare_of lane v).trans ?_
  cases s.rampOfNo l <;> simp only [State.updLane, State.updRamp, modify_twice] <;> rfl

theorem bindClaim_lane? (k : Nat) : (bindClaim v l s).lane? k = if k = l then some (x.claimed v) else s.lane? k := by
  rw [bindClaim_of hx]
  refine (updLane_lane? s l k _).trans ?_
  by_cases e : k = l
  · rw [if_pos e.symm, if_pos e, e, hx]
    rfl
  · rw [if_neg fun h => e h.symm, if_neg e]

theorem bindClaim_sect? (i : Nat) : (bindClaim v l s).sect? i =
    if i = x.sect then (s.sect? i).map fun c => { c with projected := c.projected + v.mass } else s.sect? i := by
  rw [bindClaim_of hx]
  refine (updSect_sect? s x.sect i _).trans ?_
  by_cases e : i = x.sect
  · rw [if_pos e.symm, if_pos e]
  · rw [if_neg fun h => e h.symm, if_neg e]

theorem bindClaim_queue : ((bindClaim v l s).ramp (s.rampOfNo l)).queue v.cls.kind =
    (s.ramp (s.rampOfNo l)).queue v.cls.kind ++ [v.tag] := by
  rw [bindClaim_of hx]
  refine Eq.trans ?_ (setQueue_queue (s.ramp (s.rampOfNo l)) v.cls.kind _)
  cases s.rampOfNo l <;> rfl

theorem bindClaim_stage {u : Vehicle} (hu : u ∈ (bindClaim v l s).vehicles) (own : u.tag = v.tag) :
    u.stage = .assigned l := by
  rw [bindClaim_of hx] at hu
  obtain ⟨w, -, rfl⟩ := List.mem_map.1 hu
  by_cases e : w.tag = v.tag
  · rw [if_pos e]
  · rw [if_neg e] at own
    exact absurd own e

theorem bindClaim_rest : (bindClaim v l s).listMoment = s.listMoment + v.mass * x.offset ∧
    (bindClaim v l s).standby = s.standby ∧ (bindClaim v l s).voyage = s.voyage ∧ (bindClaim v l s).link = s.link ∧
    (bindClaim v l s).panels = s.panels ∧ (bindClaim v l s).decks = s.decks := by
  rw [bindClaim_of hx]
  cases s.rampOfNo l <;> exact ⟨rfl, rfl, rfl, rfl, rfl, rfl⟩

end

/-! ### The judgements and the sequencer after it (R58, R59) -/

theorem judgeClaim_of {l : Nat} {x : Lane} (hx : s.lane? l = some x) :
    judgeClaim l s = clearListOver (judgeList (judgeSect x.sect s)) := by
  unfold judgeClaim
  rw [hx]

/-- The notice of a sweep stands before the judgements, which go by the lane as the claim leaves it. -/
theorem claimLane_of {l : Nat} {x : Lane} (hx : s.lane? l = some x) (v : Vehicle) (announce : Bool) :
    claimLane v l announce s = claimReaches (s.rampOfNo l) (clearListOver (judgeList (judgeSect x.sect
      (if announce then (bindClaim v l s).notify (.standbyAssigned v.tag l (s.rampOfNo l)) else bindClaim v l s)))) := by
  have bound : (bindClaim v l s).lane? l = some (x.claimed v) := (bindClaim_lane? hx v l).trans (if_pos rfl)
  cases announce with
  | true => exact congrArg (claimReaches (s.rampOfNo l)) (judgeClaim_of (x := x.claimed v) bound)
  | false => exact congrArg (claimReaches (s.rampOfNo l)) (judgeClaim_of (x := x.claimed v) bound)

/-- A sequencer that is not in a run examines nothing (R86). -/
theorem examineRamp_resting {r : Ramp} (rest : (s.ramp r).seq.run? = none) : examineRamp r s = s := by
  show seqGo (6 * ((s.ramp r).light.length + (s.ramp r).heavy.length) + 7 + 1) r .examine s = s
  unfold seqGo seqNext
  simp only [rest]

theorem claimReaches_idle {r : Ramp} (idle : (s.ramp r).seq = .idle) : claimReaches r s = cycleStart r s := by
  unfold claimReaches
  rw [idle]

theorem claimReaches_other {r : Ramp} (other : (s.ramp r).seq ≠ .idle) : claimReaches r s = examineRamp r s := by
  unfold claimReaches
  cases seq : (s.ramp r).seq with
  | idle => exact absurd seq other
  | lightRun => rfl
  | heavyRun => rfl
  | stopped => exact (examineRamp_resting (by rw [seq]; rfl)).symm
  | waitTrigger => exact (examineRamp_resting (by rw [seq]; rfl)).symm

/-! ### The standby sweep (R62 to R64) -/

theorem sweepIfDue_load {c n : Nat} (due : s.ev.sweepDue = true) (load : s.voyage = .load c n) :
    sweepIfDue s = { sweep s with ev := EventMarks.none } := by
  unfold sweepIfDue
  simp only [due, load, if_true]

/-- Without a trigger, and outside LOAD, no sweep runs. -/
theorem sweepIfDue_none (h : s.ev.sweepDue = false ∨ ∀ c n, s.voyage ≠ .load c n) :
    sweepIfDue s = { s with ev := EventMarks.none } := by
  unfold sweepIfDue
  split
  · rename_i due
    have away := h.resolve_left (by rw [due]; exact Bool.noConfusion)
    split
    · rename_i c n load
      exact absurd load (away c n)
    all_goals rfl
  · rfl

section
variable {tag : Nat} {v : Vehicle} (known : s.veh? tag = some v)
include known

theorem sweepOne_stays {n : Nat} (noLane : allocate s v = .noCandidate n) : sweepOne s tag = s := by
  unfold sweepOne
  simp only [known, noLane]

theorem sweepOne_claims {l : Nat} (claim : allocate s v = .claim l) :
    sweepOne s tag = claimLane v l true { s with standby := without tag s.standby } := by
  unfold sweepOne
  simp only [known, claim]

end

end Sys2Proof.Machine

open Sys2Proof Sys2Proof.Machine

/-- Settles O27: what is bound, what follows, and the sweep, each by its lemmas. -/
theorem claimBinds : Obligations.ClaimBinds := by
  refine ⟨?_, ?_, fun r s => ⟨claimReaches_idle, claimReaches_other⟩,
    fun s => ⟨fun c n due load => sweepIfDue_load due load, sweepIfDue_none, rfl⟩,
    fun s tag v known => ⟨fun n noLane => sweepOne_stays known noLane, fun l claim => sweepOne_claims known claim⟩⟩
  · rintro s t v l x c hx hc rfl
    obtain ⟨moment, rest⟩ := bindClaim_rest hx v
    refine ⟨(bindClaim_lane? hx v l).trans (if_pos rfl), ?_, moment, bindClaim_queue hx v,
      fun u hu own => bindClaim_stage hx v hu own, fun k hk => (bindClaim_lane? hx v k).trans (if_neg hk),
      fun i hi => (bindClaim_sect? hx v i).trans (if_neg hi), rest⟩
    rw [bindClaim_sect? hx, if_pos rfl, hc]
    rfl
  · rintro v l announce s t x hx rfl
    exact claimLane_of hx v announce

end

section
/-! O26: what the lane tests ask, which lanes pass them all, and which of these ranks first. -/

namespace Sys2Proof.Machine

variable {s : State}

/-! ### What the tests speak of (R20, R22, R26, R27, R51) -/

theorem adjacent_iff {x y : Lane} {c d : Sect} (hc : s.sect? x.sect = some c) (hd : s.sect? y.sect = some d) :
    s.adjacent x y = true ↔ c.deck = d.deck ∧ (x.athwart + 1 = y.athwart ∨ y.athwart + 1 = x.athwart) := by
  unfold State.adjacent
  rw [deckNo_sect hc, deckNo_sect hd]
  simp

section
variable {x : Lane} {c : Sect} {d : Deck} (hc : s.sect? x.sect = some c) (hd : s.deck? c.deck = some d)
include hc hd

theorem onWeather_iff : s.onWeather x = true ↔ d.kind = .weather := by
  unfold State.onWeather
  rw [deckOf_sect hc hd]
  exact decide_eq_true_iff

theorem onHoist_iff : s.onHoist x = true ↔ d.kind = .hoist := by
  unfold State.onHoist
  rw [deckOf_sect hc hd]
  exact decide_eq_true_iff

end

theorem openDeckOnly_of {g : Nat} {q : DgRec} (hq : s.limits.dg[g - 1]? = some q) :
    s.openDeckOnly g = q.openDeckOnly := by
  unfold State.openDeckOnly
  rw [hq]

theorem dgLevel_of {g h n : Nat} {q : DgRec} (hq : s.limits.dg[g - 1]? = some q) (hn : q.levels[h - 1]? = some n) :
    s.dgLevel g h = n := by
  unfold State.dgLevel
  rw [hq, Option.bind_some, hn, Option.getD_some]

theorem mem_dgGroups {y : Lane} {h : Nat} :
    h ∈ s.dgGroups y ↔ ∃ w ∈ s.records (y.stow ++ y.claims), w.dg = some h := List.mem_filterMap

theorem carrierWorking_iff {x : Lane} :
    s.carrierWorking x = true ↔ ∃ p y, s.carrier? x.sect = some (p, y) ∧ y.state = .working := by
  unfold State.carrierWorking
  cases s.carrier? x.sect with
  | none => exact ⟨fun h => (nomatch h), fun ⟨_, _, h, _⟩ => (nomatch h)⟩
  | some q =>
    refine decide_eq_true_iff.trans ⟨fun working => ⟨q.1, q.2, rfl, working⟩, ?_⟩
    rintro ⟨p, y, ⟨⟩, working⟩
    exact working

theorem clearance_uncovered {x : Lane} (cover : x.cover = none) : s.clearance x = x.baseClass := by
  unfold State.clearance
  rw [cover]

theorem clearance_covered {x : Lane} {c : Cover} {y : Panel} (cover : x.cover = some c) (hy : s.panel? c.panel = some y) :
    s.clearance x = if y.state = .stowed then x.baseClass else c.reduced := by
  unfold State.clearance
  simp only [cover, hy]

theorem lastCall?_claim {x : Lane} {tag : Nat} {v : Vehicle} (tail : x.claims.getLast? = some tag)
    (known : s.veh? tag = some v) : s.lastCall? x = some v.call := by
  unfold State.lastCall?
  simp only [tail, known, Option.map_some]

theorem lastCall?_stow {x : Lane} (noClaim : x.claims = []) :
    s.lastCall? x = x.stow.getLast?.bind fun t => (s.veh? t).map Vehicle.call := by
  unfold State.lastCall?
  simp [noClaim]

theorem permits_iff (s : State) (l k : Nat) (x y : Lane) : s.permits 0 l x k y = true ∧ (s.permits 1 l x k y = true ↔ l ≠ k) ∧
    (s.permits 2 l x k y = true ↔ l ≠ k ∧ s.adjacent x y = false) ∧
    (s.permits 3 l x k y = true ↔ l ≠ k ∧ s.adjacent x y = false ∧ x.sect ≠ y.sect) ∧
    (s.permits 4 l x k y = true ↔ s.deckNo x ≠ s.deckNo y) := by
  simp [State.permits, and_assoc]

/-! ### The tests T1 to T11 (R46 to R56) -/

section
variable (s) (v : Vehicle) (l : Nat) (x : Lane)

theorem testT1_iff : testT1 s v l x = true ↔ ∀ q, v.reqLane = some q → l = q := by
  unfold testT1
  cases v.reqLane with
  | none => simp
  | some q =>
    rw [beq_iff_eq]
    exact ⟨fun e _ r => e.symm.trans (Option.some.inj r), fun h => (h q rfl).symm⟩

theorem testT2_iff : testT2 s v l x = true ↔ x.state = .opened ∧ x.overdue = 0 ∧ s.closed x.sect = false ∧
    (s.onHoist x = true → ∃ p y, s.carrier? x.sect = some (p, y) ∧ y.state = .working) := by
  rw [← carrierWorking_iff]
  unfold testT2 State.available Lane.held
  cases s.onHoist x <;> simp [and_assoc]

theorem testT5_iff : testT5 s v l x = true ↔ (v.reefer = true → x.reefers < x.sockets) := by
  unfold testT5
  cases v.reefer <;> simp

theorem testT6_iff : testT6 s v l x = true ↔
    v.length + x.gap ≤ x.usable - x.used ∧ x.claims.length < 16 ∧ x.stow.length + x.claims.length < 48 := by
  unfold testT6
  rw [Bool.and_eq_true, Bool.and_eq_true, decide_eq_true_iff, decide_eq_true_iff, decide_eq_true_iff, and_assoc]
  exact Iff.rfl

theorem testT7_iff : testT7 s v l x = true ↔ ∀ c, s.lastCall? x = some c → v.call ≤ c := by
  unfold testT7
  cases s.lastCall? x <;> simp

/-- T8 asks every vehicle with a DG group, in every lane. -/
theorem testT8_iff : testT8 s v l x = true ↔ ∀ g, v.dg = some g → (s.openDeckOnly g = true → s.onWeather x = true) ∧
    ∀ k y w h, s.lane? k = some y → w ∈ s.records (y.stow ++ y.claims) → w.dg = some h →
      s.permits (s.dgLevel g h) l x k y = true := by
  unfold testT8
  cases v.dg with
  | none => simp
  | some g =>
    have weather : (s.onWeather x || !s.openDeckOnly g) = true ↔ (s.openDeckOnly g = true → s.onWeather x = true) := by
      cases s.openDeckOnly g <;> simp
    rw [Bool.and_eq_true, weather, List.all_eq_true]
    constructor
    · rintro ⟨weatherOnly, every⟩ _ ⟨⟩
      refine ⟨weatherOnly, fun k y w h hy hw hh => ?_⟩
      have lane := every k (List.mem_range.2 (List.getElem?_eq_some_iff.1 hy).1)
      simp only [hy, List.all_eq_true] at lane
      exact lane h (mem_dgGroups.2 ⟨w, hw, hh⟩)
    · intro asks
      obtain ⟨weatherOnly, every⟩ := asks g rfl
      refine ⟨weatherOnly, fun k _ => ?_⟩
      split
      · rfl
      · rename_i y hy
        rw [List.all_eq_true]
        intro h hh
        obtain ⟨w, hw, group⟩ := mem_dgGroups.1 hh
        exact every k y w h hy hw group

variable {x} in
theorem testT9_iff {c : Sect} (hc : s.sect? x.sect = some c) :
    testT9 s v l x = true ↔ c.projected + v.mass ≤ c.massLimit * 1000 := by
  unfold testT9
  rw [hc]
  exact decide_eq_true_iff

theorem testT10_iff : testT10 s v l x = true ↔ (s.listMoment + v.mass * x.offset).natAbs ≤ s.limits.listLimit * 10000 ∨
    (s.listMoment + v.mass * x.offset).natAbs < s.listMoment.natAbs := by
  unfold testT10
  rw [Bool.or_eq_true, decide_eq_true_iff, decide_eq_true_iff]
  exact Iff.rfl

end

/-! ### The ranking (R57) -/

theorem ranksBefore_cons {a b : Nat} {as bs : List Nat} :
    ranksBefore (a :: as) (b :: bs) = true ↔ a < b ∨ (a = b ∧ ranksBefore as bs = true) := by
  rw [ranksBefore]
  rcases Nat.lt_trichotomy a b with lt | rfl | gt
  · rw [if_pos lt]
    exact iff_of_true rfl (.inl lt)
  · rw [if_neg (Nat.lt_irrefl a), if_neg (Nat.lt_irrefl a)]
    exact ⟨fun h => .inr ⟨rfl, h⟩, fun h => h.elim (fun lt => absurd lt (Nat.lt_irrefl a)) fun h => h.2⟩
  · rw [if_neg (Nat.lt_asymm gt), if_pos gt]
    exact iff_of_false Bool.false_ne_true (by omega)

theorem ranksBefore_trans : ∀ {as bs cs : List Nat}, ranksBefore as bs = true → ranksBefore bs cs = true →
    ranksBefore as cs = true
  | [], bs, _, h, _ => by cases bs <;> cases h
  | _ :: _, [], _, h, _ => by cases h
  | _ :: _, _ :: _, [], _, k => by cases k
  | a :: as, b :: bs, c :: cs, h, k => by
    rw [ranksBefore_cons] at *
    rcases h with h | ⟨rfl, h⟩
    · exact .inl (by rcases k with k | ⟨rfl, -⟩ <;> omega)
    · rcases k with k | ⟨rfl, k⟩
      · exact .inl k
      · exact .inr ⟨rfl, ranksBefore_trans h k⟩

/-- Two lists of one length are the same, or one ranks before the other. -/
theorem ranksBefore_total : ∀ {as bs : List Nat}, as.length = bs.length →
    as = bs ∨ ranksBefore as bs = true ∨ ranksBefore bs as = true
  | [], [], _ => .inl rfl
  | a :: as, b :: bs, len => by
    rw [ranksBefore_cons, ranksBefore_cons]
    rcases Nat.lt_trichotomy a b with lt | rfl | gt
    · exact .inr (.inl (.inl lt))
    · rcases ranksBefore_total (Nat.succ.inj len) with rfl | first | second
      · exact .inl rfl
      · exact .inr (.inl (.inr ⟨rfl, first⟩))
      · exact .inr (.inr (.inr ⟨rfl, second⟩))
    · exact .inr (.inr (.inl gt))

theorem prefKeys_of {v : Vehicle} {l : Nat} {x : Lane} {c : Sect} (hx : s.lane? l = some x) (hc : s.sect? x.sect = some c) :
    prefKeys s v l =
      [ if s.lastCall? x = none then 1 else if s.lastCall? x = some v.call then 0 else 2
      , if s.thresholdOf c * (c.massLimit * 1000) < 256 * (c.projected + v.mass) then 1 else 0
      , (s.listMoment + v.mass * x.offset).natAbs, x.usable - x.used - (v.length + x.gap), l ] := by
  have p1 : keyP1 s v x = if s.lastCall? x = none then 1 else if s.lastCall? x = some v.call then 0 else 2 := by
    unfold keyP1
    cases s.lastCall? x <;> simp
  have p2 : keyP2 s v x = if s.thresholdOf c * (c.massLimit * 1000) < 256 * (c.projected + v.mass) then 1 else 0 := by
    unfold keyP2 sectAbove
    simp only [hc, decide_eq_true_eq]
  unfold prefKeys
  simp only [hx, p1, p2]
  rfl

/-- Of two lanes one ranks before the other, since P5 is the lane's number. -/
theorem prefKeys_total {v : Vehicle} {l k : Nat} (hl : (s.lane? l).isSome) (hk : (s.lane? k).isSome) :
    l = k ∨ ranksBefore (prefKeys s v l) (prefKeys s v k) = true ∨ ranksBefore (prefKeys s v k) (prefKeys s v l) = true := by
  obtain ⟨x, hx⟩ := Option.isSome_iff_exists.1 hl
  obtain ⟨y, hy⟩ := Option.isSome_iff_exists.1 hk
  have len : (prefKeys s v l).length = (prefKeys s v k).length := by simp [prefKeys, hx, hy]
  refine (ranksBefore_total len).imp_left fun same => ?_
  simp only [prefKeys, hx, hy, List.cons.injEq, and_true] at same
  obtain ⟨-, -, -, -, number⟩ := same
  exact number

/-- The lane kept of the one kept so far and the next. -/
def firstOf (s : State) (v : Vehicle) (b k : Nat) : Nat :=
  if ranksBefore (prefKeys s v k) (prefKeys s v b) then k else b

/-- Lane `l` is lane `k` or ranks before it. -/
def NotAfter (s : State) (v : Vehicle) (l k : Nat) : Prop := k = l ∨ ranksBefore (prefKeys s v l) (prefKeys s v k) = true

theorem NotAfter.trans {v : Vehicle} {a b c : Nat} (h : NotAfter s v a b) (k : NotAfter s v b c) : NotAfter s v a c := by
  rcases h with rfl | h
  · exact k
  · rcases k with rfl | k
    · exact .inr h
    · exact .inr (ranksBefore_trans h k)

theorem firstOf_notAfter {v : Vehicle} {b k : Nat} (hb : (s.lane? b).isSome) (hk : (s.lane? k).isSome) :
    NotAfter s v (firstOf s v b k) b ∧ NotAfter s v (firstOf s v b k) k := by
  unfold firstOf
  split
  · rename_i before
    exact ⟨.inr before, .inl rfl⟩
  · rename_i before
    exact ⟨.inl rfl, (prefKeys_total hk hb).imp_right fun h => h.resolve_left before⟩

theorem foldl_firstOf_notAfter {v : Vehicle} : ∀ {ls : List Nat} {b : Nat}, (∀ k ∈ b :: ls, (s.lane? k).isSome) →
    ∀ k ∈ b :: ls, NotAfter s v (ls.foldl (firstOf s v) b) k
  | [], b, _, k, hk => .inl (List.mem_singleton.1 hk)
  | c :: cs, b, lanes, k, hk => by
    rw [List.forall_mem_cons, List.forall_mem_cons] at lanes
    obtain ⟨hb, hc, rest⟩ := lanes
    obtain ⟨beforeB, beforeC⟩ := firstOf_notAfter (v := v) hb hc
    have kept : (s.lane? (firstOf s v b c)).isSome := by
      unfold firstOf
      split
      · exact hc
      · exact hb
    have first := foldl_firstOf_notAfter (v := v) (List.forall_mem_cons.2 ⟨kept, rest⟩)
    rw [List.foldl_cons]
    rcases List.mem_cons.1 hk with rfl | hk
    · exact (first _ List.mem_cons_self).trans beforeB
    rcases List.mem_cons.1 hk with rfl | hk
    · exact (first _ List.mem_cons_self).trans beforeC
    · exact first k (List.mem_cons_of_mem _ hk)

theorem bestLane_notAfter {v : Vehicle} {ls : List Nat} {l : Nat} (best : bestLane s v ls = some l)
    (lanes : ∀ k ∈ ls, (s.lane? k).isSome) : ∀ k ∈ ls, NotAfter s v l k := by
  cases ls with
  | nil => cases best
  | cons b bs =>
    cases best
    exact foldl_firstOf_notAfter lanes

/-! ### The lanes that pass (R44, R45) -/

/-- Filters keep a lane that passes them all. -/
theorem runFilters_keeps {v : Vehicle} {l : Nat} {x : Lane} (hx : s.lane? l = some x) :
    ∀ {tests : List (State → Vehicle → Nat → Lane → Bool)} {n : Nat} {ls ms : List Nat},
      runFilters s v tests n ls = .lanes ms → l ∈ ls → (∀ test ∈ tests, test s v l x = true) → l ∈ ms
  | [], _, _, _, h, hl, _ => by cases h; exact hl
  | test :: tests, n, ls, ms, h, hl, pass => by
    obtain ⟨first, rest⟩ := List.forall_mem_cons.1 pass
    unfold runFilters at h
    dsimp only at h
    split at h
    · cases h
    · exact runFilters_keeps hx h (mem_keepLanes.2 ⟨hl, x, hx, first⟩) rest

/-- Filters that end with lanes leave at least one, if there are any. -/
theorem runFilters_ne_nil {v : Vehicle} : ∀ {tests : List (State → Vehicle → Nat → Lane → Bool)} {n : Nat} {ls ms : List Nat},
    runFilters s v tests n ls = .lanes ms → ls ≠ [] ∨ tests ≠ [] → ms ≠ []
  | [], _, _, _, h, any => by cases h; exact any.resolve_right (fun e => e rfl)
  | test :: tests, n, ls, ms, h, _ => by
    unfold runFilters at h
    dsimp only at h
    split at h
    · cases h
    · rename_i kept
      exact runFilters_ne_nil h (.inl fun e => kept (by rw [e]; rfl))

/-- An allocation claims the best of the candidates. -/
theorem allocate_eq_claim {v : Vehicle} {l : Nat} (claim : allocate s v = .claim l) :
    ∃ ls, candidates s v = .lanes ls ∧ bestLane s v ls = some l := by
  unfold allocate at claim
  split at claim
  · cases claim
  · rename_i ls kept
    split at claim
    · rename_i k best
      cases claim
      exact ⟨ls, kept, best⟩
    · cases claim

/-- An allocation without a candidate names the test that left no lane. -/
theorem allocate_eq_noCandidate {v : Vehicle} {n : Nat} (noLane : allocate s v = .noCandidate n) :
    candidates s v = .emptyAt n := by
  unfold allocate at noLane
  split at noLane
  · rename_i k empty
    cases noLane
    exact empty
  · rename_i ls kept
    have left := runFilters_ne_nil kept (.inr (List.cons_ne_nil _ _))
    split at noLane
    · cases noLane
    · rename_i best
      cases ls with
      | nil => exact absurd rfl left
      | cons b bs => cases best

/-- The lane of a claim ranks before every other lane that passes the tests. -/
theorem allocate_claim_first {v : Vehicle} {l k : Nat} {y : Lane} (claim : allocate s v = .claim l)
    (hy : s.lane? k = some y) (pass : ∀ test ∈ laneTests, test s v k y = true) (other : k ≠ l) :
    ranksBefore (prefKeys s v l) (prefKeys s v k) = true := by
  obtain ⟨ls, kept, best⟩ := allocate_eq_claim claim
  have lanes : ∀ j ∈ ls, (s.lane? j).isSome := fun j hj => by
    obtain ⟨-, tests⟩ := runFilters_lanes kept j hj
    obtain ⟨z, hz, -⟩ := tests testT1 List.mem_cons_self
    exact Option.isSome_iff_exists.2 ⟨z, hz⟩
  have mem : k ∈ ls :=
    runFilters_keeps hy kept (List.mem_range.2 (List.getElem?_eq_some_iff.1 hy).1) pass
  exact (bestLane_notAfter best lanes k mem).resolve_left other

/-- The standby reason is the number of the test at which the last lanes were dropped (R45). -/
theorem allocate_noCandidate {v : Vehicle} {n : Nat} (noLane : allocate s v = .noCandidate n) : 1 ≤ n ∧ n ≤ 11 ∧
    (∀ l x, s.lane? l = some x → ∃ test ∈ laneTests.take n, test s v l x = false) ∧
    (1 < n → ∃ l x, s.lane? l = some x ∧ ∀ test ∈ laneTests.take (n - 1), test s v l x = true) := by
  obtain ⟨j, hj, rfl, fail, before⟩ := runFilters_emptyAt.1 (allocate_eq_noCandidate noLane)
  have eleven : j < 11 := hj
  refine ⟨by omega, by omega, fun l x hx => ?_, fun _ => ?_⟩
  · rw [Nat.add_comm 1 j]
    exact fail l (List.mem_range.2 (List.getElem?_eq_some_iff.1 hx).1) x hx
  · rw [Nat.add_sub_cancel_left]
    obtain ⟨l, -, x, hx, pass⟩ := before (by omega)
    exact ⟨l, x, hx, pass⟩

end Sys2Proof.Machine

open Sys2Proof Sys2Proof.Machine

/-- Settles O26: what the tests speak of, the choice, the tests and the keys, each by its lemmas. -/
theorem allocationFirstRanked : Obligations.AllocationFirstRanked := by
  refine ⟨fun s x y c d hc hd => ⟨adjacent_iff hc hd, deckNo_sect hc⟩, fun s x c d hc hd => ⟨?_, onWeather_iff hc hd,
      onHoist_iff hc hd, thresholdOf_deck hd⟩,
    fun s g h n q hq => ⟨by rw [openDeckOnly_of hq], dgLevel_of hq⟩,
    fun s v => ⟨fun l claim => ⟨allocate_claim claim, fun k y hy pass other => allocate_claim_first claim hy pass other⟩,
      fun n noLane => allocate_noCandidate noLane⟩, rfl,
    fun s v l x => ⟨testT1_iff s v l x, testT2_iff s v l x, decide_eq_true_iff, decide_eq_true_iff, testT5_iff s v l x,
      testT6_iff s v l x, testT7_iff s v l x, testT8_iff s v l x, fun c hc => testT9_iff s v l hc, testT10_iff s v l x,
      decide_eq_true_iff⟩,
    fun s x => ⟨clearance_uncovered, fun c y => clearance_covered, fun tag v => lastCall?_claim, ?_, ?_⟩,
    permits_iff, fun s v l x c hx hc => prefKeys_of hx hc, rfl, fun a b as bs => ranksBefore_cons⟩
  · rw [rampOf_deck hc hd]
    cases d.kind <;> rfl
  · intro tag v noClaim tail known
    rw [lastCall?_stow noClaim, tail, Option.bind_some, known]
    rfl
  · intro noClaim noStow
    rw [lastCall?_stow noClaim, noStow]
    rfl

end

section
/-! O59, the records: their fields, what VALUE and REFERENCE and the other checks ask, validation, and the draft. -/

namespace Sys2Proof.Machine

/-! ### Fields (R174) -/

theorem byte_lt (x : ProfRec) (i : Nat) : x.byte i < 256 := BitVec.isLt _

theorem signed_eq (x : ProfRec) (i : Nat) :
    x.signed i = (if x.word i < 32768 then (x.word i : Int) else x.word i - 65536) := by
  have high := byte_lt x i
  have low := byte_lt x (i + 1)
  have word : (BitVec.ofNat 16 (x.word i)).toNat = x.word i := by
    rw [BitVec.toNat_ofNat]
    exact Nat.mod_eq_of_lt (by unfold ProfRec.word; omega)
  unfold ProfRec.signed
  rw [BitVec.toInt_eq_toNat_cond, word]
  exact ite_of_iff (by omega) _ rfl

theorem cover?_eq (x : ProfRec) :
    x.cover? = (if x.fields.length = 12 ∧ x.byte 10 ≠ 255 then some ⟨x.byte 10, x.byte 11⟩ else none) := by
  unfold ProfRec.cover?
  exact ite_of_iff (by simp) _ rfl

theorem within_iff {lo v hi : Nat} : within lo v hi = true ↔ lo ≤ v ∧ v ≤ hi := by simp [within]

/-! ### VALUE and REFERENCE (R178) -/

section
variable {x : ProfRec}

/-- What VALUE asks of a LANE, which has its panel and its reduced class both or neither (log 20). -/
theorem valuesOk_lane (type : x.type = .lane) : x.valuesOk = true ↔
    x.byte 1 ≤ 15 ∧ (-250 ≤ x.signed 2 ∧ x.signed 2 ≤ 250) ∧ (60 ≤ x.word 4 ∧ x.word 4 ≤ 2000) ∧
      (2 ≤ x.byte 6 ∧ x.byte 6 ≤ 10) ∧ (1 ≤ x.byte 7 ∧ x.byte 7 ≤ 4) ∧ (1 ≤ x.byte 8 ∧ x.byte 8 ≤ 160) ∧
      x.byte 9 ≤ 8 ∧ (x.fields.length = 12 → x.byte 10 ≠ 255 ∧ 1 ≤ x.byte 11 ∧ x.byte 11 ≤ 3) := by
  have reduced : (x.fields.length != 12 || (x.byte 10 != 0xFF && within 1 (x.byte 11) 3)) = true ↔
      (x.fields.length = 12 → x.byte 10 ≠ 255 ∧ 1 ≤ x.byte 11 ∧ x.byte 11 ≤ 3) := by
    by_cases twelve : x.fields.length = 12 <;> simp [twelve, within_iff]
  unfold ProfRec.valuesOk
  simp only [type, Bool.and_eq_true, decide_eq_true_eq, within_iff, reduced, and_assoc]

theorem valuesOk_ramp (type : x.type = .ramp) : x.valuesOk = true ↔
    (30 ≤ x.word 0 ∧ x.word 0 ≤ 900) ∧ (∀ i ∈ [2, 3, 4], 1 ≤ x.byte i ∧ x.byte i ≤ 12) ∧
      ∀ i ∈ [5, 7, 9], 1 ≤ x.word i ∧ x.word i ≤ 400 := by
  unfold ProfRec.valuesOk
  simp [type, within_iff, and_assoc]

theorem valuesOk_sensor (type : x.type = .sensor) : x.valuesOk = true ↔
    (∀ i ∈ [0, 1, 2, 3], 1 ≤ x.byte i ∧ x.byte i ≤ 15) ∧ (1 ≤ x.byte 4 ∧ x.byte 4 ≤ 4) ∧
      (1 ≤ x.byte 5 ∧ x.byte 5 ≤ 4) ∧ 5 ≤ x.byte 6 ∧ x.byte 6 ≤ 60 := by
  unfold ProfRec.valuesOk
  simp [type, within_iff, and_assoc]

theorem valuesOk_dg (type : x.type = .dg) : x.valuesOk = true ↔
    (∀ i ∈ [0, 1, 2, 3, 4, 5], x.byte i ≤ 4) ∧ x.byte 6 ≤ 1 := by
  unfold ProfRec.valuesOk
  simp [type, and_assoc]

theorem valuesOk_vessel (type : x.type = .vessel) : x.valuesOk = true ↔
    (1 ≤ x.byte 0 ∧ x.byte 0 ≤ 6) ∧ (1 ≤ x.byte 1 ∧ x.byte 1 ≤ 24) ∧ (1 ≤ x.byte 2 ∧ x.byte 2 ≤ 96) ∧
      x.byte 3 ≤ 4 ∧ 1 ≤ x.word 4 ∧ x.word 4 ≤ 20000 := by
  unfold ProfRec.valuesOk
  simp [type, within_iff, and_assoc]

theorem valuesOk_deck (type : x.type = .deck) : x.valuesOk = true ↔ x.byte 0 ≤ 3 ∧ x.byte 1 ≤ 1 := by
  unfold ProfRec.valuesOk
  simp [type]

theorem valuesOk_sect (type : x.type = .sect) : x.valuesOk = true ↔ 1 ≤ x.word 1 ∧ x.word 1 ≤ 4000 := by
  unfold ProfRec.valuesOk
  simp only [type, within_iff]

theorem valuesOk_panel (type : x.type = .panel) : x.valuesOk = true ↔ 30 ≤ x.word 1 ∧ x.word 1 ≤ 600 := by
  unfold ProfRec.valuesOk
  simp only [type, within_iff]

variable (rs : List ProfRec)

theorem refsOk_lane (type : x.type = .lane) :
    x.refsOk rs = true ↔ x.byte 0 < sectCount rs ∧ ∀ c, x.cover? = some c → c.panel < panelCount rs := by
  unfold ProfRec.refsOk
  cases cover : x.cover? <;> simp [type]

theorem refsOk_sect (type : x.type = .sect) : x.refsOk rs = true ↔ x.byte 0 < deckCount rs := by
  unfold ProfRec.refsOk
  simp [type]

theorem refsOk_panel (type : x.type = .panel) : x.refsOk rs = true ↔ x.byte 0 < sectCount rs := by
  unfold ProfRec.refsOk
  simp [type]

/-- Records of the other types name no deck, section or panel. -/
theorem refsOk_other (lane : x.type ≠ .lane) (sect : x.type ≠ .sect) (panel : x.type ≠ .panel) : x.refsOk rs = true := by
  unfold ProfRec.refsOk
  split
  · exact absurd ‹_› sect
  · exact absurd ‹_› lane
  · exact absurd ‹_› panel
  all_goals rfl

end

/-! ### The other checks (R178) -/

/-- Some number below `n` has an entry that passes. -/
theorem any_below {α : Type} {g : Nat → Bool} {f : Nat → Option α} {p : Nat → α → Prop} (n : Nat)
    (entry : ∀ j, g j = true ↔ ∃ y, f j = some y ∧ p j y) :
    (List.range n).any g = true ↔ ∃ j y, j < n ∧ f j = some y ∧ p j y := by
  rw [List.any_eq_true]
  constructor
  · rintro ⟨j, hj, passes⟩
    obtain ⟨y, hy, passes⟩ := (entry j).1 passes
    exact ⟨j, y, List.mem_range.1 hj, hy, passes⟩
  · rintro ⟨j, y, hj, hy, passes⟩
    exact ⟨j, List.mem_range.2 hj, (entry j).2 ⟨y, hy, passes⟩⟩

section
variable (rs : List ProfRec) (x : ProfRec)

theorem sectDeckKind_eq (i : Nat) :
    sectDeckKind rs i = (findRec rs .sect i).bind fun c => (findRec rs .deck (c.byte 0)).map fun d => d.byte 0 := by
  unfold sectDeckKind sectDeck
  cases findRec rs .sect i <;> rfl

theorem athwartTaken_iff : athwartTaken rs x = true ↔
    ∃ j y, j < x.index ∧ findRec rs .lane j = some y ∧ y.byte 1 = x.byte 1 ∧
      (findRec rs .sect (y.byte 0)).map (fun c => c.byte 0) = (findRec rs .sect (x.byte 0)).map fun c => c.byte 0 := by
  unfold athwartTaken
  exact any_below _ fun j => by cases findRec rs .lane j <;> simp [sectDeck]

theorem someCarries_iff (i : Nat) : someCarries rs i = true ↔ ∃ y ∈ rs, y.type = .panel ∧ y.byte 0 = i := by
  simp [someCarries]

theorem carriedBelow_iff : carriedBelow rs x = true ↔
    ∃ j y, j < x.index ∧ findRec rs .panel j = some y ∧ y.byte 0 = x.byte 0 := by
  unfold carriedBelow
  exact any_below _ fun j => by cases findRec rs .panel j <;> simp

theorem asymmetric_iff : asymmetric rs x = true ↔
    ∃ h y, h < x.index ∧ findRec rs .dg h = some y ∧ y.byte (x.index - 1) ≠ x.byte (h - 1) := by
  unfold asymmetric
  exact any_below _ fun j => by cases findRec rs .dg j <;> simp

/-- The four counts are the first bytes of the VESSEL record. -/
theorem vesselByte_eq (i : Nat) : vesselByte rs i = ((findRec rs .vessel 0).map fun x => x.byte i).getD 0 := by
  unfold vesselByte
  cases findRec rs .vessel 0 <;> rfl

end

/-! ### The failures at a key (R178) -/

/-- One line of a chain of checks with results of any type, as a search for the first line that applies. -/
theorem check_eq_find? {α : Type} {c : Prop} [Decidable c] {b : Bool} (a : α) {r : Option α} {lines : List (α × Bool)}
    (line : c ↔ b = true) (rest : r = (lines.find? fun q => q.2).map Prod.fst) :
    (if c then some a else r) = (((a, b) :: lines).find? fun q => q.2).map Prod.fst := by
  by_cases h : c
  · rw [if_pos h, List.find?_cons_of_pos (line.1 h)]
    rfl
  · rw [if_neg h, List.find?_cons_of_neg (fun e => h (line.2 e)), rest]

/-- A line that cannot apply. -/
theorem check_skip {α : Type} {b : Bool} (a : α) {r : Option α} {lines : List (α × Bool)} (off : b = false)
    (rest : r = (lines.find? fun q => q.2).map Prod.fst) : r = (((a, b) :: lines).find? fun q => q.2).map Prod.fst := by
  rw [List.find?_cons_of_neg (by rw [off]; exact Bool.false_ne_true), rest]

/-- The checks of a record in their order, as a search for the first that fails. -/
theorem recordFailure_eq (rs : List ProfRec) (x : ProfRec) : recordFailure rs x =
    ([ (.value, !x.valuesOk), (.reference, !x.refsOk rs)
      , (.athwart, decide (x.type = .lane ∧ athwartTaken rs x = true))
      , (.coverDeck, decide (x.type = .lane ∧ x.cover? ≠ none ∧ sectDeckKind rs (x.byte 0) ≠ some 0))
      , (.reducedClass, decide (x.type = .lane ∧ (x.cover?).any (fun c => x.byte 7 < c.reduced) = true))
      , (.panelAbsent, decide (x.type = .sect ∧ sectDeckKind rs x.index = some 1 ∧ someCarries rs x.index = false))
      , (.panelDeck, decide (x.type = .panel ∧ sectDeckKind rs (x.byte 0) ≠ some 1))
      , (.panelShared, decide (x.type = .panel ∧ carriedBelow rs x = true))
      , (.symmetry, decide (x.type = .dg ∧ asymmetric rs x = true)) ].find? fun q => q.2).map Prod.fst := by
  unfold recordFailure
  refine check_eq_find? CheckFailure.value Iff.rfl <| check_eq_find? CheckFailure.reference Iff.rfl ?_
  cases type : x.type with
  | lane =>
    refine check_eq_find? CheckFailure.athwart (by simp) ?_
    cases cover : x.cover? with
    | none => simp
    | some c =>
      refine check_eq_find? CheckFailure.coverDeck (by simp) ?_
      exact check_eq_find? CheckFailure.reducedClass (by simp) (by simp)
  | sect =>
    refine check_skip _ (by simp) <| check_skip _ (by simp) <| check_skip _ (by simp) ?_
    exact check_eq_find? CheckFailure.panelAbsent (by simp) (by simp)
  | panel =>
    refine check_skip _ (by simp) <| check_skip _ (by simp) <| check_skip _ (by simp) <| check_skip _ (by simp) ?_
    exact check_eq_find? CheckFailure.panelDeck (by simp) <| check_eq_find? CheckFailure.panelShared (by simp) (by simp)
  | dg =>
    refine check_skip _ (by simp) <| check_skip _ (by simp) <| check_skip _ (by simp) <| check_skip _ (by simp) <|
      check_skip _ (by simp) <| check_skip _ (by simp) ?_
    exact check_eq_find? CheckFailure.symmetry (by simp) rfl
  | vessel => simp
  | deck => simp
  | ramp => simp
  | sensor => simp

section
variable {rs : List ProfRec} {t : RecType} {i : Nat}

theorem keyFailure_absent (absent : findRec rs t i = none) :
    keyFailure rs t i = if required rs t i then some .missing else none := by
  unfold keyFailure
  rw [absent]
  cases required rs t i <;> rfl

theorem keyFailure_extra {x : ProfRec} (found : findRec rs t i = some x) (extra : required rs t i = false) :
    keyFailure rs t i = some .extra := by
  unfold keyFailure
  rw [found, extra]

theorem keyFailure_record {x : ProfRec} (found : findRec rs t i = some x) (asked : required rs t i = true) :
    keyFailure rs t i = recordFailure rs x := by
  unfold keyFailure
  rw [found, asked]

end

/-- A key is required where its index lies in the type's range and below the count that bounds it. -/
theorem required_iff {rs : List ProfRec} {t : RecType} {i : Nat} :
    required rs t i = true ↔ t.indexOk i = true ∧ ∀ n, countOf rs t = some n → i < n := by
  unfold required
  cases countOf rs t <;> simp

/-! ### The keys (R174, R178) -/

theorem firstFailure_eq (rs : List ProfRec) : ∀ ks : List (RecType × Nat),
    firstFailure rs ks = ks.findSome? fun q => (keyFailure rs q.1 q.2).map fun e => (q.1, q.2, e)
  | [] => rfl
  | (t, i) :: ks => by
    unfold firstFailure
    rw [List.findSome?_cons]
    cases keyFailure rs t i with
    | none => exact firstFailure_eq rs ks
    | some e => rfl

theorem indexOk_lt {t : RecType} {i : Nat} (ok : t.indexOk i = true) : i < 96 := by
  cases t <;> simp [RecType.indexOk] at ok <;> omega

theorem mem_keysOf_iff {t u : RecType} {i : Nat} : (t, i) ∈ keysOf u ↔ t = u ∧ t.indexOk i = true := by
  constructor
  · intro h
    obtain ⟨j, hj, e⟩ := List.mem_map.1 h
    cases e
    exact ⟨rfl, (List.mem_filter.1 hj).2⟩
  · rintro ⟨rfl, ok⟩
    exact mem_keysOf ok (indexOk_lt ok)

theorem mem_allKeys_iff {t : RecType} {i : Nat} : (t, i) ∈ allKeys ↔ t.indexOk i = true := by
  refine ⟨fun h => ?_, fun ok => mem_allKeys ok (indexOk_lt ok)⟩
  unfold allKeys at h
  simp only [List.mem_append, mem_keysOf_iff, ← or_and_right] at h
  exact h.2

/-- The keys of a type rise, and the types follow one another by their codes. -/
theorem allKeys_rising : allKeys.Pairwise fun a b => a.1.code < b.1.code ∨ (a.1.code = b.1.code ∧ a.2 < b.2) := by
  have types : allKeys = [RecType.vessel, .deck, .sect, .lane, .panel, .ramp, .dg, .sensor].flatMap keysOf := by
    simp [allKeys]
  rw [types, List.pairwise_flatMap]
  constructor
  · intro t _
    unfold keysOf
    rw [List.pairwise_map]
    exact (List.pairwise_lt_range.filter _).imp fun h => .inr ⟨rfl, h⟩
  · have codes : [RecType.vessel, .deck, .sect, .lane, .panel, .ramp, .dg, .sensor].Pairwise fun t u => t.code < u.code := by
      decide
    refine codes.imp fun h a ha b hb => ?_
    obtain ⟨rfl, -⟩ := mem_keysOf_iff.1 ha
    obtain ⟨rfl, -⟩ := mem_keysOf_iff.1 hb
    exact .inl h

/-! ### The draft's order (R175) -/

theorem code_eq_iff {t u : RecType} : t.code = u.code ↔ t = u := by cases t <;> cases u <;> decide

theorem before_iff {x y : ProfRec} :
    x.before y = true ↔ x.type.code < y.type.code ∨ (x.type.code = y.type.code ∧ x.index < y.index) := by
  simp [ProfRec.before]

theorem sameKey_iff {x y : ProfRec} : x.sameKey y = true ↔ x.type.code = y.type.code ∧ x.index = y.index := by
  simp [ProfRec.sameKey, code_eq_iff]

section
variable {x y z : ProfRec}

theorem before_trans (h : x.before y = true) (k : y.before z = true) : x.before z = true := by
  rw [before_iff] at *
  omega

theorem before_of_sameKey (h : x.sameKey y = true) (k : y.before z = true) : x.before z = true := by
  rw [before_iff] at *
  rw [sameKey_iff] at h
  omega

theorem before_of_not (h : ¬ x.sameKey y = true) (k : ¬ x.before y = true) : y.before x = true := by
  rw [before_iff] at *
  rw [sameKey_iff] at h
  omega

theorem sameKey_of_before (h : x.before y = true) : x.sameKey y = false ∧ y.sameKey x = false := by
  rw [before_iff] at h
  rw [← Bool.not_eq_true, ← Bool.not_eq_true, sameKey_iff, sameKey_iff]
  omega

theorem sameKey_comm (h : x.sameKey y = true) : y.sameKey x = true := by
  rw [sameKey_iff] at *
  omega

end

/-- A record put under its key takes the place of the one there. -/
theorem mem_putRec {x : ProfRec} : ∀ {rs : List ProfRec}, rs.Pairwise (fun a b => a.before b = true) →
    ∀ y, y ∈ putRec x rs ↔ y = x ∨ (y ∈ rs ∧ y.sameKey x = false)
  | [], _, y => by simp [putRec]
  | z :: zs, order, y => by
    obtain ⟨first, rest⟩ := List.pairwise_cons.1 order
    by_cases same : x.sameKey z = true
    · have others : ∀ w ∈ zs, w.sameKey x = false := fun w hw =>
        (sameKey_of_before (before_of_sameKey same (first w hw))).2
      rw [putRec, if_pos same, List.mem_cons, List.mem_cons]
      constructor
      · exact Or.imp_right fun h => ⟨.inr h, others y h⟩
      · refine Or.imp_right fun ⟨h, other⟩ => h.resolve_left fun e => ?_
        rw [e, sameKey_comm same] at other
        cases other
    by_cases before : x.before z = true
    · have others : ∀ w ∈ z :: zs, w.sameKey x = false := List.forall_mem_cons.2
        ⟨(sameKey_of_before before).2, fun w hw => (sameKey_of_before (before_trans before (first w hw))).2⟩
      rw [putRec, if_neg same, if_pos before, List.mem_cons]
      exact or_congr_right ⟨fun h => ⟨h, others y h⟩, fun h => h.1⟩
    · have other := (sameKey_of_before (before_of_not same before)).1
      rw [putRec, if_neg same, if_neg before, List.mem_cons, List.mem_cons, mem_putRec rest]
      constructor
      · rintro (rfl | rfl | ⟨h, k⟩)
        · exact .inr ⟨.inl rfl, other⟩
        · exact .inl rfl
        · exact .inr ⟨.inr h, k⟩
      · rintro (rfl | ⟨rfl | h, k⟩)
        · exact .inr (.inl rfl)
        · exact .inl rfl
        · exact .inr (.inr ⟨h, k⟩)

theorem putRec_rising (x : ProfRec) : ∀ {rs : List ProfRec}, rs.Pairwise (fun a b => a.before b = true) →
    (putRec x rs).Pairwise fun a b => a.before b = true
  | [], _ => List.pairwise_singleton _ _
  | z :: zs, order => by
    obtain ⟨first, rest⟩ := List.pairwise_cons.1 order
    by_cases same : x.sameKey z = true
    · rw [putRec, if_pos same]
      exact List.pairwise_cons.2 ⟨fun w hw => before_of_sameKey same (first w hw), rest⟩
    by_cases before : x.before z = true
    · rw [putRec, if_neg same, if_pos before]
      exact List.pairwise_cons.2 ⟨List.forall_mem_cons.2 ⟨before, fun w hw => before_trans before (first w hw)⟩, order⟩
    · rw [putRec, if_neg same, if_neg before]
      refine List.pairwise_cons.2 ⟨fun w hw => ?_, putRec_rising x rest⟩
      rcases (mem_putRec rest w).1 hw with rfl | ⟨h, -⟩
      · exact before_of_not same before
      · exact first w h

end Sys2Proof.Machine

end

section
/-! O59, the commit: its refusals, its start, and what its completion and its failure leave. -/

namespace Sys2Proof.Machine

variable {s : State}

/-! ### The request (R177, R179) -/

theorem notAtRest_eq (s : State) : s.notAtRest = if s.vehicles ≠ [] then some 1 else if s.voyage ≠ .noVoyage then some 2
    else if s.lower.seq ≠ .stopped ∨ s.upper.seq ≠ .stopped then some 3
    else if ∃ y ∈ s.panels, y.state = .raising ∨ y.state = .lowering then some 4 else none := by
  have moving : ∀ st : PanelPos, st.moving = true ↔ st = .raising ∨ st = .lowering := fun st => by
    cases st <;> simp [PanelPos.moving]
  unfold State.notAtRest
  exact ite_of_iff (by simp) _ <| ite_of_iff (by simp) _ <| ite_of_iff (by simp) _ <|
    ite_of_iff (by simp only [List.any_eq_true, moving]) _ rfl

theorem candidate_unlocked {st : Store} (draft : List ProfRec) (free : st.locked = false) : candidate st draft = draft := by
  unfold candidate
  rw [free]
  rfl

/-- Under the lock the draft's records are put over the stored certified ones. -/
theorem candidate_locked {st : Store} (draft : List ProfRec) (locked : st.locked = true) : candidate st draft =
    draft.foldl (fun acc x => putRec x acc) (st.records.filter fun x => x.type.certified) := by
  unfold candidate
  rw [locked]
  rfl

theorem reqProfileCommit_busy (count sum : Nat) (writing : s.profile.isCommitting = true) :
    reqProfileCommit count sum s = (s, plain .busy) := by
  unfold reqProfileCommit
  rw [writing]
  rfl

section
variable {count sum : Nat} (quiet : s.profile.isCommitting = false)
include quiet

theorem reqProfileCommit_mismatch (differs : count ≠ s.draft.length ∨ sum ≠ draftSum s.draft) :
    reqProfileCommit count sum s = (s, ⟨.mismatch, draftFigures s.draft⟩) := by
  unfold reqProfileCommit
  simp [quiet, differs]

variable (length : count = s.draft.length) (total : sum = draftSum s.draft)
include length total

theorem reqProfileCommit_locked {x : ProfRec} {rest : List ProfRec} (locked : s.store.locked = true)
    (certified : certifiedOnly s.draft = x :: rest) :
    reqProfileCommit count sum s = (s, ⟨.locked, u8 x.type.code ++ u8 x.index⟩) := by
  unfold reqProfileCommit
  simp [quiet, length, total, locked, certified]

variable (allowed : s.store.locked = true → certifiedOnly s.draft = [])
include allowed

omit quiet length total in
theorem lockedRecord_none : (if s.store.locked then (certifiedOnly s.draft).head? else none) = none := by
  split
  · rename_i locked
    rw [allowed locked]
    rfl
  · rfl

theorem reqProfileCommit_notEmpty {c : Nat} (busy : s.notAtRest = some c) :
    reqProfileCommit count sum s = (s, ⟨.notEmpty, u8 c⟩) := by
  unfold reqProfileCommit
  rw [lockedRecord_none allowed]
  simp [quiet, length, total, busy]

variable (rest : s.notAtRest = none)
include rest

theorem reqProfileCommit_check {t : RecType} {i : Nat} {f : CheckFailure}
    (fails : validate (candidate s.store s.draft) = some (t, i, f)) :
    reqProfileCommit count sum s = (s, ⟨.check, u8 t.code ++ u8 i ++ u8 f.code⟩) := by
  unfold reqProfileCommit
  rw [lockedRecord_none allowed]
  simp [quiet, length, total, rest, fails]

theorem reqProfileCommit_accepted (valid : validate (candidate s.store s.draft) = none) :
    reqProfileCommit count sum s =
      ({ s with store := { s.store with mark := .committing }, profile := .committing s.profile.inForce },
        plain .accepted) := by
  unfold reqProfileCommit
  rw [lockedRecord_none allowed]
  simp [quiet, length, total, rest, valid]

end

/-! ### The end of the writing (R180, R181) -/

section
variable (up : s.power = .up) (writing : s.profile.isCommitting = true)
include up writing

theorem exec_profileWriteComplete : exec .profileWriteComplete s = .next (happened commitCompletes s) := by
  show Host.Outcome.next (if s.profile.isCommitting then runEvent commitCompletes s else s) = _
  rw [writing, if_pos rfl, runEvent_up _ _ up]

theorem exec_profileWriteFailure (ty i : Byte) :
    exec (.profileWriteFailure ty i) s = .next (happened (commitFails ty i) s) := by
  show Host.Outcome.next (if s.profile.isCommitting then runEvent (commitFails ty i) s else s) = _
  rw [writing, if_pos rfl, runEvent_up _ _ up]

end

/-- Without a mark there is nothing to sweep, and no mark to clear. -/
theorem sweepIfDue_unmarked (unmarked : s.ev = EventMarks.none) : sweepIfDue s = s :=
  (sweepIfDue_none (.inl (by rw [unmarked]; rfl))).trans (by rw [← unmarked])

/-- An event that leaves no mark ends with the outputs alone. -/
theorem happened_unmarked {g : State → State} (up : (g { s with ev := EventMarks.none }).power = .up)
    (unmarked : (g { s with ev := EventMarks.none }).ev = EventMarks.none) :
    happened g s = { outputsOn (g { s with ev := EventMarks.none }) with link := (happened g s).link } := by
  have outputs : ∀ {u : State}, u.power = .up → refresh u = outputsOn u := fun h => by unfold refresh; rw [h]
  rw [happened_eq, sweepIfDue_unmarked unmarked, outputs up]

section
variable (up : s.power = .up)
include up

theorem happened_commitCompletes : ∃ link, happened commitCompletes s =
    { outputsOn (commitCompletes { s with ev := EventMarks.none }) with link := link } :=
  ⟨_, happened_unmarked up rfl⟩

theorem happened_commitFails (ty i : Byte) : ∃ link, happened (commitFails ty i) s =
    { outputsOn (commitFails ty i { s with ev := EventMarks.none }) with link := link } :=
  ⟨_, happened_unmarked up rfl⟩

end

end Sys2Proof.Machine

open Sys2Proof Sys2Proof.Machine

/-- Settles O59: records, validation, refusals, and the end of the writing. -/
theorem commitBeginsAndEnds : Obligations.CommitBeginsAndEnds := by
  refine ⟨fun x i => ⟨rfl, rfl, signed_eq x i, cover?_eq x⟩, fun x => ?_, fun rs x => ?_,
    fun rs x i => ⟨sectDeckKind_eq rs i, athwartTaken_iff rs x, someCarries_iff rs i, carriedBelow_iff rs x,
      asymmetric_iff rs x⟩, ⟨rfl, fun rs => ?_⟩, ?_, ?_, notAtRest_eq,
    fun rs x order => ⟨putRec_rising x order, mem_putRec order⟩,
    fun st draft => ⟨candidate_unlocked draft, candidate_locked draft⟩,
    fun rs => ⟨firstFailure_eq rs allKeys, fun t i => mem_allKeys_iff, allKeys_rising, fun t i => ?_,
      fun t i => keyFailure_absent, fun t i x => keyFailure_extra, ?_⟩,
    fun s up writing => ⟨exec_profileWriteComplete up writing, rfl,
      fun ty i => ⟨exec_profileWriteFailure up writing ty i, rfl⟩⟩,
    fun s up writing => ⟨?_, fun ty i => ?_⟩⟩
  · cases type : x.type with
    | vessel => exact valuesOk_vessel type
    | deck => exact valuesOk_deck type
    | sect => exact valuesOk_sect type
    | lane => exact valuesOk_lane type
    | panel => exact valuesOk_panel type
    | ramp => exact valuesOk_ramp type
    | dg => exact valuesOk_dg type
    | sensor => exact valuesOk_sensor type
  · have other : x.type ≠ .lane → x.type ≠ .sect → x.type ≠ .panel → (x.refsOk rs = true ↔ True) :=
      fun lane sect panel => iff_true_intro (refsOk_other rs lane sect panel)
    cases type : x.type with
    | lane => exact refsOk_lane rs type
    | sect => exact refsOk_sect rs type
    | panel => exact refsOk_panel rs type
    | _ => exact other (by simp [type]) (by simp [type]) (by simp [type])
  · simp only [deckCount, sectCount, laneCount, panelCount, vesselByte_eq, List.map_cons, List.map_nil]
  · rintro s t up writing e
    rw [exec_profileWriteComplete up writing] at e
    cases e
    obtain ⟨u, link, fresh, ends, credits⟩ := commitCompletes_fresh up
    obtain ⟨on, aspects, -⟩ := fresh.on
    rw [ends]
    obtain ⟨crestLower, crestUpper⟩ := on.crest
    refine ⟨fun l x hx => ?_, on.deck, fun i c hc => ⟨(on.sect c (List.mem_of_getElem? hc)).1, on.opens hc⟩,
      on.list.1, fun p y hy => ?_, fun r => ?_, crestLower, crestUpper, on.closure⟩
    · obtain ⟨occupied, score, suspect, clearing, mode, watch, signal, entry, -, exit, -⟩ := on.lane l x hx
      exact ⟨occupied, score, suspect, clearing, mode, watch, signal, entry, exit, aspects x (List.mem_of_getElem? hx)⟩
    · obtain ⟨check, timer, -⟩ := on.panel p y hy
      exact ⟨check, timer⟩
    · cases r
      · exact credits .lower
      · exact credits .upper
  · rintro lt n sum s f taking rfl
    refine ⟨fun writing => ?_, fun quiet => ⟨fun differs => ?_, fun length total => ⟨fun x rest locked certified => ?_,
      fun allowed => ⟨fun c busy => ?_, fun rest => ⟨fun t i e fails => ?_, fun valid => ?_⟩⟩⟩⟩⟩
    · exact congrArg _ (requestArrives_eq _ _ _ id s taking (reqProfileCommit_busy (s := heard s) _ _ writing))
    · exact congrArg _ (requestArrives_eq _ _ _ id s taking (reqProfileCommit_mismatch (s := heard s) quiet differs))
    · exact congrArg _ (requestArrives_eq _ _ _ id s taking
        (reqProfileCommit_locked (s := heard s) quiet length total locked certified))
    · exact congrArg _ (requestArrives_eq _ _ _ id s taking
        (reqProfileCommit_notEmpty (s := heard s) quiet length total allowed busy))
    · exact congrArg _ (requestArrives_eq _ _ _ id s taking
        (reqProfileCommit_check (s := heard s) quiet length total allowed rest fails))
    · exact congrArg _ (requestArrives_eq _ _ _ (fun s => { s with
          store := { s.store with mark := .committing }, profile := .committing s.profile.inForce }) s taking
        (reqProfileCommit_accepted (s := heard s) quiet length total allowed rest valid))
  · rw [required_iff]
    cases t <;> simp [countOf]
  · intro t i x found asked
    obtain ⟨rfl, rfl⟩ := findRec_key found
    rw [keyFailure_record found asked]
    exact recordFailure_eq rs x
  · obtain ⟨link, ends⟩ := happened_commitCompletes up
    exact ⟨_, exec_profileWriteComplete up writing, by
      rw [ends]; exact ⟨rfl, rfl, rfl, rfl, rfl, rfl, rfl, rfl, rfl, rfl, rfl, rfl, rfl, rfl, rfl, rfl⟩⟩
  · obtain ⟨link, ends⟩ := happened_commitFails up ty i
    exact ⟨_, exec_profileWriteFailure up writing ty i, by
      rw [ends]; exact ⟨rfl, rfl, rfl, rfl, rfl, rfl, rfl, rfl, rfl, rfl, rfl, rfl, rfl, rfl, rfl, rfl⟩⟩

end

section
/-! O57: SIGNAL_SET, CLOSURE_SET, closed sections and the table of aspects. -/

namespace Sys2Proof.Machine

variable {s : State}

/-! ### The lanes a scope names (R163) -/

theorem scopeLanes_lane {i d : Nat} {ls : List Nat} : s.scopeLanes 0 i = some (ls, d) ↔
    ∃ x, s.lane? i = some x ∧ s.deckNo x = some d ∧ ls = [i] := by
  refine Option.bind_eq_some_iff.trans (exists_congr fun x => and_congr_right fun _ => ?_)
  rw [Option.map_eq_some_iff]
  constructor
  · rintro ⟨_, deck, ⟨⟩⟩
    exact ⟨deck, rfl⟩
  · rintro ⟨deck, rfl⟩
    exact ⟨d, deck, rfl⟩

/-- The lanes of a deck, among the numbers below the lane count. -/
theorem lanesOfDeck_eq (s : State) (d : Nat) : s.lanesOfDeck d =
    (List.range s.lanes.length).filter fun l => decide ((s.lane? l).bind s.deckNo = some d) := by
  unfold State.lanesOfDeck State.lanesWhere
  refine congrArg (List.filter · _) (funext fun l => ?_)
  cases s.lane? l with
  | none => rfl
  | some x => exact Bool.eq_iff_iff.2 (beq_iff_eq.trans decide_eq_true_iff.symm)

theorem scopeLanes_deck {i d : Nat} {ls : List Nat} : s.scopeLanes 1 i = some (ls, d) ↔
    (s.deck? i).isSome = true ∧ d = i ∧ ls = s.lanesOfDeck i := by
  unfold State.scopeLanes
  cases s.deck? i with
  | none => exact ⟨fun h => (nomatch h), fun ⟨h, _⟩ => (nomatch h)⟩
  | some k =>
    constructor
    · rintro ⟨⟩
      exact ⟨rfl, rfl, rfl⟩
    · rintro ⟨_, rfl, rfl⟩
      rfl

/-- A scope not listed, and a lane or a deck beyond the counts, name no lanes. -/
theorem scopeLanes_beyond {sc i : Nat}
    (beyond : 1 < sc ∨ (sc = 0 ∧ s.lane? i = none) ∨ (sc = 1 ∧ s.deck? i = none)) : s.scopeLanes sc i = none := by
  unfold State.scopeLanes
  match sc, beyond with
  | 0, .inr (.inl ⟨_, absent⟩) => rw [absent]; rfl
  | 1, .inr (.inr ⟨_, absent⟩) => rw [absent]; rfl
  | _ + 2, _ => rfl

/-! ### Closed sections (R168) -/

theorem sensorClosed_iff_exists {i : Nat} : s.sensorClosed i = true ↔ ∃ c, s.sect? i = some c ∧ c.mode = .sensorClosed := by
  constructor
  · intro h
    cases hc : s.sect? i with
    | none =>
      unfold State.sensorClosed at h
      rw [hc] at h
      exact nomatch h
    | some c => exact ⟨c, rfl, (sensorClosed_iff hc).1 h⟩
  · rintro ⟨c, hc, mode⟩
    exact (sensorClosed_iff hc).2 mode

/-- The three causes of a closure. -/
theorem closed_iff {i : Nat} : s.closed i = true ↔ s.closure.glob = true ∨
    (s.closure.enable = true ∧ i ∈ (if s.closure.selectB then s.closure.maskB else s.closure.maskA)) ∨
    ∃ c, s.sect? i = some c ∧ c.mode = .sensorClosed := by
  unfold State.closed
  rw [Bool.or_eq_true, Bool.or_eq_true, masks_iff, sensorClosed_iff_exists, or_assoc]

theorem mem_closedSet {i : Nat} : i ∈ s.closedSet ↔ i < s.sections.length ∧ s.closed i = true := by
  unfold State.closedSet
  rw [List.mem_filter, List.mem_range]

/-- A change of the settings opens a section just when some section closed before is not closed after. -/
theorem notIn_closedSet {t : State} (sections : t.sections = s.sections) : (notIn s.closedSet t.closedSet).isEmpty = true ↔
    ¬ ∃ i, i < s.sections.length ∧ s.closed i = true ∧ t.closed i = false := by
  unfold notIn
  rw [List.isEmpty_iff, List.filter_eq_nil_iff]
  constructor
  · rintro stays ⟨i, below, before, after⟩
    have opened : i ∉ t.closedSet := fun h => Bool.false_ne_true (after.symm.trans (mem_closedSet.1 h).2)
    exact stays i (mem_closedSet.2 ⟨below, before⟩) (by simpa using opened)
  · intro stays i closed opened
    obtain ⟨below, before⟩ := mem_closedSet.1 closed
    refine stays ⟨i, below, before, Bool.eq_false_iff.2 fun after => ?_⟩
    have still : i ∈ t.closedSet := mem_closedSet.2 ⟨sections ▸ below, after⟩
    simp [still] at opened

/-! ### The items of a CLOSURE_SET (R169, R170) -/

theorem maskItem_eq (n : Nat) (carried : Bool) (bits : Nat) : maskItem n carried bits =
    if carried = true ∧ 2 ^ n ≤ bits then none else some (if carried then some (setOfBits n bits) else none) := by
  unfold maskItem
  cases carried with
  | false => rfl
  | true =>
    by_cases within : bits < 2 ^ n
    · simp [within]
    · simp [within, Nat.not_lt.1 within]

theorem onOffUnchanged_eq (c : Nat) : onOffUnchanged c =
    if 2 < c then none else some (if c = 2 then none else some (decide (c = 1))) := by
  match c with
  | 0 | 1 | 2 => rfl
  | c + 3 => exact (if_pos (by omega)).symm

/-- One item out of its range refuses the whole body; else each item is read from its own code. -/
theorem closureItems_eq (n car a b sel en g : Nat) : closureItems n car a b sel en g =
    if 3 < car ∨ (car.testBit 0 = true ∧ 2 ^ n ≤ a) ∨ (car.testBit 1 = true ∧ 2 ^ n ≤ b) ∨ 2 < sel ∨ 2 < en ∨ 2 < g
    then none
    else some ⟨if car.testBit 0 then some (setOfBits n a) else none, if car.testBit 1 then some (setOfBits n b) else none,
      if sel = 2 then none else some (decide (sel = 1)), if en = 2 then none else some (decide (en = 1)),
      if g = 2 then none else some (decide (g = 1))⟩ := by
  unfold closureItems
  rw [maskItem_eq, maskItem_eq, onOffUnchanged_eq, onOffUnchanged_eq, onOffUnchanged_eq]
  by_cases code : 4 ≤ car
  · exact (if_pos code).trans (if_pos (.inl code)).symm
  rw [if_neg code]
  by_cases first : car.testBit 0 = true ∧ 2 ^ n ≤ a
  · rw [if_pos first]
    exact (if_pos (.inr (.inl first))).symm
  rw [if_neg first]
  by_cases second : car.testBit 1 = true ∧ 2 ^ n ≤ b
  · rw [if_pos second]
    exact (if_pos (.inr (.inr (.inl second)))).symm
  rw [if_neg second]
  by_cases select : 2 < sel
  · rw [if_pos select]
    exact (if_pos (.inr (.inr (.inr (.inl select))))).symm
  rw [if_neg select]
  by_cases enable : 2 < en
  · rw [if_pos enable]
    exact (if_pos (.inr (.inr (.inr (.inr (.inl enable)))))).symm
  rw [if_neg enable]
  by_cases glob : 2 < g
  · rw [if_pos glob]
    exact (if_pos (.inr (.inr (.inr (.inr (.inr glob)))))).symm
  rw [if_neg glob]
  refine (if_neg ?_).symm
  rintro (h | h | h | h | h | h)
  · exact code h
  · exact first h
  · exact second h
  · exact select h
  · exact enable h
  · exact glob h

theorem closureItems_eq_none_iff {n car a b sel en g : Nat} : closureItems n car a b sel en g = none ↔
    3 < car ∨ (car.testBit 0 = true ∧ 2 ^ n ≤ a) ∨ (car.testBit 1 = true ∧ 2 ^ n ≤ b) ∨ 2 < sel ∨ 2 < en ∨ 2 < g := by
  rw [closureItems_eq]
  split
  · next bad => exact ⟨fun _ => bad, fun _ => rfl⟩
  · next free => exact ⟨fun h => (nomatch h), fun bad => absurd bad free⟩

/-- What a body that is not refused carries; an item that is absent is UNCHANGED. -/
theorem closureItems_eq_some {n car a b sel en g : Nat} {it : ClosureItems}
    (items : closureItems n car a b sel en g = some it) : it =
      ⟨if car.testBit 0 then some (setOfBits n a) else none, if car.testBit 1 then some (setOfBits n b) else none,
        if sel = 2 then none else some (decide (sel = 1)), if en = 2 then none else some (decide (en = 1)),
        if g = 2 then none else some (decide (g = 1))⟩ := by
  rw [closureItems_eq] at items
  split at items
  · exact nomatch items
  · exact (Option.some.inj items).symm

/-! ### The table of aspects (R47, R164, R165) -/

section
variable {x : Lane}

theorem available_iff : s.available x = true ↔ x.state = .opened ∧ x.overdue = 0 ∧ s.closed x.sect = false ∧
    (s.onHoist x = true → ∃ p y, s.carrier? x.sect = some (p, y) ∧ y.state = .working) := by
  rw [← carrierWorking_iff]
  unfold State.available Lane.held
  cases s.onHoist x <;> simp [and_assoc]

theorem moving_eq_false_iff {p : PanelPos} : p.moving = false ↔ p ≠ .raising ∧ p ≠ .lowering := by
  cases p <;> decide

theorem coverMoving_eq_false_iff : s.coverMoving x = false ↔
    ∀ k y, x.cover = some k → s.panel? k.panel = some y → y.state ≠ .raising ∧ y.state ≠ .lowering := by
  unfold State.coverMoving State.coverState?
  cases x.cover with
  | none => exact ⟨fun _ _ _ h => (nomatch h), fun _ => rfl⟩
  | some k =>
    rw [Option.bind_some]
    cases hy : s.panel? k.panel with
    | none =>
      refine ⟨fun _ j z cover hz => ?_, fun _ => rfl⟩
      cases cover
      exact nomatch hy.symm.trans hz
    | some y =>
      refine moving_eq_false_iff.trans ⟨fun still j z cover hz => ?_, fun h => h k y rfl hy⟩
      cases cover
      obtain rfl := Option.some.inj (hy.symm.trans hz)
      exact still

theorem signalPath_iff : s.signalPath x = true ↔ (s.ramp (s.rampOf x)).direction = .inbound ∧
    ∀ k y, x.cover = some k → s.panel? k.panel = some y → y.state ≠ .raising ∧ y.state ≠ .lowering := by
  unfold State.signalPath
  rw [Bool.and_eq_true, decide_eq_true_iff, Bool.not_eq_true', coverMoving_eq_false_iff]

theorem aspectOf_dark (signal : x.signal = .dark) : s.aspectOf x = .dark := by
  unfold State.aspectOf
  rw [signal]

theorem aspectOf_forceRed (signal : x.signal = .forceRed) : s.aspectOf x = .red := by
  unfold State.aspectOf
  rw [signal]

section
variable (signal : x.signal = .auto)
include signal

theorem aspectOf_unloading (state : x.state = .unloading) : s.aspectOf x = .amber := by
  unfold State.aspectOf
  rw [signal]
  exact if_pos state

variable (state : x.state ≠ .unloading)
include state

/-- A RELEASED vehicle that is not OVERDUE is on its way to the lane. -/
theorem aspectOf_released {v : Vehicle} (claim : v ∈ s.records x.claims) (released : v.stage.released = true)
    (onTime : v.overdue = false) : s.aspectOf x = .greenFlash := by
  have awaited : (s.records x.claims).any (fun v => v.stage.released && !v.overdue) = true :=
    List.any_eq_true.2 ⟨v, claim, by simp [released, onTime]⟩
  unfold State.aspectOf
  rw [signal]
  exact (if_neg state).trans (if_pos awaited)

/-- With no such vehicle, the lane's availability and its open path decide. -/
theorem aspectOf_waiting (late : ∀ v ∈ s.records x.claims, v.stage.released = true → v.overdue = true) :
    s.aspectOf x = if s.available x = true ∧ s.signalPath x = true then .green else .red := by
  have awaited : ¬ (s.records x.claims).any (fun v => v.stage.released && !v.overdue) = true := fun h => by
    obtain ⟨v, claim, onWay⟩ := List.any_eq_true.1 h
    rw [Bool.and_eq_true, Bool.not_eq_true'] at onWay
    exact Bool.false_ne_true (onWay.2.symm.trans (late v claim onWay.1))
  unfold State.aspectOf
  rw [signal]
  exact ((if_neg state).trans (if_neg awaited)).trans (ite_of_iff Bool.and_eq_true_iff _ rfl)

end

end

/-! ### What the requests change (R163, R170) -/

/-- The state with the settings that the items of a CLOSURE_SET leave (R170.1). -/
def State.setClosure (s : State) (it : ClosureItems) : State := { s with closure := s.closure.apply it }

/-- A change of lanes leaves all but the lanes. -/
theorem updLanes_eq (ls : List Nat) (f : Lane → Lane) (s : State) :
    updLanes ls f s = { s with lanes := ls.foldl (fun xs l => xs.modify l f) s.lanes } := by
  induction ls generalizing s with
  | nil => rfl
  | cons l ls ih => exact ih (s.updLane l f)

/-- The link port does not bear on the aspects that SIGNAL_SET answers. -/
theorem heard_aspectsOf (ls ms : List Nat) (f : Lane → Lane) (s : State) :
    (updLanes ls f (heard s)).aspectsOf ms = (updLanes ls f s).aspectsOf ms := by
  rw [updLanes_eq, updLanes_eq]
  rfl

/-! ### The requests (R163, R169, R170) -/

section
variable {lt car sel en g sc i m : Byte} {a b : BitVec 24} {f : Frame} {r : Reply} {change : State → State}

/-- The command SIGNAL_SET taken at once is what its request answers. -/
theorem exec_signalSet (taking : Taking s)
    (e : reqSignalSet sc.toNat i.toNat m.toNat (heard s) = (change (heard s), r)) :
    exec (.signalSet lt sc i m) s = .next (taken ⟨0x3C#8, lt, [sc, i, m]⟩ r change s) :=
  congrArg _ (requestArrives_eq _ _ _ _ s taking e)

/-- The command CLOSURE_SET taken at once is what its request answers. -/
theorem exec_closureSet (taking : Taking s) (frame : (Instr.closureSet lt car a b sel en g).request? = some f)
    (e : reqClosureSet car.toNat a.toNat b.toNat sel.toNat en.toNat g.toNat (heard s) = (change (heard s), r)) :
    exec (.closureSet lt car a b sel en g) s = .next (taken f r change s) := by
  cases frame
  exact congrArg _ (requestArrives_eq _ _ _ _ s taking e)

end

theorem reqSignalSet_noProfile (sc i m : Nat) (bare : s.profile.inForce = false) :
    reqSignalSet sc i m s = (s, plain .noProfile) := by
  unfold reqSignalSet
  simp [bare]

theorem reqClosureSet_noProfile (car a b sel en g : Nat) (bare : s.profile.inForce = false) :
    reqClosureSet car a b sel en g s = (s, plain .noProfile) := by
  unfold reqClosureSet
  simp [bare]

theorem signalMode_unlisted {m : Nat} (unlisted : 2 < m) : SignalMode.ofCode m = none := by
  match m, unlisted with
  | _ + 3, _ => rfl

section
variable (model : Modelled s)
include model

theorem reqSignalSet_range {sc i m : Nat}
    (bad : 1 < sc ∨ 2 < m ∨ (sc = 0 ∧ s.lane? i = none) ∨ (sc = 1 ∧ s.deck? i = none)) :
    reqSignalSet sc i m s = (s, plain .range) := by
  have unread : s.scopeLanes sc i = none ∨ SignalMode.ofCode m = none := by
    rcases bad with scope | mode | beyond
    · exact .inl (scopeLanes_beyond (.inl scope))
    · exact .inr (signalMode_unlisted mode)
    · exact .inl (scopeLanes_beyond (.inr beyond))
  unfold reqSignalSet
  rcases unread with h | h <;> simp [show s.profile.inForce = true from model, h]

theorem reqSignalSet_sets {sc i m d : Nat} {ls : List Nat} {mode : SignalMode} (named : s.scopeLanes sc i = some (ls, d))
    (listed : SignalMode.ofCode m = some mode) : reqSignalSet sc i m s =
      (updLanes ls (fun x => { x with signal := mode }) s,
        ⟨.ok, (updLanes ls (fun x => { x with signal := mode }) s).aspectsOf ls⟩) := by
  unfold reqSignalSet
  simp [show s.profile.inForce = true from model, named, listed]

section
variable {car a b sel en g : Nat}

theorem reqClosureSet_range (bad : closureItems s.sections.length car a b sel en g = none) :
    reqClosureSet car a b sel en g s = (s, plain .range) := by
  unfold reqClosureSet
  simp [show s.profile.inForce = true from model, bad]

/-- The settings are set at once, and a sweep is triggered when that opens a section. -/
theorem reqClosureSet_sets {it : ClosureItems} (items : closureItems s.sections.length car a b sel en g = some it) :
    reqClosureSet car a b sel en g s =
      (if ∃ i, i < s.sections.length ∧ s.closed i = true ∧ (s.setClosure it).closed i = false
        then (s.setClosure it).sweepTrigger else s.setClosure it,
        ⟨.ok, (s.setClosure it).closure.bytes ++ be 3 (bitsOfSet (s.setClosure it).closedSet)
          ++ u8 (notIn s.closedSet (s.setClosure it).closedSet).length
          ++ u8 (notIn (s.setClosure it).closedSet s.closedSet).length⟩) := by
  unfold reqClosureSet
  rw [show s.profile.inForce = true from model, items]
  have opens := notIn_closedSet (s := s) (t := s.setClosure it) rfl
  exact congrArg (·, _) ((ite_of_iff opens _ rfl).trans (ite_not ..))

end

end

end Sys2Proof.Machine

open Sys2Proof Sys2Proof.Machine

/-- Settles O57: lanes named, closures, items, aspects, and the two requests, each by its lemmas. -/
theorem signalsAndClosures : Obligations.SignalsAndClosures := by
  refine ⟨⟨fun s ls => ?_, rfl⟩, fun s xs => ⟨rfl, rfl, rfl⟩,
    fun s i ls d => ⟨scopeLanes_lane, scopeLanes_deck.trans (by rw [lanesOfDeck_eq])⟩, fun s i => closed_iff,
    fun k ⟨maskA, maskB, selectB, enable, glob⟩ => ⟨by cases maskA <;> rfl, by cases maskB <;> rfl,
      by cases selectB <;> rfl, by cases enable <;> rfl, by cases glob <;> rfl⟩,
    fun n car a b sel en g => ⟨closureItems_eq_none_iff, fun it items => ?_⟩,
    fun lt sc i m s taking => ⟨fun bare => ?_, fun model bad => ?_⟩,
    fun lt car sel en g a b s f taking frame => ⟨fun bare => ?_, fun model bad => ?_⟩,
    fun s x => ⟨aspectOf_dark, aspectOf_forceRed, aspectOf_unloading,
      fun signal state => ⟨?_, aspectOf_waiting signal state⟩, available_iff, signalPath_iff⟩,
    fun lt sc i m s ls d mode taking model named listed => ?_, ?_⟩
  · refine congrArg (List.flatMap · ls) (funext fun l => ?_)
    cases s.lane? l <;> rfl
  · rw [closureItems_eq_some items]
    exact ⟨rfl, rfl, rfl, rfl, rfl⟩
  · exact exec_signalSet (change := id) taking (reqSignalSet_noProfile _ _ _ bare)
  · refine exec_signalSet (change := id) taking (reqSignalSet_range (s := heard s) model ?_)
    rcases bad with scope | mode | ⟨rfl, absent⟩ | ⟨rfl, absent⟩
    · exact .inl scope
    · exact .inr (.inl mode)
    · exact .inr (.inr (.inl ⟨rfl, absent⟩))
    · exact .inr (.inr (.inr ⟨rfl, absent⟩))
  · exact exec_closureSet (change := id) taking frame (reqClosureSet_noProfile _ _ _ _ _ _ bare)
  · exact exec_closureSet (change := id) taking frame (reqClosureSet_range (s := heard s) model bad)
  · rintro ⟨v, claim, released, onTime⟩
    exact aspectOf_released signal state claim released onTime
  · refine exec_signalSet taking ((reqSignalSet_sets (s := heard s) model named listed).trans ?_)
    rw [heard_aspectsOf]
  · rintro lt car sel en g a b s s1 it f taking model frame items rfl
    exact exec_closureSet taking frame (reqClosureSet_sets (s := heard s) model items)

end

section
/-! O7 and O8: what one step is made of, said once, and what each part of it does to the run pairs and the outputs. -/

namespace Sys2Proof.Machine

variable {s t : State}

/-! ### The parts of a step -/

/-- What a request or an event makes of the state, before the sweep and the outputs. -/
inductive Changed (s : State) : State → Prop
  | handled {t : State} (h : Handled s t) : Changed s t
  | completed : Changed s (commitCompletes s)
  | failed (type index : Byte) : Changed s (commitFails type index s)

/-- The parts of a step: the link port, lines, queue or stow mark alone; a second of every timer; an event with its
sweep and outputs; a reset; a change of supply. -/
inductive StepPart : State → State → Prop
  | registers {s t : State} {k : Link} {p : Pins} {q : List Instr} {b : Bool}
      (e : t = { s with link := k, pins := p, pending := q, stowIntact := b }) : StepPart s t
  | second (s : State) : StepPart s (countDown s)
  | event {s t : State} (h : Changed { s with ev := EventMarks.none } t) : StepPart s (refresh (sweepIfDue t))
  | reset (k : ResetCause) (s : State) : StepPart s (resetNow k s)
  | supply (p : Power) (s : State) : StepPart s (refresh { s with power := p })

/-- One part of a step after another. -/
inductive Course (s : State) : State → Prop
  | refl : Course s s
  | tail {t u : State} (c : Course s t) (p : StepPart t u) : Course s u

theorem Course.single (p : StepPart s t) : Course s t := .tail .refl p

theorem Course.trans {u : State} (c : Course s t) (d : Course t u) : Course s u := by
  induction d with
  | refl => exact c
  | tail _ p ih => exact .tail ih p

/-- What every part of a step keeps, a course of parts keeps. -/
theorem Course.keeps {P : State → Prop} (part : ∀ s t, StepPart s t → P s → P t) (c : Course s t) (h : P s) : P t := by
  induction c with
  | refl => exact h
  | tail _ p ih => exact part _ _ p ih

theorem Course.registers {k : Link} {p : Pins} {q : List Instr} {b : Bool}
    (e : t = { s with link := k, pins := p, pending := q, stowIntact := b }) : Course s t := .single (.registers e)

theorem Course.foldl {α : Type} {f : State → α → State} (hf : ∀ u a, Course u (f u a)) :
    ∀ (as : List α) (s : State), Course s (as.foldl f s)
  | [], _ => .refl
  | a :: as, s => (hf s a).trans (Course.foldl hf as (f s a))

/-! ### The link port -/

theorem course_kick (s : State) : Course s (kick s) := .registers (kick_eq s)

theorem course_setRx (r : Rx) (s : State) : Course s (setRx r s) := .registers rfl

theorem course_answer {h : Handler} (f : Frame) (s : State)
    (hh : Handled { s with ev := EventMarks.none } (h { s with ev := EventMarks.none }).1) : Course s (answer f h s) :=
  .tail (.single (.event (.handled hh))) (.registers rfl)

theorem course_takeHead (s : State) : Course s (takeHead s) := by
  unfold takeHead
  split
  · exact .refl
  · split
    · exact (Course.registers rfl).trans ((course_answer _ _ (serve_handled _)).trans (course_kick _))
    · exact .refl

/-- A request frame's arrival, when what it asks for stays within its event. -/
theorem course_requestArrives {h : Handler} (f : Frame) (s : State) (hh : ∀ u, Handled u (h u).1) :
    Course s (requestArrives f h s) := by
  unfold requestArrives
  split
  · dsimp only
    split
    · exact (Course.registers rfl).trans ((course_answer f _ (hh _)).trans (course_kick _))
    · exact (Course.registers (s := s) (t := bufferFrame f (hearFrame s)) rfl).trans (course_takeHead _)
  all_goals exact .refl

theorem course_frameComplete (len : Nat) (got : List Byte) (s : State) : Course s (frameComplete len got s) := by
  unfold frameComplete
  dsimp only
  split
  · split
    · exact course_requestArrives _ s fun _ => serve_handled _
    · exact .refl
  · exact (Course.registers rfl).trans (course_kick _)

theorem course_rxByte (s : State) (b : Byte) : Course s (rxByte s b) := by
  unfold rxByte
  split
  · split
    · exact course_setRx _ s
    · exact .refl
  · split
    · exact course_setRx _ s
    · exact (Course.registers rfl).trans (course_kick _)
  · dsimp only
    split
    · exact (course_setRx _ s).trans (course_frameComplete _ _ _)
    · exact course_setRx _ s

theorem course_rxBytes (bytes : List Byte) (s : State) : Course s (rxBytes bytes s) := by
  unfold rxBytes
  split
  · exact Course.foldl course_rxByte bytes s
  all_goals exact .refl

theorem course_dropPartial (s : State) : Course s (dropPartial s) := by
  unfold dropPartial
  split
  · exact course_setRx _ s
  all_goals exact .refl

theorem course_frameEnds (s : State) : Course s (frameEnds s) := by
  unfold frameEnds
  split
  · split
    · exact .single (.reset _ s)
    · exact (Course.registers rfl).trans ((course_kick _).trans (course_takeHead _))
  all_goals exact .refl

/-! ### Events and the clock -/

theorem course_runEvent {f : State → State} (s : State)
    (hf : Changed { s with ev := EventMarks.none } (f { s with ev := EventMarks.none })) : Course s (runEvent f s) := by
  unfold runEvent
  split
  · exact .trans (.single (.event hf)) (course_kick _)
  all_goals exact .refl

/-- An operation that stays within its event. -/
theorem Changed.of_within {f : State → State} (hf : ∀ u, Within u (f u)) (s : State) : Changed s (f s) :=
  .handled (hf s).handled

theorem course_fire (due : State → Bool) {f : State → State} (hf : ∀ u, Within u (f u)) (s : State) :
    Course s (fire due f s) := by
  unfold fire
  split
  · exact course_runEvent s (.of_within hf _)
  · exact .refl

theorem silenceExpires_within (s : State) : Within s (silenceExpires s) :=
  silenceStops_within ((Within.refl s).trans (by constructor <;> first | exact List.prefix_refl _ | exact id | rfl))

theorem course_fires {α : Type} (due : α → State → Bool) (f : α → State → State) (hf : ∀ a u, Within u (f a u))
    (as : List α) (s : State) : Course s (as.foldl (fun u a => fire (due a) (f a) u) s) :=
  Course.foldl (fun u a => course_fire (due a) (hf a) u) as s

/-- The timers that run out in one second expire one after another (log 9). -/
theorem course_fireAll (s : State) : Course s (fireAll s) := by
  have silence := course_fire (fun s => s.link.silence.due) silenceExpires_within s
  have stalls := silence.trans (course_fires (fun r s => (s.ramp r).stall.due) stallExpires
    (fun r u => stallExpires_within (.refl u) r) [Ramp.lower, Ramp.upper] _)
  have crests := stalls.trans (course_fires (fun r s => (s.ramp r).crestWindow.due) crestWindowExpires
    (fun r u => crestWindowExpires_within (.refl u) r) [Ramp.lower, Ramp.upper] _)
  have entries := fun ls => crests.trans (course_fires (fun l s => s.laneDue Lane.entryWindow l) entryWindowExpires
    (fun l u => entryWindowExpires_within (.refl u) l) ls _)
  have exits := fun ls ms => (entries ls).trans (course_fires (fun l s => s.laneDue Lane.exitWindow l) exitWindowExpires
    (fun l u => exitWindowExpires_within (.refl u) l) ms _)
  have transits := fun ls ms ts => (exits ls ms).trans (course_fires (fun t s => (s.veh? t).any fun v => v.transit.due)
    transitExpires (fun t u => transitExpires_within (.refl u) t) ts _)
  exact (transits _ _ _).trans (course_fires (fun p s => (s.panel? p).any fun x => x.timer.due) moveExpires
    (fun p u => moveExpires_within (.refl u) p) _ _)

theorem course_tick (s : State) : Course s (tick s) := by
  unfold tick
  split
  · exact .trans (.single (.second s)) (course_fireAll _)
  all_goals exact .refl

/-! ### Commands -/

/-- A request command, when what it asks for stays within its event. -/
theorem course_request {h : Handler} {f : Frame} (hh : ∀ u, Within u (h u).1)
    (e : (.next (requestArrives f h s) : Next) = .next t) : Course s t := by
  cases e
  exact course_requestArrives f s fun u => (hh u).handled

/-- A command of a line or of an expiry: the line's level, then the event where it has one. -/
theorem course_eventIf {c : Bool} {f : State → State} {p : Pins} (hf : ∀ u, Within u (f u))
    (e : eventIf c f { s with pins := p } = .next t) : Course s t := by
  cases e
  refine (Course.registers (t := { s with pins := p }) rfl).trans ?_
  split
  · exact course_runEvent _ (.of_within hf _)
  · exact .refl

/-- The end of a commit's writing, reported. -/
theorem course_written {f : State → State} (hf : ∀ u, Changed u (f u))
    (e : eventIf s.profile.isCommitting f s = .next t) : Course s t := by
  cases e
  split
  · exact course_runEvent _ (hf _)
  · exact .refl

theorem course_powerOnReset (e : execPowerOnReset s = .next t) : Course s t := by
  cases e
  split
  · exact .tail (.single (.reset .power s)) (.supply .held _)
  · exact .single (.reset .power s)

theorem course_lineResetAssert (e : execLineResetAssert s = .next t) : Course s t := by
  cases e
  split
  · exact (Course.registers rfl).trans (.single (.supply .held _))
  all_goals exact .registers rfl

theorem course_lineResetRelease (e : execLineResetRelease s = .next t) : Course s t := by
  cases e
  split
  · exact (Course.registers rfl).trans (.single (.reset .line _))
  all_goals exact .registers rfl

theorem course_requestReset (e : execRequestReset s = .next t) : Course s t := by
  cases e
  split
  · split
    · exact .single (.reset .request s)
    · exact .refl
  all_goals exact .refl

theorem course_exec (i : Instr) (e : exec i s = .next t) : Course s t := by
  cases i with
  | status lt c => exact course_request (fun _ => reqStatus_within _) e
  | reset lt => cases e; exact course_requestArrives _ s fun _ => reqReset_handled
  | linkSilence lt n => exact course_request (fun _ => reqLinkSilence_within _) e
  | arrive => exact course_request (fun _ => reqArrive_within _) e
  | recallVehicle lt tag => exact course_request (fun _ => reqRecall_within _) e
  | vehicleGet lt tag => exact course_request (fun _ => reqVehicleGet_within _) e
  | confirm lt tag lane => exact course_request (fun _ => reqConfirm_within _ _) e
  | depart lt tag => exact course_request (fun _ => reqDepart_within _) e
  | laneGet lt lane start => exact course_request (fun _ => reqLaneGet_within _ _) e
  | sectionGet lt i => exact course_request (fun _ => reqSectionGet_within _) e
  | thresholdSet lt target n => exact course_request (fun _ => reqThresholdSet_within _ _) e
  | laneShut lt lane => exact course_request (fun _ => reqLaneShut_within _) e
  | laneOpen lt lane => exact course_request (fun _ => reqLaneOpen_within _) e
  | rampStart lt r => exact course_request (fun _ => onRamps_within _ fun r _ => startPart_within r) e
  | rampStop lt r => exact course_request (fun _ => onRamps_within _ fun r _ => stopPart_within r) e
  | rampDirection lt r d => exact course_request (fun _ => reqRampDirection_within _ _) e
  | runPair lt r l hv stall => exact course_request (fun _ => reqRunPair_within _ _ _ _) e
  | triggerMode lt r m src => exact course_request (fun _ => onRamps_within _ fun r _ => triggerModePart_within _ _ r) e
  | trigger lt r => exact course_request (fun _ => onRamps_within _ fun r _ => triggerPart_within r) e
  | rampBand lt r n => exact course_request (fun _ => onRamps_within _ fun r _ => bandPart_within _ r) e
  | sensorWatch => exact course_request (fun _ => reqSensorWatch_within _ _ _ _) e
  | sensorLevel => exact course_request (fun _ => reqSensorLevel_within _ _) e
  | sensorLatches => exact course_request (fun _ => reqSensorLatches_within _) e
  | sensorClear => exact course_request (fun _ => reqSensorClear_within _) e
  | hoistMove => exact course_request (fun _ => reqHoistMove_within _ _) e
  | hoistStop => exact course_request (fun _ => reqHoistStop_within _) e
  | voyageSet => exact course_request (fun _ => reqVoyageSet_within _) e
  | callOpen => exact course_request (fun _ => reqCallOpen_within) e
  | phaseLoad => exact course_request (fun _ => reqPhaseLoad_within) e
  | callClose => exact course_request (fun _ => reqCallClose_within _) e
  | dischargeLane => exact course_request (fun _ => reqDischargeLane_within _) e
  | signalSet => exact course_request (fun _ => reqSignalSet_within _ _ _) e
  | closureSet => exact course_request (fun _ => reqClosureSet_within _ _ _ _ _ _) e
  | draftPut => cases e; exact course_requestArrives _ s fun _ => serveDraftPut_handled _
  | draftClear => exact course_request (fun _ => reqDraftClear_within) e
  | draftGet => exact course_request (fun _ => reqDraftGet_within _ _) e
  | profileCommit => exact course_request (fun _ => reqProfileCommit_within _ _) e
  | profileLock => exact course_request (fun _ => reqProfileLock_within) e
  | profileGet => exact course_request (fun _ => reqProfileGet_within _ _) e
  | unknownKind => cases e; exact course_requestArrives _ s fun _ => serve_handled _
  | frameReceive bytes => cases e; exact course_rxBytes bytes s
  | interByteGap => cases e; exact course_dropPartial s
  | badStopBitByte => cases e; exact course_dropPartial s
  | transmitFrameEnd => cases e; exact course_frameEnds s
  | powerOnReset => exact course_powerOnReset e
  | lineResetAssert => exact course_lineResetAssert e
  | lineResetRelease => exact course_lineResetRelease e
  | requestReset => exact course_requestReset e
  | stowMarkBroken => cases e; exact .registers rfl
  | mainSupplyLoss => cases e; exact .single (.supply .down s)
  | triggerLinePress line => exact course_eventIf (fun u => pressLine_within (.refl u) line) e
  | triggerLineRelease line => cases e; exact .registers rfl
  | crestLoopEdge r high => exact course_eventIf (fun u => crestLine_within (.refl u) r high) e
  | laneLoopEdge l high => exact course_eventIf (fun u => laneLine_within (.refl u) l high) e
  | limitLineEvent p line a => exact course_eventIf (fun u => limitEvent_within (.refl u) p line a) e
  | stallTimerExpiry r => exact course_eventIf (fun u => stallExpires_within (.refl u) r) e
  | linkSilenceExpiry => exact course_eventIf silenceExpires_within e
  | entryCreditWindowExpiry l => exact course_eventIf (fun u => entryWindowExpires_within (.refl u) l) e
  | crestCreditWindowExpiry r => exact course_eventIf (fun u => crestWindowExpires_within (.refl u) r) e
  | exitCreditWindowExpiry l => exact course_eventIf (fun u => exitWindowExpires_within (.refl u) l) e
  | transitExpiry tag => exact course_eventIf (fun u => transitExpires_within (.refl u) tag) e
  | moveTimeout p => exact course_eventIf (fun u => moveExpires_within (.refl u) p) e
  | profileWriteComplete => exact course_written (fun _ => .completed) e
  | profileWriteFailure ty i => exact course_written (fun _ => .failed ty i) e

/-- Every step is a course of parts. -/
theorem course_step (e : step s = .next t) : Course s t := by
  unfold step at e
  split at e
  · exact (Course.registers (t := { s with pending := _ }) rfl).trans (course_exec _ e)
  · cases e
    exact course_tick s

/-! ### The run pair law (R77) -/

theorem RunPairLaw.within (w : Within s t) (h : RunPairLaw s) : RunPairLaw t := ⟨w.lower h.1, w.upper h.2⟩

theorem Changed.runPairLaw (c : Changed s t) (h : RunPairLaw s) : RunPairLaw t := by
  cases c with
  | handled hd =>
    obtain ⟨_, w⟩ := hd
    exact .within w h
  | completed => exact h
  | failed => exact h

theorem resetNow_active (k : ResetCause) (s : State) (r : Ramp) : ((resetNow k s).ramp r).active = ⟨4, 2⟩ :=
  (resetNow_ramp k s r).2.2.1

theorem StepPart.runPairLaw (p : StepPart s t) (h : RunPairLaw s) : RunPairLaw t := by
  cases p with
  | registers e => rw [e]; exact h
  | second => exact h
  | event c => exact .within (refresh_within (sweepIfDue_within (.refl _))) (c.runPairLaw h)
  | reset k =>
    have pair := resetNow_active k s
    exact ⟨by rw [show (resetNow k s).lower.active = _ from pair .lower]; rfl,
      by rw [show (resetNow k s).upper.active = _ from pair .upper]; rfl⟩
  | supply p => exact .within (s := { s with power := p }) (refresh_within (.refl _)) h

theorem doReset_active (k : ResetCause) (s : State) (r : Ramp) : ((doReset k s).ramp r).active = ⟨4, 2⟩ := by
  rw [doReset_eq]
  obtain ⟨mass, occupied, e⟩ := remodel_ramp { (if (atReset k s).keepsStow then atReset k s else clearStow (atReset k s))
    with stowKept := (atReset k s).keepsStow } r
  rw [e]
  dsimp only
  split <;> cases r <;> rfl

/-- Steps 1 and 2 of a cycle start: the pending pair, or the defaults in both places with RUN_REVERTED (R75). -/
theorem adoptPair_eq (r : Ramp) (s : State) : adoptPair r s =
    if (s.ramp r).waiting.heavy ≤ 2 * (s.ramp r).waiting.light
    then s.updRamp r fun q => { q with active := (s.ramp r).waiting }
    else (s.updRamp r fun q => { q with active := ⟨4, 2⟩, waiting := ⟨4, 2⟩ }).notify
      (.runReverted r (s.ramp r).waiting.light (s.ramp r).waiting.heavy) := by
  unfold adoptPair RunPair.lawful
  simp only [decide_eq_true_iff]
  rfl

@[simp] theorem notify_ramp (s : State) (n : Notice) (r : Ramp) : (s.notify n).ramp r = s.ramp r := by cases r <;> rfl

theorem cycleStart_active (r : Ramp) (s : State) : ((seqNext r .cycleStart s).1.ramp r).active =
    if (s.ramp r).waiting.heavy ≤ 2 * (s.ramp r).waiting.light then (s.ramp r).waiting else ⟨4, 2⟩ := by
  have adopted : ((adoptPair r s).ramp r).active =
      if (s.ramp r).waiting.heavy ≤ 2 * (s.ramp r).waiting.light then (s.ramp r).waiting else ⟨4, 2⟩ := by
    rw [adoptPair_eq]
    split <;> simp
  rw [← adopted]
  unfold seqNext
  dsimp only
  split <;> simp

/-! ### The outputs' law (R88, R130, R164, R166) -/

theorem books_carrierWorking (s : State) (x : Lane) : s.books.carrierWorking x.books = s.carrierWorking x := by
  have any (u : State) (y : Lane) : u.carrierWorking y = (u.carrier? y.sect).any fun q => decide (q.2.state = .working) := by
    unfold State.carrierWorking
    cases u.carrier? y.sect <;> rfl
  rw [any, any, books_carrier?, Option.any_map]
  rfl

/-- Two states of one books, with the same closed sections, show a lane of one head the same aspect. -/
theorem aspectOf_congr {x y : Lane} (books : t.books = s.books) (lane : y.books = x.books) (signal : y.signal = x.signal)
    (state : y.state = x.state) (closed : t.closed x.sect = s.closed x.sect) : t.aspectOf y = s.aspectOf x := by
  have field {β : Type} (g : Lane → β) (hg : ∀ x, g x.books = g x) : g y = g x := by rw [← hg y, lane, hg]
  have working : t.carrierWorking y = s.carrierWorking x := by
    rw [← books_carrierWorking, books, lane, books_carrierWorking]
  have hoist : t.onHoist y = s.onHoist x := by rw [← books_onHoist, books, lane, books_onHoist]
  have cover : t.coverMoving y = s.coverMoving x := by rw [← books_coverMoving, books, lane, books_coverMoving]
  have ramp : t.rampOf y = s.rampOf x := by rw [← books_rampOf, books, lane, books_rampOf]
  have available : t.available y = s.available x := by
    unfold State.available Lane.held
    rw [working, hoist, state, field Lane.overdue fun _ => rfl, field Lane.sect fun _ => rfl, closed]
  have path : t.signalPath y = s.signalPath x := by
    unfold State.signalPath
    rw [ramp, cover, (calm_books books).1]
  have released : (t.records y.claims).any (fun v => v.stage.released && !v.overdue) =
      (s.records x.claims).any fun v => v.stage.released && !v.overdue := by
    have e := (books_records t x.claims).symm.trans (books ▸ books_records s x.claims)
    have any (vs : List Vehicle) : vs.any (fun v => v.stage.released && !v.overdue) =
        (vs.map Vehicle.books).any fun v => v.stage.released && !v.overdue := by rw [List.any_map]; rfl
    rw [field Lane.claims fun _ => rfl, any, e, ← any]
  unfold State.aspectOf
  rw [signal, state, available, path, released]

theorem outputsLaw_refresh (s : State) : OutputsLaw (refresh s) := by
  unfold refresh
  cases power : s.power with
  | up =>
    refine ⟨fun _ => ⟨rfl, rfl, fun x hx => ?_, fun p hp => ?_⟩, fun down => absurd power down⟩
    · obtain ⟨y, -, rfl⟩ := List.mem_map.1 hx
      exact (aspectOf_outputsOn s y _).symm
    · obtain ⟨y, -, rfl⟩ := List.mem_map.1 hp
      exact ⟨rfl, rfl⟩
  | held => exact ⟨fun up => (nomatch power.symm.trans up), fun _ => outputsOff_dark s⟩
  | down => exact ⟨fun up => (nomatch power.symm.trans up), fun _ => outputsOff_dark s⟩

/-- A second of every timer is none of what the outputs show. -/
theorem OutputsLaw.second (h : OutputsLaw s) : OutputsLaw (countDown s) := by
  refine ⟨fun up => ?_, fun down => ?_⟩
  · obtain ⟨lower, upper, lanes, panels⟩ := h.1 up
    refine ⟨lower, upper, fun x hx => ?_, fun p hp => ?_⟩
    · obtain ⟨y, hy, rfl⟩ := List.mem_map.1 hx
      exact (lanes y hy).trans (aspectOf_congr countDown_books rfl rfl rfl rfl).symm
    · obtain ⟨y, hy, rfl⟩ := List.mem_map.1 hp
      exact panels y hy
  · obtain ⟨lower, upper, lanes, panels⟩ := h.2 down
    refine ⟨lower, upper, fun x hx => ?_, fun p hp => ?_⟩
    · obtain ⟨y, hy, rfl⟩ := List.mem_map.1 hx
      exact lanes y hy
    · obtain ⟨y, hy, rfl⟩ := List.mem_map.1 hp
      exact panels y hy

theorem StepPart.outputsLaw (p : StepPart s t) (h : OutputsLaw s) : OutputsLaw t := by
  cases p with
  | registers e => rw [e]; exact h
  | second => exact h.second
  | event => exact outputsLaw_refresh _
  | reset => exact outputsLaw_refresh _
  | supply => exact outputsLaw_refresh _

end Sys2Proof.Machine

open Sys2Proof Sys2Proof.Machine

/-- Settles O7: the law part by part, then the pair of a reset and of a cycle start. -/
theorem runPairLawKept : Obligations.RunPairLawKept :=
  ⟨fun _ _ h e => (course_step e).keeps (fun _ _ p => p.runPairLaw) h, doReset_active, cycleStart_active⟩

/-- Settles O8: the outputs are computed last in every part that changes what they show. -/
theorem outputsLawKept : Obligations.OutputsLawKept :=
  fun _ _ h e => (course_step e).keeps (fun _ _ p => p.outputsLaw) h

end

section
/-! O12 and O43: one act of a sequencer at a time, why the acts end, and what a release asks and does. -/

namespace Sys2Proof.Machine

variable {r : Ramp} {k : Kind} {s t : State}

/-! ### One act (R75, R78, R80, R83, R85) -/

theorem seqNext_cycleStart (r : Ramp) (s : State) : seqNext r .cycleStart s =
    if (s.ramp r).light = [] ∧ (s.ramp r).heavy = []
    then ((adoptPair r s).updRamp r fun q => { q with seq := .idle, stall := .stopped, runCount := 0 }, none)
    else (adoptPair r s, some (.begin .light)) := by
  unfold seqNext
  have light : ((adoptPair r s).ramp r).light = (s.ramp r).light := adoptPair_queue .light
  have heavy : ((adoptPair r s).ramp r).heavy = (s.ramp r).heavy := adoptPair_queue .heavy
  simp only [light, heavy, Bool.and_eq_true, List.isEmpty_iff]

theorem seqNext_begin (r : Ramp) (k : Kind) (s : State) : seqNext r (.begin k) s =
    (s.updRamp r fun q => { q with seq := .ofRun k, runCount := 0, stall := q.freshStall },
      some (if (s.ramp r).queue k = [] then .endRun k else .examine)) := by
  unfold seqNext
  have queue : ((s.updRamp r fun q => { q with seq := .ofRun k, runCount := 0, stall := q.freshStall }).ramp r).queue k =
      (s.ramp r).queue k := by rw [updRamp_same]; cases k <;> rfl
  simp only [queue, List.isEmpty_iff]
  split <;> rfl

theorem seqNext_examine_resting (rest : (s.ramp r).seq.run? = none) : seqNext r .examine s = (s, none) := by
  unfold seqNext
  simp only [rest]

section
variable (run : (s.ramp r).seq.run? = some k)
include run

theorem seqNext_examine_empty (empty : (s.ramp r).queue k = []) : seqNext r .examine s = (s, none) := by
  unfold seqNext
  simp only [run, empty]

variable {tag : Nat} {rest : List Nat} (head : (s.ramp r).queue k = tag :: rest)
include head

theorem seqNext_examine_held (held : canRelease r tag s = false) : seqNext r .examine s = (s, none) := by
  unfold seqNext
  simp [run, head, held]

/-- A release, after which the run ends when its length is reached or its queue is empty (R78, R83). -/
theorem seqNext_examine_release (free : canRelease r tag s = true) : seqNext r .examine s =
    (releaseHead r k tag s,
      some (if (s.ramp r).runLength k ≤ (s.ramp r).runCount + 1 ∨ rest = [] then .endRun k else .examine)) := by
  obtain ⟨queue, -, count, active, -⟩ := releaseHead_ramp head free
  have length : ((releaseHead r k tag s).ramp r).runLength k = (s.ramp r).runLength k := by
    cases k with
    | light => exact congrArg RunPair.light active
    | heavy => exact congrArg RunPair.heavy active
  unfold seqNext
  simp only [run, head, free, if_true, queue, count, length, Bool.or_eq_true, decide_eq_true_iff, List.isEmpty_iff]
  split <;> rfl

end

/-- The sequencer as a run has ended: its stall timer stopped, its count 0 (R78, R83). -/
def State.runEnded (s : State) (r : Ramp) : State := s.updRamp r fun q => { q with stall := .stopped, runCount := 0 }

theorem runEnded_ramp (s : State) (r : Ramp) :
    (s.runEnded r).ramp r = { s.ramp r with stall := .stopped, runCount := 0 } := updRamp_same s r _

theorem seqNext_endRun_heavy (r : Ramp) (s : State) : seqNext r (.endRun .heavy) s = (s.runEnded r, some .cycleStart) := rfl

theorem seqNext_endRun_light_alone (alone : (s.ramp r).heavy = []) :
    seqNext r (.endRun .light) s = (s.runEnded r, some .cycleStart) := by
  unfold seqNext
  simp [alone, State.runEnded]

theorem seqNext_endRun_light_auto (waits : (s.ramp r).heavy ≠ []) (mode : (s.ramp r).mode = .auto) :
    seqNext r (.endRun .light) s = (s.runEnded r, some (.begin .heavy)) := by
  unfold seqNext
  simp [waits, mode, State.runEnded]

theorem seqNext_endRun_light_manual (waits : (s.ramp r).heavy ≠ []) (mode : (s.ramp r).mode = .manual) :
    seqNext r (.endRun .light) s = (((s.runEnded r).updRamp r fun q => { q with seq := .waitTrigger }).notify
      (.runReady r (s.ramp r).heavy.length), none) := by
  unfold seqNext
  simp [waits, mode, State.runEnded]

/-! ### The acts end (log 24) -/

/-- How many acts can follow one another from an act on, without a release, with these queues. -/
def SeqAct.rank : SeqAct → List Nat → List Nat → Nat
  | .examine, _, _ => 1
  | .begin .light, _ :: _, _ => 2
  | .begin .light, [], _ :: _ => 4
  | .begin .heavy, _, _ :: _ => 2
  | .begin _, _, _ => 7
  | .endRun .light, _, _ :: _ => 3
  | .endRun _, _, _ => 6
  | .cycleStart, _, _ => 5

/-- A bound on the acts from an act on: six for each vehicle that can still be released, and the act's rank. -/
def SeqAct.left (a : SeqAct) (q : RampState) : Nat := 6 * (q.light.length + q.heavy.length) + a.rank q.light q.heavy

theorem SeqAct.rank_bounds (a : SeqAct) (light heavy : List Nat) : 1 ≤ a.rank light heavy ∧ a.rank light heavy ≤ 7 := by
  unfold SeqAct.rank
  split <;> decide

theorem SeqAct.rank_endRun (k : Kind) (light heavy : List Nat) : (SeqAct.endRun k).rank light heavy ≤ 6 := by
  cases k <;> cases heavy <;> simp [SeqAct.rank]

/-- Ranks fall where the queues stay. -/
theorem SeqAct.left_lt {a b : SeqAct} {p q : RampState} (light : p.light = q.light) (heavy : p.heavy = q.heavy)
    (falls : b.rank q.light q.heavy < a.rank q.light q.heavy) : b.left p < a.left q := by
  unfold SeqAct.left
  rw [light, heavy]
  omega

theorem left_lt_of_begin (k : Kind) (q : RampState) :
    (if q.queue k = [] then SeqAct.endRun k else .examine).rank q.light q.heavy < (SeqAct.begin k).rank q.light q.heavy := by
  cases k with
  | light =>
    cases light : q.light with
    | nil => cases heavy : q.heavy <;> simp [RampState.queue, SeqAct.rank, light]
    | cons => simp [RampState.queue, SeqAct.rank, light]
  | heavy => cases heavy : q.heavy <;> simp [RampState.queue, SeqAct.rank, heavy]

/-- A release leaves one vehicle fewer in the queues. -/
theorem releaseHead_waiting {tag : Nat} {rest : List Nat} (head : (s.ramp r).queue k = tag :: rest)
    (free : canRelease r tag s = true) :
    ((releaseHead r k tag s).ramp r).light.length + ((releaseHead r k tag s).ramp r).heavy.length + 1 =
      (s.ramp r).light.length + (s.ramp r).heavy.length := by
  obtain ⟨queue, other, -⟩ := releaseHead_ramp head free
  cases k with
  | light =>
    have heavy := other .heavy (by decide)
    simp only [RampState.queue] at head queue heavy
    rw [head, queue, heavy, List.length_cons]
    omega
  | heavy =>
    have light := other .light (by decide)
    simp only [RampState.queue] at head queue light
    rw [head, queue, light, List.length_cons]
    omega

/-- Each act leaves fewer acts to follow. -/
theorem left_lt_of_seqNext {a b : SeqAct} (e : seqNext r a s = (t, some b)) : b.left (t.ramp r) < a.left (s.ramp r) := by
  cases a with
  | cycleStart =>
    rw [seqNext_cycleStart] at e
    split at e
    · cases e
    · rename_i waits
      cases e
      refine SeqAct.left_lt (adoptPair_queue .light) (adoptPair_queue .heavy) ?_
      cases hl : (s.ramp r).light <;> cases hh : (s.ramp r).heavy <;> simp [SeqAct.rank, hl, hh] at waits ⊢
  | begin k =>
    rw [seqNext_begin] at e
    cases e
    exact SeqAct.left_lt (by rw [updRamp_same]) (by rw [updRamp_same]) (left_lt_of_begin k _)
  | examine =>
    cases run : (s.ramp r).seq.run? with
    | none => rw [seqNext_examine_resting run] at e; cases e
    | some k =>
      cases head : (s.ramp r).queue k with
      | nil => rw [seqNext_examine_empty run head] at e; cases e
      | cons tag rest =>
        cases free : canRelease r tag s with
        | false => rw [seqNext_examine_held run head free] at e; cases e
        | true =>
          rw [seqNext_examine_release run head free] at e
          cases e
          have fewer := releaseHead_waiting head free
          have rank (light heavy : List Nat) (c : Prop) [Decidable c] :
              (if c then SeqAct.endRun k else .examine).rank light heavy ≤ 6 := by
            split
            · exact SeqAct.rank_endRun k light heavy
            · exact (by decide : 1 ≤ 6)
          have next := rank ((releaseHead r k tag s).ramp r).light ((releaseHead r k tag s).ramp r).heavy
            ((s.ramp r).runLength k ≤ (s.ramp r).runCount + 1 ∨ rest = [])
          have own : SeqAct.examine.rank (s.ramp r).light (s.ramp r).heavy = 1 := rfl
          unfold SeqAct.left
          omega
  | endRun k =>
    have queues : ((s.runEnded r).ramp r).light = (s.ramp r).light ∧ ((s.runEnded r).ramp r).heavy = (s.ramp r).heavy := by
      rw [runEnded_ramp]
      exact ⟨rfl, rfl⟩
    cases k with
    | heavy =>
      cases e
      exact SeqAct.left_lt queues.1 queues.2 (by simp [SeqAct.rank])
    | light =>
      cases heavy : (s.ramp r).heavy with
      | nil =>
        rw [seqNext_endRun_light_alone heavy] at e
        cases e
        exact SeqAct.left_lt queues.1 queues.2 (by simp [SeqAct.rank, heavy])
      | cons tag rest =>
        have waits : (s.ramp r).heavy ≠ [] := by rw [heavy]; exact List.cons_ne_nil _ _
        cases mode : (s.ramp r).mode with
        | auto =>
          rw [seqNext_endRun_light_auto waits mode] at e
          cases e
          exact SeqAct.left_lt queues.1 queues.2 (by simp [SeqAct.rank, heavy])
        | manual => rw [seqNext_endRun_light_manual waits mode] at e; cases e

/-- Any two bounds that are not reached give the same state. -/
theorem seqGo_settled : ∀ {n m : Nat} {a : SeqAct} {s : State}, a.left (s.ramp r) ≤ n → a.left (s.ramp r) ≤ m →
    seqGo n r a s = seqGo m r a s
  | 0, m, a, s, hn, _ => absurd hn (by have := (a.rank_bounds (s.ramp r).light (s.ramp r).heavy).1; unfold SeqAct.left; omega)
  | n + 1, 0, a, s, _, hm =>
    absurd hm (by have := (a.rank_bounds (s.ramp r).light (s.ramp r).heavy).1; unfold SeqAct.left; omega)
  | n + 1, m + 1, a, s, hn, hm => by
    unfold seqGo
    cases e : seqNext r a s with
    | mk t b =>
      cases b with
      | none => rfl
      | some b =>
        have fewer := left_lt_of_seqNext e
        exact seqGo_settled (by omega) (by omega)

theorem left_le_seqFuel (r : Ramp) (a : SeqAct) (s : State) : a.left (s.ramp r) ≤ seqFuel r s := by
  have := (a.rank_bounds (s.ramp r).light (s.ramp r).heavy).2
  unfold SeqAct.left seqFuel
  omega

theorem seqGo_eq_seqAct {n : Nat} {a : SeqAct} (bound : a.left (s.ramp r) ≤ n) : seqGo n r a s = seqAct r a s :=
  seqGo_settled bound (left_le_seqFuel r a s)

/-- The acts of an event, one after another. -/
theorem seqAct_step {a b : SeqAct} (e : seqNext r a s = (t, some b)) : seqAct r a s = seqAct r b t := by
  have fewer := left_lt_of_seqNext e
  have own := left_le_seqFuel r a s
  rw [← seqGo_eq_seqAct (n := seqFuel r s + 1) (by omega)]
  unfold seqGo
  rw [e]
  exact seqGo_eq_seqAct (by omega)

theorem seqAct_last {a : SeqAct} (e : seqNext r a s = (t, none)) : seqAct r a s = t := by
  have own := left_le_seqFuel r a s
  rw [← seqGo_eq_seqAct (n := seqFuel r s + 1) (by omega)]
  unfold seqGo
  rw [e]

/-! ### The acts of a run -/

theorem cycleStart_empty (light : (s.ramp r).light = []) (heavy : (s.ramp r).heavy = []) : cycleStart r s =
    (adoptPair r s).updRamp r fun q => { q with seq := .idle, stall := .stopped, runCount := 0 } :=
  seqAct_last (by rw [seqNext_cycleStart, if_pos ⟨light, heavy⟩])

theorem cycleStart_begins (waits : (s.ramp r).light ≠ [] ∨ (s.ramp r).heavy ≠ []) :
    cycleStart r s = seqAct r (.begin .light) (adoptPair r s) :=
  seqAct_step (by rw [seqNext_cycleStart, if_neg fun h => waits.elim (fun n => n h.1) fun n => n h.2])

theorem seqAct_begin (r : Ramp) (k : Kind) (s : State) : seqAct r (.begin k) s =
    seqAct r (if (s.ramp r).queue k = [] then .endRun k else .examine)
      (s.updRamp r fun q => { q with seq := .ofRun k, runCount := 0, stall := q.freshStall }) :=
  seqAct_step (seqNext_begin r k s)

section
variable (run : (s.ramp r).seq.run? = some k)
include run

theorem examineRamp_empty (empty : (s.ramp r).queue k = []) : examineRamp r s = s :=
  seqAct_last (seqNext_examine_empty run empty)

variable {tag : Nat} {rest : List Nat} (head : (s.ramp r).queue k = tag :: rest)
include head

theorem examineRamp_held (held : canRelease r tag s = false) : examineRamp r s = s :=
  seqAct_last (seqNext_examine_held run head held)

theorem examineRamp_releases (free : canRelease r tag s = true) : examineRamp r s =
    seqAct r (if (s.ramp r).runLength k ≤ (s.ramp r).runCount + 1 ∨ rest = [] then .endRun k else .examine)
      (releaseHead r k tag s) :=
  seqAct_step (seqNext_examine_release run head free)

end

/-! ### The release conditions (R85) and the release (R87) -/

theorem onHoist_iff_exists {x : Lane} : s.onHoist x = true ↔ ∃ d, s.deckOf x = some d ∧ d.kind = .hoist := by
  unfold State.onHoist
  cases s.deckOf x with
  | none => exact ⟨fun h => (nomatch h), fun ⟨_, h, _⟩ => (nomatch h)⟩
  | some d => exact decide_eq_true_iff.trans ⟨fun hoist => ⟨d, rfl, hoist⟩, fun ⟨_, e, hoist⟩ => by cases e; exact hoist⟩

theorem moving_iff {p : PanelPos} : p.moving = true ↔ p = .raising ∨ p = .lowering := by
  cases p <;> decide

theorem coverMoving_iff {x : Lane} : s.coverMoving x = true ↔ ∃ c y, x.cover = some c ∧ s.panel? c.panel = some y ∧
    (y.state = .raising ∨ y.state = .lowering) := by
  unfold State.coverMoving State.coverState?
  cases x.cover with
  | none => exact ⟨fun h => (nomatch h), fun ⟨_, _, h, _⟩ => (nomatch h)⟩
  | some c =>
    cases panel : s.panel? c.panel with
    | none =>
      refine ⟨fun h => ?_, fun ⟨_, _, e, h, _⟩ => ?_⟩
      · rw [Option.bind_some, panel] at h
        exact nomatch h
      · cases e
        exact nomatch panel.symm.trans h
    | some y =>
      refine ⟨fun h => ⟨c, y, rfl, panel, ?_⟩, fun ⟨_, _, e, h, moves⟩ => ?_⟩
      · rw [Option.bind_some, panel] at h
        exact moving_iff.1 h
      · cases e
        cases panel.symm.trans h
        rw [Option.bind_some, panel]
        exact moving_iff.2 moves

theorem bandOf_eq_some {b : Band} : s.bandOf r = some b ↔
    (s.ramp r).band < 3 ∧ (s.rampRec r).bands[(s.ramp r).band]? = some b := by
  unfold State.bandOf
  split
  · exact (and_iff_right ‹_›).symm
  · exact ⟨fun h => (nomatch h), fun h => absurd h.1 ‹_›⟩

theorem bandOf_eq_none : s.bandOf r = none ↔ 3 ≤ (s.ramp r).band ∨ (s.rampRec r).bands[(s.ramp r).band]? = none := by
  unfold State.bandOf
  split
  · exact (or_iff_right (Nat.not_le.2 ‹_›)).symm
  · exact iff_of_true rfl (.inl (Nat.le_of_not_lt ‹_›))

theorem releasePath_iff {x : Lane} : s.releasePath x = true ↔
    (s.onHoist x = true → s.carrierWorking x = true) ∧ s.coverMoving x = false := by
  unfold State.releasePath
  cases s.onHoist x <;> simp

/-- The six conditions, once the head has its record, the band its figures and the lane its place on deck. -/
theorem canRelease_of {tag l : Nat} {v : Vehicle} {b : Band} {x : Lane} (known : s.veh? tag = some v)
    (band : s.bandOf r = some b) (lane : v.stage.lane? = some l) (hx : s.lane? l = some x) : canRelease r tag s = true ↔
      (s.ramp r).onRamp.length < b.maxVehicles ∧ (s.ramp r).mass + v.mass ≤ b.massLimit * 1000 ∧ x.overdue = 0 ∧
        s.releasePath x = true ∧ s.firstClaimCall? x = some v.call := by
  unfold canRelease
  simp [known, band, lane, hx, Lane.held, State.gateOpen, and_assoc]

theorem canRelease_iff {tag : Nat} : canRelease r tag s = true ↔
    ∃ v b l x, s.veh? tag = some v ∧ s.bandOf r = some b ∧ v.stage.lane? = some l ∧ s.lane? l = some x ∧
      (s.ramp r).onRamp.length < b.maxVehicles ∧ (s.ramp r).mass + v.mass ≤ b.massLimit * 1000 ∧
      x.overdue = 0 ∧ ((s.onHoist x = true → s.carrierWorking x = true) ∧ s.coverMoving x = false) ∧
      s.firstClaimCall? x = some v.call := by
  refine ⟨fun free => ?_, fun ⟨v, b, l, x, known, band, lane, hx, conditions⟩ =>
    (canRelease_of known band lane hx).2 (by rwa [releasePath_iff])⟩
  obtain ⟨v, l, x, known, lane, hx⟩ := canRelease_some free
  cases band : s.bandOf r with
  | none =>
    unfold canRelease at free
    simp [known, band] at free
  | some b =>
    have conditions := (canRelease_of known band lane hx).1 free
    rw [releasePath_iff] at conditions
    exact ⟨v, b, l, x, known, rfl, lane, hx, conditions⟩

/-- A ramp as a release leaves it: the head off its queue and on the ramp, counted, the stall timer afresh (R87). -/
def RampState.releases (q : RampState) (k : Kind) (tag mass : Nat) : RampState :=
  { q.setQueue k (q.queue k).tail with
    onRamp := q.onRamp ++ [tag], mass := q.mass + mass, runCount := q.runCount + 1, stall := .running q.stallLimit }

theorem releases_queue (q : RampState) (k : Kind) (tag mass : Nat) :
    (q.releases k tag mass).queue k = (q.queue k).tail := by cases k <;> rfl

/-- A release but for the sweep it may trigger: record, ramp and notice (R87). -/
def State.released (s : State) (r : Ramp) (k : Kind) (tag l mass : Nat) : State :=
  ((s.updVeh tag fun v => { v with stage := .onRamp l, transit := .running (s.rampRec r).transit }).updRamp r
    fun q => q.releases k tag mass).notify (.released tag l r)

theorem released_ramp (l mass : Nat) {tag : Nat} : (s.released r k tag l mass).ramp r = (s.ramp r).releases k tag mass := by
  cases r <;> rfl

theorem released_other (l mass : Nat) {tag : Nat} : (s.released r k tag l mass).lanes = s.lanes ∧
    (s.released r k tag l mass).sections = s.sections ∧ (s.released r k tag l mass).standby = s.standby ∧
    (s.released r k tag l mass).listMoment = s.listMoment ∧ (s.released r k tag l mass).ev = s.ev ∧
    (s.released r k tag l mass).link = (s.notify (.released tag l r)).link := by
  cases r <;> exact ⟨rfl, rfl, rfl, rfl, rfl, rfl⟩

theorem released_vehicle {tag l mass : Nat} {u : Vehicle} (hu : u ∈ (s.released r k tag l mass).vehicles)
    (own : u.tag = tag) : u.stage = .onRamp l ∧ u.transit = .running (s.rampRec r).transit := by
  have updated : (s.released r k tag l mass).vehicles = s.vehicles.map fun v =>
      if v.tag = tag then { v with stage := .onRamp l, transit := .running (s.rampRec r).transit } else v := by
    cases r <;> rfl
  rw [updated] at hu
  obtain ⟨v, -, rfl⟩ := List.mem_map.1 hu
  by_cases same : v.tag = tag
  · rw [if_pos same]
    exact ⟨rfl, rfl⟩
  · rw [if_neg same] at own
    exact absurd own same

section
variable {tag l : Nat} {v : Vehicle} (known : s.veh? tag = some v) (lane : v.stage.lane? = some l)
include known lane

/-- A queue that was full triggers a sweep (R63). -/
theorem releaseHead_eq : releaseHead r k tag s = if ((s.ramp r).queue k).length = 48
    then (s.released r k tag l v.mass).sweepTrigger else s.released r k tag l v.mass := by
  unfold releaseHead
  simp only [known, lane]
  rfl

/-- What a release leaves, apart from the sweep's mark. -/
theorem releaseHead_same {β : Type} {g : State → β} (hg : ∀ u : State, g u.sweepTrigger = g u) :
    g (releaseHead r k tag s) = g (s.released r k tag l v.mass) := by
  rw [releaseHead_eq known lane]
  split
  · exact hg _
  · rfl

theorem releaseHead_sweepDue : (releaseHead r k tag s).ev.sweepDue = true ↔
    s.ev.sweepDue = true ∨ ((s.ramp r).queue k).length = 48 := by
  rw [releaseHead_eq known lane]
  split
  · exact iff_of_true rfl (.inr ‹_›)
  · rw [(released_other l v.mass).2.2.2.2.1]
    exact (or_iff_left ‹_›).symm

end

end Sys2Proof.Machine

open Sys2Proof Sys2Proof.Machine

/-- Settles O12: the bound is above what the acts of one event can be. -/
theorem sequencerSettles : Obligations.SequencerSettles :=
  fun r a s _ bound => seqGo_eq_seqAct (Nat.le_trans (left_le_seqFuel r a s) bound)

/-- Settles O43: what the conditions speak of, the conditions, and the release read field by field. -/
theorem releaseRule : Obligations.ReleaseRule := by
  refine ⟨fun s x => ⟨onHoist_iff_exists, carrierWorking_iff, coverMoving_iff, rfl⟩, fun r s b => bandOf_eq_some,
    fun r tag s => canRelease_iff, fun r s => bandOf_eq_none, ?_⟩
  rintro r k tag rest s t v l head known lane rfl
  have ramp : (releaseHead r k tag s).ramp r = (s.ramp r).releases k tag v.mass :=
    (releaseHead_same known lane (g := fun u => u.ramp r) fun u => by cases r <;> rfl).trans (released_ramp l v.mass)
  obtain ⟨lanes, sections, standby, moment, -, link⟩ := released_other (s := s) (r := r) (k := k) (tag := tag) l v.mass
  rw [ramp, releases_queue, releaseHead_sweepDue known lane, head]
  refine ⟨rfl, rfl, rfl, rfl, rfl, fun u hu own => ?_, ?_, ?_, ?_, ?_, ?_, ?_⟩
  · rw [releaseHead_same known lane (g := State.vehicles) fun _ => rfl] at hu
    exact released_vehicle hu own
  · exact (releaseHead_same known lane fun _ => rfl).trans link
  · simp
  · exact (releaseHead_same known lane fun _ => rfl).trans lanes
  · exact (releaseHead_same known lane fun _ => rfl).trans sections
  · exact (releaseHead_same known lane fun _ => rfl).trans standby
  · exact (releaseHead_same known lane fun _ => rfl).trans moment

end

section
/-! Requests on one ramp, on BOTH and on an unknown ramp, taken at once (O16, O36 to O42): each is its part (R68). -/

namespace Sys2Proof.Machine

variable {r : Ramp} {s : State}

/-! ### A part taken at once -/

theorem rampByte (r : Ramp) : (BitVec.ofNat 8 (rampCode r)).toNat = rampCode r := by cases r <;> rfl

/-- A request on one ramp that is taken at once: what its part makes of the state, with its one result. -/
theorem requestArrives_ramp {part : Ramp → State → State × Result} {res : Result} (f : Frame) (g : State → State)
    (taking : Taking s) (e : part r (heard s) = (g (heard s), res)) :
    requestArrives f (onRamps (BitVec.ofNat 8 (rampCode r)).toNat part) s =
      taken f ⟨res, [BitVec.ofNat 8 res.code]⟩ g s :=
  requestArrives_eq f _ _ g s taking (by rw [rampByte, onRamps_one, e])

/-! ### RAMP_START (R74) -/

theorem startPart_noProfile (bare : s.profile.inForce = false) : startPart r s = (s, .noProfile) := by
  unfold startPart
  simp [bare]

section
variable (model : Modelled s)
include model

theorem startPart_running (seq : (s.ramp r).seq ≠ .stopped) : startPart r s = (s, .state) := by
  unfold startPart
  simp [model, seq]

theorem startPart_outbound (seq : (s.ramp r).seq = .stopped) (direction : (s.ramp r).direction = .outbound) :
    startPart r s = (s, .direction) := by
  unfold startPart
  simp [model, seq, direction]

theorem startPart_starts (seq : (s.ramp r).seq = .stopped) (direction : (s.ramp r).direction = .inbound) :
    startPart r s = (cycleStart r s, .ok) := by
  unfold startPart
  simp [model, seq, direction]

end

/-! ### RAMP_STOP (R84) -/

theorem stopPart_stops (seq : (s.ramp r).seq ≠ .stopped) : stopPart r s = (stopRamp r s, .ok) := by
  unfold stopPart
  cases e : (s.ramp r).seq with
  | stopped => exact absurd e seq
  | idle | lightRun | waitTrigger | heavyRun => rfl

theorem stopPart_stopped (seq : (s.ramp r).seq = .stopped) : stopPart r s = (s, .ok) := by
  unfold stopPart
  rw [seq]

/-- A stop as one update of the ramp, whatever state its sequencer was in. -/
theorem stopPart_leaves (r : Ramp) (s : State) : ∃ stall count,
    (stopPart r s).1 = s.updRamp r fun q => { q with seq := .stopped, stall := stall, runCount := count } := by
  by_cases seq : (s.ramp r).seq = .stopped
  · refine ⟨(s.ramp r).stall, (s.ramp r).runCount, ?_⟩
    rw [stopPart_stopped seq, ← seq]
    cases r <;> rfl
  · rw [stopPart_stops seq]
    exact ⟨_, _, rfl⟩

/-- A request that triggers no sweep ends with the outputs alone. -/
theorem taken_ramp {f : Frame} {reply : Reply} {g : State → State} (up : (g (heard s)).power = .up)
    (unmarked : (g (heard s)).ev = EventMarks.none) (r : Ramp) : (taken f reply g s).ramp r =
      { (g (heard s)).ramp r with go := ((g (heard s)).ramp r).goLit } := by
  have outputs : refresh (g (heard s)) = outputsOn (g (heard s)) := by
    unfold refresh
    rw [up]
  rw [taken_eq, sweepIfDue_unmarked unmarked, outputs, ← outputsOn_ramp]
  cases r <;> rfl

/-! ### RAMP_DIRECTION (R69) -/

theorem directionPart_noProfile (d : Direction) (bare : s.profile.inForce = false) :
    directionPart d r s = (s, .noProfile) := by
  unfold directionPart
  simp [bare]

section
variable {d : Direction} (model : Modelled s)
include model

theorem directionPart_same (seq : (s.ramp r).seq = .stopped) (same : (s.ramp r).direction = d) :
    directionPart d r s = (s, .ok) := by
  unfold directionPart
  simp [model, seq, same]

theorem directionPart_turns (seq : (s.ramp r).seq = .stopped) (other : (s.ramp r).direction ≠ d)
    (free : s.barsTurn r d = false) :
    directionPart d r s = (s.updRamp r fun q => { q with direction := d }, .ok) := by
  unfold directionPart
  simp [model, seq, other, free]

theorem directionPart_barred (bar : (s.ramp r).seq ≠ .stopped ∨ (s.ramp r).direction ≠ d ∧ s.barsTurn r d = true) :
    directionPart d r s = (s, .state) := by
  unfold directionPart
  by_cases seq : (s.ramp r).seq = .stopped
  · obtain ⟨other, bars⟩ := bar.resolve_left fun n => n seq
    simp [model, seq, other, bars]
  · simp [model, seq]

end

theorem ofCode_directionByte (d : Direction) : Direction.ofCode (BitVec.ofNat 8 d.code).toNat = some d := by
  cases d <;> rfl

theorem reqRampDirection_listed (ramp : Nat) (d : Direction) :
    reqRampDirection ramp (BitVec.ofNat 8 d.code).toNat = onRamps ramp (directionPart d) := by
  funext s
  unfold reqRampDirection
  rw [ofCode_directionByte]

theorem reqRampDirection_unlisted (ramp : Nat) {code : Nat} (unlisted : 1 < code) :
    reqRampDirection ramp code = onRamps ramp fun _ s => (s, .range) := by
  match code, unlisted with
  | _ + 2, _ => rfl

theorem exec_rampDirection {d : Direction} {res : Result} (lt : Byte) (g : State → State) (taking : Taking s)
    (e : directionPart d r (heard s) = (g (heard s), res)) :
    exec (.rampDirection lt (BitVec.ofNat 8 (rampCode r)) (BitVec.ofNat 8 d.code)) s = .next (taken
      ⟨0x22#8, lt, [BitVec.ofNat 8 (rampCode r), BitVec.ofNat 8 d.code]⟩ ⟨res, [BitVec.ofNat 8 res.code]⟩ g s) := by
  rw [← requestArrives_ramp _ g taking e, ← reqRampDirection_listed]
  rfl

/-- A vehicle RELEASED to a lane that the ramp serves bars a turn to OUTBOUND (R69). -/
theorem barsTurn_outbound_iff : s.barsTurn r .outbound = true ↔ ∃ v ∈ s.vehicles, ∃ l x,
    (v.stage = .onRamp l ∨ v.stage = .pastCrest l) ∧ s.lane? l = some x ∧ s.rampOf x = r := by
  have served (l : Nat) : l ∈ s.lanesOf r ↔ ∃ x, s.lane? l = some x ∧ s.rampOf x = r :=
    mem_lanesWhere.trans (exists_congr fun x => and_congr_right fun _ => beq_iff_eq)
  refine List.any_eq_true.trans (exists_congr fun v => and_congr_right fun _ => ?_)
  cases stage : v.stage with
  | onRamp l | pastCrest l => simp [Stage.released, Stage.lane?, served]
  | standby | assigned | placed => simp [Stage.released]

/-- A lane of the ramp in UNLOADING bars a turn to INBOUND (R69). -/
theorem barsTurn_inbound_iff : s.barsTurn r .inbound = true ↔ ∃ x ∈ s.lanes, s.rampOf x = r ∧ x.state = .unloading := by
  unfold State.barsTurn State.unloadingOn
  simp

/-! ### RUN_PAIR and TRIGGER_MODE (R76, R82) -/

theorem runPairOk_iff {light heavy : Nat} {stall : Option Byte} : runPairOk light heavy (stall.map BitVec.toNat) = true ↔
    1 ≤ light ∧ light ≤ 32 ∧ 1 ≤ heavy ∧ heavy ≤ 16 ∧ ∀ t, stall = some t → 10 ≤ t.toNat := by
  unfold runPairOk
  cases stall with
  | none => simp [and_assoc]
  | some t =>
    have top : t.toNat ≤ 255 := Nat.le_of_lt_succ t.isLt
    simp [and_assoc, top]

theorem runPairPart_sets {light heavy : Nat} {stall : Option Nat} (ok : runPairOk light heavy stall = true) :
    runPairPart light heavy stall r s =
      (s.updRamp r fun q => { q with waiting := ⟨light, heavy⟩, stallLimit := stall.getD q.stallLimit }, .ok) := by
  unfold runPairPart
  rw [if_pos ok]

theorem runPairPart_range {light heavy : Nat} {stall : Option Nat} (bad : ¬ runPairOk light heavy stall = true) :
    runPairPart light heavy stall r s = (s, .range) := by
  unfold runPairPart
  rw [if_neg bad]

theorem triggerRamp_eq (r : Ramp) (s : State) : triggerRamp r s =
    if (s.ramp r).seq = .waitTrigger then seqAct r (.begin .heavy) s else s := by
  unfold triggerRamp
  cases (s.ramp r).seq <;> rfl

/-- A change of MANUAL to AUTO in WAIT_TRIGGER acts as a trigger (R82). -/
theorem triggerModePart_listed {m src : Nat} {mode : TriggerMode} {source : TriggerSource}
    (hm : TriggerMode.ofCode m = some mode) (hs : TriggerSource.ofCode src = some source) :
    triggerModePart m src r s =
      (if (s.ramp r).mode = .manual ∧ mode = .auto ∧ (s.ramp r).seq = .waitTrigger
        then seqAct r (.begin .heavy) (s.updRamp r fun q => { q with mode := mode, source := source })
        else s.updRamp r fun q => { q with mode := mode, source := source }, .ok) := by
  unfold triggerModePart
  simp only [hm, hs, triggerRamp_eq, updRamp_same]
  cases (s.ramp r).mode <;> cases mode <;> simp

theorem triggerModePart_unlisted {m src : Nat} (unlisted : 1 < m ∨ 2 < src) :
    triggerModePart m src r s = (s, .range) := by
  have unread : TriggerMode.ofCode m = none ∨ TriggerSource.ofCode src = none := by
    rcases unlisted with h | h
    · match m, h with
      | _ + 2, _ => exact .inl rfl
    · match src, h with
      | _ + 3, _ => exact .inr rfl
  unfold triggerModePart
  rcases unread with h | h
  · rw [h]
  · rw [h]
    cases TriggerMode.ofCode m <;> rfl

/-! ### TRIGGER and the trigger lines (R81) -/

theorem triggerPart_line (source : (s.ramp r).source ≠ .requestOnly) : triggerPart r s = (s, .state) := by
  unfold triggerPart
  cases e : (s.ramp r).source with
  | requestOnly => exact absurd e source
  | line1 | line2 => rfl

section
variable (source : (s.ramp r).source = .requestOnly)
include source

theorem triggerPart_begins (seq : (s.ramp r).seq = .waitTrigger) :
    triggerPart r s = (seqAct r (.begin .heavy) s, .ok) := by
  unfold triggerPart
  simp only [source, seq, triggerRamp_eq, if_true]

theorem triggerPart_notReady (seq : (s.ramp r).seq ≠ .waitTrigger) : triggerPart r s = (s, .notReady) := by
  unfold triggerPart
  rw [source]
  cases e : (s.ramp r).seq with
  | waitTrigger => exact absurd e seq
  | stopped | idle | lightRun | heavyRun => rfl

end

/-- The source that names a line. -/
def lineSource : TriggerLine → TriggerSource
  | .line1 => .line1
  | .line2 => .line2

theorem names_iff {source : TriggerSource} {line : TriggerLine} : source.names line = true ↔ source = lineSource line := by
  cases source <;> cases line <;> decide

/-- A press, LOWER before UPPER. -/
theorem pressLine_eq {line : TriggerLine} {lowered : State}
    (lower : lowered = if s.lower.source = lineSource line ∧ s.lower.seq = .waitTrigger
      then seqAct .lower (.begin .heavy) s else s) :
    pressLine line s = if s.upper.source = lineSource line ∧ s.upper.seq = .waitTrigger
      then seqAct .upper (.begin .heavy) lowered else lowered := by
  have upper : lowered.upper = s.upper := by
    rw [lower]
    split
    · exact seqGo_other (q := .upper) (by decide) _ _ _
    · rfl
  have pressed : pressRamp line .lower s = lowered := by
    rw [pressRamp_eq, lower]
    simp only [names_iff, ramp_lower]
  unfold pressLine
  rw [pressed, pressRamp_eq]
  simp only [names_iff, ramp_upper, upper]

/-- What an event depends on: the state it leaves before its end. -/
theorem happened_congr {g h : State → State}
    (e : g { s with ev := EventMarks.none } = h { s with ev := EventMarks.none }) : happened g s = happened h s := by
  unfold happened
  rw [e]

/-- A press is a change from released to pressed. -/
theorem exec_triggerLinePress (line : TriggerLine) (up : s.power = .up) (free : s.pins.pressed line = false) :
    exec (.triggerLinePress line) s =
      .next (happened (pressLine line) { s with pins := s.pins.setPressed line true }) := by
  show Host.Outcome.next (if !s.pins.pressed line then runEvent _ _ else _) = _
  rw [free]
  exact congrArg _ (runEvent_up _ _ up)

/-! ### RAMP_BAND (R73) -/

theorem bandPart_noProfile (band : Nat) (bare : s.profile.inForce = false) : bandPart band r s = (s, .noProfile) := by
  unfold bandPart
  simp [bare]

theorem bandPart_range {band : Nat} (model : Modelled s) (beyond : 3 < band) : bandPart band r s = (s, .range) := by
  unfold bandPart
  simp [model, beyond]

theorem bandPart_sets {band : Nat} (model : Modelled s) (listed : band ≤ 3) :
    bandPart band r s = (setBand r band s, .ok) := by
  unfold bandPart
  simp [model, Nat.not_lt.2 listed]

theorem setBand_same {band : Nat} (same : (s.ramp r).band = band) : setBand r band s = s := by
  unfold setBand
  rw [if_pos same]

theorem setBand_changes {band : Nat} (other : (s.ramp r).band ≠ band) : setBand r band s =
    examineRamp r (s.updRamp r fun q =>
      { q with band := band, stall := if band < 3 then q.stall.resume else q.stall.suspend }) := by
  unfold setBand
  rw [if_neg other]

/-! ### BOTH and unknown ramp codes (R68) -/

/-- A request on both ramps that is taken at once: UPPER's part on what LOWER's left, and one result of each. -/
theorem requestArrives_both {part : Ramp → State → State × Result} (f : Frame) (taking : Taking s) :
    requestArrives f (onRamps 2 part) s = taken f
      ⟨if (part .lower (heard s)).2 = .ok then (part .upper (part .lower (heard s)).1).2 else (part .lower (heard s)).2,
        [BitVec.ofNat 8 (part .lower (heard s)).2.code,
          BitVec.ofNat 8 (part .upper (part .lower (heard s)).1).2.code]⟩
      (fun _ => (part .upper (part .lower (heard s)).1).1) s :=
  requestArrives_eq f _ _ _ s taking (onRamps_both part (heard s))

theorem requestArrives_noRamp {part : Ramp → State → State × Result} (f : Frame) (taking : Taking s) {code : Nat}
    (beyond : 2 < code) : requestArrives f (onRamps code part) s = taken f (plain .range) id s :=
  requestArrives_eq f _ _ id s taking (onRamps_range code part (heard s) beyond)

end Sys2Proof.Machine

open Sys2Proof Sys2Proof.Machine

/-- Settles O36: the request, then the acts one by one. -/
theorem rampStarts : Obligations.RampStarts := by
  refine ⟨fun lt r s taking => ⟨fun model seq direction => ?_, fun bare => ?_, fun model seq => ?_,
    fun model seq direction => ?_⟩, ?_, ?_, fun r s light heavy => examineRamp_resting ?_, ?_, ?_⟩
  · exact congrArg _ (requestArrives_ramp _ (cycleStart r) taking
      (startPart_starts (s := heard s) model (by simpa using seq) (by simpa using direction)))
  · exact congrArg _ (requestArrives_ramp _ id taking (startPart_noProfile (s := heard s) bare))
  · exact congrArg _ (requestArrives_ramp _ id taking (startPart_running (s := heard s) model (by simpa using seq)))
  · exact congrArg _ (requestArrives_ramp _ id taking
      (startPart_outbound (s := heard s) model (by simpa using seq) (by simpa using direction)))
  · rintro r s t p rfl rfl
    rw [← adoptPair_eq]
    exact ⟨cycleStart_empty, cycleStart_begins⟩
  · intro r k q s t run ht
    have inRun : q = .ofRun k := by rcases run with e | e <;> cases e <;> rfl
    have started : t = s.updRamp r fun q => { q with seq := .ofRun k, runCount := 0, stall := q.freshStall } := by
      rw [ht, inRun]
      rfl
    rw [seqAct_begin, ← started]
    exact ⟨fun empty => by rw [if_pos empty], fun waits => by rw [if_neg waits]; rfl⟩
  · cases seq : (s.ramp r).seq with
    | lightRun => exact absurd seq light
    | heavyRun => exact absurd seq heavy
    | stopped | idle | waitTrigger => rfl
  · intro r k n s named
    have inRun : (s.ramp r).seq.run? = some k ∧ n = (s.ramp r).runLength k := by
      rcases named with ⟨seq, rfl, rfl⟩ | ⟨seq, rfl, rfl⟩ <;> rw [seq] <;> exact ⟨rfl, rfl⟩
    obtain ⟨run, rfl⟩ := inRun
    refine ⟨examineRamp_empty run, fun tag rest head => ⟨examineRamp_held run head, fun free ends => ?_,
      fun free more waits => ?_⟩⟩
    · rw [examineRamp_releases run head free, if_pos ends]
    · rw [examineRamp_releases run head free, if_neg fun ends => ends.elim (by omega) waits]
      rfl
  · rintro r s t rfl
    exact ⟨seqAct_step (seqNext_endRun_heavy r s), fun alone => seqAct_step (seqNext_endRun_light_alone alone),
      fun waits mode => seqAct_step (seqNext_endRun_light_auto waits mode),
      fun waits mode => seqAct_last (seqNext_endRun_light_manual waits mode)⟩

/-- Settles O37: what the part leaves of the ramp, and the lamp from it. -/
theorem rampStops : Obligations.RampStops := by
  refine fun lt r s taking => ⟨fun seq => ?_, fun seq => ?_, fun t e => ?_⟩
  · exact congrArg _ (requestArrives_ramp _ (stopRamp r) taking (stopPart_stops (s := heard s) (by simpa using seq)))
  · exact congrArg _ (requestArrives_ramp _ id taking (stopPart_stopped (s := heard s) (by simpa using seq)))
  · obtain ⟨stall, count, left⟩ := stopPart_leaves r (heard s)
    have stops : exec (.rampStop lt (BitVec.ofNat 8 (rampCode r))) s = .next _ := congrArg Host.Outcome.next
      (requestArrives_ramp (res := (stopPart r (heard s)).2) _ (fun s => (stopPart r s).1) taking rfl)
    cases e.symm.trans stops
    rw [taken_ramp (by simpa [left] using taking.1) (by simp [left]) r, left, updRamp_same, heard_ramp]
    exact ⟨rfl, rfl, rfl, rfl, rfl, rfl, rfl, rfl, rfl, rfl, rfl⟩

/-- Settles O38: codes, what bars a turn, and the part's answers. -/
theorem rampTurns : Obligations.RampTurns := by
  refine ⟨fun lt d r s taking unlisted => ⟨?_, ?_⟩, fun lt r d s taking bare => ?_, ⟨rfl, rfl⟩,
    fun r s => ⟨barsTurn_outbound_iff, barsTurn_inbound_iff⟩, fun lt r d s taking model => ⟨fun seq other free => ?_,
    fun seq same => ?_, fun bar => ?_⟩⟩
  · show Host.Outcome.next (requestArrives _ (reqRampDirection _ _) s) = _
    rw [reqRampDirection_unlisted _ unlisted]
    exact congrArg _ (requestArrives_ramp _ id taking rfl)
  · show Host.Outcome.next (requestArrives _ (reqRampDirection _ _) s) = _
    rw [reqRampDirection_unlisted _ unlisted]
    exact congrArg _ (requestArrives_both _ taking)
  · exact exec_rampDirection lt id taking (directionPart_noProfile (s := heard s) d bare)
  · exact exec_rampDirection lt _ taking (directionPart_turns (s := heard s) model (by simpa using seq) (by simpa using other)
      (by simpa using free))
  · exact exec_rampDirection lt id taking (directionPart_same (s := heard s) model (by simpa using seq) (by simpa using same))
  · exact exec_rampDirection lt id taking (directionPart_barred (s := heard s) model (by simpa using bar))

/-- Settles O39: the ranges as one condition, and the two parts. -/
theorem rampSettings : Obligations.RampSettings := by
  refine ⟨fun lt l h st r s taking => ⟨fun l1 l32 h1 h16 stall => ?_, fun bad => ?_⟩,
    fun lt m src r s taking => ⟨fun mode source hm hs => ?_, fun unlisted => ?_⟩⟩
  · exact congrArg _ (requestArrives_ramp _ _ taking
      (runPairPart_sets (s := heard s) (runPairOk_iff.2 ⟨l1, l32, h1, h16, stall⟩)))
  · refine congrArg _ (requestArrives_ramp _ id taking (runPairPart_range (s := heard s) fun ok => ?_))
    obtain ⟨l1, l32, h1, h16, stall⟩ := runPairOk_iff.1 ok
    rcases bad with low | high | low | high | ⟨t, ht, short⟩
    case inr.inr.inr.inr => exact Nat.not_lt.2 (stall t ht) short
    all_goals omega
  · exact congrArg _ (requestArrives_ramp _ (fun s => if (s.ramp r).mode = .manual ∧ mode = .auto ∧
      (s.ramp r).seq = .waitTrigger then _ else _) taking (triggerModePart_listed (s := heard s) hm hs))
  · exact congrArg _ (requestArrives_ramp _ id taking (triggerModePart_unlisted (s := heard s) unlisted))

/-- Settles O40: the request, then a press on LOWER and on UPPER. -/
theorem triggerStartsHeavyRun : Obligations.TriggerStartsHeavyRun := by
  refine ⟨fun lt r s taking => ⟨fun source seq => ?_, fun source seq => ?_, fun source => ?_⟩,
    fun line s up free upper lower seq => ?_, fun line s up free => exec_triggerLinePress line up free, ?_,
    fun line s pressed => ?_, fun line s => rfl⟩
  · exact congrArg _ (requestArrives_ramp _ (seqAct r (.begin .heavy)) taking
      (triggerPart_begins (s := heard s) (by simpa using source) (by simpa using seq)))
  · exact congrArg _ (requestArrives_ramp _ id taking
      (triggerPart_notReady (s := heard s) (by simpa using source) (by simpa using seq)))
  · exact congrArg _ (requestArrives_ramp _ id taking (triggerPart_line (s := heard s) (by simpa using source)))
  · have names : s.lower.source = lineSource line ∧ s.upper.source ≠ lineSource line := by
      cases line <;> exact ⟨lower, upper⟩
    refine (exec_triggerLinePress line up free).trans (congrArg _ (happened_congr ?_))
    rw [pressLine_eq rfl, if_neg fun h => names.2 h.1, if_pos ⟨names.1, seq⟩]
  · intro line src s t named lowered
    have source : src = lineSource line := by rcases named with e | e <;> cases e <;> rfl
    rw [source] at lowered ⊢
    exact pressLine_eq lowered
  · show Host.Outcome.next (if !s.pins.pressed line then _ else _) = _
    rw [pressed]
    rfl

/-- Settles O41: the request, then the change of band. -/
theorem rampBandSets : Obligations.RampBandSets := by
  refine ⟨fun lt b r s taking bare => ?_, fun lt b r s taking model => ⟨fun listed => ?_, fun beyond => ?_⟩,
    fun r n s => ⟨setBand_same, fun other low => ?_, fun other high => ?_⟩⟩
  · exact congrArg _ (requestArrives_ramp _ id taking (bandPart_noProfile (s := heard s) _ bare))
  · exact congrArg _ (requestArrives_ramp _ _ taking (bandPart_sets (s := heard s) model listed))
  · exact congrArg _ (requestArrives_ramp _ id taking (bandPart_range (s := heard s) model beyond))
  · rw [setBand_changes other]
    simp only [if_pos low]
  · rw [setBand_changes other]
    simp only [if_neg (Nat.not_lt.2 high)]

/-- Settles O42: each of the seven requests is its part on the ramps named, and these have one rule. -/
theorem bothRamps : Obligations.BothRamps := by
  intro lt s taking i kind rest part request
  have named (r : Byte) : exec (i r) s = .next (requestArrives ⟨kind, lt, r :: rest⟩ (onRamps r.toNat part) s) := by
    rcases request with e | e | ⟨d, e⟩ | ⟨l, h, st, e⟩ | ⟨m, src, e⟩ | e | ⟨b, e⟩ <;> cases e
    case inr.inr.inl => rw [← reqRampDirection_listed]; rfl
    all_goals rfl
  refine ⟨?_, fun r => ?_, fun r beyond => ?_⟩
  · rintro a b rfl rfl
    exact (named _).trans (congrArg _ (requestArrives_both _ taking))
  · exact (named _).trans (congrArg _ (requestArrives_ramp _ (fun s => (part r s).1) taking rfl))
  · exact (named r).trans (congrArg _ (requestArrives_noRamp _ taking beyond))

/-- Settles O16: the limits that the rule lists, and any other. -/
theorem linkSilenceSets : Obligations.LinkSilenceSets := by
  refine fun lt n s taking => ⟨fun listed => ?_, fun unlisted => ?_⟩
  · refine congrArg _ (requestArrives_eq _ _ _ _ s taking ?_)
    unfold reqLinkSilence
    rw [if_pos (by simpa using listed)]
    rfl
  · refine congrArg _ (requestArrives_eq _ _ _ id s taking ?_)
    unfold reqLinkSilence
    rw [if_neg (by simpa using unlisted)]
    rfl

end

section
/-! O5 and O44: the values at power-on; the stall timer and the silence timer run out. -/

namespace Sys2Proof.Machine

variable {r : Ramp} {k : Kind} {s : State}

/-! ### The stall timer (R79) -/

theorem stallExpires_run {tag : Nat} {rest : List Nat} (run : (s.ramp r).seq.run? = some k)
    (head : (s.ramp r).queue k = tag :: rest) : stallExpires r s =
      seqAct r (.endRun k) (s.notify (.runStalled r k tag (s.ramp r).runCount)) := by
  unfold stallExpires
  simp only [run, head, List.head?_cons, Option.getD_some]

/-- The marks of an event bear on no ramp. -/
@[simp] theorem withEv_ramp (s : State) (e : EventMarks) (r : Ramp) : { s with ev := e }.ramp r = s.ramp r := by
  cases r <;> rfl

theorem exec_stallTimerExpiry {n : Nat} (up : s.power = .up) (runs : (s.ramp r).stall = .running n) :
    exec (.stallTimerExpiry r) s = .next (happened (stallExpires r) s) := by
  show Host.Outcome.next (if (s.ramp r).stall.isRunning then _ else _) = _
  rw [runs]
  exact congrArg _ (runEvent_up _ s up)

/-! ### The silence timer (R89, R90) -/

theorem exec_linkSilenceExpiry {n : Nat} (up : s.power = .up) (runs : s.link.silence = .running n) :
    exec .linkSilenceExpiry s = .next (happened silenceExpires s) := by
  show Host.Outcome.next (if s.link.silence.isRunning then _ else _) = _
  rw [runs]
  exact congrArg _ (runEvent_up _ s up)

/-- The silence timer stopped. -/
def State.hushed (s : State) : State := s.updLink fun k => { k with silence := .stopped }

/-- Both ramps stopped, LOWER before UPPER. -/
def bothStopped (s : State) : State := (stopPart .upper (stopPart .lower s).1).1

theorem stopPart_eq (r : Ramp) (s : State) :
    (stopPart r s).1 = if (s.ramp r).seq = .stopped then s else stopRamp r s := by
  by_cases seq : (s.ramp r).seq = .stopped
  · rw [stopPart_stopped seq, if_pos seq]
  · rw [stopPart_stops seq, if_neg seq]

theorem stopPart_lower_upper (s : State) : (stopPart .lower s).1.upper = s.upper := by
  rw [stopPart_eq]
  split <;> rfl

/-- The silence stop is the stop of each ramp, with one notice where one was not STOPPED (R90). -/
theorem silenceStops_eq (s : State) : silenceStops s = if s.lower.seq = .stopped ∧ s.upper.seq = .stopped then s
    else (bothStopped s).notify
      (.rampHalted (decide (s.lower.seq ≠ .stopped)) (decide (s.upper.seq ≠ .stopped))) := by
  have differs (q : SeqState) : (q != .stopped) = decide (q ≠ .stopped) := by cases q <;> rfl
  unfold silenceStops bothStopped
  rw [stopPart_eq .upper, ramp_upper, stopPart_lower_upper, stopPart_eq .lower, ramp_lower, differs, differs]
  by_cases lower : s.lower.seq = .stopped <;> by_cases upper : s.upper.seq = .stopped <;> simp [lower, upper]

theorem notify_silence (s : State) (n : Notice) : (s.notify n).link.silence = s.link.silence ∧
    (s.notify n).link.silenceLimit = s.link.silenceLimit := by
  rw [(notify_fields s n).2.2.1]
  split <;> exact ⟨rfl, rfl⟩

theorem kick_silence (s : State) : (kick s).link.silence = s.link.silence ∧
    (kick s).link.silenceLimit = s.link.silenceLimit := by
  have next (k : Link) : k.startNext.silence = k.silence ∧ k.startNext.silenceLimit = k.silenceLimit := by
    unfold Link.startNext
    dsimp only
    repeat' split
    all_goals exact ⟨rfl, rfl⟩
  unfold kick
  split
  · exact next s.link
  · exact ⟨rfl, rfl⟩

/-- What the silence stop leaves: records, marks, supply and silence timer, and of a ramp all but what a stop sets. -/
theorem silenceStops_leaves (s : State) : (silenceStops s).ev = s.ev ∧ (silenceStops s).power = s.power ∧
    (silenceStops s).vehicles = s.vehicles ∧ (silenceStops s).link.silence = s.link.silence ∧
    (silenceStops s).link.silenceLimit = s.link.silenceLimit ∧ ∀ r, ∃ stall count,
      (silenceStops s).ramp r = { s.ramp r with seq := .stopped, stall := stall, runCount := count } := by
  rw [silenceStops_eq]
  split
  · rename_i rest
    have stopped (r : Ramp) : (s.ramp r).seq = .stopped := by
      cases r
      · exact rest.1
      · exact rest.2
    exact ⟨rfl, rfl, rfl, rfl, rfl, fun r => ⟨(s.ramp r).stall, (s.ramp r).runCount, by rw [← stopped r]⟩⟩
  · obtain ⟨stall, count, lower⟩ := stopPart_leaves .lower s
    obtain ⟨stall', count', upper⟩ := stopPart_leaves .upper (stopPart .lower s).1
    unfold bothStopped
    rw [(notify_silence _ _).1, (notify_silence _ _).2, upper, lower]
    refine ⟨rfl, rfl, rfl, rfl, rfl, fun r => ?_⟩
    cases r
    · exact ⟨stall, count, rfl⟩
    · exact ⟨stall', count', rfl⟩

theorem bothStopped_eq {u w : State}
    (lower : u = if s.lower.seq = .stopped then s
      else { s with lower := { s.lower with seq := .stopped, stall := .stopped, runCount := 0 } })
    (upper : w = if s.upper.seq = .stopped then u
      else { u with upper := { u.upper with seq := .stopped, stall := .stopped, runCount := 0 } }) : bothStopped s = w := by
  have first : (stopPart .lower s).1 = u := (stopPart_eq .lower s).trans lower.symm
  have same : u.upper = s.upper := by rw [← first, stopPart_lower_upper]
  rw [upper, ← same]
  unfold bothStopped
  rw [first]
  exact stopPart_eq .upper u

/-- An event that triggers no sweep ends with the outputs, and with the next frame on an idle line. -/
theorem happened_at_rest {g : State → State} {u : State} (e : g { s with ev := EventMarks.none } = u)
    (up : u.power = .up) (unmarked : u.ev = EventMarks.none) : happened g s = kick (outputsOn u) := by
  unfold happened endEvent refresh
  rw [e, sweepIfDue_unmarked unmarked, up]

theorem kick_ramp (s : State) (r : Ramp) : (kick s).ramp r = s.ramp r := by
  rw [kick_eq]
  cases r <;> rfl

/-- The silence timer's expiry at the running module. -/
theorem happened_silenceExpires (up : s.power = .up) :
    (happened silenceExpires s).vehicles = s.vehicles ∧ (happened silenceExpires s).link.silence = .stopped ∧
    (happened silenceExpires s).link.silenceLimit = s.link.silenceLimit ∧ ∀ r, ∃ stall count,
      (happened silenceExpires s).ramp r =
        { s.ramp r with seq := .stopped, stall := stall, runCount := count, go := false } := by
  obtain ⟨ev, power, vehicles, silence, limit, ramps⟩ := silenceStops_leaves { s with ev := EventMarks.none }.hushed
  rw [happened_at_rest (u := silenceStops { s with ev := EventMarks.none }.hushed) rfl (power.trans up) ev]
  refine ⟨?_, (kick_silence _).1.trans silence, (kick_silence _).2.trans limit, fun r => ?_⟩
  · rw [kick_eq]
    exact vehicles
  · obtain ⟨stall, count, ramp⟩ := ramps r
    refine ⟨stall, count, ?_⟩
    rw [kick_ramp, outputsOn_ramp, ramp]
    cases r <;> rfl

end Sys2Proof.Machine

open Sys2Proof Sys2Proof.Machine

/-- Settles O44: the two expiries, and what the silence stop leaves. -/
theorem stallAndSilence : Obligations.StallAndSilence := by
  refine ⟨fun s n up runs => exec_linkSilenceExpiry up runs, ?_, fun r s k n tag rest up runs run head => ?_,
    fun s n up runs => ?_⟩
  · intro s t u w ht hu hw
    obtain rfl : t = s.hushed := ht
    have stops : silenceExpires s = _ := silenceStops_eq s.hushed
    rw [bothStopped_eq (s := s.hushed) hu hw] at stops
    exact ⟨fun lower upper => stops.trans (if_pos ⟨lower, upper⟩),
      fun running => stops.trans (if_neg fun rest => running.elim (fun n => n rest.1) fun n => n rest.2)⟩
  · refine (exec_stallTimerExpiry up runs).trans (congrArg _ (happened_congr ?_))
    rw [stallExpires_run (k := k) (by simpa using run) (by simpa using head)]
  · obtain ⟨vehicles, silence, limit, ramps⟩ := happened_silenceExpires up
    obtain ⟨_, _, lower⟩ := ramps .lower
    obtain ⟨_, _, upper⟩ := ramps .upper
    refine ⟨_, exec_linkSilenceExpiry up runs, congrArg RampState.seq lower, congrArg RampState.seq upper, silence, limit,
      congrArg RampState.go lower, congrArg RampState.go upper, vehicles, fun r => ?_⟩
    obtain ⟨_, _, ramp⟩ := ramps r
    rw [ramp]
    exact ⟨rfl, rfl, rfl, rfl, rfl⟩

/-- Settles O5: the link port and the store, then each ramp. -/
theorem resetValues : Obligations.ResetValues := by
  refine ⟨rfl, rfl, rfl, rfl, rfl, rfl, rfl, rfl, rfl, rfl, rfl, rfl, rfl, rfl, rfl, rfl, rfl, rfl, rfl, rfl, rfl, rfl, rfl,
    fun r => ?_⟩
  cases r <;> exact ⟨rfl, rfl, rfl, rfl, rfl, rfl, rfl, rfl, rfl, rfl, rfl, rfl, rfl, rfl, rfl⟩

end

section
/-! O49 and O50: how credits are gained, credit windows that run out, and the expiry of a transit timer. -/

namespace Sys2Proof.Machine

variable {s : State} {l : Nat} {x : Lane} {r : Ramp}

/-! ### A change of a lane or of a ramp goes by what stands there -/

theorem updLane_congr (hx : s.lane? l = some x) {f g : Lane → Lane} (same : f x = g x) : s.updLane l f = s.updLane l g := by
  have lanes : s.lanes.modify l f = s.lanes.modify l g := by
    refine List.ext_getElem? fun k => ?_
    show (s.updLane l f).lane? k = (s.updLane l g).lane? k
    by_cases own : l = k
    · subst own
      rw [updLane_same, updLane_same, hx, Option.map_some, Option.map_some, same]
    · rw [updLane_lane?, updLane_lane?, if_neg own, if_neg own]
  unfold State.updLane
  rw [lanes]

theorem updLane_unchanged (hx : s.lane? l = some x) {f : Lane → Lane} (same : f x = x) : s.updLane l f = s := by
  rw [updLane_congr hx (g := fun y => y) same]
  unfold State.updLane
  rw [modify_same]

theorem updRamp_congr {f g : RampState → RampState} (same : f (s.ramp r) = g (s.ramp r)) :
    s.updRamp r f = s.updRamp r g := by
  cases r with
  | lower => exact congrArg (fun q => { s with lower := q }) same
  | upper => exact congrArg (fun q => { s with upper := q }) same

theorem updRamp_unchanged {f : RampState → RampState} (same : f (s.ramp r) = s.ramp r) : s.updRamp r f = s :=
  (updRamp_congr (g := fun q => q) same).trans (by cases r <;> rfl)

/-- An event whose cause stands, at the running module. -/
theorem eventIf_cause {c : Bool} {f : State → State} (up : s.power = .up) (cause : c = true) :
    eventIf c f s = .next (happened f s) := by
  unfold eventIf
  rw [cause]
  exact congrArg _ (runEvent_up f s up)

/-! ### Gaining credits (R101, R103, R157) -/

section
variable (hx : s.lane? l = some x)
include hx

theorem gainEntry_below (below : x.entryCredits < 4) : gainEntry l s = s.updLane l fun x =>
    { x with entryCredits := x.entryCredits + 1, entryWindow := .running s.limits.sensor.window } := by
  unfold gainEntry
  simp only [hx]
  exact if_pos below

theorem gainEntry_full (full : 4 ≤ x.entryCredits) : gainEntry l s = scoreSilent l 1 s := by
  unfold gainEntry
  simp only [hx]
  exact if_neg (Nat.not_lt.2 full)

theorem gainExit_below (below : x.exitCredits < 4) : gainExit l s = s.updLane l fun x =>
    { x with exitCredits := x.exitCredits + 1, exitWindow := .running s.limits.sensor.window } :=
  updLane_congr hx (if_pos below)

theorem gainExit_full (full : 4 ≤ x.exitCredits) : gainExit l s = s :=
  updLane_unchanged hx (if_neg (Nat.not_lt.2 full))

end

theorem gainCrest_below (below : (s.ramp r).crestCredits < 4) : gainCrest r s = s.updRamp r fun q =>
    { q with crestCredits := q.crestCredits + 1, crestWindow := .running s.limits.sensor.window } :=
  updRamp_congr (if_pos below)

theorem gainCrest_full (full : 4 ≤ (s.ramp r).crestCredits) : gainCrest r s = s :=
  updRamp_unchanged (if_neg (Nat.not_lt.2 full))

/-! ### Windows that run out (R102, R157) -/

section
variable (hx : s.lane? l = some x)
include hx

theorem entryWindowExpires_of : entryWindowExpires l s =
    scoreSilent l x.entryCredits (s.updLane l Lane.dropEntryCredits) := by
  unfold entryWindowExpires
  rw [hx]

theorem exitWindowExpires_of : exitWindowExpires l s =
    scoreSilent l x.exitCredits (s.updLane l Lane.dropExitCredits) := by
  unfold exitWindowExpires
  rw [hx]

variable {n : Nat} (up : s.power = .up)
include up

theorem exec_entryCreditWindowExpiry (runs : x.entryWindow = .running n) :
    exec (.entryCreditWindowExpiry l) s = .next (happened (entryWindowExpires l) s) :=
  eventIf_cause up (by rw [hx, Option.any_some, runs]; rfl)

theorem exec_exitCreditWindowExpiry (runs : x.exitWindow = .running n) :
    exec (.exitCreditWindowExpiry l) s = .next (happened (exitWindowExpires l) s) :=
  eventIf_cause up (by rw [hx, Option.any_some, runs]; rfl)

end

theorem exec_crestCreditWindowExpiry {n : Nat} (up : s.power = .up) (runs : (s.ramp r).crestWindow = .running n) :
    exec (.crestCreditWindowExpiry r) s = .next (happened (crestWindowExpires r) s) :=
  eventIf_cause up (by rw [runs]; rfl)

/-! ### The transit timer (R107) -/

section
variable {tag : Nat} {v : Vehicle} (known : s.veh? tag = some v)
include known

theorem exec_transitExpiry {n : Nat} (up : s.power = .up) (runs : v.transit = .running n) :
    exec (.transitExpiry tag) s = .next (happened (transitExpires tag) s) :=
  eventIf_cause up (by rw [known, Option.any_some, runs]; rfl)

/-- OVERDUE is counted and told once. -/
theorem transitExpires_of (stage : v.stage = .onRamp l ∨ v.stage = .pastCrest l) : transitExpires tag s =
    let s1 := s.updVeh tag fun v => { v with transit := .expired, overdue := true }
    if v.overdue then s1
    else (s1.updLane l fun x => { x with overdue := x.overdue + 1 }).notify
      (.overdue tag l (s.rampOfNo l) v.stage.isPastCrest) := by
  have released : v.stage.released = true := by rcases stage with e | e <;> rw [e] <;> rfl
  have bound : v.stage.lane? = some l := by rcases stage with e | e <;> rw [e] <;> rfl
  unfold transitExpires
  simp only [known, released, bound]

end

end Sys2Proof.Machine

open Sys2Proof Sys2Proof.Machine

/-- Settles O49: the three windows, then the gains below 4 credits and at 4. -/
theorem creditWindowsRunOut : Obligations.CreditWindowsRunOut := by
  refine ⟨fun l n s x up hx runs => ?_, fun l n s x up hx runs => ?_,
    fun r n s up runs => exec_crestCreditWindowExpiry up runs,
    fun l s x hx => ⟨gainEntry_below hx, gainEntry_full hx, gainExit_below hx, gainExit_full hx⟩,
    fun r s => ⟨gainCrest_below, gainCrest_full⟩⟩
  · exact (exec_entryCreditWindowExpiry hx up runs).trans (congrArg _ (happened_congr (entryWindowExpires_of hx)))
  · exact (exec_exitCreditWindowExpiry hx up runs).trans (congrArg _ (happened_congr (exitWindowExpires_of hx)))

/-- Settles O50: the command is the expiry, and what the expiry does to a RELEASED vehicle. -/
theorem transitExpires : Obligations.TransitExpires :=
  fun _ _ _ _ _ up known runs stage =>
    (exec_transitExpiry known up runs).trans (congrArg _ (happened_congr (transitExpires_of known stage)))

end

section
/-! O30 and O31: what a placement binds, tells and examines, and CONFIRM. -/

namespace Sys2Proof.Machine

variable {s : State}

/-! ### The placement (R99, R100) -/

/-- A lane at whose stow tail a vehicle of its claim list has come to stand. -/
def Lane.stowed (x : Lane) (v : Vehicle) : Lane :=
  { x with
    claims := without v.tag x.claims, stow := x.stow ++ [v.tag]
    overdue := x.overdue - (if v.overdue then 1 else 0), placedMass := x.placedMass + v.mass }

/-- A record PLACED in a lane at an offset. -/
def Vehicle.placedAt (u : Vehicle) (l off : Nat) : Vehicle :=
  { u with stage := .placed l off, transit := .stopped, overdue := false }

section
variable {l : Nat} {x : Lane} (hx : s.lane? l = some x) (v : Vehicle)
include hx

theorem nextOffset_of : s.nextOffset l = s.lengthOf x.gap x.stow := by
  unfold State.nextOffset
  rw [hx]

theorem place_of (m : PlaceMeans) : place v l m s = examineRamp (s.rampOf x)
    ((placeBind v l s).notify (.placed v.tag l (s.lengthOf x.gap x.stow) m)) := by
  unfold place
  rw [rampOfNo_of hx, nextOffset_of hx]

theorem placeBind_of : placeBind v l s =
    ((s.updLane l fun x => x.stowed v).updSect x.sect fun c => { c with placed := c.placed + v.mass }).updVeh v.tag
      fun u => u.placedAt l (s.lengthOf x.gap x.stow) := by
  unfold placeBind
  rw [hx]
  rfl

theorem placeBind_lane? (k : Nat) :
    (placeBind v l s).lane? k = if k = l then some (x.stowed v) else s.lane? k := by
  rw [placeBind_of hx]
  refine (updLane_lane? s l k _).trans ?_
  by_cases own : k = l
  · rw [if_pos own.symm, if_pos own, own, hx]
    rfl
  · rw [if_neg fun e => own e.symm, if_neg own]

theorem placeBind_sect? (i : Nat) : (placeBind v l s).sect? i =
    if i = x.sect then (s.sect? i).map fun c => { c with placed := c.placed + v.mass } else s.sect? i := by
  rw [placeBind_of hx]
  exact (updSect_sect? _ x.sect i _).trans (ite_of_iff eq_comm _ rfl)

theorem placeBind_vehicles : (placeBind v l s).vehicles =
    s.vehicles.map fun u => if u.tag = v.tag then u.placedAt l (s.lengthOf x.gap x.stow) else u := by
  rw [placeBind_of hx]
  rfl

/-- The record of the vehicle placed. -/
theorem placeBind_record {u : Vehicle} (hu : u ∈ (placeBind v l s).vehicles) (own : u.tag = v.tag) :
    ∃ w, u = Vehicle.placedAt w l (s.lengthOf x.gap x.stow) := by
  rw [placeBind_vehicles hx] at hu
  obtain ⟨w, -, e⟩ := List.mem_map.1 hu
  by_cases same : w.tag = v.tag
  · exact ⟨w, by rw [← e, if_pos same]⟩
  · rw [if_neg same] at e
    exact absurd (e ▸ own) same

theorem placeBind_others {u : Vehicle} (hu : u ∈ s.vehicles) (other : u.tag ≠ v.tag) :
    u ∈ (placeBind v l s).vehicles := by
  rw [placeBind_vehicles hx]
  exact List.mem_map.2 ⟨u, hu, if_neg other⟩

theorem placeBind_rest : (placeBind v l s).listMoment = s.listMoment ∧ (placeBind v l s).standby = s.standby ∧
    (placeBind v l s).lower = s.lower ∧ (placeBind v l s).upper = s.upper := by
  rw [placeBind_of hx]
  exact ⟨rfl, rfl, rfl, rfl⟩

end

/-! ### The confirmation placement (R98) -/

/-- The list that the vehicle of a confirmation leaves, with the crest credit it gives. -/
theorem confirmPlace_of {l : Nat} {x : Lane} {v : Vehicle} {u : State} (hx : s.lane? l = some x)
    (placing : v.stage = .onRamp l ∧ u = place v l .confirm (gainCrest (s.rampOf x) (leaveRamp (s.rampOf x) v s)) ∨
      v.stage = .pastCrest l ∧ u = place v l .confirm (leaveCrest l v.tag s)) :
    confirmPlace v l s = if x.mode = .sensed then gainEntry l u else u := by
  unfold confirmPlace
  rcases placing with ⟨stage, rfl⟩ | ⟨stage, rfl⟩
  all_goals
    simp only [hx, stage]
    cases x.mode <;> rfl

/-! ### The request (R97) -/

theorem reqConfirm_noProfile (tag lane : Nat) (bare : s.profile.inForce = false) :
    reqConfirm tag lane s = (s, plain .noProfile) := by
  unfold reqConfirm
  simp [bare]

section
variable {tag lane : Nat} (model : Modelled s)
include model

theorem reqConfirm_noLane (beyond : s.lane? lane = none) : reqConfirm tag lane s = (s, plain .range) := by
  unfold reqConfirm
  simp [show s.profile.inForce = true from model, beyond]

variable {x : Lane} (hx : s.lane? lane = some x)
include hx

theorem reqConfirm_unknown (unknown : s.veh? tag = none) : reqConfirm tag lane s = (s, plain .notFound) := by
  unfold reqConfirm
  simp [show s.profile.inForce = true from model, hx, unknown]

variable {v : Vehicle} (known : s.veh? tag = some v)
include known

/-- A RELEASED vehicle, bound to lane `l`. -/
theorem reqConfirm_released {l : Nat} (stage : v.stage = .onRamp l ∨ v.stage = .pastCrest l) : reqConfirm tag lane s =
    if l ≠ lane then (s, ⟨.lane, u8 l⟩)
    else if s.firstClaimCall? x ≠ some v.call then (s, plain .sequence)
    else (confirmPlace v lane s, ⟨.ok, be 2 (s.lengthOf x.gap x.stow)⟩) := by
  unfold reqConfirm State.gateOpen
  rw [nextOffset_of hx]
  rcases stage with stage | stage <;> simp [show s.profile.inForce = true from model, hx, known, stage]

theorem reqConfirm_placed {o : Nat} (stage : v.stage = .placed lane o) :
    reqConfirm tag lane s = (s, ⟨.alreadyPlaced, be 2 o⟩) := by
  unfold reqConfirm
  simp [show s.profile.inForce = true from model, hx, known, stage]

theorem reqConfirm_notReleased (waits : v.stage.released = false) (away : ∀ o, v.stage ≠ .placed lane o) :
    reqConfirm tag lane s = (s, plain .notReleased) := by
  unfold reqConfirm
  simp only [show s.profile.inForce = true from model, hx, known]
  cases stage : v.stage with
  | standby => rfl
  | assigned l => rfl
  | onRamp l => rw [stage] at waits; cases waits
  | pastCrest l => rw [stage] at waits; cases waits
  | placed l o =>
    have other : l ≠ lane := fun e => away o (e ▸ stage)
    exact if_neg other

end

end Sys2Proof.Machine

open Sys2Proof Sys2Proof.Machine

/-- Settles O31: the whole placement, then what its binding changes and keeps. -/
theorem placementEffects : Obligations.PlacementEffects := by
  refine ⟨fun v l m s x hx => place_of hx v m, fun s gap tags => rfl, ?_⟩
  rintro s t v l x c hx hc rfl
  obtain ⟨moment, standby, lower, upper⟩ := placeBind_rest hx v
  refine ⟨(placeBind_lane? hx v l).trans (if_pos rfl), ?_, fun u hu own => ?_, fun u hu other => placeBind_others hx v hu other,
    fun k other => (placeBind_lane? hx v k).trans (if_neg other),
    fun i other => (placeBind_sect? hx v i).trans (if_neg other), moment, standby, lower, upper⟩
  · rw [placeBind_sect? hx, if_pos rfl, hc]
    rfl
  · obtain ⟨w, rfl⟩ := placeBind_record hx v hu own
    exact ⟨rfl, rfl, rfl⟩

/-- Settles O30: the request by the vehicle's stage, its first refusals, and the confirmation placement. -/
theorem confirmPlaces : Obligations.ConfirmPlaces := by
  refine ⟨fun lt tag lane s x v taking model hx known => ⟨fun l stage => ?_, fun o stage => ?_, fun waits away => ?_⟩,
    fun lt tag lane s taking => ⟨fun bare => ?_, fun model beyond => ?_, fun model near unknown => ?_⟩,
    fun s u v l x hx placing => confirmPlace_of hx placing⟩
  · have request := reqConfirm_released (s := heard s) model hx known stage
    refine ⟨fun own opens => ?_, fun own shut => ?_, fun other => ?_⟩
    · exact congrArg _ (requestArrives_eq _ _ _ (confirmPlace v lane.toNat) s taking
        (request.trans ((if_neg (not_not_intro own)).trans (if_neg (not_not_intro opens)))))
    · exact congrArg _ (requestArrives_eq _ _ _ id s taking
        (request.trans ((if_neg (not_not_intro own)).trans (if_pos shut))))
    · exact congrArg _ (requestArrives_eq _ _ _ id s taking (request.trans (if_pos other)))
  · exact congrArg _ (requestArrives_eq _ _ _ id s taking (reqConfirm_placed (s := heard s) model hx known stage))
  · exact congrArg _ (requestArrives_eq _ _ _ id s taking
      (reqConfirm_notReleased (s := heard s) model hx known waits away))
  · exact congrArg _ (requestArrives_eq _ _ _ id s taking (reqConfirm_noProfile (s := heard s) _ _ bare))
  · exact congrArg _ (requestArrives_eq _ _ _ id s taking (reqConfirm_noLane (s := heard s) model beyond))
  · obtain ⟨x, hx⟩ := Option.isSome_iff_exists.1 near
    exact congrArg _ (requestArrives_eq _ _ _ id s taking (reqConfirm_unknown (s := heard s) model hx unknown))

end

section
/-! O47: crest loop edges and crest events. -/

namespace Sys2Proof.Machine

variable {s : State} {r : Ramp}

/-! ### The crest loop's line (R111, R113) -/

theorem exec_crestLoopEdge (level : Bool) (up : s.power = .up) : exec (.crestLoopEdge r level) s =
    .next (happened (crestLine r level) { s with pins := s.pins.setCrest r level }) :=
  eventIf_cause (s := { s with pins := s.pins.setCrest r level }) up rfl

/-- A line ignored without a profile in force. -/
theorem crestLine_noProfile (level : Bool) (bare : s.profile.inForce = false) : crestLine r level s = s := by
  unfold crestLine
  rw [bare]
  rfl

theorem crestLine_occupy (model : Modelled s) (clear : (s.ramp r).crestOccupied = false) :
    crestLine r true s = crestEvent r (s.updRamp r fun q => { q with crestOccupied := true }) := by
  unfold crestLine
  rw [show s.profile.inForce = true from model, clear]
  rfl

theorem crestLine_clear (model : Modelled s) (occupied : (s.ramp r).crestOccupied = true) :
    crestLine r false s = s.updRamp r fun q => { q with crestOccupied := false } := by
  unfold crestLine
  rw [show s.profile.inForce = true from model, occupied]
  rfl

/-- The input lines and the marks of an event bear on no ramp. -/
theorem pinned_ramp (s : State) (p : Pins) (e : EventMarks) (r : Ramp) :
    { s with pins := p, ev := e }.ramp r = s.ramp r := by
  cases r <;> rfl

/-! ### Crest events (R93) -/

theorem crestEvent_outbound (direction : (s.ramp r).direction = .outbound) : crestEvent r s = s := by
  unfold crestEvent
  rw [direction]

section
variable (direction : (s.ramp r).direction = .inbound)
include direction

theorem crestEvent_credit (credit : 0 < (s.ramp r).crestCredits) : crestEvent r s = s.updRamp r fun q => { q with
    crestCredits := q.crestCredits - 1
    crestWindow := if q.crestCredits = 1 then .stopped else q.crestWindow } := by
  have last : (s.ramp r).crestCredits - 1 = 0 ↔ (s.ramp r).crestCredits = 1 := by omega
  unfold crestEvent
  rw [direction]
  refine (if_pos credit).trans (updRamp_congr ?_)
  unfold RampState.useCrestCredit
  rw [ite_of_iff last Timer.stopped rfl]

variable (noCredit : (s.ramp r).crestCredits = 0)
include noCredit

theorem crestEvent_unexpected (empty : (s.ramp r).onRamp = []) : crestEvent r s = s.notify (.crestUnexpected r) := by
  unfold crestEvent
  rw [direction, noCredit, empty]
  rfl

/-- The head of the on-ramp list passes the crest, and the ramp is examined. -/
theorem crestEvent_passes {tag l : Nat} {rest : List Nat} {v : Vehicle} (head : (s.ramp r).onRamp = tag :: rest)
    (known : s.veh? tag = some v) (bound : v.stage.lane? = some l) : crestEvent r s =
    examineRamp r (((leaveRamp r v s).setStage tag (.pastCrest l)).updLane l fun x =>
      { x with pastCrest := x.pastCrest ++ [tag] }) := by
  unfold crestEvent
  simp only [direction, noCredit, head, List.head?_cons, known, bound, Nat.lt_irrefl, if_false]

end

end Sys2Proof.Machine

open Sys2Proof Sys2Proof.Machine

/-- Settles O47: the line's levels, then the crest event case by case. -/
theorem crestEvents : Obligations.CrestEvents := by
  refine ⟨fun r s up model => ⟨fun clear => ?_, fun occupied => ?_⟩,
    fun r s => ⟨crestEvent_outbound, crestEvent_credit, crestEvent_unexpected,
      fun tag rest v l direction noCredit head known bound => crestEvent_passes direction noCredit head known bound⟩,
    fun r level s up bare => ?_⟩
  · exact (exec_crestLoopEdge true up).trans (congrArg _ (happened_congr (crestLine_occupy model
      ((congrArg RampState.crestOccupied (pinned_ramp s _ _ r)).trans clear))))
  · exact (exec_crestLoopEdge false up).trans (congrArg _ (happened_congr (crestLine_clear model
      ((congrArg RampState.crestOccupied (pinned_ramp s _ _ r)).trans occupied))))
  · exact (exec_crestLoopEdge level up).trans (congrArg _ (happened_congr (crestLine_noProfile level bare)))

end

section
/-! O48: lane loop readings and edges, entry events, and the watch of a lane. -/

namespace Sys2Proof.Machine

variable {s : State} {l : Nat} {x : Lane}

/-! ### What an edge is judged by (R95, R111, R112, R126) -/

theorem reads_iff {c : Sect} {d : Deck} (hc : s.sect? x.sect = some c) (hd : s.deck? c.deck = some d) (high : Bool) :
    s.reads x high = true ↔ high = d.occupiedHigh := by
  unfold State.reads
  rw [deckOf_sect hc hd]
  exact beq_iff_eq

theorem counts_iff (st : LaneState) (o : Bool) :
    st.counts o = true ↔ (st ≠ .unloading ∧ o = true) ∨ (st = .unloading ∧ o = false) := by
  cases st <;> simp [LaneState.counts]

theorem lane?_iff {st : Stage} : st.lane? = some l ↔
    st = .assigned l ∨ st = .onRamp l ∨ st = .pastCrest l ∨ ∃ o, st = .placed l o := by
  cases st <;> simp [Stage.lane?]

theorem firstOnRampFor_some_iff {r : Ramp} {v : Vehicle} : s.firstOnRampFor r l = some v ↔
    ∃ a b, s.records (s.ramp r).onRamp = a ++ v :: b ∧ v.stage.lane? = some l ∧ ∀ w ∈ a, w.stage.lane? ≠ some l := by
  unfold State.firstOnRampFor
  rw [find?_split]
  simp only [beq_iff_eq, beq_eq_false_iff_ne]

theorem firstOnRampFor_none_iff {r : Ramp} : s.firstOnRampFor r l = none ↔
    ∀ w ∈ s.records (s.ramp r).onRamp, w.stage.lane? ≠ some l := by
  unfold State.firstOnRampFor
  rw [List.find?_eq_none]
  simp only [beq_iff_eq, ne_eq]

theorem carrier?_iff {i p : Nat} {y : Panel} : s.carrier? i = some (p, y) ↔ s.panel? p = some y ∧ y.carried = i ∧
    ∀ q z, q < p → s.panel? q = some z → z.carried ≠ i := by
  unfold State.carrier?
  rw [find?_numbered s.panel? (fun y => y.carried == i)]
  simp only [beq_iff_eq, beq_eq_false_iff_ne]
  exact ⟨fun h => h.2, fun h => ⟨(List.getElem?_eq_some_iff.1 h.1).1, h⟩⟩

theorem borrowed_of {p : Nat} {y : Panel} (carried : s.carrier? x.sect = some (p, y)) :
    s.borrowed x = y.state.moving := by
  unfold State.borrowed
  rw [carried]

theorem borrowed_iff : s.borrowed x = true ↔ ∃ p y, s.carrier? x.sect = some (p, y) ∧
    (y.state = .raising ∨ y.state = .lowering) := by
  constructor
  · intro lent
    cases carried : s.carrier? x.sect with
    | none =>
      unfold State.borrowed at lent
      rw [carried] at lent
      cases lent
    | some q => exact ⟨q.1, q.2, rfl, moving_iff.1 ((borrowed_of carried).symm.trans lent)⟩
  · rintro ⟨p, y, carried, moves⟩
    exact (borrowed_of carried).trans (moving_iff.2 moves)

/-! ### The loop's line (R111; log 6) -/

theorem exec_laneLoopEdge (high : Bool) (up : s.power = .up) : exec (.laneLoopEdge l high) s =
    .next (happened (laneLine l high) { s with pins := s.pins.setLoop l high }) :=
  eventIf_cause (s := { s with pins := s.pins.setLoop l high }) up rfl

theorem laneLine_none (high : Bool) (beyond : s.lane? l = none) : laneLine l high s = s := by
  unfold laneLine
  rw [beyond]

/-! ### Watch and latch (R116) -/

theorem watchEdge_unwatched (o : Bool) (unwatched : x.watch = false) : watchEdge l x o s = s := by
  unfold watchEdge
  rw [unwatched]
  rfl

theorem watchEdge_watched {c : Sect} {d : Deck} (watched : x.watch = true) (hc : s.sect? x.sect = some c)
    (hd : s.deck? c.deck = some d) (o : Bool) : watchEdge l x o s =
    if d.noticeOn then (s.updDeck c.deck fun d => { d with latch := true }).notify (.sensorEvent l o x.state x.mode)
    else s.updDeck c.deck fun d => { d with latch := true } := by
  unfold watchEdge
  rw [if_pos watched, deckNo_sect hc, deckOf_sect hc hd]

/-! ### Where an edge goes (R112, R114, R126) -/

/-- Lane `l` reads as the edge says. -/
def setOccupied (l : Nat) (o : Bool) (s : State) : State := s.updLane l fun x => { x with occupied := o }

/-- An edge that is not counted in SENSED is watched alone. -/
theorem countedEdge_confirm (o : Bool) (mode : x.mode = .confirm) : countedEdge l x o s = watchEdge l x o s := by
  unfold countedEdge
  rw [mode]

/-- In SENSED it is an exit event or an entry event, and its verdict is scored. -/
theorem countedEdge_sensed {o : Bool} {e : State × Bool} (mode : x.mode = .sensed)
    (he : e = if x.state = .unloading then exitEvent l (watchEdge l x o s) else entryEvent l (watchEdge l x o s)) :
    countedEdge l x o s = if e.2 then scoreMatched l e.1 else scorePhantom l e.1 := by
  unfold countedEdge
  rw [mode, he]
  cases x.state <;> rfl

section
variable (hx : s.lane? l = some x)
include hx

theorem laneLine_same {high : Bool} (same : s.reads x high = x.occupied) : laneLine l high s = s := by
  unfold laneLine
  simp only [hx]
  exact if_pos same

theorem laneLine_edge {high : Bool} (edge : s.reads x high ≠ x.occupied) :
    laneLine l high s = laneEdge l (s.reads x high) s := by
  unfold laneLine
  simp only [hx]
  exact if_neg edge

/-- On a moving panel OCCUPY is an obstruction, CLEAR a reading. -/
theorem laneEdge_moving {p : Nat} {y : Panel} (o : Bool) (carried : s.carrier? x.sect = some (p, y))
    (moves : y.state.moving = true) :
    laneEdge l o s = if o then obstruct p l (setOccupied l o s) else setOccupied l o s := by
  unfold laneEdge
  simp only [hx, borrowed_of carried, carried, moves]
  rfl

theorem laneEdge_free (o : Bool) (free : s.borrowed x = false) :
    laneEdge l o s = if x.state.counts o then countedEdge l x o (setOccupied l o s) else setOccupied l o s := by
  unfold laneEdge
  simp only [hx, free]
  cases s.carrier? x.sect <;> rfl

/-! ### Entry events (R95) -/

theorem entryEvent_credit (credit : 0 < x.entryCredits) : entryEvent l s = (s.updLane l Lane.useEntryCredit, true) := by
  unfold entryEvent
  simp only [hx]
  exact if_pos credit

variable (noCredit : x.entryCredits = 0)
include noCredit

theorem entryEvent_pastCrest {tag : Nat} {rest : List Nat} {v : Vehicle} (head : x.pastCrest = tag :: rest)
    (known : s.veh? tag = some v) : entryEvent l s = (place v l .entry (leaveCrest l v.tag s), true) := by
  unfold entryEvent
  simp [hx, noCredit, head, known]

variable (empty : x.pastCrest = [])
include empty

theorem entryEvent_onRamp {v : Vehicle} (first : s.firstOnRampFor (s.rampOf x) l = some v) :
    entryEvent l s = (place v l .entry (gainCrest (s.rampOf x) (leaveRamp (s.rampOf x) v s)), true) := by
  unfold entryEvent
  simp [hx, noCredit, empty, first]

theorem entryEvent_unmatched (none : s.firstOnRampFor (s.rampOf x) l = none) : entryEvent l s = (s, false) := by
  unfold entryEvent
  simp [hx, noCredit, empty, none]

end

end Sys2Proof.Machine

open Sys2Proof Sys2Proof.Machine

/-- Settles O48: what edges are judged by, the line, the watch, the edge by the lane's condition, and entry events. -/
theorem laneEdges : Obligations.LaneEdges := by
  refine ⟨fun s x high c d hc hd => reads_iff hc hd high, counts_iff,
    fun s r l => ⟨fun v => firstOnRampFor_some_iff, firstOnRampFor_none_iff⟩, fun st l => lane?_iff,
    fun s => ⟨fun i p y => carrier?_iff, fun x => borrowed_iff⟩, fun l high s up still => ?_,
    fun l x o s => ⟨watchEdge_unwatched o, fun c d watched hc hd => ⟨fun on => ?_, fun off => ?_⟩⟩,
    fun l high s x up hx edge => ?_,
    fun l o s x hx => ⟨fun p y carried moves => laneEdge_moving hx o carried moves, fun free uncounted => ?_,
      fun free counted mode => ?_, fun e free counted mode he => ?_⟩,
    fun l s x hx => ⟨entryEvent_credit hx,
      fun tag rest v noCredit head known => entryEvent_pastCrest hx noCredit head known,
      fun v noCredit empty first => entryEvent_onRamp hx noCredit empty first, entryEvent_unmatched hx⟩⟩
  · refine (exec_laneLoopEdge high up).trans (congrArg _ (happened_congr ?_))
    rcases still with beyond | ⟨x, hx, same⟩
    · exact laneLine_none high beyond
    · exact laneLine_same (s := { s with pins := s.pins.setLoop l high, ev := EventMarks.none }) hx same
  · exact (watchEdge_watched watched hc hd o).trans (if_pos on)
  · exact (watchEdge_watched watched hc hd o).trans (if_neg (by rw [off]; exact Bool.false_ne_true))
  · exact (exec_laneLoopEdge high up).trans (congrArg _ (happened_congr
      (laneLine_edge (s := { s with pins := s.pins.setLoop l high, ev := EventMarks.none }) hx edge)))
  · exact (laneEdge_free hx o free).trans (if_neg (by rw [uncounted]; exact Bool.false_ne_true))
  · exact (laneEdge_free hx o free).trans ((if_pos counted).trans (countedEdge_confirm o mode))
  · exact (laneEdge_free hx o free).trans ((if_pos counted).trans (countedEdge_sensed mode he))

end

section
/-! O46: scores, SUSPECT loops, placement modes and section modes, SENSOR_LEVEL and SENSOR_CLEAR. -/

namespace Sys2Proof.Machine

variable {s : State} {l i : Nat} {x : Lane}

/-! ### Placement modes (R104, R122, R125) -/

theorem placementMode_eq (suspect : Bool) (m : SensorMode) :
    placementMode suspect m = if suspect = true ∨ m ≠ .sensed then .confirm else .sensed := by
  cases suspect <;> cases m <;> rfl

theorem remodeLane_of {c : Sect} (hx : s.lane? l = some x) (hc : s.sect? x.sect = some c) : remodeLane l s =
    s.updLane l fun x => x.takeMode (if x.suspect = true ∨ c.mode ≠ .sensed then .confirm else .sensed) := by
  unfold remodeLane
  simp only [hx, hc, placementMode_eq]

theorem takeMode_same (x : Lane) : x.takeMode x.mode = x := by
  unfold Lane.takeMode
  cases x.mode <;> rfl

theorem takeMode_sensed (mode : x.mode = .confirm) : x.takeMode .sensed = { x with mode := .sensed } := by
  unfold Lane.takeMode
  rw [mode]

/-- Entering CONFIRM discards the entry credits and, in an UNLOADING lane, the exit credits. -/
theorem takeMode_confirm (mode : x.mode = .sensed) : x.takeMode .confirm = { x with
    mode := .confirm, entryCredits := 0, entryWindow := .stopped
    exitCredits := if x.state = .unloading then 0 else x.exitCredits
    exitWindow := if x.state = .unloading then .stopped else x.exitWindow } := by
  unfold Lane.takeMode
  rw [mode]
  by_cases unloading : x.state = .unloading
  · simp only [if_pos unloading]
    rfl
  · simp only [if_neg unloading]
    rfl

/-! ### Which loops a level judges, and against which threshold (R119) -/

theorem suspicionAt_of {d : Deck} {t : Nat} (hd : s.deckOf x = some d)
    (ht : s.limits.sensor.thresholds[d.level]? = some t) : s.suspicionAt x = t := by
  unfold State.suspicionAt
  simp only [hd, ht, Option.getD_some]

theorem lanesWhere_rising (s : State) (p : Lane → Bool) : (s.lanesWhere p).Pairwise (· < ·) :=
  List.pairwise_lt_range.filter _

theorem mem_judgedLoops {d : Nat} : l ∈ s.judgedLoops d ↔
    ∃ x, s.lane? l = some x ∧ s.deckNo x = some d ∧ s.borrowed x = false := by
  unfold State.judgedLoops
  simp only [mem_lanesWhere, Bool.and_eq_true, beq_iff_eq, Bool.not_eq_true']

/-! ### SUSPECT loops (R120) -/

theorem toSuspect_iff : s.toSuspect x = true ↔ x.suspect = false ∧ s.suspicionAt x ≤ x.score := by
  unfold State.toSuspect
  rw [Bool.and_eq_true, Bool.not_eq_true', decide_eq_true_iff]

section
variable (hx : s.lane? l = some x)
include hx

theorem makeSuspect_of : makeSuspect l s =
    ((s.updLane l fun x => { x with suspect := true }).notify (.sensorSuspect l x.score (s.suspicionAt x))).updLane l
      fun x => x.takeMode .confirm := by
  unfold makeSuspect
  rw [hx]

theorem judgeLoop_stays (stays : x.suspect = true ∨ x.score < s.suspicionAt x) : judgeLoop l s = s := by
  have no : ¬ s.toSuspect x = true := fun h => by
    obtain ⟨healthy, reached⟩ := toSuspect_iff.1 h
    rcases stays with suspect | below
    · exact Bool.false_ne_true (healthy.symm.trans suspect)
    · exact Nat.not_lt.2 reached below
  unfold judgeLoop
  rw [hx]
  exact if_neg no

theorem judgeLoop_suspects (healthy : x.suspect = false) (reached : s.suspicionAt x ≤ x.score) :
    judgeLoop l s = remodeSect x.sect (makeSuspect l s) := by
  unfold judgeLoop
  rw [hx]
  exact if_pos (toSuspect_iff.2 ⟨healthy, reached⟩)

/-! ### Changes of a score (R118) -/

theorem changeScore_confirm (f : Nat → Nat) (mode : x.mode = .confirm) : changeScore l f s = s := by
  unfold changeScore
  simp only [hx, mode]

theorem changeScore_sensed (f : Nat → Nat) (mode : x.mode = .sensed) : changeScore l f s =
    if f x.score = x.score then s else judgeLoop l (s.updLane l fun x => { x with score := f x.score }) := by
  unfold changeScore
  simp only [hx, mode]

/-- A change that brings the score to `m`. -/
theorem changeScore_to {f : Nat → Nat} {m : Nat} (hm : m = f x.score) :
    (x.mode = .confirm → changeScore l f s = s) ∧ (x.mode = .sensed → m = x.score → changeScore l f s = s) ∧
    (x.mode = .sensed → m ≠ x.score → changeScore l f s = judgeLoop l (s.updLane l fun x => { x with score := m })) := by
  subst hm
  refine ⟨changeScore_confirm hx f, fun mode same => ?_, fun mode other => ?_⟩
  · rw [changeScore_sensed hx f mode, if_pos same]
  · rw [changeScore_sensed hx f mode, if_neg other, updLane_congr hx]
    rfl

end

/-! ### Section modes (R123) -/

theorem mem_suspects : l ∈ s.suspects i ↔
    ∃ x, s.lane? l = some x ∧ x.sect = i ∧ x.suspect = true ∧ x.clearing = false := by
  unfold State.suspects Lane.counted
  simp only [mem_lanesWhere, Bool.and_eq_true, beq_iff_eq, Bool.not_eq_true']

theorem somePairAdjacent_iff {ls : List Nat} : s.somePairAdjacent ls = true ↔ ∃ a ∈ ls, ∃ b ∈ ls, ∃ x y,
    s.lane? a = some x ∧ s.lane? b = some y ∧ s.adjacent x y = true := by
  unfold State.somePairAdjacent
  simp only [List.any_eq_true]
  refine exists_congr fun a => and_congr_right fun _ => exists_congr fun b => and_congr_right fun _ => ?_
  cases s.lane? a <;> cases s.lane? b <;> simp

theorem sensorModeOf_eq (i : Nat) (s : State) : s.sensorModeOf i = if 3 ≤ (s.suspects i).length then .sensorClosed
    else if s.somePairAdjacent (s.suspects i) then .confirmOnly else .sensed := rfl

theorem sensorModeOf_closed_iff : s.sensorModeOf i = .sensorClosed ↔ 3 ≤ (s.suspects i).length := by
  rw [sensorModeOf_eq]
  by_cases three : 3 ≤ (s.suspects i).length
  · simp [three]
  · cases pair : s.somePairAdjacent (s.suspects i) <;> simp [three]

theorem sensorModeOf_confirmOnly_iff : s.sensorModeOf i = .confirmOnly ↔
    (s.suspects i).length < 3 ∧ ∃ a ∈ s.suspects i, ∃ b ∈ s.suspects i, ∃ x y,
      s.lane? a = some x ∧ s.lane? b = some y ∧ s.adjacent x y = true := by
  rw [← somePairAdjacent_iff, sensorModeOf_eq, ← Nat.not_le]
  by_cases three : 3 ≤ (s.suspects i).length
  · simp [three]
  · cases pair : s.somePairAdjacent (s.suspects i) <;> simp [three]

section
variable {c : Sect} (hc : s.sect? i = some c)
include hc

theorem remodeSect_same (same : s.sensorModeOf i = c.mode) : remodeSect i s = s := by
  unfold remodeSect
  rw [hc]
  exact if_pos same.symm

theorem remodeSect_changes {s1 : State} (other : s.sensorModeOf i ≠ c.mode)
    (hs : s1 = (s.updSect i fun c => { c with mode := s.sensorModeOf i }).notify
      (.sectionMode i (s.sensorModeOf i) (s.suspects i).length)) :
    remodeSect i s = (s1.lanesWhere fun x => x.sect == i).foldl (fun s l => remodeLane l s) s1 := by
  unfold remodeSect
  rw [hc, hs]
  exact if_neg fun e => other e.symm

/-- A change that leaves the books leaves each section in its place. -/
theorem sect?_of_books {t : State} (books : t.books = s.books) : ∃ d, t.sect? i = some d := by
  have read := books_sect? t i
  rw [books, books_sect?, hc] at read
  cases there : t.sect? i with
  | none => rw [there] at read; cases read
  | some d => exact ⟨d, rfl⟩

end

theorem judgeLoops_eq (ls is : List Nat) (s : State) : judgeLoops ls is s =
    is.foldl (fun s i => remodeSect i s) (ls.foldl (fun s l =>
      if (s.lane? l).any (fun x => !x.suspect && decide (s.suspicionAt x ≤ x.score)) then makeSuspect l s else s) s) := by
  unfold judgeLoops remodeSects
  congr 2
  funext s l
  cases s.lane? l <;> rfl

/-! ### Clearing a SUSPECT loop (R121; log 21) -/

/-- What a clear leaves before the sweep is judged: the loop, its lane's mode and the section's. -/
def cleared (l i : Nat) (s : State) : State :=
  remodeSect i (remodeLane l (s.updLane l fun x => x.clear (s.borrowed x)))

theorem cleared_books (l i : Nat) (s : State) : (cleared l i s).books = s.books := by
  unfold cleared
  rw [remodeSect_books, remodeLane_books]
  exact updLane_books l fun x => clear_books x _

/-- A sweep where the section's mode is lowered. -/
theorem clearSuspect_of {c d : Sect} (hc : s.sect? i = some c) (hd : (cleared l i s).sect? i = some d) :
    clearSuspect l i s = if d.mode.code < c.mode.code then (cleared l i s).sweepTrigger else cleared l i s := by
  unfold clearSuspect
  simp only [hc, Option.elim_some]
  rw [show (remodeSect i (remodeLane l (s.updLane l fun x => x.clear (s.borrowed x)))).sect? i = some d from hd]
  rfl

theorem clearSuspect_lane? (l i k : Nat) (s : State) : (clearSuspect l i s).lane? k = (cleared l i s).lane? k := by
  unfold clearSuspect
  dsimp only
  split <;> rfl

/-- A borrowed loop stays SUSPECT, and its lane in CONFIRM, until its return. -/
theorem clearSuspect_borrowed (hx : s.lane? l = some x) (lent : s.borrowed x = true) (suspect : x.suspect = true)
    (mode : x.mode = .confirm) (i : Nat) :
    (clearSuspect l i s).lane? l = some { x with score := 0, clearing := true } := by
  rw [clearSuspect_lane?]
  have clear : x.clear (s.borrowed x) = { x with score := 0, clearing := true } := if_pos lent
  refine remodeSect_confirm (remodeLane_confirm ?_ ?_ ?_ l) ?_ ?_ i
  · rw [updLane_same, hx, Option.map_some, clear]
  all_goals assumption

/-! ### The requests (R119, R121) -/

theorem reqSensorLevel_noProfile (deck level : Nat) (bare : s.profile.inForce = false) :
    reqSensorLevel deck level s = (s, plain .noProfile) := by
  unfold reqSensorLevel
  simp [bare]

theorem reqSensorClear_noProfile (lane : Nat) (bare : s.profile.inForce = false) :
    reqSensorClear lane s = (s, plain .noProfile) := by
  unfold reqSensorClear
  simp [bare]

section
variable (model : Modelled s)
include model

theorem reqSensorLevel_range {deck level : Nat} (bad : s.deck? deck = none ∨ 3 < level) :
    reqSensorLevel deck level s = (s, plain .range) := by
  unfold reqSensorLevel
  cases hd : s.deck? deck with
  | none => simp [show s.profile.inForce = true from model]
  | some d =>
    have high : 3 < level := bad.resolve_left (by simp [hd])
    simp [show s.profile.inForce = true from model, high]

theorem reqSensorLevel_sets {deck level : Nat} {d : Deck} (hd : s.deck? deck = some d) (listed : level ≤ 3) :
    reqSensorLevel deck level s =
    (let s1 := s.updDeck deck fun k => { k with level := level }
     judgeLoops (s1.judgedLoops deck) (s1.sectsOf deck) s1, plain .ok) := by
  unfold reqSensorLevel
  simp [show s.profile.inForce = true from model, hd, Nat.not_lt.2 listed]

theorem reqSensorClear_range (beyond : s.lane? l = none) : reqSensorClear l s = (s, plain .range) := by
  unfold reqSensorClear
  simp [show s.profile.inForce = true from model, beyond]

theorem reqSensorClear_clears (hx : s.lane? l = some x) : reqSensorClear l s =
    (if x.suspect = true then clearSuspect l x.sect s else s.updLane l fun x => { x with score := 0 },
      ⟨.ok, u8 x.score ++ flag x.suspect⟩) := by
  unfold reqSensorClear
  simp [show s.profile.inForce = true from model, hx]

end

end Sys2Proof.Machine

open Sys2Proof Sys2Proof.Machine

/-- Settles O46: the clear, the modes, the loops judged, the scores, then the two requests. -/
theorem levelAndClear : Obligations.LevelAndClear := by
  refine ⟨fun lt n m s taking bare => ⟨?_, ?_⟩, ?_, fun l i s x hx lent suspect mode => ?_,
    fun l s x c hx hc => remodeLane_of hx hc, fun x => ⟨takeMode_same x, takeMode_sensed, takeMode_confirm⟩,
    ⟨rfl, fun s x d t hd ht => suspicionAt_of hd ht, fun s x => rfl⟩,
    fun s d => ⟨lanesWhere_rising s _, sectsOf_rising s d, fun l => mem_judgedLoops, fun i => mem_sectsOf⟩,
    fun l n m s x g hx change => ?_, fun l t s x d hx hd ht => ?_,
    fun i s c hc => ⟨remodeSect_same hc, fun s1 => remodeSect_changes hc⟩,
    fun i s => ⟨sensorModeOf_closed_iff, sensorModeOf_confirmOnly_iff, fun l => mem_suspects⟩, judgeLoops_eq,
    fun lt n m s taking model => ⟨fun d hd listed => ?_, fun bad => ?_, fun x hx => ?_, fun beyond => ?_⟩⟩
  · exact congrArg _ (requestArrives_eq _ _ _ id s taking (reqSensorLevel_noProfile (s := heard s) _ _ bare))
  · exact congrArg _ (requestArrives_eq _ _ _ id s taking (reqSensorClear_noProfile (s := heard s) _ bare))
  · rintro l i s s1 x c hx hc rfl
    obtain ⟨d, hd⟩ := sect?_of_books hc (cleared_books l i s)
    exact ⟨d, hd, fun lowered => (clearSuspect_of hc hd).trans (if_pos lowered),
      fun kept => (clearSuspect_of hc hd).trans (if_neg (Nat.not_lt.2 kept))⟩
  · have lane := clearSuspect_borrowed hx lent suspect mode i
    refine ⟨lane, fun counted => ?_⟩
    obtain ⟨y, hy, -, -, waits⟩ := mem_suspects.1 counted
    rw [lane] at hy
    cases hy
    cases waits
  · rcases change with ⟨rfl, hm⟩ | ⟨rfl, hm⟩ | ⟨rfl, hm⟩
    all_goals exact changeScore_to hx hm
  · have threshold := suspicionAt_of hd ht
    refine ⟨fun stays => judgeLoop_stays hx (by rwa [threshold]),
      fun healthy reached => judgeLoop_suspects hx healthy (by rwa [threshold]), ?_⟩
    rw [makeSuspect_of hx, threshold]
  · exact congrArg _ (requestArrives_eq _ _ _ (fun s =>
      let s1 := s.updDeck n.toNat fun k => { k with level := m.toNat }
      judgeLoops (s1.judgedLoops n.toNat) (s1.sectsOf n.toNat) s1) s taking
      (reqSensorLevel_sets (s := heard s) model hd listed))
  · exact congrArg _ (requestArrives_eq _ _ _ id s taking (reqSensorLevel_range (s := heard s) model bad))
  · exact congrArg _ (requestArrives_eq _ _ _ (fun s => if x.suspect = true then clearSuspect n.toNat x.sect s
      else s.updLane n.toNat fun x => { x with score := 0 }) s taking (reqSensorClear_clears (s := heard s) model hx))
  · exact congrArg _ (requestArrives_eq _ _ _ id s taking (reqSensorClear_range (s := heard s) model beyond))

end

section
/-! O45: SENSOR_WATCH and SENSOR_LATCHES. -/

namespace Sys2Proof.Machine

variable {s : State}

/-! ### What the two requests read (R115, R117) -/

theorem onOff_unlisted {c : Nat} (unlisted : 1 < c) : onOff c = none := by
  match c, unlisted with
  | _ + 2, _ => rfl

theorem onOff_bit (w : Bool) : onOff (if w then 1#8 else 0#8).toNat = some w := by
  cases w <;> rfl

/-- The word of the numbers that pass, as a sum over all of them. -/
theorem bitsOfSet_filter (p : Nat → Bool) (xs : List Nat) :
    bitsOfSet (xs.filter p) = (xs.map fun d => if p d then 2 ^ d else 0).sum := by
  induction xs with
  | nil => rfl
  | cons d xs ih =>
    unfold bitsOfSet at ih ⊢
    cases passes : p d <;> simp [passes, ih]

theorem latchSet_eq (s : State) : s.latchSet =
    ((List.range s.decks.length).map fun d => if (s.deck? d).any Deck.latch then 2 ^ d else 0).sum := by
  unfold State.latchSet
  rw [bitsOfSet_filter]
  refine congrArg List.sum (List.map_congr_left fun d _ => ?_)
  cases s.deck? d <;> rfl

theorem scopeLanes_lane_only {i : Nat} {e : List Nat × Nat} (named : s.scopeLanes 0 i = some e) :
    e.1 = [i] ∧ (s.lane? i).isSome = true := by
  obtain ⟨x, hx, -, lanes⟩ := scopeLanes_lane.1 named
  exact ⟨lanes, Option.isSome_iff_exists.2 ⟨x, hx⟩⟩

theorem scopeLanes_deck_lanes {i : Nat} {e : List Nat × Nat} (named : s.scopeLanes 1 i = some e) :
    e.2 = i ∧ ∀ l, l ∈ e.1 ↔ ∃ y, s.lane? l = some y ∧ s.deckNo y = some i := by
  obtain ⟨-, deck, lanes⟩ := scopeLanes_deck.1 named
  refine ⟨deck, fun l => ?_⟩
  rw [lanes]
  exact mem_lanesWhere.trans (exists_congr fun y => and_congr_right fun _ => beq_iff_eq)

/-! ### The requests -/

/-- The watch flags of the lanes named, then the deck's notice enable unless UNCHANGED (R115). -/
def setWatch (ls : List Nat) (d : Nat) (on : Bool) (n : Byte) (s : State) : State :=
  let s1 := ls.foldl (fun s l => s.updLane l fun x => { x with watch := on }) s
  if n = 2#8 then s1 else s1.updDeck d fun k => { k with noticeOn := decide (n = 1#8) }

theorem reqSensorWatch_noProfile (sc i w n : Nat) (bare : s.profile.inForce = false) :
    reqSensorWatch sc i w n s = (s, plain .noProfile) := by
  unfold reqSensorWatch
  simp [bare]

theorem reqSensorLatches_noProfile (ds : Nat) (bare : s.profile.inForce = false) :
    reqSensorLatches ds s = (s, plain .noProfile) := by
  unfold reqSensorLatches
  simp [bare]

section
variable (model : Modelled s)
include model

/-- One code that is not listed, or a lane or deck beyond the counts, refuses the request. -/
theorem reqSensorWatch_range {sc i w n : Nat}
    (bad : s.scopeLanes sc i = none ∨ onOff w = none ∨ onOffUnchanged n = none) :
    reqSensorWatch sc i w n s = (s, plain .range) := by
  unfold reqSensorWatch
  rcases bad with scope | watch | notice
  · simp [show s.profile.inForce = true from model, scope]
  · simp [show s.profile.inForce = true from model, watch]
  · simp [show s.profile.inForce = true from model, notice]

theorem reqSensorWatch_sets {sc i w d : Nat} {n : Byte} {ls : List Nat} {on : Bool}
    (named : s.scopeLanes sc i = some (ls, d)) (watch : onOff w = some on) (listed : n.toNat ≤ 2) :
    reqSensorWatch sc i w n.toNat s = (setWatch ls d on n s, plain .ok) := by
  have two : n.toNat = 2 ↔ n = 2#8 := BitVec.toNat_inj (y := 2#8)
  have one : n.toNat = 1 ↔ n = 1#8 := BitVec.toNat_inj (y := 1#8)
  have notice := (onOffUnchanged_eq n.toNat).trans (if_neg (Nat.not_lt.2 listed))
  simp only [two, one] at notice
  unfold reqSensorWatch setWatch
  by_cases unchanged : n = 2#8
  · rw [if_pos unchanged] at notice
    simp [show s.profile.inForce = true from model, named, watch, notice, if_pos unchanged, updLanes]
  · rw [if_neg unchanged] at notice
    simp [show s.profile.inForce = true from model, named, watch, notice, if_neg unchanged, updLanes]

theorem reqSensorLatches_range {ds : Nat} (beyond : 2 ^ s.decks.length ≤ ds) :
    reqSensorLatches ds s = (s, plain .range) := by
  unfold reqSensorLatches
  simp [show s.profile.inForce = true from model, beyond]

theorem reqSensorLatches_clears {ds : Nat} (within : ds < 2 ^ s.decks.length) : reqSensorLatches ds s =
    ((setOfBits s.decks.length ds).foldl (fun s d => s.updDeck d fun k => { k with latch := false }) s,
      ⟨.ok, u8 s.latchSet⟩) := by
  unfold reqSensorLatches
  simp [show s.profile.inForce = true from model, Nat.not_le.2 within]

end

end Sys2Proof.Machine

open Sys2Proof Sys2Proof.Machine

/-- Settles O45: the refusals, what is read, then each request by its lemma. -/
theorem watchAndLatches : Obligations.WatchAndLatches := by
  refine ⟨fun lt sc i w n ds s taking => ⟨fun bare => ⟨?_, ?_⟩, fun model bad => ?_⟩, latchSet_eq, fun n w => rfl,
    fun lt s taking model => ⟨fun sc i w n ls d named listed => ?_, fun i e => scopeLanes_lane_only,
      fun i e => scopeLanes_deck_lanes, fun ds within => ?_, fun ds beyond => ?_⟩⟩
  · exact congrArg _ (requestArrives_eq _ _ _ id s taking (reqSensorWatch_noProfile (s := heard s) _ _ _ _ bare))
  · exact congrArg _ (requestArrives_eq _ _ _ id s taking (reqSensorLatches_noProfile (s := heard s) _ bare))
  · have unread : s.scopeLanes sc.toNat i.toNat = none ∨ onOff w.toNat = none ∨ onOffUnchanged n.toNat = none := by
      rcases bad with scope | watch | notice | ⟨rfl, absent⟩ | ⟨rfl, absent⟩
      · exact .inl (scopeLanes_beyond (.inl scope))
      · exact .inr (.inl (onOff_unlisted watch))
      · exact .inr (.inr ((onOffUnchanged_eq _).trans (if_pos notice)))
      · exact .inl (scopeLanes_beyond (.inr (.inl ⟨rfl, absent⟩)))
      · exact .inl (scopeLanes_beyond (.inr (.inr ⟨rfl, absent⟩)))
    exact congrArg _ (requestArrives_eq _ _ _ id s taking (reqSensorWatch_range (s := heard s) model unread))
  · exact congrArg _ (requestArrives_eq _ _ _ (setWatch ls d w n) s taking
      (reqSensorWatch_sets (s := heard s) model named (onOff_bit w) listed))
  · exact congrArg _ (requestArrives_eq _ _ _ (fun s => (setOfBits s.decks.length ds.toNat).foldl
      (fun s d => s.updDeck d fun k => { k with latch := false }) s) s taking
      (reqSensorLatches_clears (s := heard s) model within))
  · exact congrArg _ (requestArrives_eq _ _ _ id s taking (reqSensorLatches_range (s := heard s) model beyond))

end

section
/-! What leaves the panels as they are: sequencers, loops and their modes, claims, the sweep, the link. -/

namespace Sys2Proof.Machine

variable {s : State}

/-- A pass over a list, each part of which leaves the panels. -/
theorem foldl_panels {α : Type} {f : State → α → State} (hf : ∀ t a, (f t a).panels = t.panels) :
    ∀ (xs : List α) (s : State), (xs.foldl f s).panels = s.panels
  | [], _ => rfl
  | a :: as, s => by rw [List.foldl_cons, foldl_panels hf as, hf]

/-! ### Sequencers -/

theorem adoptPair_panels (r : Ramp) : (adoptPair r s).panels = s.panels := by
  rw [adoptPair_eq]
  split <;> simp

theorem releaseHead_panels (r : Ramp) (k : Kind) (tag : Nat) : (releaseHead r k tag s).panels = s.panels := by
  unfold releaseHead
  split
  · rfl
  · split
    · rfl
    · dsimp only
      split <;> simp

theorem seqNext_panels (r : Ramp) (a : SeqAct) : (seqNext r a s).1.panels = s.panels := by
  cases a with
  | cycleStart =>
    rw [seqNext_cycleStart]
    split <;> simp [adoptPair_panels]
  | begin k => simp [seqNext_begin]
  | examine =>
    cases run : (s.ramp r).seq.run? with
    | none => rw [seqNext_examine_resting run]
    | some k =>
      cases head : (s.ramp r).queue k with
      | nil => rw [seqNext_examine_empty run head]
      | cons tag rest =>
        cases free : canRelease r tag s with
        | false => rw [seqNext_examine_held run head free]
        | true =>
          rw [seqNext_examine_release run head free]
          exact releaseHead_panels r k tag
  | endRun k =>
    have ended : (s.runEnded r).panels = s.panels := by simp [State.runEnded]
    cases k with
    | heavy => exact ended
    | light =>
      cases heavy : (s.ramp r).heavy with
      | nil =>
        rw [seqNext_endRun_light_alone heavy]
        exact ended
      | cons tag rest =>
        have waits : (s.ramp r).heavy ≠ [] := by simp [heavy]
        cases mode : (s.ramp r).mode with
        | auto =>
          rw [seqNext_endRun_light_auto waits mode]
          exact ended
        | manual =>
          rw [seqNext_endRun_light_manual waits mode]
          simp [ended]

theorem seqGo_panels (r : Ramp) : ∀ (n : Nat) (a : SeqAct) (s : State), (seqGo n r a s).panels = s.panels
  | 0, _, _ => rfl
  | n + 1, a, s => by
    have act := seqNext_panels (s := s) r a
    unfold seqGo
    cases next : seqNext r a s with
    | mk t b =>
      rw [next] at act
      cases b with
      | none => exact act
      | some b => exact (seqGo_panels r n b t).trans act

theorem seqAct_panels (r : Ramp) (a : SeqAct) : (seqAct r a s).panels = s.panels := seqGo_panels r _ a s

theorem examineRamp_panels (r : Ramp) : (examineRamp r s).panels = s.panels := seqAct_panels r .examine

theorem tellNeighbours_panels (arrival : Bool) : (tellNeighbours arrival s).panels = s.panels := by
  have both : (examineBoth s).panels = s.panels := (examineRamp_panels .upper).trans (examineRamp_panels .lower)
  cases arrival <;> exact both

theorem claimReaches_panels (r : Ramp) : (claimReaches r s).panels = s.panels := by
  by_cases idle : (s.ramp r).seq = .idle
  · rw [claimReaches_idle idle]
    exact seqAct_panels r .cycleStart
  · rw [claimReaches_other idle]
    exact examineRamp_panels r

/-! ### Loops and modes -/

theorem remodeLane_panels (l : Nat) : (remodeLane l s).panels = s.panels := by
  unfold remodeLane
  split
  · rfl
  · split <;> rfl

theorem remodeSect_panels (i : Nat) : (remodeSect i s).panels = s.panels := by
  unfold remodeSect
  split
  · rfl
  · dsimp only
    split
    · rfl
    · exact foldl_panels (fun _ l => remodeLane_panels l) _ _

theorem makeSuspect_panels (l : Nat) : (makeSuspect l s).panels = s.panels := by
  unfold makeSuspect
  split <;> rfl

theorem judgeLoops_panels (ls is : List Nat) : (judgeLoops ls is s).panels = s.panels := by
  rw [judgeLoops_eq, foldl_panels fun _ i => remodeSect_panels i]
  refine foldl_panels (fun t l => ?_) ls s
  split
  · exact makeSuspect_panels l
  · rfl

theorem updLanes_panels (ls : List Nat) (f : Lane → Lane) : (updLanes ls f s).panels = s.panels :=
  foldl_panels (f := fun s l => s.updLane l f) (fun _ _ => rfl) ls s

theorem endBorrow_panels (p : Nat) : (endBorrow p s).panels = s.panels := by
  unfold endBorrow
  dsimp only
  rw [foldl_panels fun _ l => remodeLane_panels l, judgeLoops_panels]
  exact updLanes_panels _ Lane.handBack

theorem endBorrowIf_panels (was : PanelPos) (p : Nat) : (endBorrowIf was p s).panels = s.panels := by
  unfold endBorrowIf
  split
  · exact endBorrow_panels p
  · rfl

/-! ### Claims and the sweep -/

theorem judgeSect_panels (i : Nat) : (judgeSect i s).panels = s.panels := by
  unfold judgeSect
  split
  · rfl
  · dsimp only
    split <;> rfl

theorem judgeList_panels : (judgeList s).panels = s.panels := by
  unfold judgeList
  split
  · dsimp only
    split <;> rfl
  all_goals rfl

theorem clearListOver_panels : (clearListOver s).panels = s.panels := by
  unfold clearListOver
  split <;> rfl

theorem judgeClaim_panels (l : Nat) : (judgeClaim l s).panels = s.panels := by
  unfold judgeClaim
  split
  · rfl
  · rw [clearListOver_panels, judgeList_panels, judgeSect_panels]

theorem addShare_panels (v : Vehicle) (l : Nat) : (addShare v l s).panels = s.panels := by
  unfold addShare
  split <;> rfl

theorem bindClaim_panels (v : Vehicle) (l : Nat) : (bindClaim v l s).panels = s.panels := by
  unfold bindClaim
  simp [addShare_panels]

theorem claimLane_panels (v : Vehicle) (l : Nat) (announce : Bool) : (claimLane v l announce s).panels = s.panels := by
  unfold claimLane
  rw [claimReaches_panels, judgeClaim_panels]
  cases announce <;> exact bindClaim_panels v l

theorem sweepOne_panels (tag : Nat) : (sweepOne s tag).panels = s.panels := by
  unfold sweepOne
  split
  · rfl
  · split
    · rfl
    · exact claimLane_panels _ _ true

theorem sweepIfDue_panels : (sweepIfDue s).panels = s.panels := by
  have swept : (sweep s).panels = s.panels := foldl_panels (fun _ tag => sweepOne_panels tag) _ s
  unfold sweepIfDue
  dsimp only
  split
  · split
    · exact swept
    all_goals rfl
  · rfl

/-! ### A panel after an event -/

theorem panel?_of_panels {t : State} (same : t.panels = s.panels) (p : Nat) : t.panel? p = s.panel? p := by
  unfold State.panel?
  rw [same]

/-- Its drives follow its state; the sweep and the link leave it (R130). -/
theorem happened_panel? {g : State → State} (up : (g { s with ev := EventMarks.none }).power = .up) (p : Nat) :
    (happened g s).panel? p = ((g { s with ev := EventMarks.none }).panel? p).map Panel.driven := by
  have power : (sweepIfDue (g { s with ev := EventMarks.none })).power = .up :=
    (sweepIfDue_within (.refl _)).power.trans up
  rw [happened_eq]
  unfold refresh
  rw [power]
  show ((sweepIfDue (g { s with ev := EventMarks.none })).panels.map Panel.driven)[p]? = _
  rw [sweepIfDue_panels, List.getElem?_map]
  rfl

end Sys2Proof.Machine

end

section
/-! O52: the position check, arrivals, lost positions and faults, limit line events and the move timer. -/

namespace Sys2Proof.Machine

variable {s : State} {p : Nat}

/-! ### The position of the lines, and what it gives (R131) -/

section
variable {up down : Bool} (hu : s.upActive p = up) (hd : s.downActive p = down)
include hu hd

theorem linePos_of : s.linePos p = if up then (if down then .both else .stowed) else if down then .working else .neither := by
  unfold State.linePos
  rw [hu, hd]
  cases up <;> cases down <;> rfl

end

theorem positionCheck_stowed (line : s.linePos p = .stowed) :
    (s.firstLoadedOn p = none → positionCheck s p = (.stowed, LastFault.none)) ∧
    ∀ l, s.firstLoadedOn p = some l → positionCheck s p = (.fault, ⟨.loaded, some l, none⟩) := by
  unfold positionCheck
  rw [line]
  exact ⟨fun empty => by simp only [empty], fun l loaded => by simp only [loaded]⟩

theorem positionCheck_working_line (line : s.linePos p = .working) :
    (s.firstTallUnder p = none → positionCheck s p = (.working, LastFault.none)) ∧
    ∀ t l, s.firstTallUnder p = some (t, l) → positionCheck s p = (.fault, ⟨.clearance, some l, some t⟩) := by
  unfold positionCheck
  rw [line]
  exact ⟨fun low => by simp only [low], fun t l tall => by simp only [tall]⟩

theorem positionCheck_neither (line : s.linePos p = .neither) : positionCheck s p = (.unknown, LastFault.none) := by
  unfold positionCheck
  rw [line]

theorem positionCheck_both (line : s.linePos p = .both) : positionCheck s p = (.fault, LastFault.double) := by
  unfold positionCheck
  rw [line]
  rfl

/-! ### Changes of a panel's state (R133, R134, R137, R139) -/

theorem updPanel_same (s : State) (p : Nat) (f : Panel → Panel) : (s.updPanel p f).panel? p = (s.panel? p).map f := by
  rw [updPanel_panel?, if_pos rfl]

theorem updPanel_twice (s : State) (p : Nat) (f g : Panel → Panel) :
    (s.updPanel p f).updPanel p g = s.updPanel p fun x => g (f x) := by
  unfold State.updPanel
  simp only [modify_twice]

/-- A lost position, which no loop is borrowed before. -/
theorem losePosition_eq (p : Nat) (was : PanelPos) (s : State) : losePosition p was s =
    examineRamp .upper (examineRamp .lower
      ((s.updPanel p fun x => { x with state := .unknown, timer := .stopped }).notify (.hoistPositionLost p was))) := rfl

section
variable {x : Panel} (hx : s.panel? p = some x)
include hx

theorem arrive_of (st : PanelPos) (m : DoneMeans) : arrive p st m s = (examineRamp .upper (examineRamp .lower
    (endBorrowIf x.state p
      ((s.updPanel p fun x => { x with state := st, timer := .stopped }).notify (.hoistDone p st m))))).sweepTrigger := by
  unfold arrive
  rw [hx]
  rfl

theorem enterFault_of (f : LastFault) : enterFault p f s = examineRamp .upper (examineRamp .lower
    (endBorrowIf x.state p
      ((s.updPanel p fun x => { x with state := .fault, timer := .stopped, fault := f }).notify
        (.hoistFault p f.reason f.lane f.tag)))) := by
  have change : (setPanel p .fault s).updPanel p (fun x => { x with fault := f }) =
      s.updPanel p fun x => { x with state := .fault, timer := .stopped, fault := f } := updPanel_twice s p _ _
  unfold enterFault
  rw [hx]
  simp only [change]
  rfl

theorem arrive_panel? (st : PanelPos) (m : DoneMeans) :
    (arrive p st m s).panel? p = some { x with state := st, timer := .stopped } := by
  unfold arrive
  rw [hx]
  rw [panel?_of_panels ((tellNeighbours_panels true).trans (endBorrowIf_panels x.state p))]
  exact (updPanel_same s p _).trans (by rw [hx]; rfl)

theorem enterFault_panel? (f : LastFault) :
    (enterFault p f s).panel? p = some { x with state := .fault, timer := .stopped, fault := f } := by
  rw [enterFault_of hx]
  rw [panel?_of_panels ((examineRamp_panels .upper).trans ((examineRamp_panels .lower).trans (endBorrowIf_panels x.state p)))]
  exact (updPanel_same s p _).trans (by rw [hx]; rfl)

/-- The end of a borrowing: the loops are handed back and judged, then the modes are recomputed (R121, R127). -/
theorem endBorrow_of : endBorrow p s = (s.lanesOn p).foldl (fun s l => remodeLane l s)
    (judgeLoops (s.lanesOn p) [x.carried] ((s.lanesOn p).foldl (fun s l => s.updLane l Lane.handBack) s)) := by
  unfold endBorrow
  rw [hx]

/-! ### A limit line that changes, by the panel's state (R132) -/

theorem limitEvent_stowed (st : x.state = .stowed) :
    limitEvent p .up false s = (if s.downActive p then s else losePosition p .stowed s) ∧
    limitEvent p .down true s = enterFault p LastFault.double s ∧ limitEvent p .down false s = s := by
  unfold limitEvent
  simp only [hx, st, and_self]

theorem limitEvent_working (st : x.state = .working) :
    limitEvent p .down false s = (if s.upActive p then s else losePosition p .working s) ∧
    limitEvent p .up true s = enterFault p LastFault.double s ∧ limitEvent p .up false s = s := by
  unfold limitEvent
  simp only [hx, st, and_self]

theorem limitEvent_raising (st : x.state = .raising) :
    limitEvent p .up true s =
      (if s.downActive p then enterFault p LastFault.double s else arrive p .stowed .limit s) ∧
    limitEvent p .down true s = (if s.upActive p then enterFault p LastFault.double s else s) := by
  unfold limitEvent
  simp only [hx, st, and_self]

theorem limitEvent_lowering (st : x.state = .lowering) :
    limitEvent p .down true s =
      (if s.upActive p then enterFault p LastFault.double s else arrive p .working .limit s) ∧
    limitEvent p .up true s = (if s.downActive p then enterFault p LastFault.double s else s) := by
  unfold limitEvent
  simp only [hx, st, and_self]

/-- A line that goes inactive says nothing to a panel that moves or is UNKNOWN. -/
theorem limitEvent_inactive (st : x.state.moving = true ∨ x.state = .unknown) (line : LimitLine) :
    limitEvent p line false s = s := by
  have state : x.state = .raising ∨ x.state = .lowering ∨ x.state = .unknown :=
    or_assoc.1 (st.imp_left moving_iff.1)
  unfold limitEvent
  rcases state with st | st | st
  all_goals cases line <;> simp only [hx, st]

theorem limitEvent_unknown (st : x.state = .unknown) (line : LimitLine) : limitEvent p line true s = regain p s := by
  unfold limitEvent
  simp only [hx, st]

theorem limitEvent_fault (st : x.state = .fault) (line : LimitLine) (a : Bool) : limitEvent p line a s = s := by
  unfold limitEvent
  simp only [hx, st]

/-- Both limits active end a move, whichever line came last. -/
theorem limitEvent_double (moves : x.state.moving = true) (up : s.upActive p = true) (down : s.downActive p = true)
    (line : LimitLine) : limitEvent p line true s = enterFault p LastFault.double s := by
  rcases moving_iff.1 moves with st | st
  · obtain ⟨atUp, atDown⟩ := limitEvent_raising hx st
    cases line with
    | up => exact atUp.trans (if_pos down)
    | down => exact atDown.trans (if_pos up)
  · obtain ⟨atDown, atUp⟩ := limitEvent_lowering hx st
    cases line with
    | up => exact atUp.trans (if_pos down)
    | down => exact atDown.trans (if_pos up)

end

theorem exec_limitLineEvent {line : LimitLine} {a : Bool} (up : s.power = .up) (changes : s.pins.limit p line ≠ a) :
    exec (.limitLineEvent p line a) s =
      .next (happened (limitEvent p line a) { s with pins := s.pins.setLimit p line a }) :=
  eventIf_cause (s := { s with pins := s.pins.setLimit p line a }) up (bne_iff_ne.2 changes)

/-! ### The regain (R133) -/

theorem regain_of (f : LastFault) :
    (positionCheck s p = (.stowed, f) → regain p s = arrive p .stowed .regain s) ∧
    (positionCheck s p = (.working, f) → regain p s = arrive p .working .regain s) ∧
    (positionCheck s p = (.fault, f) → regain p s = enterFault p f s) := by
  unfold regain
  exact ⟨fun check => by rw [check], fun check => by rw [check], fun check => by rw [check]⟩

/-! ### The move timer (R134, R138) -/

section
variable {x : Panel} (hx : s.panel? p = some x)
include hx

theorem exec_moveTimeout {n : Nat} (up : s.power = .up) (runs : x.timer = .running n) :
    exec (.moveTimeout p) s = .next (happened (moveExpires p) s) :=
  eventIf_cause up (by rw [hx, Option.any_some, runs]; rfl)

theorem moveExpires_moving (moves : x.state.moving = true) : moveExpires p s = enterFault p ⟨.timeout, none, none⟩ s := by
  unfold moveExpires
  simp only [hx]
  exact if_pos moves

theorem happened_moveExpires_panel? (up : s.power = .up) (moves : x.state.moving = true) :
    (happened (moveExpires p) s).panel? p = some { x with
      state := .fault, timer := .stopped, fault := ⟨.timeout, none, none⟩, raise := false, lower := false } := by
  have fault : moveExpires p { s with ev := EventMarks.none } = _ := moveExpires_moving hx moves
  have panel := enterFault_panel? (s := { s with ev := EventMarks.none }) hx ⟨.timeout, none, none⟩
  have power := (enterFault_within (.refl { s with ev := EventMarks.none }) p ⟨.timeout, none, none⟩).power.trans up
  rw [← fault] at panel power
  rw [happened_panel? power, panel]
  rfl

end

end Sys2Proof.Machine

open Sys2Proof Sys2Proof.Machine

/-- Settles O52: the line's event, the table of R132, the position check, the regain, what each change does, the timer. -/
theorem panelLines : Obligations.PanelLines := by
  refine ⟨fun p line a s up changes => exec_limitLineEvent up changes, fun p s x hx => ?_, fun p s => ?_, fun p f s => regain_of f,
    fun p s x hx => ⟨?_, fun was => rfl, ?_, endBorrow_of hx⟩, fun p n s x up hx moves runs => ?_⟩
  · refine ⟨fun st down => ?_, fun st up => ?_, fun st down => ?_, fun st up => ?_, fun st => (limitEvent_stowed hx st).2,
      fun st => (limitEvent_working hx st).2, limitEvent_double hx, fun st up => ?_, fun st down => ?_,
      limitEvent_inactive hx, limitEvent_unknown hx, limitEvent_fault hx⟩
    · exact (limitEvent_raising hx st).1.trans (if_neg (Bool.eq_false_iff.1 down))
    · exact (limitEvent_lowering hx st).1.trans (if_neg (Bool.eq_false_iff.1 up))
    · exact (limitEvent_stowed hx st).1.trans (if_neg (Bool.eq_false_iff.1 down))
    · exact (limitEvent_working hx st).1.trans (if_neg (Bool.eq_false_iff.1 up))
    · exact (limitEvent_raising hx st).2.trans (if_neg (Bool.eq_false_iff.1 up))
    · exact (limitEvent_lowering hx st).2.trans (if_neg (Bool.eq_false_iff.1 down))
  · exact ⟨fun up down => positionCheck_stowed (linePos_of up down),
      fun up down => positionCheck_working_line (linePos_of up down),
      fun up down => positionCheck_neither (linePos_of up down),
      fun up down => positionCheck_both (linePos_of up down)⟩
  · rintro st m - t rfl
    exact arrive_of hx st m
  · rintro f t rfl
    exact enterFault_of hx f
  · exact ⟨_, exec_moveTimeout hx up runs, happened_moveExpires_panel? hx up moves⟩

end

section
/-! O51: what HOIST_MOVE names in the way, the start of a move, the stop, and the two requests. -/

namespace Sys2Proof.Machine

variable {s t : State} {p l : Nat}

/-! ### The first of the lanes on and under a panel (R131, R135; log 16) -/

/-- The first of a rising list that passes is the least that passes. -/
theorem find?_rising {q : Nat → Bool} {xs : List Nat} (rising : xs.Pairwise (· < ·)) :
    xs.find? q = some l ↔ (l ∈ xs ∧ q l = true) ∧ ∀ k ∈ xs, k < l → q k = false := by
  rw [find?_split]
  constructor
  · rintro ⟨a, b, rfl, passes, before⟩
    obtain ⟨-, after, -⟩ := List.pairwise_append.1 rising
    refine ⟨⟨by simp, passes⟩, fun k hk below => ?_⟩
    rcases List.mem_append.1 hk with hk | hk
    · exact before k hk
    · rcases List.mem_cons.1 hk with rfl | hk
      · omega
      · have := (List.pairwise_cons.1 after).1 k hk
        omega
  · rintro ⟨⟨hl, passes⟩, least⟩
    obtain ⟨a, b, rfl⟩ := List.append_of_mem hl
    refine ⟨a, b, rfl, passes, fun w hw => least w (by simp [hw]) ?_⟩
    exact (List.pairwise_append.1 rising).2.2 w hw l (by simp)

theorem lanesOn_rising (s : State) (p : Nat) : (s.lanesOn p).Pairwise (· < ·) := by
  unfold State.lanesOn
  cases s.panel? p with
  | none => exact .nil
  | some x => exact lanesWhere_rising s _

section
variable {z : Panel} (hz : s.panel? p = some z)
include hz

theorem lanesOn_of : s.lanesOn p = s.lanesWhere fun y => y.sect == z.carried := by
  unfold State.lanesOn
  rw [hz]

theorem mem_lanesOn : l ∈ s.lanesOn p ↔ ∃ y, s.lane? l = some y ∧ y.sect = z.carried := by
  rw [lanesOn_of hz, mem_lanesWhere]
  simp only [beq_iff_eq]

theorem lanesOnUnder_of : s.lanesOnUnder p = s.lanesWhere fun y => y.sect == z.carried || y.under p := by
  unfold State.lanesOnUnder
  rw [hz]

theorem mem_lanesOnUnder :
    l ∈ s.lanesOnUnder p ↔ ∃ y, s.lane? l = some y ∧ (y.sect = z.carried ∨ y.under p = true) := by
  rw [lanesOnUnder_of hz, mem_lanesWhere]
  simp only [Bool.or_eq_true, beq_iff_eq]

/-! The first lane with an entry or a claim. -/

omit hz in
theorem firstLoadedOn_eq (s : State) (p : Nat) : s.firstLoadedOn p =
    (s.lanesOn p).find? fun l => (s.lane? l).any fun x => !(x.stow.isEmpty && x.claims.isEmpty) := by
  unfold State.firstLoadedOn
  congr 1
  funext l
  cases s.lane? l <;> rfl

omit hz in
theorem unloaded_iff {x : Lane} :
    (!(x.stow.isEmpty && x.claims.isEmpty)) = false ↔ x.stow = [] ∧ x.claims = [] := by
  simp

theorem firstLoadedOn_none_iff : s.firstLoadedOn p = none ↔
    ∀ l x, s.lane? l = some x → x.sect = z.carried → x.stow = [] ∧ x.claims = [] := by
  rw [firstLoadedOn_eq, List.find?_eq_none]
  constructor
  · intro unloaded l x hx on
    have empty := unloaded l ((mem_lanesOn hz).2 ⟨x, hx, on⟩)
    rw [hx, Option.any_some, Bool.not_eq_true] at empty
    exact unloaded_iff.1 empty
  · intro empty l hl
    obtain ⟨x, hx, on⟩ := (mem_lanesOn hz).1 hl
    rw [hx, Option.any_some, Bool.not_eq_true]
    exact unloaded_iff.2 (empty l x hx on)

theorem firstLoadedOn_some_iff : s.firstLoadedOn p = some l ↔
    (∃ x, s.lane? l = some x ∧ x.sect = z.carried ∧ ¬ (x.stow = [] ∧ x.claims = [])) ∧
    ∀ k y, k < l → s.lane? k = some y → y.sect = z.carried → y.stow = [] ∧ y.claims = [] := by
  rw [firstLoadedOn_eq, find?_rising (lanesOn_rising s p)]
  constructor
  · rintro ⟨⟨hl, loaded⟩, before⟩
    obtain ⟨x, hx, on⟩ := (mem_lanesOn hz).1 hl
    rw [hx, Option.any_some] at loaded
    refine ⟨⟨x, hx, on, fun empty => ?_⟩, fun k y below hy on => ?_⟩
    · exact Bool.false_ne_true ((unloaded_iff.2 empty).symm.trans loaded)
    · have empty := before k ((mem_lanesOn hz).2 ⟨y, hy, on⟩) below
      rw [hy, Option.any_some] at empty
      exact unloaded_iff.1 empty
  · rintro ⟨⟨x, hx, on, loaded⟩, before⟩
    refine ⟨⟨(mem_lanesOn hz).2 ⟨x, hx, on⟩, ?_⟩, fun k hk below => ?_⟩
    · rw [hx, Option.any_some]
      exact (Bool.not_eq_false _).mp fun empty => loaded (unloaded_iff.1 empty)
    · obtain ⟨y, hy, on⟩ := (mem_lanesOn hz).1 hk
      rw [hy, Option.any_some]
      exact unloaded_iff.2 (before k y below hy on)

/-! The first RELEASED vehicle or UNLOADING lane. -/

theorem firstTraffic_some_iff {u : Option Nat} : s.firstTraffic p = some (u, l) ↔
    (∃ x, s.lane? l = some x ∧ (x.sect = z.carried ∨ x.under p = true) ∧
      u = ((s.records x.claims).find? fun v => v.stage.released).map Vehicle.tag ∧ (u ≠ none ∨ x.state = .unloading)) ∧
    ∀ k y, k < l → s.lane? k = some y → y.sect = z.carried ∨ y.under p = true →
      y.state ≠ .unloading ∧ ∀ v ∈ s.records y.claims, v.stage.released = false := by
  have rising : (s.lanesOnUnder p).Pairwise (· < ·) := by
    rw [lanesOnUnder_of hz]
    exact lanesWhere_rising s _
  unfold State.firstTraffic
  rw [head?_flatMap_rising rising]
  constructor
  · rintro ⟨k, hk, head, before⟩
    obtain ⟨x, hx, near⟩ := (mem_lanesOnUnder hz).1 hk
    obtain ⟨rfl, tag, cause⟩ := (trafficIn_head? hx).1 head
    exact ⟨⟨x, hx, near, tag, cause⟩, fun j y below hy near =>
      (trafficIn_eq_nil hy).1 (before j ((mem_lanesOnUnder hz).2 ⟨y, hy, near⟩) below)⟩
  · rintro ⟨⟨x, hx, near, tag, cause⟩, before⟩
    refine ⟨l, (mem_lanesOnUnder hz).2 ⟨x, hx, near⟩, (trafficIn_head? hx).2 ⟨rfl, tag, cause⟩, fun k hk below => ?_⟩
    obtain ⟨y, hy, near⟩ := (mem_lanesOnUnder hz).1 hk
    exact (trafficIn_eq_nil hy).2 (before k y below hy near)

theorem firstTraffic_none_iff : s.firstTraffic p = none ↔
    ∀ l x, s.lane? l = some x → x.sect = z.carried ∨ x.under p = true →
      x.state ≠ .unloading ∧ ∀ v ∈ s.records x.claims, v.stage.released = false := by
  unfold State.firstTraffic
  rw [List.head?_eq_none_iff, List.flatMap_eq_nil_iff]
  constructor
  · exact fun free l x hx near => (trafficIn_eq_nil hx).1 (free l ((mem_lanesOnUnder hz).2 ⟨x, hx, near⟩))
  · intro free l hl
    obtain ⟨x, hx, near⟩ := (mem_lanesOnUnder hz).1 hl
    exact (trafficIn_eq_nil hx).2 (free l x hx near)

end

/-! The first vehicle above its lane's reduced class. -/

theorem under_iff {x : Lane} : x.under p = true ↔ ∃ c, x.cover = some c ∧ c.panel = p := by
  unfold Lane.under
  cases x.cover <;> simp

theorem mem_lanesUnder : l ∈ s.lanesUnder p ↔ ∃ x c, s.lane? l = some x ∧ x.cover = some c ∧ c.panel = p := by
  refine mem_lanesWhere.trans (exists_congr fun x => ?_)
  rw [under_iff, exists_and_left]

section
variable {x : Lane} {c : Cover} (hx : s.lane? l = some x) (cover : x.cover = some c)
include hx cover

theorem tallIn_of : s.tallIn l =
    ((s.records (x.stow ++ x.claims)).filter fun v => decide (c.reduced < v.height)).map fun v => (v.tag, l) := by
  unfold State.tallIn
  simp only [hx, cover]

theorem tallIn_eq_nil : s.tallIn l = [] ↔ ∀ v ∈ s.records (x.stow ++ x.claims), v.height ≤ c.reduced := by
  rw [tallIn_of hx cover, List.map_eq_nil_iff, List.filter_eq_nil_iff]
  simp only [decide_eq_true_iff, Nat.not_lt]

theorem tallIn_head? {tag k : Nat} : (s.tallIn l).head? = some (tag, k) ↔ k = l ∧ ∃ a v b,
    s.records (x.stow ++ x.claims) = a ++ v :: b ∧ v.tag = tag ∧ c.reduced < v.height ∧ ∀ w ∈ a, w.height ≤ c.reduced := by
  rw [tallIn_of hx cover, List.head?_map, List.head?_filter, Option.map_eq_some_iff]
  constructor
  · rintro ⟨v, first, ⟨⟩⟩
    obtain ⟨a, b, records, tall, before⟩ := find?_split.1 first
    exact ⟨rfl, a, v, b, records, rfl, of_decide_eq_true tall, fun w hw => Nat.not_lt.1 (of_decide_eq_false (before w hw))⟩
  · rintro ⟨rfl, a, v, b, records, rfl, tall, before⟩
    exact ⟨v, find?_split.2 ⟨a, b, records, decide_eq_true tall, fun w hw => decide_eq_false (Nat.not_lt.2 (before w hw))⟩,
      rfl⟩

end

theorem firstTallUnder_none_iff : s.firstTallUnder p = none ↔ ∀ l x c, s.lane? l = some x → x.cover = some c →
    c.panel = p → ∀ v ∈ s.records (x.stow ++ x.claims), v.height ≤ c.reduced := by
  unfold State.firstTallUnder
  rw [List.head?_eq_none_iff, List.flatMap_eq_nil_iff]
  constructor
  · exact fun low l x c hx cover panel => (tallIn_eq_nil hx cover).1 (low l (mem_lanesUnder.2 ⟨x, c, hx, cover, panel⟩))
  · intro low l hl
    obtain ⟨x, c, hx, cover, panel⟩ := mem_lanesUnder.1 hl
    exact (tallIn_eq_nil hx cover).2 (low l x c hx cover panel)

theorem firstTallUnder_some_iff {tag : Nat} : s.firstTallUnder p = some (tag, l) ↔
    (∃ x c a v b, s.lane? l = some x ∧ x.cover = some c ∧ c.panel = p ∧ s.records (x.stow ++ x.claims) = a ++ v :: b ∧
      v.tag = tag ∧ c.reduced < v.height ∧ ∀ w ∈ a, w.height ≤ c.reduced) ∧
    ∀ k y c, k < l → s.lane? k = some y → y.cover = some c → c.panel = p →
      ∀ w ∈ s.records (y.stow ++ y.claims), w.height ≤ c.reduced := by
  have rising : (s.lanesUnder p).Pairwise (· < ·) := lanesWhere_rising s _
  unfold State.firstTallUnder
  rw [head?_flatMap_rising rising]
  constructor
  · rintro ⟨k, hk, head, before⟩
    obtain ⟨x, c, hx, cover, panel⟩ := mem_lanesUnder.1 hk
    obtain ⟨rfl, a, v, b, tall⟩ := (tallIn_head? hx cover).1 head
    exact ⟨⟨x, c, a, v, b, hx, cover, panel, tall⟩, fun j y d below hy cover panel =>
      (tallIn_eq_nil hy cover).1 (before j (mem_lanesUnder.2 ⟨y, d, hy, cover, panel⟩) below)⟩
  · rintro ⟨⟨x, c, a, v, b, hx, cover, panel, tall⟩, before⟩
    refine ⟨l, mem_lanesUnder.2 ⟨x, c, hx, cover, panel⟩, (tallIn_head? hx cover).2 ⟨rfl, a, v, b, tall⟩,
      fun k hk below => ?_⟩
    obtain ⟨y, d, hy, cover, panel⟩ := mem_lanesUnder.1 hk
    exact (tallIn_eq_nil hy cover).2 (before k y d below hy cover panel)

/-! ### The start of a move (R126, R136) -/

/-- The panel set in motion, with the entry credit windows of the lanes on it suspended. -/
def setMoving (p : Nat) (st : PanelPos) (limit : Nat) (s : State) : State :=
  updLanes (s.lanesOn p) (fun x => { x with entryWindow := x.entryWindow.suspend })
    (s.updPanel p fun y => { y with state := st, timer := .running limit })

theorem firstObstructed_eq (s : State) (p : Nat) :
    s.firstObstructed p = (s.lanesOn p).find? fun l => (s.lane? l).any Lane.occupied := by
  unfold State.firstObstructed
  congr 1
  funext l
  cases s.lane? l <;> rfl

theorem lanesWhere_eq (s : State) (q : Lane → Bool) :
    s.lanesWhere q = (List.range s.lanes.length).filter fun l => (s.lane? l).any q := by
  unfold State.lanesWhere
  congr 1
  funext l
  cases s.lane? l <;> rfl

/-- A change of lanes that leaves what `g` reads of each lane leaves what goes by it. -/
theorem updLanes_lane?_map {β : Type} {f : Lane → Lane} {g : Lane → β} (same : ∀ x, g (f x) = g x) (ls : List Nat) (l : Nat) :
    ∀ s : State, ((updLanes ls f s).lane? l).map g = (s.lane? l).map g := by
  induction ls with
  | nil => exact fun s => rfl
  | cons k ls ih =>
    refine fun s => (ih (s.updLane k f)).trans ?_
    rw [updLane_lane?]
    split
    · rw [Option.map_map]
      exact congrArg (fun h => (s.lane? l).map h) (funext same)
    · rfl

section
variable {x : Panel} (hx : s.panel? p = some x) (st : PanelPos) (limit : Nat)
include hx

theorem setMoving_panel? : (setMoving p st limit s).panel? p = some { x with state := st, timer := .running limit } := by
  unfold setMoving
  rw [panel?_of_panels (updLanes_panels _ _), updPanel_same, hx]
  rfl

omit hx in
theorem setMoving_any {q : Lane → Bool}
    (same : ∀ x : Lane, q { x with entryWindow := x.entryWindow.suspend } = q x) (l : Nat) :
    ((setMoving p st limit s).lane? l).any q = (s.lane? l).any q := by
  have lane := updLanes_lane?_map same (s.lanesOn p) l
    (s.updPanel p fun y => { y with state := st, timer := .running limit })
  have read (o : Option Lane) : o.any q = (o.map q).any id := by cases o <;> rfl
  rw [read, read (s.lane? l)]
  exact congrArg (Option.any id) lane

theorem setMoving_lanesOn : (setMoving p st limit s).lanesOn p = s.lanesOn p := by
  have count : (setMoving p st limit s).lanes.length = s.lanes.length :=
    (updLanes_within (.refl (s.updPanel p _)) (s.lanesOn p) _).lanesLength
  rw [lanesOn_of (setMoving_panel? hx st limit), lanesOn_of hx, lanesWhere_eq, lanesWhere_eq, count]
  congr 1
  funext l
  exact setMoving_any st limit (fun _ => rfl) l

/-- The move leaves the readings, so the first loop that reads OCCUPIED is the one that did before. -/
theorem setMoving_firstObstructed : (setMoving p st limit s).firstObstructed p = s.firstObstructed p := by
  rw [firstObstructed_eq, firstObstructed_eq, setMoving_lanesOn hx]
  congr 1
  funext l
  exact setMoving_any st limit (fun _ => rfl) l

/-- The lanes on the panel are those before the move. -/
theorem beginBorrow_setMoving : beginBorrow p (s.updPanel p fun y => { y with state := st, timer := .running limit }) =
    setMoving p st limit s := by
  have on : (s.updPanel p fun y => { y with state := st, timer := .running limit }).lanesOn p = s.lanesOn p := by
    unfold State.lanesOn
    rw [updPanel_same, hx]
    rfl
  unfold beginBorrow
  rw [on]
  rfl

theorem beginMove_free (free : s.firstObstructed p = none) :
    beginMove p st s = examineRamp .upper (examineRamp .lower (setMoving p st x.moveLimit s)) := by
  unfold beginMove
  simp only [hx, beginBorrow_setMoving hx, setMoving_firstObstructed hx, free]
  rfl

theorem beginMove_obstructed (occupied : s.firstObstructed p = some l) :
    beginMove p st s = enterFault p ⟨.obstruction, some l, none⟩ (setMoving p st x.moveLimit s) := by
  unfold beginMove
  simp only [hx, beginBorrow_setMoving hx, setMoving_firstObstructed hx, occupied]
  rfl

theorem beginMove_panel? (free : s.firstObstructed p = none) :
    (beginMove p st s).panel? p = some { x with state := st, timer := .running x.moveLimit } := by
  rw [beginMove_free hx st free, panel?_of_panels ((examineRamp_panels .upper).trans (examineRamp_panels .lower)),
    setMoving_panel? hx]

end

theorem firstObstructed_none (clear : ∀ l ∈ s.lanesOn p, ∀ y, s.lane? l = some y → y.occupied = false) :
    s.firstObstructed p = none := by
  rw [firstObstructed_eq, List.find?_eq_none]
  intro l hl
  cases hy : s.lane? l with
  | none => exact Bool.false_ne_true
  | some y => simp [clear l hl y hy]

theorem firstObstructed_some {a b : List Nat} {y : Lane} (on : s.lanesOn p = a ++ l :: b) (hy : s.lane? l = some y)
    (occupied : y.occupied = true) (clear : ∀ k ∈ a, ∀ z, s.lane? k = some z → z.occupied = false) :
    s.firstObstructed p = some l := by
  rw [firstObstructed_eq, find?_split]
  refine ⟨a, b, on, by rw [hy]; exact occupied, fun k hk => ?_⟩
  cases hz : s.lane? k with
  | none => rfl
  | some z => exact clear k hk z hz

/-! ### The stop (R140) -/

section
variable {x : Panel} (hx : s.panel? p = some x)
include hx

theorem stopPanel_height {st : PanelPos} {f : LastFault} (check : positionCheck s p = (st, f))
    (height : st = .stowed ∨ st = .working) :
    stopPanel p s = if x.state = st then s else arrive p st .stop s := by
  unfold stopPanel
  rcases height with rfl | rfl <;> simp only [hx, check]

theorem stopPanel_fault {f : LastFault} (check : positionCheck s p = (.fault, f)) : stopPanel p s =
    if x.state = .fault then
      if x.fault = f then s
      else (s.updPanel p fun y => { y with fault := f }).notify (.hoistFault p f.reason f.lane f.tag)
    else enterFault p f s := by
  unfold stopPanel
  simp only [hx, check]

theorem stopPanel_unknown {f : LastFault} (check : positionCheck s p = (.unknown, f)) : stopPanel p s =
    if x.state = .unknown then s
    else examineRamp .upper (examineRamp .lower (endBorrowIf x.state p
      (s.updPanel p fun y => { y with state := .unknown, timer := .stopped }))) := by
  unfold stopPanel
  simp only [hx, check]
  rfl

theorem stopPanel_height_panel? {st : PanelPos} {f : LastFault} (check : positionCheck s p = (st, f))
    (height : st = .stowed ∨ st = .working) : ∃ y, (stopPanel p s).panel? p = some y ∧ y.state = st := by
  rw [stopPanel_height hx check height]
  split
  · exact ⟨x, hx, ‹_›⟩
  · exact ⟨_, arrive_panel? hx st .stop, rfl⟩

theorem stopPanel_fault_panel? {f : LastFault} (check : positionCheck s p = (.fault, f)) :
    ∃ y, (stopPanel p s).panel? p = some y ∧ y.state = .fault := by
  rw [stopPanel_fault hx check]
  split
  · rename_i fault
    split
    · exact ⟨x, hx, fault⟩
    · exact ⟨{ x with fault := f }, (updPanel_same s p _).trans (by rw [hx]; rfl), fault⟩
  · exact ⟨_, enterFault_panel? hx f, rfl⟩

theorem stopPanel_unknown_panel? {f : LastFault} (check : positionCheck s p = (.unknown, f)) :
    ∃ y, (stopPanel p s).panel? p = some y ∧ y.state = .unknown := by
  rw [stopPanel_unknown hx check]
  split
  · exact ⟨x, hx, ‹_›⟩
  · refine ⟨{ x with state := .unknown, timer := .stopped }, ?_, rfl⟩
    rw [panel?_of_panels
      ((examineRamp_panels .upper).trans ((examineRamp_panels .lower).trans (endBorrowIf_panels x.state p)))]
    exact (updPanel_same s p _).trans (by rw [hx]; rfl)

/-- A stopped panel stands as the position check says. -/
theorem stopPanel_panel? : ∃ y, (stopPanel p s).panel? p = some y ∧ y.state = (positionCheck s p).1 := by
  cases check : positionCheck s p with
  | mk st f =>
    have rests := positionCheck_rests s p
    rw [check] at rests
    rcases rests with rfl | rfl | rfl | ⟨rfl, -⟩
    · exact stopPanel_height_panel? hx check (.inl rfl)
    · exact stopPanel_unknown_panel? hx check
    · exact stopPanel_fault_panel? hx check
    · exact stopPanel_height_panel? hx check (.inr rfl)

end

/-! ### The requests (R135, R140) -/

section
variable {lt panel target : Byte} {r : Reply} {change : State → State} (taking : Taking s)
include taking

/-- The command HOIST_MOVE taken at once is what its request answers. -/
theorem exec_hoistMove (e : reqHoistMove panel.toNat target.toNat (heard s) = (change (heard s), r)) :
    exec (.hoistMove lt panel target) s = .next (taken ⟨0x30#8, lt, [panel, target]⟩ r change s) :=
  congrArg _ (requestArrives_eq _ _ _ _ s taking e)

/-- The command HOIST_STOP taken at once is what its request answers. -/
theorem exec_hoistStop (e : reqHoistStop panel.toNat (heard s) = (change (heard s), r)) :
    exec (.hoistStop lt panel) s = .next (taken ⟨0x31#8, lt, [panel]⟩ r change s) :=
  congrArg _ (requestArrives_eq _ _ _ _ s taking e)

end

theorem reqHoistMove_noProfile (p target : Nat) (bare : s.profile.inForce = false) :
    reqHoistMove p target s = (s, plain .noProfile) := by
  unfold reqHoistMove
  simp [bare]

theorem reqHoistStop_noProfile (p : Nat) (bare : s.profile.inForce = false) :
    reqHoistStop p s = (s, plain .noProfile) := by
  unfold reqHoistStop
  simp [bare]

theorem hoistTarget_unlisted {target : Nat} (unlisted : 1 < target) : hoistTarget target = none := by
  match target, unlisted with
  | _ + 2, _ => rfl

theorem clearanceApplies_iff {goal state : PanelPos} :
    clearanceApplies goal state = true ↔ goal = .working ∨ state = .unknown ∨ state = .fault := by
  unfold clearanceApplies
  simp only [Bool.or_eq_true, decide_eq_true_iff, or_assoc]

/-- A line that applies under a condition names nothing where it is not met. -/
theorem ite_none_of {α : Type} {c : Prop} [Decidable c] {o : Option α} (h : c → o = none) :
    (if c then o else none) = none := by
  split
  · exact h ‹_›
  · rfl

section
variable {target : Nat} (model : Modelled s)
include model

theorem reqHoistMove_range (bad : s.panel? p = none ∨ hoistTarget target = none) :
    reqHoistMove p target s = (s, plain .range) := by
  unfold reqHoistMove
  rcases bad with beyond | unlisted
  · simp [show s.profile.inForce = true from model, beyond]
  · simp [show s.profile.inForce = true from model, unlisted]

theorem reqHoistStop_range (beyond : s.panel? p = none) : reqHoistStop p s = (s, plain .range) := by
  unfold reqHoistStop
  simp [show s.profile.inForce = true from model, beyond]

variable {x : Panel} (hx : s.panel? p = some x)
include hx

theorem reqHoistStop_stops {y : Panel} (hy : (stopPanel p s).panel? p = some y) :
    reqHoistStop p s = (stopPanel p s, ⟨.ok, u8 y.state.code ++ u8 (s.linePos p).code⟩) := by
  unfold reqHoistStop
  simp [show s.profile.inForce = true from model, hx, hy]

variable {goal moving : PanelPos} {line : LinePos} (aim : hoistTarget target = some (goal, line, moving))
include aim

/-- The lines of R135 that go by the panel alone: BUSY, STATE, OK at the target. -/
theorem reqHoistMove_panel :
    (x.state.moving = true → reqHoistMove p target s = (s, plain .busy)) ∧
    (x.state.moving = false → s.linePos p = .both → reqHoistMove p target s = (s, plain .state)) ∧
    (x.state.moving = false → s.linePos p ≠ .both → x.state = goal → reqHoistMove p target s = (s, plain .ok)) := by
  unfold reqHoistMove
  simp only [show s.profile.inForce = true from model, hx, aim]
  refine ⟨fun moves => if_pos moves, fun rests both => ?_, fun rests apart there => ?_⟩
  · exact (if_neg (Bool.eq_false_iff.1 rests)).trans (if_pos both)
  · exact (if_neg (Bool.eq_false_iff.1 rests)).trans ((if_neg apart).trans (if_pos there))

variable (rests : x.state.moving = false) (apart : s.linePos p ≠ .both) (away : x.state ≠ goal)
include rests apart away

theorem reqHoistMove_notEmpty (up : goal = .stowed) (loaded : s.firstLoadedOn p = some l) :
    reqHoistMove p target s = (s, ⟨.notEmpty, u8 l⟩) := by
  unfold reqHoistMove
  simp [show s.profile.inForce = true from model, hx, aim, rests, apart, away, if_pos up, loaded]

variable (empty : goal = .stowed → s.firstLoadedOn p = none)
include empty

theorem reqHoistMove_clearance {tag : Nat} (applies : goal = .working ∨ x.state = .unknown ∨ x.state = .fault)
    (tall : s.firstTallUnder p = some (tag, l)) :
    reqHoistMove p target s = (s, ⟨.clearance, be 4 tag ++ u8 l⟩) := by
  unfold reqHoistMove
  simp [show s.profile.inForce = true from model, hx, aim, rests, apart, away, ite_none_of empty,
    clearanceApplies_iff.2 applies, tall]

variable (low : goal = .working ∨ x.state = .unknown ∨ x.state = .fault → s.firstTallUnder p = none)
include low

theorem reqHoistMove_traffic {u : Option Nat} (traffic : s.firstTraffic p = some (u, l)) :
    reqHoistMove p target s = (s, ⟨.traffic, optTag u ++ u8 l⟩) := by
  have clear := ite_none_of fun applies => low (clearanceApplies_iff.1 applies)
  unfold reqHoistMove
  simp [show s.profile.inForce = true from model, hx, aim, rests, apart, away, ite_none_of empty, clear, traffic]

/-- With nothing in the way: a FAULT panel at the target arrives at once, any other begins to move. -/
theorem reqHoistMove_accepts (free : s.firstTraffic p = none) : reqHoistMove p target s =
    if x.state = .fault ∧ s.linePos p = line then (arrive p goal .request s, plain .ok)
    else (beginMove p moving s, plain .accepted) := by
  have clear := ite_none_of fun applies => low (clearanceApplies_iff.1 applies)
  unfold reqHoistMove
  simp [show s.profile.inForce = true from model, hx, aim, rests, apart, away, ite_none_of empty, clear, free]

end

end Sys2Proof.Machine

open Sys2Proof Sys2Proof.Machine

/-- Settles O51: refusals, the stop, what stands in the way, the start of a move, then the two requests. -/
theorem panelMoves : Obligations.PanelMoves := by
  refine ⟨fun lt p target s taking bare => ⟨?_, ?_⟩, fun p s x hx => ⟨?_, ?_, ?_⟩,
    fun p s => ⟨rfl, rfl, linePos_of, linePos_of, linePos_of, linePos_of⟩, ⟨rfl, rfl, fun st => moving_iff⟩,
    fun p s z u l hz => firstTraffic_some_iff hz,
    fun p s z hz => ⟨firstLoadedOn_none_iff hz, fun l => firstLoadedOn_some_iff hz, firstTraffic_none_iff hz⟩,
    fun p s => ⟨firstTallUnder_none_iff, fun tag l => firstTallUnder_some_iff⟩, ?_, ?_,
    fun lt p target s taking model => ⟨fun bad => ?_, fun beyond => ?_⟩, ⟨rfl, rfl⟩,
    fun p st s x hx clear => beginMove_panel? hx st (firstObstructed_none clear), fun lt p s x taking model hx => ?_⟩
  · exact exec_hoistMove (change := id) taking (reqHoistMove_noProfile _ _ bare)
  · exact exec_hoistStop (change := id) taking (reqHoistStop_noProfile _ bare)
  · intro st f check height
    have stop := stopPanel_height hx check height
    exact ⟨fun there => stop.trans (if_pos there), fun away => stop.trans (if_neg away)⟩
  · intro f check
    have stop := stopPanel_fault hx check
    exact ⟨fun other => stop.trans (if_neg other), fun fault same => stop.trans ((if_pos fault).trans (if_pos same)),
      fun fault differs => stop.trans ((if_pos fault).trans (if_neg differs))⟩
  · intro f check
    have stop := stopPanel_unknown hx check
    refine ⟨fun unknown => stop.trans (if_pos unknown), ?_⟩
    rintro t known rfl
    exact stop.trans (if_neg known)
  · rintro p st s t x hx rfl
    exact ⟨fun clear => beginMove_free hx st (firstObstructed_none clear),
      fun a l b y on hy occupied clear => beginMove_obstructed hx st (firstObstructed_some on hy occupied clear),
      fun l => mem_lanesOn hx, lanesOn_rising s p⟩
  · intro lt p target s x goal moving line taking model hx aim
    obtain ⟨busy, both, there⟩ := reqHoistMove_panel (s := heard s) model hx aim
    refine ⟨fun rests apart away empty low free => ?_, fun moves => exec_hoistMove (change := id) taking (busy moves),
      fun rests line => exec_hoistMove (change := id) taking (both rests line),
      fun rests apart goal => exec_hoistMove (change := id) taking (there rests apart goal),
      fun rests apart away => ⟨fun l up loaded => ?_, fun empty => ⟨fun u l applies tall => ?_, fun low u l traffic => ?_⟩⟩⟩
    · have accepts := reqHoistMove_accepts (s := heard s) model hx aim rests apart away empty low free
      refine ⟨fun fault there => ?_, fun other => ?_⟩
      · exact exec_hoistMove taking (accepts.trans (if_pos ⟨fault, there⟩))
      · exact exec_hoistMove taking (accepts.trans (if_neg fun both => other.elim (· both.1) (· both.2)))
    · exact exec_hoistMove (change := id) taking
        (reqHoistMove_notEmpty (s := heard s) model hx aim rests apart away up loaded)
    · exact exec_hoistMove (change := id) taking
        (reqHoistMove_clearance (s := heard s) model hx aim rests apart away empty applies tall)
    · exact exec_hoistMove (change := id) taking
        (reqHoistMove_traffic (s := heard s) model hx aim rests apart away empty low traffic)
  · exact exec_hoistMove (change := id) taking
      (reqHoistMove_range (s := heard s) model (bad.imp_right hoistTarget_unlisted))
  · exact exec_hoistStop (change := id) taking (reqHoistStop_range (s := heard s) model beyond)
  · obtain ⟨y, hy, state⟩ := stopPanel_panel? (s := heard s) hx
    exact ⟨y, hy, state, exec_hoistStop taking (reqHoistStop_stops (s := heard s) model hx hy)⟩

end

section
/-! O53 and O54: VOYAGE_SET, CALL_OPEN and PHASE_LOAD by the state of profile and voyage. -/

namespace Sys2Proof.Machine

variable {s : State}

/-! ### VOYAGE_SET (R145) -/

theorem reqVoyageSet_noProfile (n : Nat) (bare : s.profile = .none) : reqVoyageSet n s = (s, plain .noProfile) := by
  unfold reqVoyageSet
  simp only [bare]

theorem reqVoyageSet_busy (n : Nat) (writes : s.profile.isCommitting = true) : reqVoyageSet n s = (s, plain .busy) := by
  unfold reqVoyageSet
  cases profile : s.profile with
  | committing f => rfl
  | none | active => rw [profile] at writes; cases writes

theorem reqVoyageSet_phase (n : Nat) (active : s.profile = .active) (sails : s.voyage ≠ .noVoyage) :
    reqVoyageSet n s = (s, plain .phase) := by
  unfold reqVoyageSet
  cases voyage : s.voyage with
  | noVoyage => exact absurd voyage sails
  | atSea c m | discharge c m | load c m => simp only [active]

section
variable {n : Nat} (active : s.profile = .active) (ashore : s.voyage = .noVoyage)
include active ashore

theorem reqVoyageSet_range (bad : n < 1 ∨ 4 < n) : reqVoyageSet n s = (s, plain .range) := by
  unfold reqVoyageSet
  simp only [active, ashore]
  exact if_pos (by simpa using bad)

theorem reqVoyageSet_sails (low : 1 ≤ n) (high : n ≤ 4) :
    reqVoyageSet n s = ({ s with voyage := .atSea 0 n }, plain .ok) := by
  unfold reqVoyageSet
  simp only [active, ashore]
  exact if_neg (by simp; omega)

end

/-! ### CALL_OPEN (R146) -/

theorem reqCallOpen_opens {c n : Nat} (sea : s.voyage = .atSea c n) :
    reqCallOpen s = ({ s with voyage := .discharge c n }, ⟨.ok, u8 c⟩) := by
  unfold reqCallOpen
  rw [sea]

theorem reqCallOpen_phase (other : ∀ c n, s.voyage ≠ .atSea c n) : reqCallOpen s = (s, plain .phase) := by
  unfold reqCallOpen
  cases voyage : s.voyage with
  | atSea c n => exact absurd voyage (other c n)
  | noVoyage | discharge c n | load c n => rfl

/-! ### PHASE_LOAD (R147) -/

theorem reqPhaseLoad_discharge {c n : Nat} (unloads : s.voyage = .discharge c n) : reqPhaseLoad s =
    if c = n then (s, plain .lastCall) else ({ s with voyage := .load c n }.sweepTrigger, plain .ok) := by
  unfold reqPhaseLoad
  rw [unloads]

theorem reqPhaseLoad_phase (other : ∀ c n, s.voyage ≠ .discharge c n) : reqPhaseLoad s = (s, plain .phase) := by
  unfold reqPhaseLoad
  cases voyage : s.voyage with
  | discharge c n => exact absurd voyage (other c n)
  | noVoyage | atSea c n | load c n => rfl

end Sys2Proof.Machine

open Sys2Proof Sys2Proof.Machine

/-- Settles O53: VOYAGE_SET by profile, voyage and range, then PHASE_LOAD by the call. -/
theorem voyageSetAndLoad : Obligations.VoyageSetAndLoad := by
  refine fun lt n s taking => ⟨fun bare => ?_, fun writes => ?_, fun active sails => ?_, fun active ashore bad => ?_,
    fun active ashore low high => ?_, fun c m unloads more => ?_, fun c last => ?_, fun other => ?_⟩
  · exact congrArg _ (requestArrives_eq _ _ _ id s taking (reqVoyageSet_noProfile (s := heard s) _ bare))
  · exact congrArg _ (requestArrives_eq _ _ _ id s taking (reqVoyageSet_busy (s := heard s) _ writes))
  · exact congrArg _ (requestArrives_eq _ _ _ id s taking (reqVoyageSet_phase (s := heard s) _ active sails))
  · exact congrArg _ (requestArrives_eq _ _ _ id s taking (reqVoyageSet_range (s := heard s) active ashore bad))
  · exact congrArg _ (requestArrives_eq _ _ _ (fun s => { s with voyage := .atSea 0 n.toNat }) s taking
      (reqVoyageSet_sails (s := heard s) active ashore low high))
  · exact congrArg _ (requestArrives_eq _ _ _ (fun s => { s with voyage := .load c m }.sweepTrigger) s taking
      ((reqPhaseLoad_discharge (s := heard s) unloads).trans (if_neg more)))
  · exact congrArg _ (requestArrives_eq _ _ _ id s taking
      ((reqPhaseLoad_discharge (s := heard s) last).trans (if_pos rfl)))
  · exact congrArg _ (requestArrives_eq _ _ _ id s taking (reqPhaseLoad_phase (s := heard s) other))

/-- Settles O54: the next call in AT_SEA, and any other voyage state. -/
theorem callOpens : Obligations.CallOpens := by
  refine fun lt s taking => ⟨fun c n sea => ?_, fun other => ?_⟩
  · exact congrArg _ (requestArrives_eq _ _ _ (fun s => { s with voyage := .discharge c n }) s taking
      (reqCallOpen_opens (s := heard s) sea))
  · exact congrArg _ (requestArrives_eq _ _ _ id s taking (reqCallOpen_phase (s := heard s) other))

end

section
/-! O55: what CALL_CLOSE counts, what an accepted close leaves, and its lines (R148 to R150; log 30). -/

namespace Sys2Proof.Machine

variable {s : State} {l c n : Nat}

/-! ### The counts by stage, and the first UNLOADING lane (R148) -/

theorem isAssigned_eq_code (st : Stage) : st.isAssigned = decide (st.code = 1) := by
  cases st <;> rfl

theorem released_eq_code (st : Stage) : st.released = decide (st.code = 2) := by
  cases st <;> rfl

theorem isPlaced_eq_code (st : Stage) : st.isPlaced = decide (st.code = 3) := by
  cases st <;> rfl

theorem assignedCount_eq (s : State) :
    s.assignedCount = (s.vehicles.filter fun v => decide (v.stage.code = 1)).length := by
  unfold State.assignedCount
  simp only [isAssigned_eq_code]

theorem releasedCount_eq (s : State) :
    s.releasedCount = (s.vehicles.filter fun v => decide (v.stage.code = 2)).length := by
  unfold State.releasedCount
  simp only [released_eq_code]

theorem dueCount_eq (s : State) (c : Nat) :
    s.dueCount c = (s.vehicles.filter fun v => decide (v.stage.code = 3 ∧ v.call = c)).length := by
  unfold State.dueCount
  simp only [isPlaced_eq_code, Bool.decide_and]
  rfl

theorem head?_rising {xs : List Nat} (rising : xs.Pairwise (· < ·)) :
    xs.head? = some l ↔ l ∈ xs ∧ ∀ k ∈ xs, ¬ k < l := by
  cases xs with
  | nil => simp
  | cons a xs =>
    have first := (List.pairwise_cons.1 rising).1
    constructor
    · rintro ⟨⟩
      refine ⟨List.mem_cons_self, fun k hk below => ?_⟩
      rcases List.mem_cons.1 hk with rfl | hk
      · exact Nat.lt_irrefl _ below
      · exact Nat.lt_asymm below (first k hk)
    · rintro ⟨hl, least⟩
      rcases List.mem_cons.1 hl with rfl | hl
      · rfl
      · exact absurd (first l hl) (least a List.mem_cons_self)

theorem mem_unloading : (l ∈ s.lanesWhere fun x => x.state == .unloading) ↔
    ∃ x, s.lane? l = some x ∧ x.state = .unloading := by
  rw [mem_lanesWhere]
  simp only [beq_iff_eq]

theorem firstUnloading_some_iff : s.firstUnloading = some l ↔ (∃ x, s.lane? l = some x ∧ x.state = .unloading) ∧
    ∀ k y, k < l → s.lane? k = some y → y.state ≠ .unloading := by
  unfold State.firstUnloading
  rw [head?_rising (lanesWhere_rising s _), mem_unloading]
  refine and_congr_right fun _ => ⟨fun least k y below hy unloads => ?_, fun least k hk below => ?_⟩
  · exact least k (mem_unloading.2 ⟨y, hy, unloads⟩) below
  · obtain ⟨y, hy, unloads⟩ := mem_unloading.1 hk
    exact least k y below hy unloads

theorem firstUnloading_none_iff : s.firstUnloading = none ↔ ∀ x ∈ s.lanes, x.state ≠ .unloading := by
  unfold State.firstUnloading
  rw [List.head?_eq_none_iff, List.eq_nil_iff_forall_not_mem]
  constructor
  · intro none x hx unloads
    obtain ⟨k, hk⟩ := List.mem_iff_getElem?.1 hx
    exact none k (mem_unloading.2 ⟨x, hk, unloads⟩)
  · intro none k hk
    obtain ⟨x, hx, unloads⟩ := mem_unloading.1 hk
    exact none x (List.mem_of_getElem? hx) unloads

/-! ### One vehicle shut out, and the whole list (R149) -/

/-- What each step of a fold leaves, the fold leaves. -/
theorem foldl_leaves {α β : Type} {f : State → α → State} {g : State → β} (leaves : ∀ t a, g (f t a) = g t)
    (xs : List α) : ∀ s, g (xs.foldl f s) = g s := by
  induction xs with
  | nil => exact fun s => rfl
  | cons a xs ih => exact fun s => (ih (f s a)).trans (leaves s a)

theorem filter_tag_of_unknown {tag : Nat} (unknown : s.veh? tag = none) :
    s.vehicles.filter (fun v => v.tag != tag) = s.vehicles := by
  rw [List.filter_eq_self]
  exact fun v hv => by simpa using List.find?_eq_none.1 unknown v hv

theorem shutOutOne_vehicles (s : State) (tag : Nat) :
    (shutOutOne s tag).vehicles = s.vehicles.filter fun v => v.tag != tag := by
  unfold shutOutOne
  cases known : s.veh? tag with
  | none => exact (filter_tag_of_unknown known).symm
  | some v => rfl

theorem shutOutOne_standby (s : State) (tag : Nat) : (shutOutOne s tag).standby = without tag s.standby := by
  unfold shutOutOne
  cases s.veh? tag <;> rfl

/-- Lanes, list moment and ramps, which a close leaves as they are. -/
def State.stowage (s : State) : List Lane × Int × RampState × RampState := (s.lanes, s.listMoment, s.lower, s.upper)

theorem shutOutOne_stowage (s : State) (tag : Nat) : (shutOutOne s tag).stowage = s.stowage := by
  unfold shutOutOne
  cases s.veh? tag <;> rfl

theorem not_contains_cons (a u : Nat) (xs : List Nat) : (!(a :: xs).contains u) = (!xs.contains u && u != a) := by
  rw [List.contains_cons, Bool.not_or, Bool.and_comm]
  rfl

theorem foldl_shutOutOne_vehicles (xs : List Nat) :
    ∀ s, (xs.foldl shutOutOne s).vehicles = s.vehicles.filter fun v => !xs.contains v.tag := by
  induction xs with
  | nil => exact fun s => (List.filter_eq_self.2 fun v _ => rfl).symm
  | cons a xs ih =>
    intro s
    rw [List.foldl_cons, ih, shutOutOne_vehicles, List.filter_filter]
    exact List.filter_congr fun v _ => (not_contains_cons a v.tag xs).symm

theorem foldl_shutOutOne_standby (xs : List Nat) :
    ∀ s, (xs.foldl shutOutOne s).standby = s.standby.filter fun u => !xs.contains u := by
  induction xs with
  | nil => exact fun s => (List.filter_eq_self.2 fun u _ => rfl).symm
  | cons a xs ih =>
    intro s
    rw [List.foldl_cons, ih, shutOutOne_standby, without, List.filter_filter]
    exact List.filter_congr fun u _ => (not_contains_cons a u xs).symm

theorem notify_link_congr {t : State} (same : t.link = s.link) (n : Notice) : (t.notify n).link = (s.notify n).link := by
  unfold State.notify State.updLink
  simp only [same]

theorem veh?_shutOutOne {a u : Nat} (other : u ≠ a) : (shutOutOne s a).veh? u = s.veh? u := by
  rw [veh?_same (t := shutOutOne s a) (s := s.freeVeh a) (shutOutOne_vehicles s a), veh?_freeVeh, if_neg other]

/-- The list is shut out with a notice for each record, in the list's order. -/
theorem foldl_shutOutOne_link {xs : List Nat} (once : xs.Nodup) : ∀ s t : State, t.link = s.link →
    (xs.foldl shutOutOne t).link =
      ((t.records xs).foldl (fun s v => s.notify (.shutOut v.tag v.call)) s).link := by
  induction xs with
  | nil => exact fun s t same => same
  | cons a xs ih =>
    intro s t same
    obtain ⟨apart, once⟩ := List.nodup_cons.1 once
    have rest : (shutOutOne t a).records xs = t.records xs :=
      records_same fun u hu => veh?_shutOutOne fun e => apart (e ▸ hu)
    rw [List.foldl_cons]
    cases known : t.veh? a with
    | none =>
      have link : (shutOutOne t a).link = t.link := by
        unfold shutOutOne
        rw [known]
      have records : t.records (a :: xs) = t.records xs := List.filterMap_cons_none known
      rw [ih once s _ (link.trans same), rest, records]
    | some v =>
      have link : (shutOutOne t a).link = (s.notify (.shutOut v.tag v.call)).link := by
        unfold shutOutOne
        rw [known, veh?_tag known]
        exact notify_link_congr same _
      rw [ih once _ _ link, rest, records_cons known]
      rfl

/-! ### What an accepted close leaves (R149, R150) -/

theorem closeCall_standby (c n : Nat) (s : State) : (closeCall c n s).standby = [] := by
  refine (foldl_shutOutOne_standby s.standby s).trans (List.filter_eq_nil_iff.2 fun u hu => ?_)
  simpa using hu

/-- The overcarry changes no record but those due at the call, and of them the call alone. -/
theorem closeCall_vehicles (c n : Nat) (s : State) : (closeCall c n s).vehicles =
    (s.vehicles.filter fun v => !s.standby.contains v.tag).map fun v =>
      if v.stage.isPlaced = true ∧ v.call = c then { v with call := c + 1 } else v := by
  show ((shutOut s).vehicles.map fun v => if v.stage.isPlaced && v.call == c then { v with call := c + 1 } else v) = _
  have left : (shutOut s).vehicles = _ := foldl_shutOutOne_vehicles s.standby s
  rw [left]
  simp only [Bool.and_eq_true, beq_iff_eq]

theorem closeCall_none_due {v : Vehicle} (hv : v ∈ (closeCall c n s).vehicles) (placed : v.stage.isPlaced = true) :
    v.call ≠ c := by
  rw [closeCall_vehicles] at hv
  obtain ⟨w, -, rfl⟩ := List.mem_map.1 hv
  by_cases due : w.stage.isPlaced = true ∧ w.call = c
  · rw [if_pos due]
    exact Nat.succ_ne_self c
  · rw [if_neg due] at placed ⊢
    exact fun call => due ⟨placed, call⟩

theorem closeCall_link (c n : Nat) (once : s.standby.Nodup) : (closeCall c n s).link =
    ((s.records s.standby).foldl (fun s v => s.notify (.shutOut v.tag v.call)) s).link :=
  foldl_shutOutOne_link once s s rfl

theorem closeCall_stowage (c n : Nat) (s : State) : (closeCall c n s).stowage = s.stowage :=
  foldl_leaves shutOutOne_stowage s.standby s

theorem closeCall_voyage (c n : Nat) (s : State) :
    (closeCall c n s).voyage = if c = n then .noVoyage else .atSea (c + 1) n := rfl

/-- The bytes of the voyage that a close leaves, as its reply carries them. -/
theorem closeCall_voyage_fields (c n : Nat) (s : State) :
    u8 (closeCall c n s).voyage.code ++ optU8 (closeCall c n s).voyage.call? =
      if c = n then u8 0 ++ [0xFF#8] else u8 1 ++ u8 (c + 1) := by
  rw [closeCall_voyage]
  split <;> rfl

/-! ### The lines of R148 at an open call -/

section
variable {yes : Bool}

theorem closeOpen_inFlight (flight : 0 < s.assignedCount + s.releasedCount) :
    closeOpen yes c n s = (s, ⟨.inFlight, be 2 s.assignedCount ++ be 2 s.releasedCount⟩) := by
  unfold closeOpen
  exact if_pos flight

variable (assigned : s.assignedCount = 0) (released : s.releasedCount = 0)
include assigned released

theorem closeOpen_unloading (unloads : s.firstUnloading = some l) :
    closeOpen yes c n s = (s, ⟨.unloading, u8 l⟩) := by
  unfold closeOpen
  rw [if_neg (by omega), unloads]

variable (settled : s.firstUnloading = none)
include settled

theorem closeOpen_ramps (runs : s.lower.seq ≠ .stopped ∨ s.upper.seq ≠ .stopped) : closeOpen yes c n s =
    (s, ⟨.ramps, u8 ((if s.lower.seq ≠ .stopped then 1 else 0) + (if s.upper.seq ≠ .stopped then 2 else 0))⟩) := by
  unfold closeOpen
  rw [if_neg (by omega), settled]
  simp only [rampSet, bne_iff_ne, Bool.or_eq_true, if_pos runs]

variable (lower : s.lower.seq = .stopped) (upper : s.upper.seq = .stopped)
include lower upper

theorem closeOpen_resting : closeOpen yes c n s =
    if 0 < s.dueCount c ∧ (c = n ∨ yes = false) then (s, ⟨.remaining, be 2 (s.dueCount c)⟩)
    else (closeCall c n s, ⟨.ok, u8 s.standby.length ++ be 2 (s.dueCount c)
      ++ (if c = n then u8 0 ++ [0xFF#8] else u8 1 ++ u8 (c + 1))⟩) := by
  unfold closeOpen
  rw [if_neg (by omega), settled, lower, upper]
  simp [List.append_assoc, closeCall_voyage_fields]

end

/-! ### The request -/

theorem reqCallClose_unlisted {choice : Nat} (unlisted : 1 < choice) : reqCallClose choice s = (s, plain .range) := by
  unfold reqCallClose
  rw [onOff_unlisted unlisted]

section
variable (yes : Bool)

theorem reqCallClose_phase (closed : ∀ c n, s.voyage ≠ .discharge c n ∧ s.voyage ≠ .load c n) :
    reqCallClose (if yes then 1#8 else 0#8).toNat s = (s, plain .phase) := by
  unfold reqCallClose
  rw [onOff_bit]
  cases voyage : s.voyage with
  | discharge c n => exact absurd voyage (closed c n).1
  | load c n => exact absurd voyage (closed c n).2
  | noVoyage | atSea c n => rfl

theorem reqCallClose_open (atCall : s.voyage = .discharge c n ∨ s.voyage = .load c n) :
    reqCallClose (if yes then 1#8 else 0#8).toNat s = closeOpen yes c n s := by
  unfold reqCallClose
  rw [onOff_bit]
  rcases atCall with voyage | voyage <;> simp only [voyage]

end

/-- The command at an open call, taken at once, is what the lines of R148 answer. -/
theorem exec_callClose {lt : Byte} {yes : Bool} {r : Reply} {change : State → State} (taking : Taking s)
    (atCall : s.voyage = .discharge c n ∨ s.voyage = .load c n)
    (e : closeOpen yes c n (heard s) = (change (heard s), r)) :
    exec (.callClose lt (if yes then 1#8 else 0#8)) s =
      .next (taken ⟨0x37#8, lt, [if yes then 1#8 else 0#8]⟩ r change s) :=
  congrArg _ (requestArrives_eq _ _ _ _ s taking ((reqCallClose_open (s := heard s) yes atCall).trans e))

end Sys2Proof.Machine

open Sys2Proof Sys2Proof.Machine

/-- Settles O55: RANGE, what is counted, the lines at an open call in their order, PHASE, and what a close leaves. -/
theorem callCloses : Obligations.CallCloses := by
  refine ⟨fun lt o s taking unlisted => ?_,
    fun s c => ⟨assignedCount_eq s, releasedCount_eq s, dueCount_eq s c, fun l => firstUnloading_some_iff,
      firstUnloading_none_iff⟩,
    fun lt yes s c n taking atCall => ⟨fun flight => ?_, fun l assigned released unloads => ?_,
      fun assigned released settled runs => ?_, fun assigned released settled lower upper => ?_⟩,
    fun lt yes s taking closed => ?_, fun c n s => ?_⟩
  · exact congrArg _ (requestArrives_eq _ _ _ id s taking (reqCallClose_unlisted (s := heard s) unlisted))
  · exact exec_callClose (change := id) taking atCall (closeOpen_inFlight (s := heard s) flight)
  · exact exec_callClose (change := id) taking atCall (closeOpen_unloading (s := heard s) assigned released unloads)
  · exact exec_callClose (change := id) taking atCall (closeOpen_ramps (s := heard s) assigned released settled runs)
  · have resting := closeOpen_resting (s := heard s) (c := c) (n := n) (yes := yes) assigned released settled lower upper
    refine ⟨fun due keeps => ?_, fun may => ?_⟩
    · exact exec_callClose (change := id) taking atCall (resting.trans (if_pos ⟨due, keeps⟩))
    · refine exec_callClose (change := closeCall c n) taking atCall (resting.trans (if_neg ?_))
      rintro ⟨due, keeps⟩
      rcases may with none | ⟨more, choice⟩
      · exact Nat.ne_of_gt due none
      · exact keeps.elim more fun no => Bool.false_ne_true (no.symm.trans choice)
  · exact congrArg _ (requestArrives_eq _ _ _ id s taking (reqCallClose_phase (s := heard s) yes closed))
  · have stowage := closeCall_stowage c n s
    simp only [State.stowage, Prod.mk.injEq] at stowage
    obtain ⟨lanes, moment, lower, upper⟩ := stowage
    exact ⟨closeCall_standby c n s, lanes, moment, lower, upper, closeCall_voyage c n s,
      fun v => closeCall_none_due, closeCall_vehicles c n s, closeCall_link c n⟩

end

section
/-! O56: DISCHARGE_LANE, line by line of R152. -/

namespace Sys2Proof.Machine

variable {s : State} {l c n : Nat} {x : Lane}

/-! ### What R152 reads of the lane -/

theorem dueRun_eq (s : State) (x : Lane) (c : Nat) :
    s.dueRun x c = ((s.records x.stow).reverse.takeWhile fun v => decide (v.call = c)).length := rfl

theorem barringPanel_carrier {p : Nat} {y : Panel} (carried : s.carrier? x.sect = some (p, y))
    (idle : y.state ≠ .working) : s.barringPanel x = some (p, y.state) := by
  unfold State.barringPanel
  rw [carried, Option.filter_some, if_pos (by simpa using idle)]

/-- With the carrying panel WORKING, or none, the covering panel alone can be in the way. -/
theorem barringPanel_cover (works : ∀ p y, s.carrier? x.sect = some (p, y) → y.state = .working) :
    s.barringPanel x = (x.cover.bind fun k => (s.panel? k.panel).map fun y => (k.panel, y.state)).filter
      fun q => q.2.moving := by
  have free : ((s.carrier? x.sect).filter fun q => q.2.state != .working) = none := by
    rw [Option.filter_eq_none_iff]
    intro q carried
    simp [works q.1 q.2 carried]
  unfold State.barringPanel
  rw [free]

theorem barringPanel_covered {k : Cover} {y : Panel} (works : ∀ p y, s.carrier? x.sect = some (p, y) → y.state = .working)
    (cover : x.cover = some k) (hy : s.panel? k.panel = some y) :
    s.barringPanel x = if y.state.moving then some (k.panel, y.state) else none := by
  rw [barringPanel_cover works, cover, Option.bind_some, hy, Option.map_some, Option.filter_some]

theorem barringPanel_uncovered (works : ∀ p y, s.carrier? x.sect = some (p, y) → y.state = .working)
    (uncovered : x.cover = none) : s.barringPanel x = none := by
  rw [barringPanel_cover works, uncovered]
  rfl

/-! ### The lines of R152 from the lane's state on -/

theorem dischargeOpen_unloading (unloads : x.state = .unloading) :
    dischargeOpen l x c s = (s, ⟨.state, [0xFF#8, 0xFF#8]⟩) := by
  unfold dischargeOpen
  exact if_pos unloads

section
variable (rests : x.state ≠ .unloading)
include rests

theorem dischargeOpen_claims (claimed : x.claims ≠ []) :
    dischargeOpen l x c s = (s, ⟨.claims, u8 x.claims.length⟩) := by
  unfold dischargeOpen
  rw [if_neg rests, if_pos (by simpa using claimed)]

variable (unclaimed : x.claims = [])
include unclaimed

theorem dischargeOpen_direction (inbound : (s.ramp (s.rampOf x)).direction = .inbound) :
    dischargeOpen l x c s = (s, plain .direction) := by
  unfold dischargeOpen
  rw [if_neg rests, if_neg (by simp [unclaimed]), inbound]

variable (outbound : (s.ramp (s.rampOf x)).direction = .outbound)
include outbound

theorem dischargeOpen_barred {p : Nat} {st : PanelPos} (barred : s.barringPanel x = some (p, st)) :
    dischargeOpen l x c s = (s, ⟨.state, u8 p ++ u8 st.code⟩) := by
  unfold dischargeOpen
  rw [if_neg rests, if_neg (by simp [unclaimed]), outbound, barred]

variable (free : s.barringPanel x = none)
include free

/-- With nothing in the way the tail's call decides. -/
theorem dischargeOpen_free : dischargeOpen l x c s = if s.tailCall? x = some c
    then (s.updLane l Lane.beginUnloading, ⟨.ok, u8 (s.dueRun x c)⟩)
    else (s, ⟨.nothingDue, optU8 (s.lastCall? x)⟩) := by
  unfold dischargeOpen
  rw [if_neg rests, if_neg (by simp [unclaimed]), outbound, free]
  simp only [beq_iff_eq]

end

/-! ### The request -/

theorem reqDischargeLane_phase (l : Nat) (closed : ∀ c n, s.voyage ≠ .discharge c n ∧ s.voyage ≠ .load c n) :
    reqDischargeLane l s = (s, plain .phase) := by
  unfold reqDischargeLane
  cases voyage : s.voyage with
  | discharge c n => exact absurd voyage (closed c n).1
  | load c n => exact absurd voyage (closed c n).2
  | noVoyage | atSea c n => rfl

section
variable (atCall : s.voyage = .discharge c n ∨ s.voyage = .load c n)
include atCall

theorem reqDischargeLane_range (beyond : s.lane? l = none) : reqDischargeLane l s = (s, plain .range) := by
  unfold reqDischargeLane
  rcases atCall with voyage | voyage <;> simp only [voyage, beyond]

theorem reqDischargeLane_lane (hx : s.lane? l = some x) : reqDischargeLane l s = dischargeOpen l x c s := by
  unfold reqDischargeLane
  rcases atCall with voyage | voyage <;> simp only [voyage, hx]

end

/-- The command at an open call, taken at once, is what the lines of R152 answer for the lane. -/
theorem exec_dischargeLane {lt lane : Byte} {r : Reply} {change : State → State} (taking : Taking s)
    (atCall : s.voyage = .discharge c n ∨ s.voyage = .load c n) (hx : s.lane? lane.toNat = some x)
    (e : dischargeOpen lane.toNat x c (heard s) = (change (heard s), r)) :
    exec (.dischargeLane lt lane) s = .next (taken ⟨0x38#8, lt, [lane]⟩ r change s) :=
  congrArg _ (requestArrives_eq _ _ _ _ s taking ((reqDischargeLane_lane (s := heard s) atCall hx).trans e))

end Sys2Proof.Machine

open Sys2Proof Sys2Proof.Machine

/-- Settles O56: what R152 reads of the lane, the refusals before the lane, then its lines at an open call. -/
theorem laneDischarge : Obligations.LaneDischarge := by
  refine ⟨fun s x c => ⟨rfl, dueRun_eq s x c⟩, fun lt lane s taking => ⟨fun closed => ?_, fun c n atCall beyond => ?_⟩,
    fun s x => ⟨fun p y => barringPanel_carrier, fun k y => barringPanel_covered, barringPanel_uncovered⟩,
    fun lt lane s c n x taking atCall hx => ⟨fun unloads => ?_, fun rests claimed => ?_,
      fun rests unclaimed inbound => ?_, fun p st rests unclaimed outbound barred => ?_,
      fun rests unclaimed outbound free due => ?_, fun rests unclaimed outbound free other => ?_⟩⟩
  · exact congrArg _ (requestArrives_eq _ _ _ id s taking (reqDischargeLane_phase (s := heard s) _ closed))
  · exact congrArg _ (requestArrives_eq _ _ _ id s taking (reqDischargeLane_range (s := heard s) atCall beyond))
  · exact exec_dischargeLane (change := id) taking atCall hx (dischargeOpen_unloading unloads)
  · exact exec_dischargeLane (change := id) taking atCall hx (dischargeOpen_claims rests claimed)
  · exact exec_dischargeLane (change := id) taking atCall hx
      (dischargeOpen_direction rests unclaimed (by simpa using inbound))
  · exact exec_dischargeLane (change := id) taking atCall hx
      (dischargeOpen_barred rests unclaimed (by simpa using outbound) barred)
  · exact exec_dischargeLane (change := fun s => s.updLane lane.toNat Lane.beginUnloading) taking atCall hx
      ((dischargeOpen_free (s := heard s) rests unclaimed (by simpa using outbound) free).trans (if_pos due))
  · exact exec_dischargeLane (change := id) taking atCall hx
      ((dischargeOpen_free (s := heard s) rests unclaimed (by simpa using outbound) free).trans (if_neg other))

end

section
/-! O58: the record types of the profile, the draft requests and the reads of the profile. -/

namespace Sys2Proof.Machine

variable {s : State} {t : RecType} {ty i : Nat} {x : ProfRec}

/-! ### The record types (R174) -/

theorem RecType.ofCode_iff (n : Nat) (t : RecType) : RecType.ofCode n = some t ↔ t.code = n := by
  constructor
  · unfold RecType.ofCode
    split <;> rintro ⟨⟩ <;> rfl
  · rintro rfl
    cases t <;> rfl

theorem RecType.certified_iff (t : RecType) :
    t.certified = true ↔ t = .vessel ∨ t = .sect ∨ t = .ramp ∨ t = .dg := by
  cases t <;> simp [RecType.certified]

/-- The fields of every type are 2 to 12 bytes: the bodies of DRAFT_PUT that R192 allows leave none out. -/
theorem RecType.lengthOk_bounds {n : Nat} (ok : t.lengthOk n = true) : 2 ≤ n ∧ n ≤ 12 := by
  cases t <;> simp [RecType.lengthOk] at ok <;> omega

theorem findRec_eq (rs : List ProfRec) (t : RecType) (i : Nat) :
    findRec rs t i = rs.find? fun x => decide (x.type = t ∧ x.index = i) := by
  unfold findRec
  congr 1
  funext x
  simp [Bool.beq_eq_decide_eq]

theorem keyType_inside (listed : RecType.ofCode ty = some t) (inside : t.indexOk i = true) : keyType ty i = some t := by
  unfold keyType
  rw [listed, Option.filter_some, if_pos inside]

theorem keyType_outside (outside : ∀ t, RecType.ofCode ty = some t → t.indexOk i = false) : keyType ty i = none :=
  Option.filter_eq_none_iff.2 fun t listed => by simp [outside t listed]

/-! ### While a commit runs -/

section
variable (writing : s.profile.isCommitting = true)
include writing

theorem reqDraftPut_busy (fs : List Byte) : reqDraftPut ty i fs s = (s, plain .busy) := if_pos writing

theorem reqDraftClear_busy : reqDraftClear s = (s, plain .busy) := if_pos writing

theorem reqDraftGet_busy : reqDraftGet ty i s = (s, plain .busy) := if_pos writing

theorem reqProfileLock_busy : reqProfileLock s = (s, plain .busy) := by
  unfold reqProfileLock
  cases profile : s.profile with
  | committing _ => rfl
  | none | active => rw [profile] at writing; cases writing

theorem reqProfileGet_busy : reqProfileGet ty i s = (s, plain .busy) := if_pos writing

end

/-! ### PROFILE_LOCK (R182) -/

theorem reqProfileLock_none (without : s.profile = .none) : reqProfileLock s = (s, plain .state) := by
  unfold reqProfileLock
  rw [without]

theorem reqProfileLock_active (active : s.profile = .active) :
    reqProfileLock s = ({ s with store := { s.store with locked := true } }, plain .ok) := by
  unfold reqProfileLock
  rw [active]

/-! ### The keys that PROFILE_GET reports (R183) -/

theorem reports_iff : s.reports t i = true ↔
    s.profile = .active ∧ required s.store.records t i = true ∨
      s.profile = .none ∧ s.store.locked = true ∧ t.certified = true := by
  unfold State.reports
  cases s.profile <;> simp

/-- A key that PROFILE_GET reports is reported in ACTIVE or NONE, so no commit runs. -/
theorem reports_quiet (reported : s.reports t i = true) : s.profile.isCommitting = false := by
  rcases reports_iff.1 reported with ⟨profile, -⟩ | ⟨profile, -⟩ <;> rw [profile] <;> rfl

theorem reports_hidden
    (hidden : (s.profile = .active ∧ required s.store.records t i = false) ∨
      (s.profile = .none ∧ (s.store.locked = false ∨ t.certified = false))) : s.reports t i = false := by
  unfold State.reports
  rcases hidden with ⟨profile, extra⟩ | ⟨profile, free | uncertified⟩
  · simp [profile, extra]
  · simp [profile, free]
  · simp [profile, uncertified]

/-! ### The draft requests and PROFILE_GET while no commit runs -/

section
variable (quiet : s.profile.isCommitting = false)
include quiet

theorem reqDraftClear_ok : reqDraftClear s = ({ s with draft := [] }, ⟨.ok, [0#8, 0#8, 0#8]⟩) := by
  unfold reqDraftClear
  rw [quiet]
  rfl

section
variable (outside : keyType ty i = none)
include outside

theorem reqDraftPut_outside (fs : List Byte) : reqDraftPut ty i fs s = (s, plain .range) := by
  unfold reqDraftPut
  rw [quiet, outside]
  rfl

theorem reqDraftGet_outside : reqDraftGet ty i s = (s, plain .range) := by
  unfold reqDraftGet
  rw [quiet, outside]
  rfl

theorem reqProfileGet_outside : reqProfileGet ty i s = (s, plain .range) := by
  unfold reqProfileGet
  rw [quiet, outside]
  rfl

end

section
variable (key : keyType ty i = some t)
include key

theorem reqDraftPut_badLength {fs : List Byte} (bad : t.lengthOk fs.length = false) :
    reqDraftPut ty i fs s = (s, plain .range) := by
  unfold reqDraftPut
  simp [quiet, key, bad]

theorem reqDraftPut_full {fs : List Byte} (ok : t.lengthOk fs.length = true) (new : findRec s.draft t i = none)
    (full : 160 ≤ s.draft.length) : reqDraftPut ty i fs s = (s, plain .full) := by
  unfold reqDraftPut
  simp [quiet, key, ok, new, Config.draftCapacity, full]

theorem reqDraftPut_ok {fs : List Byte} (ok : t.lengthOk fs.length = true)
    (room : (findRec s.draft t i).isSome = true ∨ s.draft.length < 160) :
    reqDraftPut ty i fs s = ({ s with draft := putRec ⟨t, i, fs⟩ s.draft },
      ⟨.ok, draftFigures (putRec ⟨t, i, fs⟩ s.draft)⟩) := by
  have fits : ((findRec s.draft t i).isNone && decide (Config.draftCapacity ≤ s.draft.length)) = false :=
    Bool.and_eq_false_iff.2 (room.imp Option.isNone_eq_false_iff.2 fun room => decide_eq_false (Nat.not_le.2 room))
  unfold reqDraftPut
  simp [quiet, key, ok, fits]

theorem reqDraftGet_absent (absent : findRec s.draft t i = none) : reqDraftGet ty i s = (s, plain .notFound) := by
  unfold reqDraftGet
  simp [quiet, key, absent]

theorem reqDraftGet_found (found : findRec s.draft t i = some x) :
    reqDraftGet ty i s = (s, ⟨.ok, draftFigures s.draft ++ x.sent⟩) := by
  unfold reqDraftGet
  simp [quiet, key, found]

theorem reqProfileGet_absent (absent : findRec s.store.records t i = none ∨ s.reports t i = false) :
    reqProfileGet ty i s = (s, ⟨.notFound, s.store.figures⟩) := by
  unfold reqProfileGet
  rcases absent with absent | hidden
  · simp [quiet, key, absent]
  · simp [quiet, key, hidden]

omit quiet in
theorem reqProfileGet_found (reported : s.reports t i = true) (found : findRec s.store.records t i = some x) :
    reqProfileGet ty i s = (s, ⟨.ok, s.store.figures ++ x.sent⟩) := by
  unfold reqProfileGet
  simp [reports_quiet reported, key, reported, found]

end

end

/-! ### The commands, taken at once -/

theorem serveDraftPut_eq (ty i : Byte) (fs : List Byte) (s : State) : serveDraftPut (ty :: i :: fs) s =
    if 2 ≤ fs.length ∧ fs.length ≤ 12 then reqDraftPut ty.toNat i.toNat fs s else (s, plain .range) := by
  simp only [serveDraftPut, Bool.and_eq_true, decide_eq_true_eq]
  split <;> rfl

/-- A body of a length that R192 refuses is answered as one that the type refuses. -/
theorem serveDraftPut_range {ty i : Byte} {fs : List Byte}
    (refused : reqDraftPut ty.toNat i.toNat fs s = (s, plain .range)) :
    serveDraftPut (ty :: i :: fs) s = (s, plain .range) := by
  rw [serveDraftPut_eq, refused, ite_self]

section
variable {lt ty i : Byte} {fs : List Byte} {r : Reply} {change : State → State} (taking : Taking s)
include taking

theorem exec_draftPut (e : serveDraftPut (ty :: i :: fs) (heard s) = (change (heard s), r)) :
    exec (.draftPut lt ty i fs) s = .next (taken ⟨0x40#8, lt, [ty, i] ++ fs⟩ r change s) :=
  congrArg _ (requestArrives_eq _ _ _ _ s taking e)

theorem exec_draftPut_fits (bounds : 2 ≤ fs.length ∧ fs.length ≤ 12)
    (e : reqDraftPut ty.toNat i.toNat fs (heard s) = (change (heard s), r)) :
    exec (.draftPut lt ty i fs) s = .next (taken ⟨0x40#8, lt, [ty, i] ++ fs⟩ r change s) :=
  exec_draftPut taking ((serveDraftPut_eq ty i fs _).trans ((if_pos bounds).trans e))

theorem exec_draftClear (e : reqDraftClear (heard s) = (change (heard s), r)) :
    exec (.draftClear lt) s = .next (taken ⟨0x41#8, lt, []⟩ r change s) :=
  congrArg _ (requestArrives_eq _ _ _ _ s taking e)

theorem exec_draftGet (e : reqDraftGet ty.toNat i.toNat (heard s) = (heard s, r)) :
    exec (.draftGet lt ty i) s = .next (taken ⟨0x42#8, lt, [ty, i]⟩ r id s) :=
  congrArg _ (requestArrives_eq _ _ _ id s taking e)

theorem exec_profileLock (e : reqProfileLock (heard s) = (change (heard s), r)) :
    exec (.profileLock lt) s = .next (taken ⟨0x44#8, lt, []⟩ r change s) :=
  congrArg _ (requestArrives_eq _ _ _ _ s taking e)

theorem exec_profileGet (e : reqProfileGet ty.toNat i.toNat (heard s) = (heard s, r)) :
    exec (.profileGet lt ty i) s = .next (taken ⟨0x45#8, lt, [ty, i]⟩ r id s) :=
  congrArg _ (requestArrives_eq _ _ _ id s taking e)

end

end Sys2Proof.Machine

open Sys2Proof Sys2Proof.Machine

/-- Settles O58: the records and their types, BUSY, what each request answers, and the refusals. -/
theorem draftAndProfileReads : Obligations.DraftAndProfileReads := by
  refine ⟨fun rs t i x => ⟨rfl, rfl, findRec_eq rs t i⟩,
    ⟨rfl, RecType.ofCode_iff, fun t i n => ⟨?_, ?_, t.certified_iff⟩⟩,
    fun lt ty i fs s taking => ⟨fun writing => ?_,
      fun t quiet listed inside ok => ⟨fun room => ?_, fun new full => ?_⟩,
      fun quiet => ?_, fun t x quiet listed inside found => ?_, fun active => ?_,
      fun t x reported listed inside found => ?_, fun without => ?_, fun quiet unlisted => ?_,
      fun t quiet listed inside => ⟨fun bad => ?_, fun absent => ?_, fun hidden => ?_⟩⟩⟩
  · cases t <;> simp [RecType.indexOk]
  · cases t <;> simp [RecType.lengthOk]
  · exact ⟨fun long short => exec_draftPut_fits (change := id) taking ⟨long, short⟩
        (reqDraftPut_busy (s := heard s) writing fs),
      exec_draftClear (change := id) taking (reqDraftClear_busy (s := heard s) writing),
      exec_draftGet taking (reqDraftGet_busy (s := heard s) writing),
      exec_profileLock (change := id) taking (reqProfileLock_busy (s := heard s) writing),
      exec_profileGet taking (reqProfileGet_busy (s := heard s) writing)⟩
  · exact exec_draftPut_fits (change := fun s => { s with draft := putRec ⟨t, i.toNat, fs⟩ s.draft }) taking
      (RecType.lengthOk_bounds ok) (reqDraftPut_ok (s := heard s) quiet (keyType_inside listed inside) ok room)
  · exact exec_draftPut_fits (change := id) taking (RecType.lengthOk_bounds ok)
      (reqDraftPut_full (s := heard s) quiet (keyType_inside listed inside) ok new full)
  · exact exec_draftClear (change := fun s => { s with draft := [] }) taking (reqDraftClear_ok (s := heard s) quiet)
  · exact exec_draftGet taking (reqDraftGet_found (s := heard s) quiet (keyType_inside listed inside) found)
  · exact exec_profileLock (change := fun s => { s with store := { s.store with locked := true } }) taking
      (reqProfileLock_active (s := heard s) active)
  · exact exec_profileGet taking (reqProfileGet_found (s := heard s) (keyType_inside listed inside)
      (reports_iff.2 reported) found)
  · exact exec_profileLock (change := id) taking (reqProfileLock_none (s := heard s) without)
  · have outside := keyType_outside unlisted
    exact ⟨exec_draftPut (change := id) taking
        (serveDraftPut_range (reqDraftPut_outside (s := heard s) quiet outside fs)),
      exec_draftGet taking (reqDraftGet_outside (s := heard s) quiet outside),
      exec_profileGet taking (reqProfileGet_outside (s := heard s) quiet outside)⟩
  · exact exec_draftPut (change := id) taking
      (serveDraftPut_range (reqDraftPut_badLength (s := heard s) quiet (keyType_inside listed inside) bad))
  · exact exec_draftGet taking (reqDraftGet_absent (s := heard s) quiet (keyType_inside listed inside) absent)
  · exact exec_profileGet taking (reqProfileGet_absent (s := heard s) quiet (keyType_inside listed inside)
      (hidden.imp_right (reports_hidden (s := heard s))))

end

section
/-! O10, O19 and O21: the bytes of numbers and frames, one byte at the receiver, and the command a frame carries. -/

namespace Sys2Proof.Machine

variable {s : State} {b : Byte} {len : Nat} {got : List Byte}

/-! ### Numbers and check values in bytes (R184, R192) -/

theorem ofBe_snoc (bs : List Byte) (b : Byte) : ofBe (bs ++ [b]) = ofBe bs * 256 + b.toNat := by
  simp [ofBe, List.foldl_append]

theorem ofBe_be (n v : Nat) (fits : v < 256 ^ n) : ofBe (be n v) = v := by
  induction n generalizing v with
  | zero => exact (Nat.lt_one_iff.1 fits).symm
  | succ n ih =>
    have high : v / 256 < 256 ^ n := Nat.div_lt_of_lt_mul (by rwa [← Nat.pow_succ'])
    rw [be, ofBe_snoc, ih _ high, BitVec.toNat_ofNat]
    exact Nat.div_add_mod' v 256

/-- A word of `n` bytes is the number that its bytes spell. -/
theorem ofBe_be_word (n : Nat) (v : BitVec (8 * n)) : ofBe (be n v.toNat) = v.toNat :=
  ofBe_be n _ (by simpa [Nat.pow_mul] using v.isLt)

theorem ofNat_ofBe_pair (hi lo : Byte) : BitVec.ofNat 16 (ofBe [hi, lo]) = hi ++ lo := by
  apply BitVec.eq_of_toNat_eq
  have := hi.isLt
  have := lo.isLt
  rw [BitVec.toNat_append, ← Nat.shiftLeft_add_eq_or_of_lt lo.isLt, Nat.shiftLeft_eq, BitVec.toNat_ofNat]
  simp only [ofBe, List.foldl_cons, List.foldl_nil]
  omega

/-- The two CRC bytes, high byte first, are the CRC. -/
theorem append_check_bytes (c : BitVec 16) : BitVec.ofNat 8 (c.toNat / 256) ++ BitVec.ofNat 8 c.toNat = c := by
  rw [← ofNat_ofBe_pair]
  exact (congrArg (BitVec.ofNat 16) (ofBe_be_word 2 c)).trans (by simp)

theorem crc_snoc (bs : List Byte) (b : Byte) : crc (bs ++ [b]) = crcByte (crc bs) b := List.foldl_append

/-! ### The command of a frame (R186, 11.6) -/

theorem serveArrive_bytes (tag : BitVec 32) (mass : BitVec 16) (cls len height axle call flags : Byte)
    (rest : List Byte) :
    serveArrive (be 4 tag.toNat ++ [cls, len, height] ++ be 2 mass.toNat ++ [axle, call, flags] ++ rest) =
      reqArrive ⟨tag.toNat, cls.toNat, len.toNat, height.toNat, mass.toNat, axle.toNat, call.toNat, flags.toNat,
        rest⟩ := by
  show reqArrive ⟨ofBe (be 4 tag.toNat), cls.toNat, len.toNat, height.toNat, ofBe (be 2 mass.toNat), axle.toNat,
    call.toNat, flags.toNat, rest⟩ = _
  rw [ofBe_be_word 4 tag, ofBe_be_word 2 mass]

theorem serveClosureSet_bytes (a b : BitVec 24) (carried select enable glob : Byte) :
    serveClosureSet ([carried] ++ be 3 a.toNat ++ be 3 b.toNat ++ [select, enable, glob]) =
      reqClosureSet carried.toNat a.toNat b.toNat select.toNat enable.toNat glob.toNat := by
  show reqClosureSet carried.toNat (ofBe (be 3 a.toNat)) (ofBe (be 3 b.toNat)) select.toNat enable.toNat glob.toNat = _
  rw [ofBe_be_word 3 a, ofBe_be_word 3 b]

/-- A request command is the arrival of its frame: kind and body decode to the request it asks for. -/
theorem exec_request {i : Instr} {f : Frame} (request : i.request? = some f) (s : State) :
    exec i s = .next (requestArrives f (serve f) s) := by
  have arrives {f : Frame} {h g : Handler} (e : h = g) :
      (.next (requestArrives f h s) : Next) = .next (requestArrives f g s) := by rw [e]
  cases i
  case arrive lt tag cls len height mass axle call flags rest =>
    cases request; exact arrives (serveArrive_bytes tag mass cls len height axle call flags rest).symm
  case recallVehicle lt tag => cases request; exact arrives (congrArg reqRecall (ofBe_be_word 4 tag).symm)
  case vehicleGet lt tag => cases request; exact arrives (congrArg reqVehicleGet (ofBe_be_word 4 tag).symm)
  case confirm lt tag lane =>
    cases request; exact arrives (congrArg (reqConfirm · lane.toNat) (ofBe_be_word 4 tag).symm)
  case depart lt tag => cases request; exact arrives (congrArg reqDepart (ofBe_be_word 4 tag).symm)
  case runPair lt ramp light heavy stall => cases request; cases stall <;> rfl
  case closureSet lt car a b sel en g =>
    cases request; exact arrives (serveClosureSet_bytes a b car sel en g).symm
  case profileCommit lt n sum =>
    cases request; exact arrives (congrArg (reqProfileCommit n.toNat) (ofBe_be_word 2 sum).symm)
  all_goals cases request <;> rfl

/-- The body of a well-formed request command fits a frame. -/
theorem request_fits {i : Instr} {f : Frame} (wellFormed : i.wellFormed = true) (request : i.request? = some f) :
    f.body.length ≤ 240 := by
  cases i
  case arrive => exact Laws.Encoding.arrive _ _ _ _ _ _ _ _ _ _ wellFormed f request
  case runPair => exact Laws.Encoding.runPair _ _ _ _ _ wellFormed f request
  case draftPut => exact Laws.Encoding.draftPut _ _ _ _ wellFormed f request
  case unknownKind => exact Laws.Encoding.unknownKind _ _ _ wellFormed f request
  all_goals cases request <;> simp

/-! ### One byte at the receiver (R184) -/

theorem setRx_setRx (x y : Rx) (s : State) : setRx x (setRx y s) = setRx x s := rfl

theorem setRx_same {x : Rx} (same : s.link.rx = x) : setRx x s = s := by
  rw [← same]
  rfl

theorem reject_waits {f : Frame} (waits : s.link.waitingRejection = some f) (r : Result) : reject r s = s := by
  simp only [reject, State.updLink, waits]

theorem reject_free (free : s.link.waitingRejection = none) (r : Result) : reject r s = s.updLink fun k =>
    { k with
      waitingRejection := some ⟨0xEF#8, 0#8, u8 r.code ++ u8 k.flagBits⟩
      overrun := false, noticesLost := false, rejectionFirst := decide (k.waitingReply = none) } := by
  simp only [reject, State.updLink, free]
  cases s.link.waitingReply <;> rfl

theorem rxByte_start (hunt : s.link.rx = .hunt) : rxByte s 0xC3#8 = setRx .length s := by
  unfold rxByte
  rw [hunt]
  rfl

theorem rxByte_noise (hunt : s.link.rx = .hunt) (other : b ≠ 0xC3#8) : rxByte s b = s := by
  unfold rxByte
  rw [hunt]
  exact if_neg other

theorem rxByte_length (length : s.link.rx = .length) : rxByte s b =
    if 2 ≤ b.toNat ∧ b.toNat ≤ 242 then setRx (.data b.toNat []) s
    else kick (reject .rejLength (setRx .hunt s)) := by
  unfold rxByte
  simp only [length, Bool.and_eq_true, decide_eq_true_eq]

theorem rxByte_data (data : s.link.rx = .data len got) : rxByte s b =
    if got.length + 1 = len + 2 then frameComplete len (got ++ [b]) (setRx .hunt s)
    else setRx (.data len (got ++ [b])) s := by
  unfold rxByte
  simp only [data, List.length_append, List.length_singleton]

/-- Bytes that do not fill the frame are stored in order. -/
theorem foldl_rxByte_data : ∀ (bs got : List Byte) (s : State), s.link.rx = .data len got →
    got.length + bs.length < len + 2 → bs.foldl rxByte s = setRx (.data len (got ++ bs)) s
  | [], got, s, data, _ => by rw [List.append_nil, setRx_same data, List.foldl_nil]
  | b :: bs, got, s, data, short => by
    rw [List.length_cons] at short
    rw [List.foldl_cons, rxByte_data data, if_neg (by omega),
      foldl_rxByte_data bs (got ++ [b]) _ rfl (by simp; omega), setRx_setRx, List.append_assoc]
    rfl

/-- The last CRC byte: the frame arrives if the check value is that of its bytes, else it is rejected. -/
theorem frameComplete_eq (kind tag hi lo : Byte) (body : List Byte) (s : State) :
    frameComplete (body.length + 2) (kind :: tag :: body ++ [hi] ++ [lo]) s =
      if crc (BitVec.ofNat 8 (body.length + 2) :: kind :: tag :: body) = hi ++ lo
      then requestArrives ⟨kind, tag, body⟩ (serve ⟨kind, tag, body⟩) s else kick (reject .check s) := by
  have data : (kind :: tag :: body ++ [hi] ++ [lo]).take (body.length + 2) = kind :: tag :: body := by simp
  have check : (kind :: tag :: body ++ [hi] ++ [lo]).drop (body.length + 2) = [hi, lo] := by simp
  unfold frameComplete
  rw [data, check, ofNat_ofBe_pair]

/-! ### The bytes of a frame (R184) -/

theorem rxBytes_up (up : s.power = .up) (bs : List Byte) : rxBytes bs s = bs.foldl rxByte s := by
  unfold rxBytes
  rw [up]

theorem rxBytes_down (down : s.power ≠ .up) (bs : List Byte) : rxBytes bs s = s := by
  unfold rxBytes
  split
  · exact absurd ‹_› down
  all_goals rfl

/-- The last two bytes of a frame are its check value. -/
theorem Frame.bytes_eq (f : Frame) : ∃ hi lo : Byte, hi ++ lo = crc f.covered ∧ f.bytes =
    0xC3#8 :: BitVec.ofNat 8 (f.body.length + 2) :: (f.kind :: f.tag :: f.body ++ [hi] ++ [lo]) :=
  ⟨_, _, append_check_bytes (crc f.covered), by simp [Frame.bytes, Frame.covered, be]⟩

/-- Start byte, length, data and check value, one byte after another from HUNT. -/
theorem foldl_rxByte_frame (kind tag hi lo : Byte) (body : List Byte) (fits : body.length ≤ 240)
    (hunt : s.link.rx = .hunt) :
    (0xC3#8 :: BitVec.ofNat 8 (body.length + 2) :: (kind :: tag :: body ++ [hi] ++ [lo])).foldl rxByte s =
      if crc (BitVec.ofNat 8 (body.length + 2) :: kind :: tag :: body) = hi ++ lo
      then requestArrives ⟨kind, tag, body⟩ (serve ⟨kind, tag, body⟩) s else kick (reject .check s) := by
  have length : (BitVec.ofNat 8 (body.length + 2)).toNat = body.length + 2 := by
    rw [BitVec.toNat_ofNat]
    exact Nat.mod_eq_of_lt (by omega)
  have opened : rxByte (setRx .length s) (BitVec.ofNat 8 (body.length + 2)) = setRx (.data (body.length + 2) []) s := by
    rw [rxByte_length rfl, length, if_pos ⟨by omega, by omega⟩, setRx_setRx]
  have stored := foldl_rxByte_data (kind :: tag :: body ++ [hi]) [] (setRx (.data (body.length + 2) []) s) rfl (by simp)
  rw [List.foldl_cons, rxByte_start hunt, List.foldl_cons, opened, List.foldl_append, stored, List.foldl_cons,
    List.foldl_nil, rxByte_data rfl, if_pos (by simp), setRx_setRx, setRx_setRx, setRx_same hunt]
  exact frameComplete_eq kind tag hi lo body s

/-- The bytes of a frame that fits the line, received in HUNT, are its arrival. -/
theorem rxBytes_frame (f : Frame) (fits : f.body.length ≤ 240) (hunt : s.link.rx = .hunt) :
    rxBytes f.bytes s = requestArrives f (serve f) s := by
  by_cases up : s.power = .up
  · obtain ⟨hi, lo, check, bytes⟩ := f.bytes_eq
    rw [rxBytes_up up, bytes, foldl_rxByte_frame f.kind f.tag hi lo f.body fits hunt]
    exact if_pos check.symm
  · rw [rxBytes_down up, requestArrives_down _ _ _ up]

/-! ### The commands of the line -/

theorem exec_frameReceive_one (up : s.power = .up) (b : Byte) : exec (.frameReceive [b]) s = .next (rxByte s b) :=
  congrArg _ (rxBytes_up up [b])

theorem dropPartial_up (up : s.power = .up) : dropPartial s = setRx .hunt s := by
  unfold dropPartial
  rw [up]

end Sys2Proof.Machine

open Sys2Proof Sys2Proof.Machine

/-- Settles O10: the bytes of a frame, and what they do at a receiver in HUNT. -/
theorem frameIsCommand : Obligations.FrameIsCommand := by
  refine ⟨fun f => rfl, fun i f s wellFormed request hunt => ?_⟩
  rw [exec_request request]
  exact congrArg _ (rxBytes_frame f (request_fits wellFormed request) hunt)

/-- Settles O19: a rejection made ready, the check value, and one byte in each state of the receiver. -/
theorem receiverBytes : Obligations.ReceiverBytes := by
  refine ⟨fun r s => ⟨fun f waits => reject_waits waits r, fun free => reject_free free r⟩, ⟨rfl, rfl⟩,
    ⟨rfl, crc_snoc, by decide +kernel⟩, fun b s up => ?_⟩
  rw [exec_frameReceive_one up]
  refine ⟨fun hunt other => congrArg _ (rxByte_noise hunt other), ?_,
    fun length low high => congrArg _ ((rxByte_length length).trans (if_pos ⟨low, high⟩)),
    fun length bad => congrArg _ ((rxByte_length length).trans (if_neg (by omega))),
    fun len got data short => congrArg _ ((rxByte_data data).trans (if_neg short)), ?_⟩
  · rintro hunt rfl
    exact congrArg _ (rxByte_start hunt)
  · rintro _ body kind tag hi lo data rfl rfl
    exact congrArg _ ((rxByte_data data).trans ((if_pos (by simp)).trans (frameComplete_eq _ _ _ _ _ _)))

/-- Settles O21: in every state of the receiver it goes to HUNT, and nothing else changes. -/
theorem partialFrameDropped : Obligations.PartialFrameDropped :=
  fun _ up => ⟨congrArg _ (dropPartial_up up), congrArg _ (dropPartial_up up)⟩

end

section
/-! O3, O11, O14, O15, O17 and O20: a request that is taken, waits or is dropped, its reply, and the link port's own
requests. -/

namespace Sys2Proof.Machine

variable {s : State} {f : Frame}

/-! ### The transmitter (R186, R188) -/

theorem sendingReply_iff (k : Link) : k.sendingReply = true ↔ ∃ f, k.inProgress = some ⟨.reply, f⟩ := by
  unfold Link.sendingReply
  split <;> simp_all

theorem sendingReply_idle {k : Link} (idle : k.inProgress = none) : k.sendingReply = false := by
  unfold Link.sendingReply
  rw [idle]

theorem canTake_iff (k : Link) : k.canTake = true ↔ k.waitingReply = none ∧ k.sendingReply = false := by
  simp [Link.canTake]

theorem canTake_of_waitingReply {k : Link} (waits : k.waitingReply = some f) : k.canTake = false := by
  simp [Link.canTake, waits]

/-- The transmitter starts what waits: of reply and rejection the one made ready first, else the head of the notice
queue, else nothing. -/
theorem startNext_cases (k : Link) :
    (∃ f, k.waitingReply = some f ∧ (k.waitingRejection = none ∨ k.rejectionFirst = false) ∧ k.startNext =
      { k with inProgress := some ⟨.reply, f⟩, waitingReply := none, rejectionFirst := false }) ∨
    (∃ g, k.waitingRejection = some g ∧ (k.waitingReply = none ∨ k.rejectionFirst = true) ∧ k.startNext =
      { k with inProgress := some ⟨.rejection, g⟩, waitingRejection := none, rejectionFirst := false }) ∨
    (∃ n ns, k.waitingReply = none ∧ k.waitingRejection = none ∧ k.notices = n :: ns ∧ k.startNext =
      { k with inProgress := some ⟨.notice, n.frame⟩, notices := ns }) ∨
    (k.waitingReply = none ∧ k.waitingRejection = none ∧ k.notices = [] ∧ k.startNext = k) := by
  obtain ⟨_, _, _, _ | f, _ | g, _ | _, _ | ⟨n, ns⟩, _, _, _, _, _, _⟩ := k <;> simp [Link.startNext]

theorem startNext_keeps (k : Link) : k.startNext.rxBuf = k.rxBuf ∧ k.startNext.quiet = k.quiet := by
  rcases startNext_cases k with ⟨f, -, -, e⟩ | ⟨g, -, -, e⟩ | ⟨n, ns, -, -, -, e⟩ | ⟨-, -, -, e⟩ <;> rw [e] <;>
    exact ⟨rfl, rfl⟩

theorem kick_idle (idle : s.link.inProgress = none) (awake : s.link.quiet = false) :
    kick s = s.updLink Link.startNext := by
  unfold kick
  rw [idle, awake]
  rfl

theorem kick_quiet (quiet : s.link.quiet = true) : kick s = s := by
  unfold kick
  simp [quiet]

/-- Either the line is idle after the quiet and starts its next frame, or nothing is started. -/
theorem kick_cases (s : State) :
    s.link.inProgress = none ∧ s.link.quiet = false ∧ kick s = s.updLink Link.startNext ∨
    (s.link.inProgress ≠ none ∨ s.link.quiet = true) ∧ kick s = s := by
  by_cases idle : s.link.inProgress = none
  · cases quiet : s.link.quiet
    · exact .inl ⟨idle, rfl, kick_idle idle quiet⟩
    · exact .inr ⟨.inr rfl, kick_quiet quiet⟩
  · exact .inr ⟨.inl idle, kick_busy s idle⟩

/-- A reply that waits alone goes out on an idle line. -/
theorem kick_reply (idle : s.link.inProgress = none) (awake : s.link.quiet = false)
    (reply : s.link.waitingReply = some f) (alone : s.link.waitingRejection = none) : kick s = s.updLink fun k =>
      { k with inProgress := some ⟨.reply, f⟩, waitingReply := none, rejectionFirst := false } := by
  rw [kick_idle idle awake]
  simp only [State.updLink, Link.startNext, reply, alone]

/-! ### A frame that may not be taken (R185, R186) -/

/-- While a reply waits or is being sent the buffer keeps its head. -/
theorem takeHead_busy (busy : s.link.canTake = false) : takeHead s = s := by
  unfold takeHead
  rw [busy]
  split <;> rfl

/-- A frame joins the buffer at the tail, or is discarded with OVERRUN set. -/
theorem bufferFrame_cases (f : Frame) (s : State) :
    s.link.rxBuf.length < 4 ∧ bufferFrame f s = s.updLink (fun k => { k with rxBuf := k.rxBuf ++ [f] }) ∨
    4 ≤ s.link.rxBuf.length ∧ bufferFrame f s = s.updLink (fun k => { k with overrun := true }) := by
  by_cases room : s.link.rxBuf.length < 4
  · exact .inl ⟨room, by simp only [bufferFrame, State.updLink, Config.rxCapacity, room, if_true]⟩
  · exact .inr ⟨Nat.not_lt.1 room, by simp only [bufferFrame, State.updLink, Config.rxCapacity, room, if_false]⟩

theorem bufferFrame_sends (f : Frame) (s : State) : (bufferFrame f s).link.canTake = s.link.canTake ∧
    (bufferFrame f s).link.inProgress = s.link.inProgress := by
  rcases bufferFrame_cases f s with ⟨-, e⟩ | ⟨-, e⟩ <;> rw [e] <;> exact ⟨rfl, rfl⟩

theorem requestArrives_busy (up : s.power = .up) (busy : s.link.canTake = false) (f : Frame) (h : Handler) :
    requestArrives f h s = bufferFrame f (hearFrame s) := by
  have waits : (hearFrame s).link.canTake = false := busy
  unfold requestArrives
  rw [up]
  dsimp only
  rw [waits, Bool.and_false, if_neg Bool.false_ne_true, takeHead_busy ((bufferFrame_sends f _).1.trans waits)]

/-! ### The reply of a request that is taken (R186 to R188) -/

/-- The sweep and the outputs that close an event stay within it. -/
theorem handled_end {t : State} (h : Handled s t) : Handled s (refresh (sweepIfDue t)) := by
  obtain ⟨due, within⟩ := h
  exact ⟨due, refresh_within (sweepIfDue_within within)⟩

/-- On an idle line the reply of a request goes out at once. -/
theorem taken_link {r : Reply} {g : State → State} (handled : Handled (heard s) (g (heard s)))
    (idle : s.link.inProgress = none) (alone : s.link.waitingRejection = none) :
    ∃ k : Link, (taken f r g s).link = { k with
        inProgress := some ⟨.reply, replyFrame f r k⟩, waitingReply := none, rejectionFirst := false
        overrun := false, noticesLost := false } ∧
      k.overrun = s.link.overrun ∧ (s.link.noticesLost = true → k.noticesLost = true) ∧
      s.link.notices <+: k.notices := by
  obtain ⟨due, within⟩ := handled_end handled
  exact ⟨(refresh (sweepIfDue (g (heard s)))).link,
    congrArg State.link (kick_reply (s := readyReply f r (refresh (sweepIfDue (g (heard s)))))
      (within.inProgress.trans idle) within.quiet rfl (within.waitingRejection.trans alone)),
    within.overrun, within.lost, within.notices⟩

/-! ### Kinds that are none of 11.6 (R186) -/

theorem requestTable_kinds : requestTable.map Prod.fst = requestKinds := rfl

theorem serve_unknown (unlisted : f.kind.toNat ∉ requestKinds) : serve f = reqUnknown := by
  unfold serve serveBody
  cases row : requestTable.lookup f.kind.toNat with
  | none => rfl
  | some h =>
    rw [← requestTable_kinds] at unlisted
    exact absurd (List.mem_map_of_mem (mem_of_lookup row)) unlisted

/-! ### STATUS and RESET (R189, R190) -/

theorem statusFields_eq (s : State) : s.statusFields =
    u8 s.causes.bits ++ u8 (if s.stowKept then 1 else 0) ++ u8 s.profile.code ++ be 2 s.store.generation
      ++ u8 (if s.store.locked then 1 else 0) ++ (u8 s.voyage.code ++ optU8 s.voyage.call? ++ optU8 s.voyage.last?)
      ++ [Ramp.lower, Ramp.upper].flatMap (fun r => (s.ramp r).status)
      ++ be 2 s.vehicles.length ++ u8 s.standby.length ++ u8 s.link.notices.length := by
  simp [State.statusFields, Store.figures, flag]

theorem reqStatus_range {n : Nat} (other : 1 < n) : reqStatus n s = (s, plain .range) := by
  obtain ⟨n, rfl⟩ := Nat.exists_eq_add_of_le' other
  rfl

/-- The end of the RESET reply, however it is reported, performs the reset. -/
theorem frameEnds_reset (up : s.power = .up) (due : s.link.resetDue = true) (sending : s.link.sendingReply = true) :
    frameEnds s = resetNow .request s := by
  have ready : s.link.resetReady = true := by simp [Link.resetReady, due, sending]
  obtain ⟨f, reply⟩ := (sendingReply_iff _).1 sending
  unfold frameEnds
  rw [up, reply]
  exact if_pos ready

theorem exec_requestReset (up : s.power = .up) (due : s.link.resetDue = true) (sending : s.link.sendingReply = true) :
    exec .requestReset s = .next (resetNow .request s) := by
  have ready : s.link.resetReady = true := by simp [Link.resetReady, due, sending]
  show execRequestReset s = _
  unfold execRequestReset
  rw [up, if_pos ready]

end Sys2Proof.Machine

open Sys2Proof Sys2Proof.Machine

/-- Settles O20: the frame waits in the buffer, and nothing is taken from it. -/
theorem fullBufferDiscards : Obligations.FullBufferDiscards := by
  intro i f s request up busy
  rw [exec_request request, requestArrives_busy up busy]
  rfl

/-- Settles O17: no row of the kind table answers. -/
theorem unknownKindRefused : Obligations.UnknownKindRefused := by
  intro lt kind body s taking wellFormed
  have unlisted : kind.toNat ∉ requestKinds := by
    simp only [Instr.wellFormed, Bool.and_eq_true, Bool.not_eq_true', List.contains_eq_mem, decide_eq_false_iff_not]
      at wellFormed
    exact wellFormed.1
  have refuses : serve ⟨kind, lt, body⟩ = reqUnknown := serve_unknown unlisted
  exact congrArg _ (requestArrives_eq _ _ _ id s taking (congrFun refuses _))

/-- Settles O11: the reply of the request's own frame, with the flags that stand when it is made ready. -/
theorem requestAnswered : Obligations.RequestAnswered := by
  refine ⟨⟨rfl, rfl, rfl⟩, fun i f s _ request taking idle alone => ?_⟩
  obtain ⟨k, link, overrun, lost, notices⟩ :=
    taken_link (f := f) (r := (serve f (heard s)).2) (g := fun _ => (serve f (heard s)).1) (serve_handled f) idle alone
  refine ⟨_, (serve f (heard s)).2, k.noticesLost,
    (exec_request request s).trans (congrArg _ (requestArrives_taking f _ s taking)), ?_⟩
  have flag : (s.link.noticesLost || k.noticesLost) = k.noticesLost := by
    cases stands : s.link.noticesLost
    · rfl
    · rw [lost stands]
      rfl
  rw [link, flag, ← overrun]
  exact ⟨rfl, rfl, rfl, rfl, notices⟩

/-- Settles O14: the fields of the reply, and the three cases of the byte. -/
theorem statusReports : Obligations.StatusReports := by
  refine ⟨fun s => ?_, fun lt c s taking => ⟨?_, ?_, fun other => ?_⟩⟩
  · rw [statusFields_eq]
    cases s.profile <;> cases s.voyage <;> rfl
  · rintro rfl
    exact congrArg _ (requestArrives_eq _ _ _ id s taking rfl)
  · rintro rfl
    exact congrArg _ (requestArrives_eq _ _ _
      (fun s => { s with causes := { power := false, line := false, request := false } }) s taking rfl)
  · exact congrArg _ (requestArrives_eq _ _ _ id s taking (reqStatus_range other))

/-- Settles O15: RESET's own answer, and the two reports of its reply's end. -/
theorem requestResetFollowsReply : Obligations.RequestResetFollowsReply :=
  ⟨fun _ s taking => congrArg _ (requestArrives_eq _ _ _ _ s taking rfl),
    fun _ up due sending => ⟨congrArg _ (frameEnds_reset up due sending), exec_requestReset up due sending⟩⟩

/-- Settles O3: every arm answers a next state, and so does a second of an empty queue. -/
theorem everyCommandCompletes : Obligations.EveryCommandCompletes := by
  have completes (c : Instr) (s : State) : ∃ t, exec c s = .next t := by
    cases c <;> exact ⟨_, rfl⟩
  refine ⟨completes, fun s => ?_⟩
  unfold Safe step
  split
  · exact completes _ _
  · exact ⟨_, rfl⟩

end

section
/-! O18: notices and their bodies, and the end of the frame in progress. -/

namespace Sys2Proof.Machine

variable {s : State}

/-! ### The notice queue and the numbers of a body (R188, R192) -/

theorem notify_room (n : Notice) (room : s.link.notices.length < 64) :
    s.notify n = s.updLink fun k => { k with notices := k.notices ++ [n] } := by
  simp only [State.notify, State.updLink, Config.noticeCapacity, room, if_true]

theorem notify_full (n : Notice) (full : 64 ≤ s.link.notices.length) :
    s.notify n = s.updLink fun k => { k with noticesLost := true } := by
  simp only [State.notify, State.updLink, Config.noticeCapacity, Nat.not_lt.2 full, if_false]

/-- Two's complement: the number modulo the words of `n` bytes. -/
theorem beInt_eq (n : Nat) (i : Int) : beInt n i = be n (i % 2 ^ (8 * n)).toNat := by
  rw [beInt, BitVec.toNat_ofInt]
  norm_cast

/-! ### The end of the frame in progress (R186, R188; log 4) -/

/-- The link port when its frame in progress has ended and the next one has started. -/
def Link.ended (k : Link) : Link := Link.startNext { k with inProgress := none }

theorem frameEnds_ends (up : s.power = .up) (sends : s.link.inProgress ≠ none)
    (noReset : s.link.resetDue = true → s.link.sendingReply = false) (awake : s.link.quiet = false) :
    frameEnds s = takeHead (s.updLink Link.ended) := by
  have waits : ¬ s.link.resetReady = true := by
    simpa [Link.resetReady] using noReset
  have next : kick (s.updLink fun k => { k with inProgress := none }) = s.updLink Link.ended := kick_idle rfl awake
  obtain ⟨f, busy⟩ := Option.ne_none_iff_exists'.1 sends
  unfold frameEnds
  rw [up, busy]
  exact (if_neg waits).trans (congrArg takeHead next)

theorem takeHead_empty (empty : s.link.rxBuf = []) : takeHead s = s := by
  unfold takeHead
  rw [empty]

theorem takeHead_takes {f : Frame} {fs : List Frame} (head : s.link.rxBuf = f :: fs) (free : s.link.canTake = true) :
    takeHead s = kick (answer f (serve f) (s.updLink fun k => { k with rxBuf := fs })) := by
  unfold takeHead
  rw [head]
  exact if_pos free

/-- Held in reset, without supply, or with nothing in progress, no frame ends. -/
theorem frameEnds_nothing (nothing : s.power ≠ .up ∨ s.link.inProgress = none) : frameEnds s = s := by
  unfold frameEnds
  split
  · simp_all
  all_goals rfl

end Sys2Proof.Machine

open Sys2Proof Sys2Proof.Machine

/-- Settles O18: the queue, the bodies of the notices, and the three cases of a frame's end. -/
theorem frameEndStartsNext : Obligations.FrameEndStartsNext := by
  refine ⟨fun n s => ⟨notify_room n, notify_full n⟩, fun n v i o => ⟨rfl, rfl, rfl, beInt_eq n i, ?_, ?_⟩, ?_,
    ⟨rfl, rfl, rfl, rfl, rfl, rfl, rfl, rfl, rfl, rfl⟩, fun s t up sends noReset awake next => ?_⟩
  · cases o <;> rfl
  · cases o <;> rfl
  · rintro r k t l n m c p x i b d y z pm st md sm ps dm fr lm _ rfl
    exact ⟨rfl, rfl, rfl, rfl, rfl, rfl, rfl, rfl, rfl, rfl, rfl, rfl, rfl, rfl, rfl, rfl, rfl, rfl, rfl, rfl, rfl,
      rfl, rfl⟩
  · have ended : t = s.updLink Link.ended := by
      rw [next]
      unfold State.updLink
      obtain ⟨_, _, _, _ | f, _ | g, _ | _, _ | ⟨n, ns⟩, _, _, _, _, _, _⟩ := s.link <;> rfl
    have ends : exec .transmitFrameEnd s = .next (takeHead t) :=
      congrArg _ ((frameEnds_ends up sends noReset awake).trans (congrArg takeHead ended.symm))
    have buffer : t.link.rxBuf = s.link.rxBuf := by
      rw [ended]
      exact (startNext_keeps _).1
    refine ⟨fun empty => ?_, fun busy => ?_, fun f fs a head reply sent request => ?_⟩
    · rw [ends, takeHead_empty (buffer.trans empty)]
    · have held : t.link.canTake = false := by
        rw [← Bool.not_eq_true, canTake_iff, ← Bool.not_eq_true, sendingReply_iff]
        exact fun ⟨reply, unsent⟩ => busy.elim (fun waits => waits reply) unsent
      rw [ends, takeHead_busy held]
    · have free : t.link.canTake = true := by
        rw [canTake_iff, ← Bool.not_eq_true, sendingReply_iff]
        exact ⟨reply, not_exists.2 sent⟩
      rw [ends, takeHead_takes (buffer.trans head) free, request]
      rfl

end

section
/-! O9: the link port's law in three parts, and what each operation of the port and of an event does to them. -/

namespace Sys2Proof.Machine

variable {s t : State}

/-! ### The law in three parts -/

/-- What holds of the link port at every moment of an event. -/
structure Link.Sound (k : Link) : Prop where
  rx : k.rx.lawful = true
  buffer : k.rxBuf.length ≤ Config.rxCapacity
  queue : k.notices.length ≤ Config.noticeCapacity
  due : k.resetDue = true → k.canTake = false
  quiet : k.quiet = true → k.inProgress = none ∧ k.waitingReply = none

/-- A request waits in the buffer only while none may be taken (R186). -/
def Link.Held (k : Link) : Prop := k.rxBuf ≠ [] → k.canTake = false

/-- An idle line has nothing waiting for it (R188). -/
def Link.Rests (k : Link) : Prop :=
  k.inProgress = none → k.quiet = false → k.waitingReply = none ∧ k.waitingRejection = none ∧ k.notices = []

theorem linkLaw_iff : LinkLaw s ↔ s.link.Sound ∧ s.link.Held ∧ s.link.Rests :=
  ⟨fun ⟨rx, buffer, queue, held, due, quiet, rests⟩ => ⟨⟨rx, buffer, queue, due, quiet⟩, held, rests⟩,
    fun ⟨⟨rx, buffer, queue, due, quiet⟩, held, rests⟩ => ⟨rx, buffer, queue, held, due, quiet, rests⟩⟩

/-- The law speaks of the link port alone. -/
theorem LinkLaw.of_link (h : LinkLaw s) (same : t.link = s.link) : LinkLaw t := by
  unfold LinkLaw
  rw [same]
  exact h

theorem Link.Held.of_eq {k m : Link} (h : k.Held) (buffer : m.rxBuf = k.rxBuf) (take : m.canTake = k.canTake) :
    m.Held := by
  unfold Link.Held
  rw [buffer, take]
  exact h

theorem Link.Rests.of_busy {k : Link} (busy : k.inProgress ≠ none) : k.Rests := fun idle => absurd idle busy

/-- Under the law a request may not be taken only because the line is sending. -/
theorem LinkLaw.sends (h : LinkLaw s) (busy : s.link.canTake = false) : s.link.inProgress ≠ none := by
  obtain ⟨sound, -, rests⟩ := linkLaw_iff.1 h
  intro idle
  have reply : s.link.waitingReply = none := by
    cases quiet : s.link.quiet
    · exact (rests idle quiet).1
    · exact (sound.quiet quiet).2
  exact Bool.eq_false_iff.1 busy ((canTake_iff _).2 ⟨reply, sendingReply_idle idle⟩)

/-! ### The next frame on an idle line (R188, R191) -/

/-- What waits still waits or is sent, so whether a request may be taken does not change. -/
theorem startNext_canTake {k : Link} (idle : k.inProgress = none) : k.startNext.canTake = k.canTake := by
  rcases startNext_cases k with ⟨f, reply, -, e⟩ | ⟨g, -, -, e⟩ | ⟨n, ns, -, -, -, e⟩ | ⟨-, -, -, e⟩ <;> rw [e]
  · rw [canTake_of_waitingReply reply]
    rfl
  all_goals
    simp only [Link.canTake, sendingReply_idle idle]
    rfl

theorem Link.Sound.startNext {k : Link} (h : k.Sound) (idle : k.inProgress = none) (awake : k.quiet = false) :
    k.startNext.Sound ∧ k.startNext.Rests := by
  have due : k.resetDue = true → k.startNext.canTake = false := fun due => (startNext_canTake idle).trans (h.due due)
  have loud : ∀ {p : Prop}, k.quiet = true → p := fun quiet => nomatch awake.symm.trans quiet
  rcases startNext_cases k with ⟨f, -, -, e⟩ | ⟨g, -, -, e⟩ | ⟨n, ns, -, -, notices, e⟩ |
    ⟨reply, rejection, notices, e⟩ <;> rw [e] at due ⊢
  · exact ⟨⟨h.rx, h.buffer, h.queue, due, loud⟩, .of_busy nofun⟩
  · exact ⟨⟨h.rx, h.buffer, h.queue, due, loud⟩, .of_busy nofun⟩
  · have queue := h.queue
    rw [notices, List.length_cons] at queue
    exact ⟨⟨h.rx, h.buffer, Nat.le_of_succ_le queue, due, loud⟩, .of_busy nofun⟩
  · exact ⟨h, fun _ _ => ⟨reply, rejection, notices⟩⟩

/-- A sound link port rests once the next frame has started. -/
theorem kick_sound (h : s.link.Sound) : (kick s).link.Sound ∧ (kick s).link.Rests := by
  rcases kick_cases s with ⟨idle, awake, e⟩ | ⟨busy | quiet, e⟩ <;> rw [e]
  · exact h.startNext idle awake
  · exact ⟨h, .of_busy busy⟩
  · exact ⟨h, fun _ awake => nomatch awake.symm.trans quiet⟩

theorem kick_canTake (s : State) : (kick s).link.canTake = s.link.canTake := by
  rcases kick_cases s with ⟨idle, -, e⟩ | ⟨-, e⟩ <;> rw [e]
  exact startNext_canTake idle

theorem kick_rxBuf (s : State) : (kick s).link.rxBuf = s.link.rxBuf := by
  rcases kick_cases s with ⟨-, -, e⟩ | ⟨-, e⟩ <;> rw [e]
  exact (startNext_keeps s.link).1

theorem linkLaw_kick (sound : s.link.Sound) (held : s.link.Held) : LinkLaw (kick s) :=
  linkLaw_iff.2 ⟨(kick_sound sound).1, held.of_eq (kick_rxBuf s) (kick_canTake s), (kick_sound sound).2⟩

/-! ### Events -/

/-- Within an event a reply waits and is sent as before. -/
theorem Within.canTake (w : Within s t) : t.link.canTake = s.link.canTake := by
  unfold Link.canTake Link.sendingReply
  rw [w.waitingReply, w.inProgress]

theorem Within.sound (w : Within s t) (h : s.link.Sound) : t.link.Sound where
  rx := w.rx ▸ h.rx
  buffer := w.rxBuf ▸ h.buffer
  queue := w.bound h.queue
  due := by rw [w.resetDue, w.canTake]; exact h.due
  quiet := by rw [w.quiet, w.inProgress, w.waitingReply]; exact h.quiet

theorem Within.held (w : Within s t) (h : s.link.Held) : t.link.Held := h.of_eq w.rxBuf w.canTake

/-- An event whose changes to the link port are those of some operation within it. -/
theorem LinkLaw.runEvent {f : State → State} (h : LinkLaw s)
    (hf : ∀ u, ∃ v, Within u v ∧ (f u).link = v.link) : LinkLaw (runEvent f s) := by
  unfold Machine.runEvent
  split
  · obtain ⟨v, w, same⟩ := hf { s with ev := EventMarks.none }
    obtain ⟨sound, held, -⟩ := linkLaw_iff.1 h
    have whole := refresh_within (sweepIfDue_within (Within.refl (f { s with ev := EventMarks.none })))
    exact linkLaw_kick (whole.sound (same ▸ w.sound sound)) (whole.held (same ▸ w.held held))
  all_goals exact h

theorem LinkLaw.event {f : State → State} (h : LinkLaw s) (within : ∀ u, Within u (f u)) :
    LinkLaw (Machine.runEvent f s) :=
  h.runEvent fun u => ⟨f u, within u, rfl⟩

/-! ### Requests (R185, R186) -/

theorem hearFrame_sound (h : s.link.Sound) : (hearFrame s).link.Sound :=
  ⟨h.rx, h.buffer, h.queue, h.due, nofun⟩

/-- A taken request leaves its reply waiting. -/
theorem answer_sound {g : Handler} (f : Frame) (h : s.link.Sound) (awake : s.link.quiet = false)
    (handled : ∀ u, Handled u (g u).1) : (answer f g s).link.Sound ∧ (answer f g s).link.canTake = false := by
  obtain ⟨due, w⟩ := handled_end (handled { s with ev := EventMarks.none })
  have busy : (answer f g s).link.canTake = false := canTake_of_waitingReply rfl
  have loud : (answer f g s).link.quiet = false := w.quiet.trans awake
  exact ⟨⟨(congrArg Rx.lawful w.rx).trans h.rx, Nat.le_trans (Nat.le_of_eq (congrArg List.length w.rxBuf)) h.buffer, w.bound h.queue,
    fun _ => busy, fun quiet => nomatch loud.symm.trans quiet⟩, busy⟩

/-- A request taken, and the next frame. -/
theorem linkLaw_answer {g : Handler} (f : Frame) (h : s.link.Sound) (awake : s.link.quiet = false)
    (handled : ∀ u, Handled u (g u).1) : LinkLaw (kick (answer f g s)) :=
  have ⟨sound, busy⟩ := answer_sound f h awake handled
  linkLaw_kick sound fun _ => busy

/-- The buffer's head is taken when it may be, which is all that the law asks of the buffer. -/
theorem linkLaw_takeHead (h : s.link.Sound) (rests : s.link.Rests) (awake : s.link.quiet = false) :
    LinkLaw (takeHead s) := by
  cases buffer : s.link.rxBuf with
  | nil =>
    rw [takeHead_empty buffer]
    exact linkLaw_iff.2 ⟨h, fun waits => absurd buffer waits, rests⟩
  | cons f fs =>
    cases free : s.link.canTake with
    | true =>
      have room := h.buffer
      rw [buffer, List.length_cons] at room
      rw [takeHead_takes buffer free]
      exact linkLaw_answer f ⟨h.rx, Nat.le_of_succ_le room, h.queue, h.due, h.quiet⟩ awake fun _ => serve_handled f
    | false =>
      rw [takeHead_busy free]
      exact linkLaw_iff.2 ⟨h, fun _ => free, rests⟩

theorem bufferFrame_sound (f : Frame) (h : s.link.Sound) : (bufferFrame f s).link.Sound := by
  rcases bufferFrame_cases f s with ⟨room, e⟩ | ⟨-, e⟩ <;> rw [e]
  · have grown : (s.link.rxBuf ++ [f]).length ≤ 4 := by
      rw [List.length_append]
      exact room
    exact ⟨h.rx, grown, h.queue, h.due, h.quiet⟩
  · exact ⟨h.rx, h.buffer, h.queue, h.due, h.quiet⟩

theorem LinkLaw.requestArrives {g : Handler} (h : LinkLaw s) (f : Frame) (handled : ∀ u, Handled u (g u).1) :
    LinkLaw (requestArrives f g s) := by
  obtain ⟨sound, held, -⟩ := linkLaw_iff.1 h
  by_cases up : s.power = .up
  case neg => rwa [requestArrives_down _ _ _ up]
  case pos =>
    cases free : s.link.canTake with
    | true =>
      have empty : s.link.rxBuf = [] := Classical.not_not.1 fun waits => nomatch (held waits).symm.trans free
      have takes : Machine.requestArrives f g s = kick (answer f g (hearFrame s)) :=
        requestArrives_taking f g s ⟨up, empty, free⟩
      rw [takes]
      exact linkLaw_answer f (hearFrame_sound sound) rfl handled
    | false =>
      rw [requestArrives_busy up free]
      have busy : (bufferFrame f (hearFrame s)).link.canTake = false := (bufferFrame_sends f _).1.trans free
      have sends : (bufferFrame f (hearFrame s)).link.inProgress ≠ none := by
        rw [(bufferFrame_sends f _).2]
        exact h.sends free
      exact linkLaw_iff.2 ⟨bufferFrame_sound f (hearFrame_sound sound), fun _ => busy, .of_busy sends⟩

/-! ### The receiver (R184) -/

theorem LinkLaw.setRx {r : Rx} (h : LinkLaw s) (lawful : r.lawful = true) : LinkLaw (setRx r s) :=
  ⟨lawful, h.2⟩

theorem LinkLaw.reject (h : LinkLaw s) (r : Result) : LinkLaw (kick (reject r s)) := by
  obtain ⟨sound, held, -⟩ := linkLaw_iff.1 h
  cases waits : s.link.waitingRejection with
  | some f =>
    rw [reject_waits waits]
    exact linkLaw_kick sound held
  | none =>
    rw [reject_free waits]
    exact linkLaw_kick ⟨sound.rx, sound.buffer, sound.queue, sound.due, sound.quiet⟩ held

theorem LinkLaw.frameComplete (h : LinkLaw s) (len : Nat) (got : List Byte) : LinkLaw (frameComplete len got s) := by
  unfold Machine.frameComplete
  dsimp only
  split
  · split
    · exact h.requestArrives _ fun _ => serve_handled _
    · exact h
  · exact h.reject .check

theorem LinkLaw.rxByte (h : LinkLaw s) (b : Byte) : LinkLaw (rxByte s b) := by
  cases rx : s.link.rx with
  | hunt =>
    by_cases start : b = 0xC3#8
    · rw [start, rxByte_start rx]
      exact h.setRx rfl
    · rwa [rxByte_noise rx start]
  | length =>
    rw [rxByte_length rx]
    split
    · rename_i bounds
      exact h.setRx (by simp [Rx.lawful, bounds])
    · exact (h.setRx rfl).reject .rejLength
  | data len got =>
    have lawful := (linkLaw_iff.1 h).1.rx
    rw [rx] at lawful
    simp only [Rx.lawful, Bool.and_eq_true, decide_eq_true_eq] at lawful
    rw [rxByte_data rx]
    split
    · exact (h.setRx rfl).frameComplete _ _
    · exact h.setRx (by simp [Rx.lawful, lawful.1]; omega)

theorem LinkLaw.rxBytes (h : LinkLaw s) (bs : List Byte) : LinkLaw (rxBytes bs s) := by
  by_cases up : s.power = .up
  · rw [rxBytes_up up]
    exact List.foldlRecOn bs _ h fun _ law b _ => law.rxByte b
  · rwa [rxBytes_down up]

theorem LinkLaw.dropPartial (h : LinkLaw s) : LinkLaw (dropPartial s) := by
  unfold Machine.dropPartial
  split
  · exact h.setRx rfl
  all_goals exact h

/-! ### Resets, the supply and the end of a frame (R188, R190, R191) -/

theorem refresh_link (s : State) : (refresh s).link = s.link := by
  unfold refresh
  split <;> rfl

/-- A reset leaves a port with nothing on it. -/
theorem linkLaw_resetNow (k : ResetCause) (s : State) : LinkLaw (resetNow k s) := by
  have link : (resetNow k s).link = Link.cleared := (resetNow_registers k s).2.1
  unfold LinkLaw
  rw [link]
  decide

/-- A frame that is not the RESET reply ends: the port is as before, with its next frame. -/
theorem Link.Sound.ended {k : Link} (h : k.Sound) (awake : k.quiet = false)
    (noReset : k.resetDue = true → k.sendingReply = false) : k.ended.Sound ∧ k.ended.Rests := by
  have loud : ∀ {p : Prop}, k.quiet = true → p := fun quiet => nomatch awake.symm.trans quiet
  refine Link.Sound.startNext ⟨h.rx, h.buffer, h.queue, fun due => ?_, loud⟩ rfl awake
  have busy := h.due due
  rw [← Bool.not_eq_true, canTake_iff] at busy ⊢
  exact fun free => busy ⟨free.1, noReset due⟩

theorem LinkLaw.frameEnds (h : LinkLaw s) : LinkLaw (frameEnds s) := by
  obtain ⟨sound, -, -⟩ := linkLaw_iff.1 h
  by_cases nothing : s.power ≠ .up ∨ s.link.inProgress = none
  case pos => rwa [frameEnds_nothing nothing]
  case neg =>
    obtain ⟨up, sends⟩ := not_or.1 nothing
    by_cases reset : s.link.resetDue = true ∧ s.link.sendingReply = true
    · rw [frameEnds_reset (Classical.not_not.1 up) reset.1 reset.2]
      exact linkLaw_resetNow _ s
    · have noReset : s.link.resetDue = true → s.link.sendingReply = false := by simpa using reset
      have awake : s.link.quiet = false := Bool.eq_false_iff.2 fun quiet => sends (sound.quiet quiet).1
      obtain ⟨ended, rests⟩ := sound.ended awake noReset
      rw [frameEnds_ends (Classical.not_not.1 up) sends noReset awake]
      exact linkLaw_takeHead ended rests ((startNext_keeps _).2.trans awake)

/-! ### The clock (log 9) -/

section
variable {P : State → Prop}
  (event : ∀ {f : State → State}, (∀ u, Within u (f u)) → ∀ s, P s → P (runEvent f s))
include event

/-- What every event keeps, a timer that may have run out keeps. -/
theorem fire_keeps (due : State → Bool) {f : State → State} (within : ∀ u, Within u (f u)) (h : P s) :
    P (fire due f s) := by
  unfold fire
  split
  · exact event within s h
  · exact h

theorem fires_keep {α : Type} (due : α → State → Bool) (f : α → State → State) (within : ∀ a u, Within u (f a u))
    (as : List α) (h : P s) : P (as.foldl (fun u a => fire (due a) (f a) u) s) :=
  List.foldlRecOn as _ h fun _ law a _ => fire_keeps event (due a) (within a) law

/-- What every event keeps, the timers that run out in one second keep. -/
theorem fireAll_keeps (h : P s) : P (fireAll s) := by
  have silence := fire_keeps event (fun s => s.link.silence.due) silenceExpires_within h
  have stalls := fires_keep event (fun r s => (s.ramp r).stall.due) stallExpires
    (fun r u => stallExpires_within (.refl u) r) [Ramp.lower, Ramp.upper] silence
  have crests := fires_keep event (fun r s => (s.ramp r).crestWindow.due) crestWindowExpires
    (fun r u => crestWindowExpires_within (.refl u) r) [Ramp.lower, Ramp.upper] stalls
  have entries := fun ls => fires_keep event (fun l s => s.laneDue Lane.entryWindow l) entryWindowExpires
    (fun l u => entryWindowExpires_within (.refl u) l) ls crests
  have exits := fun ls ms => fires_keep event (fun l s => s.laneDue Lane.exitWindow l) exitWindowExpires
    (fun l u => exitWindowExpires_within (.refl u) l) ms (entries ls)
  have transits := fun ls ms ts => fires_keep event (fun t s => (s.veh? t).any fun v => v.transit.due) transitExpires
    (fun t u => transitExpires_within (.refl u) t) ts (exits ls ms)
  exact fires_keep event (fun p s => (s.panel? p).any fun x => x.timer.due) moveExpires
    (fun p u => moveExpires_within (.refl u) p) _ (transits _ _ _)

end

theorem LinkLaw.tick (h : LinkLaw s) : LinkLaw (tick s) := by
  have counted : LinkLaw (countDown s) := h
  unfold Machine.tick
  split
  · exact fireAll_keeps (P := LinkLaw) (fun within _ law => law.event within) counted
  all_goals exact h

/-! ### Commands -/

/-- A command that brings about an event: the line's level, then the event where it has one. -/
theorem LinkLaw.eventIf {c : Bool} {f : State → State} {p : Pins} (h : LinkLaw s)
    (hf : ∀ u, ∃ v, Within u v ∧ (f u).link = v.link) (e : eventIf c f { s with pins := p } = .next t) :
    LinkLaw t := by
  have law : LinkLaw { s with pins := p } := h
  cases e
  split
  · exact law.runEvent hf
  · exact law

theorem LinkLaw.eventIf_within {c : Bool} {f : State → State} {p : Pins} (h : LinkLaw s)
    (within : ∀ u, Within u (f u)) (e : Machine.eventIf c f { s with pins := p } = .next t) : LinkLaw t :=
  h.eventIf (fun u => ⟨f u, within u, rfl⟩) e

/-- The end of the writing, well or not, is told to the terminal and is nothing else to the link port (R180, R181). -/
theorem commit_link (s : State) :
    (commitCompletes s).link =
      (s.notify (.profileDone (nextGeneration s.store.generation) s.draft.length)).link ∧
    ∀ type index, (commitFails type index s).link = (s.notify (.profileFailed type index)).link :=
  ⟨rfl, fun _ _ => rfl⟩

theorem LinkLaw.powerOnReset (e : execPowerOnReset s = .next t) : LinkLaw t := by
  cases e
  split
  · exact (linkLaw_resetNow .power s).of_link (refresh_link _)
  · exact linkLaw_resetNow .power s

theorem LinkLaw.lineResetAssert (h : LinkLaw s) (e : execLineResetAssert s = .next t) : LinkLaw t := by
  cases e
  split
  · exact h.of_link (refresh_link _)
  all_goals exact h

theorem LinkLaw.lineResetRelease (h : LinkLaw s) (e : execLineResetRelease s = .next t) : LinkLaw t := by
  cases e
  split
  · exact linkLaw_resetNow .line _
  all_goals exact h

theorem LinkLaw.requestReset (h : LinkLaw s) (e : execRequestReset s = .next t) : LinkLaw t := by
  cases e
  split
  · split
    · exact linkLaw_resetNow .request s
    · exact h
  all_goals exact h

/-- An event command, one that stands for no request's frame. -/
theorem LinkLaw.event_exec {i : Instr} (h : LinkLaw s) (event : i.request? = none) (e : exec i s = .next t) :
    LinkLaw t := by
  cases i
  case frameReceive bytes => cases e; exact h.rxBytes bytes
  case interByteGap => cases e; exact h.dropPartial
  case badStopBitByte => cases e; exact h.dropPartial
  case transmitFrameEnd => cases e; exact h.frameEnds
  case powerOnReset => exact .powerOnReset e
  case lineResetAssert => exact h.lineResetAssert e
  case lineResetRelease => exact h.lineResetRelease e
  case requestReset => exact h.requestReset e
  case stowMarkBroken => cases e; exact h
  case mainSupplyLoss => cases e; exact h.of_link (refresh_link _)
  case triggerLineRelease line => cases e; exact h
  case triggerLinePress line => exact h.eventIf_within (fun u => pressLine_within (.refl u) line) e
  case crestLoopEdge r high => exact h.eventIf_within (fun u => crestLine_within (.refl u) r high) e
  case laneLoopEdge l high => exact h.eventIf_within (fun u => laneLine_within (.refl u) l high) e
  case limitLineEvent p line a => exact h.eventIf_within (fun u => limitEvent_within (.refl u) p line a) e
  case stallTimerExpiry r => exact h.eventIf_within (fun u => stallExpires_within (.refl u) r) e
  case linkSilenceExpiry => exact h.eventIf_within silenceExpires_within e
  case entryCreditWindowExpiry l => exact h.eventIf_within (fun u => entryWindowExpires_within (.refl u) l) e
  case crestCreditWindowExpiry r => exact h.eventIf_within (fun u => crestWindowExpires_within (.refl u) r) e
  case exitCreditWindowExpiry l => exact h.eventIf_within (fun u => exitWindowExpires_within (.refl u) l) e
  case transitExpiry tag => exact h.eventIf_within (fun u => transitExpires_within (.refl u) tag) e
  case moveTimeout p => exact h.eventIf_within (fun u => moveExpires_within (.refl u) p) e
  case profileWriteComplete => exact h.eventIf (fun u => ⟨_, (Within.refl u).notify _, (commit_link u).1⟩) e
  case profileWriteFailure ty i =>
    exact h.eventIf (fun u => ⟨_, (Within.refl u).notify _, (commit_link u).2 ty i⟩) e
  all_goals cases event

theorem LinkLaw.exec {i : Instr} (h : LinkLaw s) (e : exec i s = .next t) : LinkLaw t := by
  cases request : i.request? with
  | none => exact h.event_exec request e
  | some f =>
    rw [exec_request request] at e
    cases e
    exact h.requestArrives f fun _ => serve_handled f

end Sys2Proof.Machine

open Sys2Proof Sys2Proof.Machine

/-- Settles O9: the command at the front of the queue, or a second of every timer. -/
theorem linkLawKept : Obligations.LinkLawKept := by
  intro s t h e
  unfold step at e
  split at e
  · rename_i c cs _
    exact LinkLaw.exec (s := { s with pending := cs }) h e
  · cases e
    exact h.tick

end

section
/-! O1, O2 and O4: a step by the queue, a second in which no timer runs out, and the queue through every command. -/

namespace Sys2Proof.Machine

variable {s t : State}

/-! ### A step by the queue (log 9) -/

theorem step_front {c : Instr} {cs : List Instr} (front : s.pending = c :: cs) :
    step s = exec c { s with pending := cs } := by
  unfold step
  rw [front]

theorem step_empty (empty : s.pending = []) : step s = .next (tick s) := by
  unfold step
  rw [empty]

theorem tick_up (up : s.power = .up) : tick s = fireAll (countDown s) := by
  unfold tick
  rw [up]

theorem tick_down (down : s.power ≠ .up) : tick s = s := by
  unfold tick
  split
  · exact absurd ‹_› down
  all_goals rfl

/-! ### No timer runs out -/

theorem fire_idle {due : State → Bool} (f : State → State) (idle : due s = false) : fire due f s = s := by
  unfold fire
  rw [idle, if_neg Bool.false_ne_true]

theorem fires_idle {α : Type} {due : α → State → Bool} (f : α → State → State) (idle : ∀ a, due a s = false)
    (as : List α) : as.foldl (fun u a => fire (due a) (f a) u) s = s := by
  induction as with
  | nil => rfl
  | cons a as ih => rw [List.foldl_cons, fire_idle (f a) (idle a), ih]

/-- A timer that no record has due is due at no name. -/
theorem any_due_false {α : Type} {timer : α → Timer} {found : Option α} {as : List α}
    (idle : ∀ a ∈ as, (timer a).due = false) (mem : ∀ a, found = some a → a ∈ as) :
    (found.any fun a => (timer a).due) = false := by
  cases found with
  | none => rfl
  | some a => exact idle a (mem a rfl)

/-- With no timer run out the expiries of a second change nothing. -/
theorem fireAll_countDown (idle : NothingDue s) : fireAll (countDown s) = countDown s := by
  obtain ⟨silence, lowerStall, upperStall, lowerCrest, upperCrest, lanes, vehicles, panels⟩ := idle
  have laneIdle {timer : Lane → Timer} (h : ∀ x ∈ (countDown s).lanes, (timer x).due = false) (l : Nat) :
      (countDown s).laneDue timer l = false := any_due_false h fun _ => List.mem_of_getElem?
  unfold fireAll
  dsimp only
  rw [fire_idle _ silence,
    fires_idle (due := fun r u => (u.ramp r).stall.due) stallExpires fun | .lower => lowerStall | .upper => upperStall,
    fires_idle (due := fun r u => (u.ramp r).crestWindow.due) crestWindowExpires
      fun | .lower => lowerCrest | .upper => upperCrest,
    fires_idle (due := fun l u => u.laneDue Lane.entryWindow l) entryWindowExpires
      (laneIdle fun x hx => (lanes x hx).1),
    fires_idle (due := fun l u => u.laneDue Lane.exitWindow l) exitWindowExpires
      (laneIdle fun x hx => (lanes x hx).2),
    fires_idle (due := fun tag u => (u.veh? tag).any fun v => v.transit.due) transitExpires
      fun _ => any_due_false vehicles fun _ => veh?_mem,
    fires_idle (due := fun p u => (u.panel? p).any fun x => x.timer.due) moveExpires
      fun _ => any_due_false panels fun _ => List.mem_of_getElem?]

/-! ### The queue through the parts of a command -/

theorem kick_pending (s : State) : (kick s).pending = s.pending := by rw [kick_eq]

theorem refresh_pending (s : State) : (refresh s).pending = s.pending := (refresh_within (.refl s)).pending

theorem Changed.pending (c : Changed s t) : t.pending = s.pending := by
  cases c with
  | handled h =>
    obtain ⟨_, within⟩ := h
    exact within.pending
  | completed => rfl
  | failed => rfl

/-- An event with the sweep and the outputs that close it. -/
theorem Changed.end_pending (c : Changed { s with ev := EventMarks.none } t) :
    (refresh (sweepIfDue t)).pending = s.pending :=
  (refresh_within (sweepIfDue_within (.refl t))).pending.trans c.pending

theorem runEvent_pending {f : State → State} (changes : ∀ u, Changed u (f u)) (s : State) :
    (runEvent f s).pending = s.pending := by
  unfold runEvent
  split
  · exact (kick_pending _).trans (changes _).end_pending
  all_goals rfl

theorem remodel_pending (s : State) : (remodel s).pending = s.pending := by
  unfold remodel
  split <;> rfl

theorem resetNow_pending (k : ResetCause) (s : State) : (resetNow k s).pending = s.pending := by
  rw [resetNow_stowed]
  refine (remodel_pending _).trans ?_
  unfold stowed
  split <;> rfl

/-! ### The queue through the link port -/

theorem answer_pending {h : Handler} (handled : ∀ u, Handled u (h u).1) (f : Frame) (s : State) :
    (answer f h s).pending = s.pending :=
  Changed.end_pending (.handled (handled { s with ev := EventMarks.none }))

theorem takeHead_pending (s : State) : (takeHead s).pending = s.pending := by
  unfold takeHead
  split
  · rfl
  · split
    · exact (kick_pending _).trans (answer_pending (fun _ => serve_handled _) _ _)
    · rfl

theorem requestArrives_pending {h : Handler} (handled : ∀ u, Handled u (h u).1) (f : Frame) (s : State) :
    (requestArrives f h s).pending = s.pending := by
  unfold requestArrives
  split
  · dsimp only
    split
    · exact (kick_pending _).trans (answer_pending handled f _)
    · exact takeHead_pending _
  all_goals rfl

theorem frameComplete_pending (len : Nat) (got : List Byte) (s : State) :
    (frameComplete len got s).pending = s.pending := by
  unfold frameComplete
  dsimp only
  split
  · split
    · exact requestArrives_pending (fun _ => serve_handled _) _ s
    · rfl
  · exact kick_pending _

theorem rxByte_pending (s : State) (b : Byte) : (rxByte s b).pending = s.pending := by
  cases rx : s.link.rx with
  | hunt =>
    by_cases start : b = 0xC3#8
    · rw [start, rxByte_start rx]
      rfl
    · rw [rxByte_noise rx start]
  | length =>
    rw [rxByte_length rx]
    split
    · rfl
    · exact kick_pending _
  | data len got =>
    rw [rxByte_data rx]
    split
    · exact frameComplete_pending _ _ _
    · rfl

theorem rxBytes_pending (bytes : List Byte) (s : State) : (rxBytes bytes s).pending = s.pending := by
  unfold rxBytes
  split
  · exact List.foldlRecOn (motive := fun u => u.pending = s.pending) bytes rxByte rfl fun u same b _ =>
      (rxByte_pending u b).trans same
  all_goals rfl

theorem dropPartial_pending (s : State) : (dropPartial s).pending = s.pending := by
  unfold dropPartial
  split <;> rfl

theorem frameEnds_pending (s : State) : (frameEnds s).pending = s.pending := by
  unfold frameEnds
  split
  · split
    · exact resetNow_pending _ s
    · exact (takeHead_pending _).trans (kick_pending _)
  all_goals rfl

/-! ### The queue through a command -/

theorem powerOnReset_pending (e : execPowerOnReset s = .next t) : t.pending = s.pending := by
  cases e
  split
  · exact (refresh_pending _).trans (resetNow_pending .power s)
  · exact resetNow_pending .power s

theorem lineResetAssert_pending (e : execLineResetAssert s = .next t) : t.pending = s.pending := by
  cases e
  split
  · exact refresh_pending _
  all_goals rfl

theorem lineResetRelease_pending (e : execLineResetRelease s = .next t) : t.pending = s.pending := by
  cases e
  split
  · exact resetNow_pending .line _
  all_goals rfl

theorem requestReset_pending (e : execRequestReset s = .next t) : t.pending = s.pending := by
  cases e
  split
  · split
    · exact resetNow_pending .request s
    · rfl
  all_goals rfl

/-- A command of a line or of an expiry: the line's level, then the event where it has one. -/
theorem eventIf_pending {c : Bool} {f : State → State} {p : Pins} (changes : ∀ u, Changed u (f u))
    (e : eventIf c f { s with pins := p } = .next t) : t.pending = s.pending := by
  cases e
  split
  · exact runEvent_pending changes _
  · rfl

/-- An event command, one that stands for no request's frame. -/
theorem event_exec_pending {i : Instr} (event : i.request? = none) (e : exec i s = .next t) :
    t.pending = s.pending := by
  cases i
  case frameReceive bytes => cases e; exact rxBytes_pending bytes s
  case interByteGap => cases e; exact dropPartial_pending s
  case badStopBitByte => cases e; exact dropPartial_pending s
  case transmitFrameEnd => cases e; exact frameEnds_pending s
  case powerOnReset => exact powerOnReset_pending e
  case lineResetAssert => exact lineResetAssert_pending e
  case lineResetRelease => exact lineResetRelease_pending e
  case requestReset => exact requestReset_pending e
  case stowMarkBroken => cases e; rfl
  case mainSupplyLoss => cases e; exact refresh_pending _
  case triggerLineRelease line => cases e; rfl
  case triggerLinePress line => exact eventIf_pending (.of_within fun u => pressLine_within (.refl u) line) e
  case crestLoopEdge r high => exact eventIf_pending (.of_within fun u => crestLine_within (.refl u) r high) e
  case laneLoopEdge l high => exact eventIf_pending (.of_within fun u => laneLine_within (.refl u) l high) e
  case limitLineEvent p line a => exact eventIf_pending (.of_within fun u => limitEvent_within (.refl u) p line a) e
  case stallTimerExpiry r => exact eventIf_pending (.of_within fun u => stallExpires_within (.refl u) r) e
  case linkSilenceExpiry => exact eventIf_pending (.of_within silenceExpires_within) e
  case entryCreditWindowExpiry l => exact eventIf_pending (.of_within fun u => entryWindowExpires_within (.refl u) l) e
  case crestCreditWindowExpiry r => exact eventIf_pending (.of_within fun u => crestWindowExpires_within (.refl u) r) e
  case exitCreditWindowExpiry l => exact eventIf_pending (.of_within fun u => exitWindowExpires_within (.refl u) l) e
  case transitExpiry tag => exact eventIf_pending (.of_within fun u => transitExpires_within (.refl u) tag) e
  case moveTimeout p => exact eventIf_pending (.of_within fun u => moveExpires_within (.refl u) p) e
  case profileWriteComplete => exact eventIf_pending (fun _ => .completed) e
  case profileWriteFailure type index => exact eventIf_pending (fun _ => .failed type index) e
  all_goals cases event

theorem exec_pending {i : Instr} (e : exec i s = .next t) : t.pending = s.pending := by
  cases request : i.request? with
  | none => exact event_exec_pending request e
  | some f =>
    rw [exec_request request] at e
    cases e
    exact requestArrives_pending (fun _ => serve_handled f) f s

end Sys2Proof.Machine

open Sys2Proof Sys2Proof.Machine

/-- Settles O1: the front of the queue decides the step. -/
theorem stepRunsFront : Obligations.StepRunsFront := fun _ _ _ front => step_front front

/-- Settles O2: a running module counts down and no expiry follows; any other module has no second. -/
theorem emptyQueueIsOneSecond : Obligations.EmptyQueueIsOneSecond := by
  refine fun s empty => ⟨fun up idle => ?_, fun down => ?_⟩
  · rw [step_empty empty, tick_up up, fireAll_countDown idle]
  · rw [step_empty empty, tick_down down]

/-- Settles O4: a request command by its frame's arrival, an event command by what its event is. -/
theorem execKeepsQueue : Obligations.ExecKeepsQueue := fun _ _ _ e => exec_pending e

end
